-- ==== Sys2Proof/Word.lean ====
section
/-! DEFINITION. The widths the spec fixes (00_scope.md R6: XLEN = 32; bytes of the streams are 8 bits). -/

namespace Sys2Proof

/-- One byte of a stream, plane or palette index (20_memory.md R80). -/
abbrev Byte := BitVec 8

/-- One host register, pixel word or i32 datapath value (00_scope.md R6, R9: XLEN = 32). -/
abbrev Word := BitVec 32

end Sys2Proof
end

