-- ==== Sys2Proof/Config.lean ====
section
/-! DEFINITION. What an implementation fixes: the six OPEN capacities of 00_scope.md R6 and
92_eei_decisions.md section 1, and the fixed sizes of R6. Nothing else of SK-CORE is left to the
implementation (93_implementation_defined.md, end of part 1), so there is no free value here. -/

namespace Sys2Proof.Config

/-- The OPEN parameters of 00_scope.md R6, as data: "the model takes each as an argument"
(92_eei_decisions.md section 1). State carries them, so every statement about every state holds for every
choice of them. -/
structure Capacities where
  /-- IN_CAP, bytes of the input stream memory. -/
  inCap : Nat
  /-- OUT_CAP, bytes of the output stream memory. -/
  outCap : Nat
  /-- PIX_CAP, pixels of PIX, IDX, CANVAS and SNAP each. -/
  pixCap : Nat
  /-- PLANE_CAP, bytes of each plane memory. -/
  planeCap : Nat
  /-- COEF_CAP, entries of each coefficient memory. -/
  coefCap : Nat
  /-- OCT_NODE_CAP, octree nodes alive at once. -/
  octNodeCap : Nat
  deriving DecidableEq, Repr

/-- The constraints of 92_eei_decisions.md section 1. The two upper bounds are what 32-bit IN_LEN and OUT_LEN
registers can hold (10_state.md R22, R32, R33). -/
abbrev Capacities.legal (c : Capacities) : Prop :=
  1 ≤ c.inCap ∧ c.inCap < 2 ^ 32 ∧ 1 ≤ c.outCap ∧ c.outCap < 2 ^ 32 ∧ 1 ≤ c.pixCap ∧
    64 ≤ c.planeCap ∧ 64 ≤ c.coefCap ∧ 9 ≤ c.octNodeCap

/-- DESIGN CHOICE (log 2), unsafe: the capacities State.reset carries, as large as a 32-bit register or index
can reach, so that CapacityExceeded never fires: "A model may take every OPEN capacity as unbounded"
(00_scope.md R6). -/
def unbounded : Capacities where
  inCap := 0xFFFFFFFF
  outCap := 0xFFFFFFFF
  pixCap := 0x100000000
  planeCap := 0x100000000
  coefCap := 0x100000000
  octNodeCap := 0x100000000

/-- TMP_CAP of 00_scope.md R6. -/
def tmpCap : Nat := 65536

end Sys2Proof.Config
end

