-- ==== Sys2Proof/Machine/State.lean ====
section
/-! DEFINITION. Every piece of state of SK-CORE (10_state.md R20 to R76, 20_memory.md R80 to R83) as plain data,
and the machine right after reset (70_reset_and_hazards.md R540). The host's pending accesses stand in the
state too (log 1). Field names follow the register names of 10_state.md R22. -/

namespace Sys2Proof.Machine

/-! ## Memory spaces -/

/-- One memory space (20_memory.md R80): the elements that differ from 0, by index. An unlisted element reads 0,
which is the reset content of every space (10_state.md R76). -/
abbrev Cells (w : Nat) := List (Nat × BitVec w)

/-- The canonical form: indices strictly rising, no entry equal to what an unlisted element reads as. -/
abbrev Cells.wf {w : Nat} (c : Cells w) : Prop :=
  c.Pairwise (fun a b => a.1 < b.1) ∧ ∀ p ∈ c, p.2 ≠ 0

/-- The memory spaces of 20_memory.md R80. HTAB (space 6) is a view of the Huffman table store and holds nothing
of its own (R83). -/
structure Memory where
  /-- Space 0, R81. -/
  inp : Cells 8
  /-- Space 1, R82. -/
  out : Cells 8
  /-- Space 2, 10_state.md R38. -/
  blk : Cells 32
  /-- Space 3, R39. -/
  zz : Cells 32
  /-- Space 4, R40: `QT[s][k]` at `64*s + k`. -/
  qt : Cells 16
  /-- Space 5, R43. -/
  hspec : Cells 8
  /-- Space 7, R55. -/
  pix : Cells 32
  /-- Space 8, R56. -/
  idx : Cells 8
  /-- Space 9, R57. -/
  pal : Cells 32
  /-- Spaces 10 to 13, R50. -/
  plane : Vector (Cells 8) 4
  /-- Spaces 14 to 17, R51. -/
  coef : Vector (Cells 32) 4
  /-- Space 18, R70. -/
  canvas : Cells 32
  /-- Space 19, R70. -/
  snap : Cells 32
  /-- Space 20, R67. -/
  gct : Cells 32
  /-- Space 21, R67. -/
  lct : Cells 32
  /-- Space 22, R52. -/
  tmp : Cells 8
  deriving DecidableEq, Repr

/-- All spaces at their reset content (R76). -/
def Memory.empty : Memory where
  inp := []
  out := []
  blk := []
  zz := []
  qt := []
  hspec := []
  pix := []
  idx := []
  pal := []
  plane := Vector.replicate 4 []
  coef := Vector.replicate 4 []
  canvas := []
  snap := []
  gct := []
  lct := []
  tmp := []

/-- Every space is in its canonical form. -/
abbrev Memory.wf (m : Memory) : Prop :=
  m.inp.wf ∧ m.out.wf ∧ m.blk.wf ∧ m.zz.wf ∧ m.qt.wf ∧ m.hspec.wf ∧ m.pix.wf ∧ m.idx.wf ∧ m.pal.wf ∧
    (∀ i : Fin 4, m.plane[i].wf) ∧ (∀ i : Fin 4, m.coef[i].wf) ∧
    m.canvas.wf ∧ m.snap.wf ∧ m.gct.wf ∧ m.lct.wf ∧ m.tmp.wf

/-! ## Status -/

/-- STATUS (10_state.md R24) without BUSY, which always reads 0. -/
structure Status where
  done : Bool
  fault : Bool
  frame : Bool
  trunc : Bool
  refused : Bool
  deriving DecidableEq, Repr

/-- STATUS = 0. -/
def Status.zero : Status := ⟨false, false, false, false, false⟩

/-! ## Huffman tables -/

/-- One table of the store HT (10_state.md R42). Index `l - 1` of an array of 16 is length `l`; `none` in
`maxCode` is the value −1, the only one outside 0..65535. -/
structure HuffTable where
  total : Fin 257
  counts : Vector Byte 16
  values : Vector Byte 256
  minCode : Vector (BitVec 17) 16
  maxCode : Vector (Option (BitVec 16)) 16
  valueIndex : Vector (Fin 257) 16
  lut : Vector (BitVec 16) 256
  ehufco : Vector (BitVec 16) 256
  ehufsi : Vector (Fin 17) 256
  deriving DecidableEq, Repr

/-- A table right after reset: every field 0, `maxCode` all −1 (R42). -/
def HuffTable.unbuilt : HuffTable where
  total := 0
  counts := Vector.replicate 16 0
  values := Vector.replicate 256 0
  minCode := Vector.replicate 16 0
  maxCode := Vector.replicate 16 none
  valueIndex := Vector.replicate 16 0
  lut := Vector.replicate 256 0
  ehufco := Vector.replicate 256 0
  ehufsi := Vector.replicate 256 0

/-! ## JPEG decoder context -/

/-- J_STATE[2:0] (10_state.md R44). -/
inductive JpgState where
  | awaitHeader
  | haveFrameHeader
  | scanning
  | done
  | failed
  deriving DecidableEq, Repr

/-- J_COMPi (R46). -/
structure Comp where
  id : Byte
  h : BitVec 4
  v : BitVec 4
  tq : BitVec 2
  td : BitVec 2
  ta : BitVec 2
  deriving DecidableEq, Repr

/-- J_COMPi = 0. -/
def Comp.zero : Comp := ⟨0, 0, 0, 0, 0, 0⟩

/-- The JPEG registers J_* (R44 to R49). -/
structure JpegCtx where
  /-- J_STATE[2:0]. -/
  state : JpgState
  /-- J_STATE[4]. -/
  soiSeen : Bool
  /-- J_DIM[15:0]. -/
  width : BitVec 16
  /-- J_DIM[31:16]. -/
  height : BitVec 16
  /-- J_FRAME[2:0]. -/
  ncomp : BitVec 3
  /-- J_FRAME[6:4]. -/
  hmax : BitVec 3
  /-- J_FRAME[10:8]. -/
  vmax : BitVec 3
  /-- J_FRAME[12]. -/
  progressive : Bool
  /-- J_FRAME[13]. -/
  adobeValid : Bool
  /-- J_FRAME[23:16]. -/
  adobeTransform : Byte
  /-- J_MCU[15:0]. -/
  mxx : BitVec 16
  /-- J_MCU[31:16]. -/
  myy : BitVec 16
  /-- J_RI (R47). -/
  ri : BitVec 16
  /-- J_RSTN (R47). -/
  rstn : BitVec 3
  /-- J_EOBRUN (R48). -/
  eobrun : BitVec 16
  /-- J_SCAN[7:0] (R49). -/
  ss : Byte
  /-- J_SCAN[15:8]. -/
  se : Byte
  /-- J_SCAN[19:16]. -/
  ah : BitVec 4
  /-- J_SCAN[23:20]. -/
  al : BitVec 4
  /-- J_SCAN[26:24]. -/
  ns : BitVec 3
  /-- J_COMP0 to J_COMP3 (R46). -/
  comp : Vector Comp 4
  /-- J_DCPRED0 to J_DCPRED3 (R48). -/
  dcpred : Vector Word 4
  deriving DecidableEq, Repr

/-- Every J_* register 0: "AwaitHeader" (44_jpeg_decode.md R270). -/
def JpegCtx.init : JpegCtx where
  state := .awaitHeader
  soiSeen := false
  width := 0
  height := 0
  ncomp := 0
  hmax := 0
  vmax := 0
  progressive := false
  adobeValid := false
  adobeTransform := 0
  mxx := 0
  myy := 0
  ri := 0
  rstn := 0
  eobrun := 0
  ss := 0
  se := 0
  ah := 0
  al := 0
  ns := 0
  comp := Vector.replicate 4 Comp.zero
  dcpred := Vector.replicate 4 0

/-! ## Octree -/

/-- What a node holds beside its children (10_state.md R62). `pal = none` is −1. -/
structure OctData where
  count : BitVec 32
  sr : BitVec 40
  sg : BitVec 40
  sb : BitVec 40
  leaf : Bool
  depth : Fin 9
  pal : Option Byte
  deriving DecidableEq, Repr

/-- A node, or its absence, with the children 0 to 7 (R62, 47_octree.md R400). -/
inductive OctTree where
  | none
  | node (d : OctData) (c0 c1 c2 c3 c4 c5 c6 c7 : OctTree)
  deriving DecidableEq, Repr

/-- The node store with NODES, OCT_LEAVES and OCT_FLAGS (R62). -/
structure Octree where
  root : OctTree
  nodes : Nat
  leaves : Nat
  /-- OCT_FLAGS[0]. -/
  anyT : Bool
  /-- OCT_FLAGS[1]. -/
  palOk : Bool
  deriving DecidableEq, Repr

/-- The empty tree (47_octree.md R401). -/
def Octree.empty : Octree := ⟨.none, 0, 0, false, false⟩

/-! ## GIF context -/

/-- G_STATE (10_state.md R66). -/
inductive GifState where
  | awaitHeader
  | sections
  | done
  | failed
  deriving DecidableEq, Repr

/-- The pending graphic control, G_GC (R68). -/
structure GraphicControl where
  valid : Bool
  tflag : Bool
  disposal : BitVec 3
  tindex : Byte
  delay : BitVec 16
  deriving DecidableEq, Repr

/-- G_GC = 0. -/
def GraphicControl.zero : GraphicControl := ⟨false, false, 0, 0, 0⟩

/-- The GIF decode registers (R66 to R69). G_LSD[24] and G_LSD[27:25] are bits 7 and 2:0 of the packed byte
(48_gif.md R431) and are read from it. -/
structure GifCtx where
  state : GifState
  /-- G_SCREEN[15:0]. -/
  screenW : BitVec 16
  /-- G_SCREEN[31:16]. -/
  screenH : BitVec 16
  /-- G_LSD[7:0]. -/
  packed : Byte
  /-- G_LSD[15:8]. -/
  background : Byte
  /-- G_LSD[23:16]. -/
  aspect : Byte
  gc : GraphicControl
  /-- G_PREVPOS[15:0]. -/
  prevLeft : BitVec 16
  /-- G_PREVPOS[31:16]. -/
  prevTop : BitVec 16
  /-- G_PREVDIM[15:0]. -/
  prevW : BitVec 16
  /-- G_PREVDIM[31:16]. -/
  prevH : BitVec 16
  /-- G_PREVINFO[2:0]. -/
  prevDisposal : BitVec 3
  /-- G_PREVINFO[6]. -/
  prevInterlace : Bool
  /-- G_PREVINFO[7]. -/
  prevLocal : Bool
  /-- G_PREVINFO[31:16]. -/
  prevDelay : BitVec 16
  /-- G_NFRAMES. -/
  nframes : Word
  deriving DecidableEq, Repr

/-- Every GIF decode register 0 (48_gif.md R430). -/
def GifCtx.init : GifCtx where
  state := .awaitHeader
  screenW := 0
  screenH := 0
  packed := 0
  background := 0
  aspect := 0
  gc := GraphicControl.zero
  prevLeft := 0
  prevTop := 0
  prevW := 0
  prevH := 0
  prevDisposal := 0
  prevInterlace := false
  prevLocal := false
  prevDelay := 0
  nframes := 0

/-- The GIF encoder registers G_ENC and G_ENCFRAMES (10_state.md R71). -/
structure GifEnc where
  opened : Bool
  anim : Bool
  nsLate : Bool
  nsDone : Bool
  rep : BitVec 16
  frames : Word
  deriving DecidableEq, Repr

/-- G_ENC = G_ENCFRAMES = 0. -/
def GifEnc.zero : GifEnc := ⟨false, false, false, false, 0, 0⟩

/-! ## LZW and sub-blocks (hidden) -/

/-- The sub-block reader (10_state.md R61). -/
structure SubBlocks where
  rem : Byte
  term : Bool
  deriving DecidableEq, Repr

/-- `rem = 0`, `term = 0`. -/
def SubBlocks.fresh : SubBlocks := ⟨0, false⟩

/-- LZW decode state (R60). `prev = none` is "none". -/
structure LzwDec where
  pfx : Cells 12
  sfx : Cells 8
  avail : Nat
  width : Nat
  prev : Option (BitVec 12)
  acc : BitVec 19
  nbits : Nat
  deriving DecidableEq, Repr

/-- DESIGN CHOICE (log 5), unsafe: R60 leaves the reset value of the hidden LZW state open. -/
def LzwDec.zero : LzwDec := ⟨[], [], 0, 0, none, 0, 0⟩

/-- LZW encode state (R60). The dictionary is keyed by (prefix, symbol), latest entry first; `blk` is the pending
sub-block, first byte first. -/
structure LzwEnc where
  dict : List ((BitVec 12 × Byte) × BitVec 12)
  nxt : Nat
  width : Nat
  acc : BitVec 19
  nbits : Nat
  blk : List Byte
  deriving DecidableEq, Repr

/-- DESIGN CHOICE (log 5), unsafe: as for `LzwDec.zero`. -/
def LzwEnc.zero : LzwEnc := ⟨[], 0, 0, 0, 0, []⟩

/-! ## The host -/

/-- One thing the outside world does to the core (20_memory.md R100; 70_reset_and_hazards.md R540). -/
inductive HostEvent where
  /-- A 32-bit write to the register at a byte offset of 10_state.md R22; offset 0 is CMD. -/
  | write (offset : Nat) (value : Word)
  /-- A read of the register at a byte offset. -/
  | read (offset : Nat)
  /-- The reset input. -/
  | reset
  deriving DecidableEq, Repr

/-! ## Faults -/

/-- The faults of 60_exceptions.md R501, by name. Raising one is a next state of the machine (R530), never a stop. -/
inductive HwFault where
  | endOfStream
  | missingStuffingByte
  | badMarker
  | badSegmentLength
  | unknownMarker
  | unsupportedPrecision
  | unsupportedComponentCount
  | duplicateComponentId
  | unknownComponentId
  | unsupportedSubsampling
  | badTableIndex
  | tableNotDefined
  | missingSOF
  | duplicateSOF
  | missingScan
  | badRestart
  | badSpectralSelection
  | badSuccessiveApproximation
  | badDimensions
  | badHuffmanTable
  | huffOversubscribed
  | badSignature
  | badIntroducer
  | badSectionLength
  | noColorTable
  | frameOutOfBounds
  | badColorIndex
  | badLzwCodeSize
  | badHuffmanCode
  | lzwBadCode
  | badMagnitudeCategory
  | badRefinementCode
  | tooManyCoefficients
  | illegalCommand
  | badArgument
  | noHuffmanCode
  | paletteTooSmall
  | octreeNoPath
  | capacityExceeded
  | badMemAccess
  | badState
  | unsupported
  deriving DecidableEq, Repr

/-- Reasons for the machine to stop: none. Every fault of SK-CORE is recorded in STATUS, ERR and ERRINFO and the
machine goes on (60_exceptions.md R530, R531), so no step of this model ends in a stop. Nobody raises one; safe. -/
inductive Fault where
  deriving DecidableEq, Repr

/-- Reasons for a step to have no meaning. -/
inductive Refusal where
  /-- An instruction of the table without a meaning in this model, by mnemonic; raised by no arm once every
  instruction has its meaning. Safe. -/
  | notModelled (mnemonic : String)
  deriving DecidableEq, Repr

/-! ## The machine -/

/-- The whole state of SK-CORE (10_state.md R20), and the model's own fields `inScan`, `caps`, `inputs`, `rdata`. -/
structure State where
  status : Status
  err : Word
  errInfo : Word
  arg0 : Word
  arg1 : Word
  arg2 : Word
  arg3 : Word
  res0 : Word
  res1 : Word
  inPos : Word
  inLen : Word
  outLen : Word
  memSel : Word
  memAddr : Word
  bcAcc : Word
  /-- BC_NBITS, 0..23. -/
  bcNbits : Nat
  bwAcc : Word
  /-- BW_NBITS, 0..7 between commands. -/
  bwNbits : Nat
  jpg : JpegCtx
  /-- Whether the decoder stands inside the entropy-coded data of a scan (log 4): the meaning of RSTn depends on it
  (44_jpeg_decode.md R274, R299). -/
  inScan : Bool
  /-- OCT_ATHRESH[8:0]. -/
  octAthresh : BitVec 9
  oct : Octree
  /-- PAL_LEN[8:0]. -/
  palLen : BitVec 9
  transpIdx : Word
  pixDim : Word
  gif : GifCtx
  genc : GifEnc
  qtValid : BitVec 4
  htValid : BitVec 8
  /-- HT, table `t = 4*c + s`. -/
  ht : Vector HuffTable 8
  mem : Memory
  sub : SubBlocks
  lzd : LzwDec
  lze : LzwEnc
  /-- The OPEN capacities (00_scope.md R6). -/
  caps : Config.Capacities
  /-- The host's accesses not yet made, oldest first (log 1). -/
  inputs : List HostEvent
  /-- What the host's last register read returned (log 1). -/
  rdata : Word
  deriving DecidableEq, Repr

/-- The machine right after hardware reset (70_reset_and_hazards.md R540; 10_state.md R76). `sub`, `lzd`, `lze`
are DESIGN CHOICE (log 5), `caps` is DESIGN CHOICE (log 2), `inputs` and `rdata` are DESIGN CHOICE (log 1). -/
def State.reset : State where
  status := Status.zero
  err := 0
  errInfo := 0
  arg0 := 0
  arg1 := 0
  arg2 := 0
  arg3 := 0
  res0 := 0
  res1 := 0
  inPos := 0
  inLen := 0
  outLen := 0
  memSel := 0
  memAddr := 0
  bcAcc := 0
  bcNbits := 0
  bwAcc := 0
  bwNbits := 0
  jpg := JpegCtx.init
  inScan := false
  octAthresh := 128
  oct := Octree.empty
  palLen := 0
  transpIdx := 0xFFFFFFFF
  pixDim := 0
  gif := GifCtx.init
  genc := GifEnc.zero
  qtValid := 0
  htValid := 0
  ht := Vector.replicate 8 HuffTable.unbuilt
  mem := Memory.empty
  sub := SubBlocks.fresh
  lzd := LzwDec.zero
  lze := LzwEnc.zero
  caps := Config.unbounded
  inputs := []
  rdata := 0

end Sys2Proof.Machine
end

