-- ==== Sys2Proof/Machine/Ops.lean ====
section
/-! DEFINITION. The named operations over memory spaces and registers, the sequencing of a command's pseudocode with
its `raise` (00_scope.md R8), fault entry (60_exceptions.md R530) and what ends a command (30_encoding.md R111). -/

namespace Sys2Proof.Machine

open Sys2Proof

/-! ## Memory spaces (20_memory.md R80, 00_scope.md R8) -/

namespace Cells

variable {w : Nat}

/-- `MemRead(space, a, 1)`. -/
def get : Cells w → Nat → BitVec w
  | [], _ => 0
  | (k, v) :: c, a => if k = a then v else get c a

/-- `MemWrite(space, a, 1, v)`; writing 0, what an unlisted element reads as, removes the entry. -/
def set : Cells w → Nat → BitVec w → Cells w
  | [], a, v => if v = 0 then [] else [(a, v)]
  | (k, u) :: c, a, v =>
    if a < k then (if v = 0 then (k, u) :: c else (a, v) :: (k, u) :: c)
    else if k = a then (if v = 0 then c else (a, v) :: c)
    else (k, u) :: set c a v

/-- Consecutive elements from index `a` on as entries, those equal to 0 left out. -/
def entriesFrom : Nat → List (BitVec w) → Cells w
  | _, [] => []
  | a, v :: vs => if v = 0 then entriesFrom (a + 1) vs else (a, v) :: entriesFrom (a + 1) vs

/-- The entries below index `a`. -/
def below (c : Cells w) (a : Nat) : Cells w :=
  c.filter (fun p => decide (p.1 < a))

/-- The entries at index `a` and above. -/
def above (c : Cells w) (a : Nat) : Cells w :=
  c.filter (fun p => decide (a ≤ p.1))

/-- `MemWrite(space, a, n, vs)` with `n` the length of `vs`. -/
def setRange (c : Cells w) (a : Nat) (vs : List (BitVec w)) : Cells w :=
  below c a ++ (entriesFrom a vs ++ above c (a + vs.length))

/-- Elements `a .. a + n - 1` become 0. -/
def clearRange (c : Cells w) (a n : Nat) : Cells w :=
  below c a ++ above c (a + n)

/-- `MemRead(space, a, n)`. -/
def getRange (c : Cells w) (a n : Nat) : List (BitVec w) :=
  (List.range n).map (fun i => get c (a + i))

/-- Elements `0 .. n - 1` of `dst` become those of `src`. -/
def copyFront (dst src : Cells w) (n : Nat) : Cells w :=
  below src n ++ above dst n

end Cells

/-! ## Integer arithmetic (00_scope.md R8, R9) -/

/-- `sext_32`: the value of an i32. -/
def sext32 (v : Word) : Int := v.toInt

/-- An integer reduced modulo 2^32, as `info` words and signed results are stored. -/
def word (v : Int) : Word := BitVec.ofInt 32 v

/-- A non-negative integer as a register word. -/
def wordN (n : Nat) : Word := BitVec.ofNat 32 n

/-- `ceil_div(a, b)`. -/
def ceilDiv (a b : Nat) : Nat := (a + b - 1) / b

/-- The search of `bitlen`: `k` binary digits at most. -/
def bitlenFuel : Nat → Nat → Nat
  | 0, _ => 0
  | k + 1, a => if a = 0 then 0 else 1 + bitlenFuel k (a / 2)

/-- `bitlen(a)` for `a ≤ 2^32` (R8): the number of bits of the shortest binary form. -/
def bitlen (a : Nat) : Nat := bitlenFuel 33 a

/-- `clamp(v, lo, hi)` (R8). -/
def clampInt (v lo hi : Int) : Int := if v < lo then lo else if v > hi then hi else v

/-- `u16be` of two bytes (R8). -/
def u16be (hi lo : Byte) : BitVec 16 := hi ++ lo

/-- `u16le` of two bytes (R8). -/
def u16le (lo hi : Byte) : BitVec 16 := hi ++ lo

/-! ## Sequencing with `raise` (00_scope.md R8) -/

/-- What a `raise` carries: the fault and its `info` word. -/
structure Raise where
  fault : HwFault
  info : Word
  deriving DecidableEq, Repr

/-- Pseudocode of a command: it changes the state and either goes on with a value or has raised; the changes made
before a raise stay (60_exceptions.md R530: "There is no rollback"). -/
abbrev Exec (α : Type) := EStateM Raise State α

/-- `raise <Fault>(info)`. -/
def raise {α : Type} (f : HwFault) (info : Word) : Exec α :=
  fun s => .error ⟨f, info⟩ s

/-- `if c: raise <Fault>(info)`. -/
def raiseIf (c : Prop) [Decidable c] (f : HwFault) (info : Word) : Exec Unit :=
  fun s => if c then .error ⟨f, info⟩ s else .ok () s

/-- A value read from the state. -/
def look {α : Type} (f : State → α) : Exec α :=
  fun s => .ok (f s) s

/-- A change of the state that cannot raise. -/
def alter (f : State → State) : Exec Unit :=
  fun s => .ok () (f s)

/-- Runs `m`; if it raises, changes the state by `f` at the moment of the raise. -/
def onRaise {α : Type} (f : State → State) (m : Exec α) : Exec α :=
  fun s =>
    match m s with
    | .ok a s' => .ok a s'
    | .error r s' => .error r (f s')

/-- `f start; f (start+1); …`, `n` times. -/
def forFrom : Nat → Nat → (Nat → Exec Unit) → Exec Unit
  | _, 0, _ => pure ()
  | i, n + 1, f => do
    f i
    forFrom (i + 1) n f

/-- `for i in 0..n-1: f i`. -/
def forUpTo (n : Nat) (f : Nat → Exec Unit) : Exec Unit := forFrom 0 n f

/-- `f` for every element, first to last. -/
def forEach {α : Type} : List α → (α → Exec Unit) → Exec Unit
  | [], _ => pure ()
  | a :: as, f => do
    f a
    forEach as f

/-- Runs `body` until it answers `false`, at most `fuel` times. Every use names the bound of 70_reset_and_hazards.md
R560 that makes the fuel enough. -/
def loopFuel : Nat → Exec Bool → Exec Unit
  | 0, _ => pure ()
  | k + 1, body => do
    if ← body then loopFuel k body else pure ()

/-! ## The output stream -/

/-- The state part of `out(b)`: the byte lands at OUT_LEN, which grows by 1. -/
def State.appendOut (s : State) (b : Byte) : State :=
  { s with outLen := s.outLen + 1, mem := { s.mem with out := Cells.set s.mem.out s.outLen.toNat b } }

/-- `out(b)` (R8; 20_memory.md R82). -/
def out (b : Byte) : Exec Unit := do
  let s ← look id
  raiseIf (s.outLen.toNat = s.caps.outCap) .capacityExceeded 1
  alter (·.appendOut b)

/-- `out` of several bytes in order. -/
def outAll (bs : List Byte) : Exec Unit := forEach bs out

/-! ## Fault codes and fault entry (60_exceptions.md R501, R530) -/

/-- `code` of R501, `ERR[7:0]`. -/
def HwFault.code : HwFault → Byte
  | .endOfStream => 0x01
  | .missingStuffingByte => 0x10
  | .badMarker => 0x11
  | .badSegmentLength => 0x12
  | .unknownMarker => 0x13
  | .unsupportedPrecision => 0x14
  | .unsupportedComponentCount => 0x15
  | .duplicateComponentId => 0x16
  | .unknownComponentId => 0x17
  | .unsupportedSubsampling => 0x18
  | .badTableIndex => 0x19
  | .tableNotDefined => 0x1A
  | .missingSOF => 0x1B
  | .duplicateSOF => 0x1C
  | .missingScan => 0x1D
  | .badRestart => 0x1E
  | .badSpectralSelection => 0x1F
  | .badSuccessiveApproximation => 0x20
  | .badDimensions => 0x21
  | .badHuffmanTable => 0x22
  | .huffOversubscribed => 0x23
  | .badSignature => 0x30
  | .badIntroducer => 0x31
  | .badSectionLength => 0x32
  | .noColorTable => 0x33
  | .frameOutOfBounds => 0x34
  | .badColorIndex => 0x35
  | .badLzwCodeSize => 0x36
  | .badHuffmanCode => 0x40
  | .lzwBadCode => 0x41
  | .badMagnitudeCategory => 0x42
  | .badRefinementCode => 0x43
  | .tooManyCoefficients => 0x44
  | .illegalCommand => 0x50
  | .badArgument => 0x51
  | .noHuffmanCode => 0x52
  | .paletteTooSmall => 0x53
  | .octreeNoPath => 0x54
  | .capacityExceeded => 0x55
  | .badMemAccess => 0x56
  | .badState => 0x57
  | .unsupported => 0x58

/-- `class` of R501, `ERR[11:8]`: 1 StreamFault, 2 FormatViolation, 3 EntropyDecodeFault, 4 HostError. The codes of a
class are consecutive (R501's table). -/
def HwFault.cls (f : HwFault) : BitVec 4 :=
  if f.code < 0x10 then 1 else if f.code < 0x40 then 2 else if f.code < 0x50 then 3 else 4

/-- The ERR word of a fault raised by the command with opcode `opc`. -/
def errWord (opc : Byte) (f : HwFault) : Word :=
  0#8 ++ opc ++ 0#4 ++ f.cls ++ f.code

/-- Fault entry (R530): ERR and ERRINFO are written only while FAULT is 0, then FAULT is 1 and DONE is 0. `inScan`
ends with the command (log 4). -/
def enterFault (opc : Byte) (r : Raise) (s : State) : State :=
  { s with
    err := if s.status.fault then s.err else errWord opc r.fault
    errInfo := if s.status.fault then s.errInfo else r.info
    status := { s.status with fault := true, done := false }
    inScan := false }

/-- A command that completed: `STATUS.DONE <- 1` (30_encoding.md R111 step (4)). -/
def State.complete (s : State) : State :=
  { s with status := { s.status with done := true } }

/-- A command from its pseudocode (R111 steps (3) and (4)): `opc` is its opcode byte, which fault entry records. -/
def runCmd (opc : Byte) (body : Exec Unit) (s : State) : Host.Outcome State Fault Refusal :=
  match body s with
  | .ok _ s' => .next s'.complete
  | .error r s' => .next (enterFault opc r s')

/-- The return from a fault: there is none but reset, "SYS.SRESET is this machine's only 'return from trap', and it
returns to the reset state" (R531). Reset leaves nothing of the core's state (70_reset_and_hazards.md R540); the
implementation's capacities, the host's pending accesses and what the host last read are not the core's (log 7). -/
def State.resetCore (s : State) : State :=
  { State.reset with caps := s.caps, inputs := s.inputs, rdata := s.rdata }

/-! ## The raw stream (48_gif.md R432) -/

/-- `IN[a .. a+n-1]`. -/
def State.inBytes (s : State) (a n : Nat) : List Byte := Cells.getRange s.mem.inp a n

/-- IN_POS moved on by `n` bytes. -/
def State.advance (s : State) (n : Nat) : State := { s with inPos := s.inPos + wordN n }

/-- `gRead(n)` (48_gif.md R432): all or nothing. -/
def gRead (n : Nat) : Exec (List Byte) := do
  let s ← look id
  raiseIf (s.inPos.toNat + n > s.inLen.toNat) .endOfStream s.inPos
  alter (·.advance n)
  pure (s.inBytes s.inPos.toNat n)

/-- Byte `i` of a list the rule has bounded. -/
def byteAt (p : List Byte) (i : Nat) : Byte := p.getD i 0

end Sys2Proof.Machine
end

