-- ==== Sys2Proof/Machine/Flags.lean ====
section
/-! DEFINITION. The status flags (10_state.md R24): their word, and the writes the commands make to FRAME, TRUNC
and REFUSED. DONE and FAULT are written by Ops.lean (30_encoding.md R111, 60_exceptions.md R530). -/

namespace Sys2Proof.Machine

open Sys2Proof

/-- One bit as a BitVec. -/
def bit (b : Bool) : BitVec 1 := if b then 1 else 0

/-- STATUS as the host reads it: bit 0 BUSY = 0, 1 DONE, 2 FAULT, 3 FRAME, 4 TRUNC, 5 REFUSED (R24). -/
def Status.toWord (st : Status) : Word :=
  0#26 ++ bit st.refused ++ bit st.trunc ++ bit st.frame ++ bit st.fault ++ bit st.done ++ 0#1

/-- `STATUS.FRAME <- b`. -/
def State.setFrame (s : State) (b : Bool) : State := { s with status := { s.status with frame := b } }

/-- `STATUS.TRUNC <- b`. -/
def State.setTrunc (s : State) (b : Bool) : State := { s with status := { s.status with trunc := b } }

/-- `STATUS.REFUSED <- 0`, written by every accepted command (R111 step (2)). -/
def State.accept (s : State) : State := { s with status := { s.status with refused := false } }

/-- A refused command (R111 step (1)): `STATUS.REFUSED <- 1`, `STATUS.DONE <- 0`, no other state changes. -/
def State.refuse (s : State) : State := { s with status := { s.status with refused := true, done := false } }

end Sys2Proof.Machine
end

