-- ==== Sys2Proof/Machine/Operands.lean ====
section
/-! DEFINITION. The operand forms of 30_encoding.md R112 that need more than their field: the table selector of
format T, the dimensions in PIX_DIM, and the numbered tables. The ARG registers are read as they stand. -/

namespace Sys2Proof.Machine

open Sys2Proof

/-- IMM of a format T command: `Tc` in 7:4, `Th` in 3:0 (R112). -/
def selectorImm (tc th : BitVec 4) : Word := 0#24 ++ tc ++ th

/-- Table number `t = 4*c + s` (10_state.md R42). -/
def tableNo (c s : Nat) : Fin 8 := Fin.ofNat 8 (4 * c + s)

/-- HT_VALID[4*c + s]. -/
def State.htBuilt (s : State) (c t : Nat) : Bool := s.htValid.getLsbD (4 * c + t)

/-- HT[c][t]. -/
def State.table (s : State) (c t : Nat) : HuffTable := s.ht[tableNo c t]

/-- `if Tc > 1 or Th > 3: raise BadArgument(IMM)` (41_huffman.md R196, R197). -/
def checkSelector (tc th : BitVec 4) : Exec Unit :=
  raiseIf (tc.toNat > 1 ∨ th.toNat > 3) .badArgument (selectorImm tc th)

/-- `if HT_VALID[4*Tc + Th] = 0: raise TableNotDefined(IMM)` (R197). -/
def checkBuilt (tc th : BitVec 4) : Exec Unit := do
  let ok ← look (·.htBuilt tc.toNat th.toNat)
  raiseIf (ok = false) .tableNotDefined (selectorImm tc th)

/-- `W = PIX_DIM[15:0]` (10_state.md R55). -/
def State.pixW (s : State) : Nat := (s.pixDim.extractLsb' 0 16).toNat

/-- `Hh = PIX_DIM[31:16]`. -/
def State.pixH (s : State) : Nat := (s.pixDim.extractLsb' 16 16).toNat

/-- QT_VALID[s]. -/
def State.qtLoaded (s : State) (q : Nat) : Bool := s.qtValid.getLsbD q

/-- QT[q][k]. -/
def State.qtEntry (s : State) (q k : Nat) : BitVec 16 := Cells.get s.mem.qt (64 * q + k)

end Sys2Proof.Machine
end

