-- ==== Sys2Proof/Machine/BitCursor.lean ====
section
/-! DEFINITION. The byte-stuffing-aware bit reader and the bit writer: 40_bitcursor.md R160 to R173, the primitives
first and then the ten commands. -/

namespace Sys2Proof.Machine

open Sys2Proof

/-! ## Reader -/

/-- A data byte enters BC_ACC after `k` stream bytes were consumed for it (R162). -/
def State.feed (s : State) (c : Byte) (k : Nat) : State :=
  { s.advance k with bcAcc := (s.bcAcc <<< 8) ||| c.setWidth 32, bcNbits := s.bcNbits + 8 }

/-- `fetchByte()` (R162). -/
def fetchByte : Exec Unit := do
  let s ← look id
  raiseIf (s.inLen.toNat ≤ s.inPos.toNat) .endOfStream s.inPos
  let c := Cells.get s.mem.inp s.inPos.toNat
  if c = 0xFF then do
    raiseIf (s.inLen.toNat ≤ s.inPos.toNat + 1) .endOfStream s.inPos
    raiseIf (Cells.get s.mem.inp (s.inPos.toNat + 1) ≠ 0) .missingStuffingByte s.inPos
    alter (·.feed c 2)
  else
    alter (·.feed c 1)

/-- The loop of `ensureBits` with a bound on its fetches. -/
def ensureLoop : Nat → Nat → Exec Unit
  | 0, _ => pure ()
  | k + 1, n => do
    let nb ← look (·.bcNbits)
    if nb < n then do
      fetchByte
      ensureLoop k n
    else pure ()

/-- `ensureBits(n)` for `n ≤ 16` (R161): at most 2 data bytes (70_reset_and_hazards.md R560 (2)). -/
def ensureBits (n : Nat) : Exec Unit := ensureLoop 2 n

/-- The next `n` buffered bits, most significant first (R163, R164). -/
def State.peekBits (s : State) (n : Nat) : Word :=
  (s.bcAcc >>> (s.bcNbits - n)) &&& (wordN (2 ^ n - 1))

/-- `n` buffered bits are consumed. -/
def State.dropBits (s : State) (n : Nat) : State := { s with bcNbits := s.bcNbits - n }

/-- Takes `n` bits that are buffered. -/
def takeBits (n : Nat) : Exec Word := do
  let v ← look (·.peekBits n)
  alter (·.dropBits n)
  pure v

/-- `decodeBits(n)` for `n ≤ 16` (R164). -/
def decodeBits (n : Nat) : Exec Word :=
  if n = 0 then pure 0
  else do
    ensureBits n
    takeBits n

/-- `decodeBit()` (R163). -/
def decodeBit : Exec Word := do
  ensureBits 1
  takeBits 1

/-- The sign extension of T.81 Annex F on `t` bits (R165). -/
def extend (t : Nat) (v : Word) : Word :=
  if v.toNat < 2 ^ (t - 1) then v - wordN (2 ^ t) + 1 else v

/-- `receiveExtend(t)` (R165). -/
def receiveExtend (t : Nat) : Exec Word := do
  raiseIf (t > 16) .badMagnitudeCategory (wordN t)
  if t = 0 then pure 0
  else do
    let v ← decodeBits t
    pure (extend t v)

/-- Stream bytes the `k` most recently fetched data bytes took: two for an FF with its stuffing byte (R166). -/
def bufferedSize (acc : Word) : Nat → Nat
  | 0 => 0
  | i + 1 => bufferedSize acc i + (if (acc >>> (8 * i)).setWidth 8 = 0xFF#8 then 2 else 1)

/-- `bcReset()` (R169). -/
def State.bcReset (s : State) : State := { s with bcAcc := 0, bcNbits := 0 }

/-- `realign()` (R166). Log 6: where the host moved IN_POS under buffered bits the subtraction wraps modulo 2^32. -/
def State.realign (s : State) : State :=
  { s.bcReset with inPos := s.inPos - wordN (bufferedSize s.bcAcc (s.bcNbits / 8)) }

/-- `ignore(n)` (R167). -/
def ignore (n : Nat) : Exec Unit := do
  alter State.realign
  let s ← look id
  raiseIf (s.inPos.toNat + n > s.inLen.toNat) .endOfStream s.inPos
  alter (·.advance n)

/-- `TMP[0 ..] <- bs`. -/
def State.storeTmp (s : State) (bs : List Byte) : State :=
  { s with mem := { s.mem with tmp := Cells.setRange s.mem.tmp 0 bs } }

/-- `readFull(n)` for `n ≤ 65536` (R168). -/
def readFull (n : Nat) : Exec (List Byte) := do
  alter State.realign
  let s ← look id
  raiseIf (s.inPos.toNat + n > s.inLen.toNat) .endOfStream s.inPos
  let p := s.inBytes s.inPos.toNat n
  alter (fun s => (s.storeTmp p).advance n)
  pure p

/-! ## Writer -/

/-- `len` bits join the pending ones (R171). -/
def State.pushBits (s : State) (len : Nat) (code : Word) : State :=
  { s with bwAcc := (s.bwAcc <<< len) ||| code, bwNbits := s.bwNbits + len }

/-- The oldest eight pending bits. -/
def State.pendingByte (s : State) : Byte := (s.bwAcc >>> (s.bwNbits - 8)).setWidth 8

/-- Writes `k` whole bytes, each FF with a 00 after it (R170, R171). -/
def emitLoop : Nat → Exec Unit
  | 0 => pure ()
  | k + 1 => do
    let b ← look (·.pendingByte)
    out b
    if b = 0xFF then out 0 else pure ()
    alter (fun s => { s with bwNbits := s.bwNbits - 8 })
    emitLoop k

/-- `emitBits(len, code)` (R171): the loop `while BW_NBITS >= 8` runs `BW_NBITS div 8` times. -/
def emitBits (len : Nat) (code : Word) : Exec Unit := do
  alter (·.pushBits len code)
  let nb ← look (·.bwNbits)
  emitLoop (nb / 8)

/-- `BW_ACC <- 0; BW_NBITS <- 0`. -/
def State.bwClear (s : State) : State := { s with bwAcc := 0, bwNbits := 0 }

/-- `flushBits()` (R172). -/
def flushBits : Exec Unit := do
  let nb ← look (·.bwNbits)
  if nb > 0 then emitBits (8 - nb) (wordN (2 ^ (8 - nb) - 1)) else pure ()
  alter State.bwClear

/-! ## Commands -/

/-- `RES0 <- v`. -/
def State.setRes0 (s : State) (v : Word) : State := { s with res0 := v }

/-- BC.RESET (R169). -/
def execBcReset (s : State) : Host.Outcome State Fault Refusal :=
  runCmd 0x10 (alter State.bcReset) s

/-- BC.ENSURE (R161). -/
def execBcEnsure (n : BitVec 5) (s : State) : Host.Outcome State Fault Refusal :=
  runCmd 0x11 (do
    raiseIf (n.toNat < 1 ∨ n.toNat > 16) .badArgument (n.setWidth 32)
    ensureBits n.toNat) s

/-- BC.BIT (R163). -/
def execBcBit (s : State) : Host.Outcome State Fault Refusal :=
  runCmd 0x12 (do
    let v ← decodeBit
    alter (·.setRes0 v)) s

/-- BC.BITS (R164). -/
def execBcBits (n : BitVec 5) (s : State) : Host.Outcome State Fault Refusal :=
  runCmd 0x13 (do
    raiseIf (n.toNat > 16) .badArgument (n.setWidth 32)
    let v ← decodeBits n.toNat
    alter (·.setRes0 v)) s

/-- BC.RECVEXT (R165). -/
def execBcRecvext (t : Byte) (s : State) : Host.Outcome State Fault Refusal :=
  runCmd 0x14 (do
    let v ← receiveExtend t.toNat
    alter (·.setRes0 v)) s

/-- BC.IGNORE (R167). -/
def execBcIgnore (s : State) : Host.Outcome State Fault Refusal :=
  runCmd 0x15 (do
    let n ← look (·.arg0)
    ignore n.toNat) s

/-- BC.READFULL (R168). -/
def execBcReadfull (s : State) : Host.Outcome State Fault Refusal :=
  runCmd 0x16 (do
    let n ← look (·.arg0)
    raiseIf (n.toNat > Config.tmpCap) .badArgument n
    let _ ← readFull n.toNat
    alter (·.setRes0 n)) s

/-- BC.REALIGN (R166). -/
def execBcRealign (s : State) : Host.Outcome State Fault Refusal :=
  runCmd 0x17 (alter State.realign) s

/-- BW.EMIT (R171). -/
def execBwEmit (len : BitVec 5) (s : State) : Host.Outcome State Fault Refusal :=
  runCmd 0x18 (do
    let code ← look (·.arg0)
    raiseIf (len.toNat < 1 ∨ len.toNat > 16 ∨ code.toNat ≥ 2 ^ len.toNat) .badArgument (len.setWidth 32)
    emitBits len.toNat code) s

/-- BW.FLUSH (R172). -/
def execBwFlush (s : State) : Host.Outcome State Fault Refusal :=
  runCmd 0x19 flushBits s

end Sys2Proof.Machine
end

