-- ==== Sys2Proof/Machine/Dct.lean ====
section
/-! DEFINITION. The block transform: 42_dct.md R220 to R236. All arithmetic is i32 with wrap-around (00_scope.md R9);
the lines of the four passes are the lines of R224, R225, R230 and R231. -/

namespace Sys2Proof.Machine

open Sys2Proof

/-- `sar32(v, k)` (00_scope.md R9). -/
def sar (v : Word) (k : Nat) : Word := v.sshiftRight k

/-- A row or a column of the block. -/
structure Line where
  a0 : Word
  a1 : Word
  a2 : Word
  a3 : Word
  a4 : Word
  a5 : Word
  a6 : Word
  a7 : Word
  deriving DecidableEq, Repr

/-- The entries in order. -/
def Line.toList (r : Line) : List Word := [r.a0, r.a1, r.a2, r.a3, r.a4, r.a5, r.a6, r.a7]

/-- Entry `i` of a block given as a list of 64. -/
def entry (b : List Word) (i : Nat) : Word := b.getD i 0

/-- Row `y` of a row-major block (R220). -/
def rowAt (b : List Word) (y : Nat) : Line :=
  ⟨entry b (8 * y), entry b (8 * y + 1), entry b (8 * y + 2), entry b (8 * y + 3),
    entry b (8 * y + 4), entry b (8 * y + 5), entry b (8 * y + 6), entry b (8 * y + 7)⟩

/-- Column `x`. -/
def colAt (b : List Word) (x : Nat) : Line :=
  ⟨entry b x, entry b (8 + x), entry b (16 + x), entry b (24 + x),
    entry b (32 + x), entry b (40 + x), entry b (48 + x), entry b (56 + x)⟩

/-- A pass over the eight rows. -/
def mapRows (f : Line → Line) (b : List Word) : List Word :=
  (List.range 8).flatMap (fun y => (f (rowAt b y)).toList)

/-- A pass over the eight columns. -/
def mapCols (f : Line → Line) (b : List Word) : List Word :=
  let cols := (List.range 8).map (fun x => (f (colAt b x)).toList)
  (List.range 8).flatMap (fun y => cols.map (fun c => entry c y))

/-! ## Inverse (R221 to R225) -/

/-- W1 of R222. -/
def w1 : Word := 2841
/-- W2 of R222. -/
def w2 : Word := 2676
/-- W3 of R222. -/
def w3 : Word := 2408
/-- W5 of R222. -/
def w5 : Word := 1609
/-- W6 of R222. -/
def w6 : Word := 1108
/-- W7 of R222. -/
def w7 : Word := 565
/-- R2 of R222. -/
def r2 : Word := 181

/-- The row butterfly (R224). DESIGN CHOICE (log 14): the example of R236 names eight zeros after this pass for the row
0x7FFFFFFF, 1, 0, 0, 0, 0, 0, 0, where the pseudocode of R224 gives 3, 1, -2, -6, -10, -14, -17, -19; R224 is followed. -/
def idctRowButterfly (r : Line) : Line :=
  let x0 := (r.a0 <<< (11 : Nat)) + 128
  let x1 := r.a4 <<< (11 : Nat)
  let x2 := r.a6
  let x3 := r.a2
  let x4 := r.a1
  let x5 := r.a7
  let x6 := r.a5
  let x7 := r.a3
  let x8 := w7 * (x4 + x5)
  let x4 := x8 + (w1 - w7) * x4
  let x5 := x8 - (w1 + w7) * x5
  let x8 := w3 * (x6 + x7)
  let x6 := x8 - (w3 - w5) * x6
  let x7 := x8 - (w3 + w5) * x7
  let x8 := x0 + x1
  let x0 := x0 - x1
  let x1 := w6 * (x3 + x2)
  let x2 := x1 - (w2 + w6) * x2
  let x3 := x1 + (w2 - w6) * x3
  let x1 := x4 + x6
  let x4 := x4 - x6
  let x6 := x5 + x7
  let x5 := x5 - x7
  let x7 := x8 + x3
  let x8 := x8 - x3
  let x3 := x0 + x2
  let x0 := x0 - x2
  let x2 := sar (r2 * (x4 + x5) + 128) 8
  let x4 := sar (r2 * (x4 - x5) + 128) 8
  let o0 := sar (x7 + x1) 8
  let o1 := sar (x3 + x2) 8
  let o2 := sar (x0 + x4) 8
  let o3 := sar (x8 + x6) 8
  let o4 := sar (x8 - x6) 8
  let o5 := sar (x0 - x4) 8
  let o6 := sar (x3 - x2) 8
  let o7 := sar (x7 - x1) 8
  ⟨o0, o1, o2, o3, o4, o5, o6, o7⟩

/-- The row pass of one row, with its short-circuit (R223). -/
def idctRow (r : Line) : Line :=
  if r.a1 = 0 ∧ r.a2 = 0 ∧ r.a3 = 0 ∧ r.a4 = 0 ∧ r.a5 = 0 ∧ r.a6 = 0 ∧ r.a7 = 0 then
    let dc := r.a0 <<< (3 : Nat)
    ⟨dc, dc, dc, dc, dc, dc, dc, dc⟩
  else idctRowButterfly r

/-- The column pass of one column (R225). -/
def idctCol (r : Line) : Line :=
  let y0 := (r.a0 <<< (8 : Nat)) + 8192
  let y1 := r.a4 <<< (8 : Nat)
  let y2 := r.a6
  let y3 := r.a2
  let y4 := r.a1
  let y5 := r.a7
  let y6 := r.a5
  let y7 := r.a3
  let y8 := w7 * (y4 + y5) + 4
  let y4 := sar (y8 + (w1 - w7) * y4) 3
  let y5 := sar (y8 - (w1 + w7) * y5) 3
  let y8 := w3 * (y6 + y7) + 4
  let y6 := sar (y8 - (w3 - w5) * y6) 3
  let y7 := sar (y8 - (w3 + w5) * y7) 3
  let y8 := y0 + y1
  let y0 := y0 - y1
  let y1 := w6 * (y3 + y2) + 4
  let y2 := sar (y1 - (w2 + w6) * y2) 3
  let y3 := sar (y1 + (w2 - w6) * y3) 3
  let y1 := y4 + y6
  let y4 := y4 - y6
  let y6 := y5 + y7
  let y5 := y5 - y7
  let y7 := y8 + y3
  let y8 := y8 - y3
  let y3 := y0 + y2
  let y0 := y0 - y2
  let y2 := sar (r2 * (y4 + y5) + 128) 8
  let y4 := sar (r2 * (y4 - y5) + 128) 8
  let o0 := sar (y7 + y1) 14
  let o1 := sar (y3 + y2) 14
  let o2 := sar (y0 + y4) 14
  let o3 := sar (y8 + y6) 14
  let o4 := sar (y8 - y6) 14
  let o5 := sar (y0 - y4) 14
  let o6 := sar (y3 - y2) 14
  let o7 := sar (y7 - y1) 14
  ⟨o0, o1, o2, o3, o4, o5, o6, o7⟩

/-- DCT.INV on a block: rows, then columns (R221). -/
def idctBlock (b : List Word) : List Word := mapCols idctCol (mapRows idctRow b)

/-! ## Output stage (R227) -/

/-- "+128 bias and clamping" of one entry; the compare is signed and comes before the add (R227). -/
def levelEntry (c : Word) : Word :=
  if c.toInt < -128 then 0 else if c.toInt > 127 then 255 else c + 128

/-! ## Forward (R228 to R231) -/

/-- F0298 of R229. -/
def f0298 : Word := 2446
/-- F0390 of R229. -/
def f0390 : Word := 3196
/-- F0541 of R229. -/
def f0541 : Word := 4433
/-- F0765 of R229. -/
def f0765 : Word := 6270
/-- F0899 of R229. -/
def f0899 : Word := 7373
/-- F1175 of R229. -/
def f1175 : Word := 9633
/-- F1501 of R229. -/
def f1501 : Word := 12299
/-- F1847 of R229. -/
def f1847 : Word := 15137
/-- F1961 of R229. -/
def f1961 : Word := 16069
/-- F2053 of R229. -/
def f2053 : Word := 16819
/-- F2562 of R229. -/
def f2562 : Word := 20995
/-- F3072 of R229. -/
def f3072 : Word := 25172

/-- The forward row pass of one row (R230). -/
def fdctRow (r : Line) : Line :=
  let t0 := r.a0 + r.a7
  let t1 := r.a1 + r.a6
  let t2 := r.a2 + r.a5
  let t3 := r.a3 + r.a4
  let t10 := t0 + t3
  let t12 := t0 - t3
  let t11 := t1 + t2
  let t13 := t1 - t2
  let t0 := r.a0 - r.a7
  let t1 := r.a1 - r.a6
  let t2 := r.a2 - r.a5
  let t3 := r.a3 - r.a4
  let o0 := (t10 + t11 - 1024) <<< (2 : Nat)
  let o4 := (t10 - t11) <<< (2 : Nat)
  let z1 := (t12 + t13) * f0541 + 1024
  let o2 := sar (z1 + t12 * f0765) 11
  let o6 := sar (z1 - t13 * f1847) 11
  let t10 := t0 + t3
  let t11 := t1 + t2
  let t12 := t0 + t2
  let t13 := t1 + t3
  let z1 := (t12 + t13) * f1175 + 1024
  let t0 := t0 * f1501
  let t1 := t1 * f3072
  let t2 := t2 * f2053
  let t3 := t3 * f0298
  let t10 := t10 * (-f0899)
  let t11 := t11 * (-f2562)
  let t12 := t12 * (-f0390)
  let t13 := t13 * (-f1961)
  let t12 := t12 + z1
  let t13 := t13 + z1
  let o1 := sar (t0 + t10 + t12) 11
  let o3 := sar (t1 + t11 + t13) 11
  let o5 := sar (t2 + t11 + t12) 11
  let o7 := sar (t3 + t10 + t13) 11
  ⟨o0, o1, o2, o3, o4, o5, o6, o7⟩

/-- The forward column pass of one column (R231). -/
def fdctCol (r : Line) : Line :=
  let t0 := r.a0 + r.a7
  let t1 := r.a1 + r.a6
  let t2 := r.a2 + r.a5
  let t3 := r.a3 + r.a4
  let t10 := t0 + t3 + 2
  let t12 := t0 - t3
  let t11 := t1 + t2
  let t13 := t1 - t2
  let t0 := r.a0 - r.a7
  let t1 := r.a1 - r.a6
  let t2 := r.a2 - r.a5
  let t3 := r.a3 - r.a4
  let o0 := sar (t10 + t11) 2
  let o4 := sar (t10 - t11) 2
  let z1 := (t12 + t13) * f0541 + 16384
  let o2 := sar (z1 + t12 * f0765) 15
  let o6 := sar (z1 - t13 * f1847) 15
  let t10 := t0 + t3
  let t11 := t1 + t2
  let t12 := t0 + t2
  let t13 := t1 + t3
  let z1 := (t12 + t13) * f1175 + 16384
  let t0 := t0 * f1501
  let t1 := t1 * f3072
  let t2 := t2 * f2053
  let t3 := t3 * f0298
  let t10 := t10 * (-f0899)
  let t11 := t11 * (-f2562)
  let t12 := t12 * (-f0390)
  let t13 := t13 * (-f1961)
  let t12 := t12 + z1
  let t13 := t13 + z1
  let o1 := sar (t0 + t10 + t12) 15
  let o3 := sar (t1 + t11 + t13) 15
  let o5 := sar (t2 + t11 + t12) 15
  let o7 := sar (t3 + t10 + t13) 15
  ⟨o0, o1, o2, o3, o4, o5, o6, o7⟩

/-- DCT.FWD on a block (R228). -/
def fdctBlock (b : List Word) : List Word := mapCols fdctCol (mapRows fdctRow b)

/-! ## The block buffers (10_state.md R38, R39) -/

/-- BLK[0..63]. -/
def State.blkList (s : State) : List Word := Cells.getRange s.mem.blk 0 64

/-- ZZ[0..63]. -/
def State.zzList (s : State) : List Word := Cells.getRange s.mem.zz 0 64

/-- `BLK[0..63] <- b`. -/
def State.setBlk (s : State) (b : List Word) : State :=
  { s with mem := { s.mem with blk := Cells.setRange s.mem.blk 0 b } }

/-- `ZZ[0..63] <- b`. -/
def State.setZz (s : State) (b : List Word) : State :=
  { s with mem := { s.mem with zz := Cells.setRange s.mem.zz 0 b } }

/-- ZZ[k]. -/
def State.zzAt (s : State) (k : Nat) : Word := Cells.get s.mem.zz k

/-- `ZZ[k] <- v`. -/
def State.setZzAt (s : State) (k : Nat) (v : Word) : State :=
  { s with mem := { s.mem with zz := Cells.set s.mem.zz k v } }

/-- `idct()` (R221). -/
def State.idct (s : State) : State := s.setBlk (idctBlock s.blkList)

/-- `fdct()` (R228). -/
def State.fdct (s : State) : State := s.setBlk (fdctBlock s.blkList)

/-- `level()` (R227). -/
def State.level (s : State) : State := s.setBlk (s.blkList.map levelEntry)

/-- BLK.CLEAR's two halves (R232). -/
def State.clearBlocks (s : State) (m : BitVec 2) : State :=
  { s with mem := { s.mem with
      blk := if m.getLsbD 0 then Cells.clearRange s.mem.blk 0 64 else s.mem.blk
      zz := if m.getLsbD 1 then Cells.clearRange s.mem.zz 0 64 else s.mem.zz } }

/-! ## Commands -/

/-- DCT.INV (R221). -/
def execDctInv (s : State) : Host.Outcome State Fault Refusal :=
  runCmd 0x30 (alter State.idct) s

/-- DCT.FWD (R228). -/
def execDctFwd (s : State) : Host.Outcome State Fault Refusal :=
  runCmd 0x31 (alter State.fdct) s

/-- BLK.LEVEL (R227). -/
def execBlkLevel (s : State) : Host.Outcome State Fault Refusal :=
  runCmd 0x32 (alter State.level) s

/-- BLK.CLEAR (R232). -/
def execBlkClear (mask : BitVec 2) (s : State) : Host.Outcome State Fault Refusal :=
  runCmd 0x33 (alter (·.clearBlocks mask)) s

end Sys2Proof.Machine
end

