-- ==== Sys2Proof/Syntax.lean ====
section
/-! DEFINITION. The instructions: one constructor of Instr per row of spec/opcode_table.json. The first 46 are
the command words the host writes to CMD (30_encoding.md R114); the rest are the elements of the two
input streams, which are the "program" the decoder commands run (10_state.md R30). -/

namespace Sys2Proof

/-- Every row of spec/opcode_table.json, in the table's order. -/
inductive Instr where
  /-- SYS.NOP, 49_system.md R480. -/
  | sysNop
  /-- SYS.SRESET, R481. -/
  | sysSreset
  /-- SYS.OUTCLR, R482. -/
  | sysOutclr
  /-- BC.RESET, 40_bitcursor.md R169. -/
  | bcReset
  /-- BC.ENSURE n, R161. -/
  | bcEnsure (n : BitVec 5)
  /-- BC.BIT, R163. -/
  | bcBit
  /-- BC.BITS n, R164. -/
  | bcBits (n : BitVec 5)
  /-- BC.RECVEXT t, R165. -/
  | bcRecvext (t : BitVec 8)
  /-- BC.IGNORE, R167. -/
  | bcIgnore
  /-- BC.READFULL, R168. -/
  | bcReadfull
  /-- BC.REALIGN, R166. -/
  | bcRealign
  /-- BW.EMIT len, R171. -/
  | bwEmit (len : BitVec 5)
  /-- BW.FLUSH, R172. -/
  | bwFlush
  /-- HUF.BUILD Tc,Th, 41_huffman.md R196. -/
  | hufBuild (tc th : BitVec 4)
  /-- HUF.DEC Tc,Th, R197. -/
  | hufDec (tc th : BitVec 4)
  /-- HUF.ENC Tc,Th, R200. -/
  | hufEnc (tc th : BitVec 4)
  /-- HUF.ENCVAL Tc,Th, R201. -/
  | hufEncval (tc th : BitVec 4)
  /-- HUF.LOADSTD, R203. -/
  | hufLoadstd
  /-- DCT.INV, 42_dct.md R221. -/
  | dctInv
  /-- DCT.FWD, R228. -/
  | dctFwd
  /-- BLK.LEVEL, R227. -/
  | blkLevel
  /-- BLK.CLEAR mask, R232. -/
  | blkClear (mask : BitVec 2)
  /-- QT.SCALE, 43_quant.md R252. -/
  | qtScale
  /-- QT.DEQ slot, R254. -/
  | qtDeq (slot : BitVec 2)
  /-- QT.QUANT slot, R256. -/
  | qtQuant (slot : BitVec 2)
  /-- JPG.INIT, 44_jpeg_decode.md R270. -/
  | jpgInit
  /-- JPG.STEP, R271. -/
  | jpgStep
  /-- JPG.DECODE, R307. -/
  | jpgDecode
  /-- JPG.ASSEMBLE, R308. -/
  | jpgAssemble
  /-- JPG.ENCODE, 45_jpeg_encode.md R340. -/
  | jpgEncode
  /-- LZW.DEC, 46_lzw.md R373. -/
  | lzwDec
  /-- LZW.ENC, R381. -/
  | lzwEnc
  /-- OCT.RESET, 47_octree.md R401. -/
  | octReset
  /-- OCT.ADD, R403. -/
  | octAdd
  /-- OCT.BUILD, R404. -/
  | octBuild
  /-- OCT.REDUCE, R405. -/
  | octReduce
  /-- OCT.PALETTE, R406. -/
  | octPalette
  /-- OCT.INDEX, R407. -/
  | octIndex
  /-- OCT.QUANTIZE, R408. -/
  | octQuantize
  /-- GIF.INIT, 48_gif.md R430. -/
  | gifInit
  /-- GIF.HEADER, R431. -/
  | gifHeader
  /-- GIF.STEP, R435. -/
  | gifStep
  /-- GIF.DECODE, R450. -/
  | gifDecode
  /-- GIF.EBEGIN, R460. -/
  | gifEbegin
  /-- GIF.EFRAME, R462. -/
  | gifEframe
  /-- GIF.EEND, R466. -/
  | gifEend
  /-- Marker FF D8, 44_jpeg_decode.md R271. -/
  | jpegSoi
  /-- Marker FF D9, R306. -/
  | jpegEoi
  /-- Markers FF D0 to FF D7, R299 (inside a scan) and R274 (outside). -/
  | jpegRst (n : BitVec 3)
  /-- Marker FF C0, R276. -/
  | jpegSof0
  /-- Marker FF C1, R276 (decoded as SOF0). -/
  | jpegSof1
  /-- Marker FF C2, R276 (PROGRESSIVE = 1). -/
  | jpegSof2
  /-- Marker FF C4, R281. -/
  | jpegDht
  /-- Marker FF DB, R280. -/
  | jpegDqt
  /-- Marker FF DD, R282. -/
  | jpegDri
  /-- Marker FF DA, R283. -/
  | jpegSos
  /-- Marker FF E0, R275. -/
  | jpegApp0
  /-- Marker FF E1, R275. -/
  | jpegApp1
  /-- Marker FF E2, R275. -/
  | jpegApp2
  /-- Marker FF E3, R275. -/
  | jpegApp3
  /-- Marker FF E4, R275. -/
  | jpegApp4
  /-- Marker FF E5, R275. -/
  | jpegApp5
  /-- Marker FF E6, R275. -/
  | jpegApp6
  /-- Marker FF E7, R275. -/
  | jpegApp7
  /-- Marker FF E8, R275. -/
  | jpegApp8
  /-- Marker FF E9, R275. -/
  | jpegApp9
  /-- Marker FF EA, R275. -/
  | jpegApp10
  /-- Marker FF EB, R275. -/
  | jpegApp11
  /-- Marker FF EC, R275. -/
  | jpegApp12
  /-- Marker FF ED, R275. -/
  | jpegApp13
  /-- Marker FF EE, R275 (the Adobe segment). -/
  | jpegApp14
  /-- Marker FF EF, R275. -/
  | jpegApp15
  /-- Marker FF FE, R275. -/
  | jpegCom
  /-- The six bytes "GIF89a" with the logical screen descriptor after them, 48_gif.md R431. -/
  | gifSignature
  /-- Introducer 2C, R437. -/
  | gifImage
  /-- Extension 21 F9, R436. -/
  | gifExtGraphicControl
  /-- Extension 21 FE, R443. -/
  | gifExtComment
  /-- Extension 21 FF, R443. -/
  | gifExtApplication
  /-- Extension 21 01, R443. -/
  | gifExtPlainText
  /-- Extension 21 with any other label, R443. -/
  | gifExtOther (label : Byte)
  /-- Introducer 3B, R435. -/
  | gifTrailer
  deriving DecidableEq, Repr

/-- The JPEG markers the decoder accepts (30_encoding.md R120), as its marker dispatch reads them. -/
inductive Marker where
  | soi
  | eoi
  | rst (n : BitVec 3)
  | sof0
  | sof1
  | sof2
  | dht
  | dqt
  | dri
  | sos
  | app (n : BitVec 4)
  | com
  deriving DecidableEq, Repr

/-- The GIF sections (30_encoding.md R142), as the section loop reads them. -/
inductive Sect where
  | image
  | graphicControl
  | comment
  | application
  | plainText
  | otherExt (label : Byte)
  | trailer
  deriving DecidableEq, Repr

/-- The instruction a marker is. -/
def Marker.toInstr : Marker → Instr
  | .soi => .jpegSoi
  | .eoi => .jpegEoi
  | .rst n => .jpegRst n
  | .sof0 => .jpegSof0
  | .sof1 => .jpegSof1
  | .sof2 => .jpegSof2
  | .dht => .jpegDht
  | .dqt => .jpegDqt
  | .dri => .jpegDri
  | .sos => .jpegSos
  | .com => .jpegCom
  | .app n =>
    match n.toNat with
    | 0 => .jpegApp0
    | 1 => .jpegApp1
    | 2 => .jpegApp2
    | 3 => .jpegApp3
    | 4 => .jpegApp4
    | 5 => .jpegApp5
    | 6 => .jpegApp6
    | 7 => .jpegApp7
    | 8 => .jpegApp8
    | 9 => .jpegApp9
    | 10 => .jpegApp10
    | 11 => .jpegApp11
    | 12 => .jpegApp12
    | 13 => .jpegApp13
    | 14 => .jpegApp14
    | _ => .jpegApp15

/-- The instruction a section is. -/
def Sect.toInstr : Sect → Instr
  | .image => .gifImage
  | .graphicControl => .gifExtGraphicControl
  | .comment => .gifExtComment
  | .application => .gifExtApplication
  | .plainText => .gifExtPlainText
  | .otherExt l => .gifExtOther l
  | .trailer => .gifTrailer

end Sys2Proof
end

