-- ==== Sys2Proof/WellFormed.lean ====
section
/-! DEFINITION. Which terms of Instr stand for a row of the table. Every field of a command word is
exactly as wide as its bits, so a command term is always well formed; range checks on operand values are
the commands' own and raise BadArgument (30_encoding.md R112). The one check is the lowest-priority row
GIF.EXT.OTHER: "any label other than F9, FE, FF, 01" (spec/opcode_table.json; 30_encoding.md R142). -/

namespace Sys2Proof

/-- A label that 30_encoding.md R142 gives to a row of its own. -/
def namedLabel (l : Byte) : Bool :=
  l == 0xF9 || l == 0xFE || l == 0xFF || l == 0x01

/-- `wellFormed i`: `i` is the term its encoding decodes to. -/
def Instr.wellFormed : Instr → Bool
  | .gifExtOther l => !namedLabel l
  | _ => true

end Sys2Proof
end

