-- ==== Sys2Proof/Decode.lean ====
section
/-! DEFINITION. The decoder, total on any word and any bytes, rejecting by name, and after it the encoder, both
written from the tables of 30_encoding.md (R110 to R115 for command words, R120 and R122 for markers, R140 and R142
for GIF sections). -/

namespace Sys2Proof

/-- Why bits are no instruction. -/
inductive DecodeError where
  /-- An OPC outside the 46 values of 30_encoding.md R114 (R115 (a)). -/
  | reservedOpcode (opc : Byte)
  /-- An immediate bit its format requires to be 0 is 1 (R115 (b)). -/
  | immediateNotZero (imm : BitVec 24)
  /-- A marker was required and the first byte is not FF (44_jpeg_decode.md R272). -/
  | notAMarker (b : Byte)
  /-- FF 00: a stuffed data byte, not a marker (30_encoding.md R120). -/
  | stuffedByte
  /-- FF FF: a fill byte, not yet a code byte (R120). -/
  | fillByte
  /-- A code byte of "every other value" (R120). -/
  | unknownMarker (m : Byte)
  /-- A first byte that introduces no section (R142). -/
  | badIntroducer (b : Byte)
  /-- The bytes begin like the signature and are not "GIF89a" (R140). -/
  | badSignature
  /-- The bytes end inside the element. -/
  | truncated
  deriving DecidableEq, Repr

/-! ## Command words -/

/-- OPC, bits 31:24 (30_encoding.md R110). -/
def opcOf (w : Word) : Byte := w.extractLsb' 24 8

/-- IMM, bits 23:0 (R110). -/
def immOf (w : Word) : BitVec 24 := w.extractLsb' 0 24

/-- Formats N and A: IMM must be 0 (R112). -/
def formN (imm : BitVec 24) (i : Instr) : Except DecodeError Instr :=
  if imm = 0 then .ok i else .error (.immediateNotZero imm)

/-- Format I5: IMM[4:0], the rest 0 (R112). -/
def formI5 (imm : BitVec 24) (f : BitVec 5 → Instr) : Except DecodeError Instr :=
  if imm.extractLsb' 5 19 = 0 then .ok (f (imm.extractLsb' 0 5)) else .error (.immediateNotZero imm)

/-- Format I8: IMM[7:0], the rest 0 (R112). -/
def formI8 (imm : BitVec 24) (f : Byte → Instr) : Except DecodeError Instr :=
  if imm.extractLsb' 8 16 = 0 then .ok (f (imm.extractLsb' 0 8)) else .error (.immediateNotZero imm)

/-- Format T: Tc = IMM[7:4], Th = IMM[3:0], the rest 0 (R112). -/
def formT (imm : BitVec 24) (f : BitVec 4 → BitVec 4 → Instr) : Except DecodeError Instr :=
  if imm.extractLsb' 8 16 = 0 then .ok (f (imm.extractLsb' 4 4) (imm.extractLsb' 0 4))
  else .error (.immediateNotZero imm)

/-- Format S: IMM[1:0], the rest 0 (R112). -/
def formS (imm : BitVec 24) (f : BitVec 2 → Instr) : Except DecodeError Instr :=
  if imm.extractLsb' 2 22 = 0 then .ok (f (imm.extractLsb' 0 2)) else .error (.immediateNotZero imm)

/-- The opcode map of 30_encoding.md R114; every OPC it does not list is reserved (R115). -/
def decodeCommand (w : Word) : Except DecodeError Instr :=
  match (opcOf w).toNat with
  | 0x00 => formN (immOf w) .sysNop
  | 0x01 => formN (immOf w) .sysSreset
  | 0x02 => formN (immOf w) .sysOutclr
  | 0x10 => formN (immOf w) .bcReset
  | 0x11 => formI5 (immOf w) .bcEnsure
  | 0x12 => formN (immOf w) .bcBit
  | 0x13 => formI5 (immOf w) .bcBits
  | 0x14 => formI8 (immOf w) .bcRecvext
  | 0x15 => formN (immOf w) .bcIgnore
  | 0x16 => formN (immOf w) .bcReadfull
  | 0x17 => formN (immOf w) .bcRealign
  | 0x18 => formI5 (immOf w) .bwEmit
  | 0x19 => formN (immOf w) .bwFlush
  | 0x20 => formT (immOf w) .hufBuild
  | 0x21 => formT (immOf w) .hufDec
  | 0x22 => formT (immOf w) .hufEnc
  | 0x23 => formT (immOf w) .hufEncval
  | 0x24 => formN (immOf w) .hufLoadstd
  | 0x30 => formN (immOf w) .dctInv
  | 0x31 => formN (immOf w) .dctFwd
  | 0x32 => formN (immOf w) .blkLevel
  | 0x33 => formS (immOf w) .blkClear
  | 0x40 => formN (immOf w) .qtScale
  | 0x41 => formS (immOf w) .qtDeq
  | 0x42 => formS (immOf w) .qtQuant
  | 0x50 => formN (immOf w) .jpgInit
  | 0x51 => formN (immOf w) .jpgStep
  | 0x52 => formN (immOf w) .jpgDecode
  | 0x53 => formN (immOf w) .jpgAssemble
  | 0x58 => formN (immOf w) .jpgEncode
  | 0x60 => formN (immOf w) .lzwDec
  | 0x61 => formN (immOf w) .lzwEnc
  | 0x70 => formN (immOf w) .octReset
  | 0x71 => formN (immOf w) .octAdd
  | 0x72 => formN (immOf w) .octBuild
  | 0x73 => formN (immOf w) .octReduce
  | 0x74 => formN (immOf w) .octPalette
  | 0x75 => formN (immOf w) .octIndex
  | 0x76 => formN (immOf w) .octQuantize
  | 0x80 => formN (immOf w) .gifInit
  | 0x81 => formN (immOf w) .gifHeader
  | 0x82 => formN (immOf w) .gifStep
  | 0x83 => formN (immOf w) .gifDecode
  | 0x88 => formN (immOf w) .gifEbegin
  | 0x89 => formN (immOf w) .gifEframe
  | 0x8A => formN (immOf w) .gifEend
  | _ => .error (.reservedOpcode (opcOf w))

/-! ## Stream elements -/

/-- The code byte after FF (30_encoding.md R120). -/
def decodeMarker (m : Byte) : Except DecodeError Marker :=
  match m.toNat with
  | 0xD8 => .ok .soi
  | 0xD9 => .ok .eoi
  | 0xD0 => .ok (.rst 0)
  | 0xD1 => .ok (.rst 1)
  | 0xD2 => .ok (.rst 2)
  | 0xD3 => .ok (.rst 3)
  | 0xD4 => .ok (.rst 4)
  | 0xD5 => .ok (.rst 5)
  | 0xD6 => .ok (.rst 6)
  | 0xD7 => .ok (.rst 7)
  | 0xC0 => .ok .sof0
  | 0xC1 => .ok .sof1
  | 0xC2 => .ok .sof2
  | 0xC4 => .ok .dht
  | 0xDB => .ok .dqt
  | 0xDD => .ok .dri
  | 0xDA => .ok .sos
  | 0xE0 => .ok (.app 0)
  | 0xE1 => .ok (.app 1)
  | 0xE2 => .ok (.app 2)
  | 0xE3 => .ok (.app 3)
  | 0xE4 => .ok (.app 4)
  | 0xE5 => .ok (.app 5)
  | 0xE6 => .ok (.app 6)
  | 0xE7 => .ok (.app 7)
  | 0xE8 => .ok (.app 8)
  | 0xE9 => .ok (.app 9)
  | 0xEA => .ok (.app 10)
  | 0xEB => .ok (.app 11)
  | 0xEC => .ok (.app 12)
  | 0xED => .ok (.app 13)
  | 0xEE => .ok (.app 14)
  | 0xEF => .ok (.app 15)
  | 0xFE => .ok .com
  | 0x00 => .error .stuffedByte
  | 0xFF => .error .fillByte
  | _ => .error (.unknownMarker m)

/-- The label byte of an extension (30_encoding.md R142). -/
def decodeLabel (l : Byte) : Sect :=
  if l = 0xF9 then .graphicControl
  else if l = 0xFE then .comment
  else if l = 0xFF then .application
  else if l = 0x01 then .plainText
  else .otherExt l

/-- One stream element at the front of a byte list, and the bytes after its selecting bytes
(the payload of a segment or section is not part of them). The signature is 30_encoding.md R140. -/
def decodeStream : List Byte → Except DecodeError (Instr × List Byte)
  | [] => .error .truncated
  | b :: rest =>
    if b = 0xFF then
      match rest with
      | [] => .error .truncated
      | m :: rest' => (decodeMarker m).map (fun k => (k.toInstr, rest'))
    else if b = 0x2C then .ok (.gifImage, rest)
    else if b = 0x3B then .ok (.gifTrailer, rest)
    else if b = 0x21 then
      match rest with
      | [] => .error .truncated
      | l :: rest' => .ok ((decodeLabel l).toInstr, rest')
    else if b = 0x47 then
      match rest with
      | b1 :: b2 :: b3 :: b4 :: b5 :: rest' =>
        if b1 = 0x49 ∧ b2 = 0x46 ∧ b3 = 0x38 ∧ b4 = 0x39 ∧ b5 = 0x61 then .ok (.gifSignature, rest')
        else .error .badSignature
      | _ => .error .truncated
    else .error (.badIntroducer b)

/-- What is given to the decoder: a word written to CMD, or bytes of the input stream. -/
inductive Code where
  | command (w : Word)
  | stream (bytes : List Byte)
  deriving DecidableEq, Repr

/-- The decoder: a command word is one instruction; of stream bytes, the bytes are exactly one element's
selecting bytes. -/
def decode : Code → Except DecodeError Instr
  | .command w => decodeCommand w
  | .stream bs =>
    match decodeStream bs with
    | .ok (i, []) => .ok i
    | .ok (_, b :: _) => .error (.notAMarker b)
    | .error e => .error e

/-- `n` bytes of a number, the most significant first: how the bytes of a stream element are numbered by
spec/opcode_table.json (its first byte is its most significant one: 0xFFD8 is FF D8). -/
def bytesBE : Nat → Nat → List Byte
  | 0, _ => []
  | n + 1, w => BitVec.ofNat 8 (w / 256 ^ n) :: bytesBE n w

/-- The instruction the decoder reads from a row's bits (the fixed name of the host). A 32-bit row is a command
word; a row of 8, 16 or 48 bits is a stream element, its bytes in stream order. -/
def decodeTableWord (nbits w : Nat) : Option Instr :=
  if nbits = 32 then (decodeCommand (BitVec.ofNat 32 w)).toOption
  else (decode (.stream (bytesBE (nbits / 8) w))).toOption

/-! ## The encoder -/

/-- `OPC << 24 | IMM` (30_encoding.md R117). -/
def cmdWord (opc : Byte) (imm : BitVec 24) : Word := opc ++ imm

/-- The bits of an instruction, from the same tables. -/
def encode : Instr → Code
  | .sysNop => .command (cmdWord 0x00 0)
  | .sysSreset => .command (cmdWord 0x01 0)
  | .sysOutclr => .command (cmdWord 0x02 0)
  | .bcReset => .command (cmdWord 0x10 0)
  | .bcEnsure v => .command (cmdWord 0x11 (0#19 ++ v))
  | .bcBit => .command (cmdWord 0x12 0)
  | .bcBits v => .command (cmdWord 0x13 (0#19 ++ v))
  | .bcRecvext v => .command (cmdWord 0x14 (0#16 ++ v))
  | .bcIgnore => .command (cmdWord 0x15 0)
  | .bcReadfull => .command (cmdWord 0x16 0)
  | .bcRealign => .command (cmdWord 0x17 0)
  | .bwEmit v => .command (cmdWord 0x18 (0#19 ++ v))
  | .bwFlush => .command (cmdWord 0x19 0)
  | .hufBuild tc th => .command (cmdWord 0x20 (0#16 ++ tc ++ th))
  | .hufDec tc th => .command (cmdWord 0x21 (0#16 ++ tc ++ th))
  | .hufEnc tc th => .command (cmdWord 0x22 (0#16 ++ tc ++ th))
  | .hufEncval tc th => .command (cmdWord 0x23 (0#16 ++ tc ++ th))
  | .hufLoadstd => .command (cmdWord 0x24 0)
  | .dctInv => .command (cmdWord 0x30 0)
  | .dctFwd => .command (cmdWord 0x31 0)
  | .blkLevel => .command (cmdWord 0x32 0)
  | .blkClear v => .command (cmdWord 0x33 (0#22 ++ v))
  | .qtScale => .command (cmdWord 0x40 0)
  | .qtDeq v => .command (cmdWord 0x41 (0#22 ++ v))
  | .qtQuant v => .command (cmdWord 0x42 (0#22 ++ v))
  | .jpgInit => .command (cmdWord 0x50 0)
  | .jpgStep => .command (cmdWord 0x51 0)
  | .jpgDecode => .command (cmdWord 0x52 0)
  | .jpgAssemble => .command (cmdWord 0x53 0)
  | .jpgEncode => .command (cmdWord 0x58 0)
  | .lzwDec => .command (cmdWord 0x60 0)
  | .lzwEnc => .command (cmdWord 0x61 0)
  | .octReset => .command (cmdWord 0x70 0)
  | .octAdd => .command (cmdWord 0x71 0)
  | .octBuild => .command (cmdWord 0x72 0)
  | .octReduce => .command (cmdWord 0x73 0)
  | .octPalette => .command (cmdWord 0x74 0)
  | .octIndex => .command (cmdWord 0x75 0)
  | .octQuantize => .command (cmdWord 0x76 0)
  | .gifInit => .command (cmdWord 0x80 0)
  | .gifHeader => .command (cmdWord 0x81 0)
  | .gifStep => .command (cmdWord 0x82 0)
  | .gifDecode => .command (cmdWord 0x83 0)
  | .gifEbegin => .command (cmdWord 0x88 0)
  | .gifEframe => .command (cmdWord 0x89 0)
  | .gifEend => .command (cmdWord 0x8A 0)
  | .jpegSoi => .stream [0xFF, 0xD8]
  | .jpegEoi => .stream [0xFF, 0xD9]
  | .jpegRst n => .stream [0xFF, 0b11010#5 ++ n]
  | .jpegSof0 => .stream [0xFF, 0xC0]
  | .jpegSof1 => .stream [0xFF, 0xC1]
  | .jpegSof2 => .stream [0xFF, 0xC2]
  | .jpegDht => .stream [0xFF, 0xC4]
  | .jpegDqt => .stream [0xFF, 0xDB]
  | .jpegDri => .stream [0xFF, 0xDD]
  | .jpegSos => .stream [0xFF, 0xDA]
  | .jpegApp0 => .stream [0xFF, 0xE0]
  | .jpegApp1 => .stream [0xFF, 0xE1]
  | .jpegApp2 => .stream [0xFF, 0xE2]
  | .jpegApp3 => .stream [0xFF, 0xE3]
  | .jpegApp4 => .stream [0xFF, 0xE4]
  | .jpegApp5 => .stream [0xFF, 0xE5]
  | .jpegApp6 => .stream [0xFF, 0xE6]
  | .jpegApp7 => .stream [0xFF, 0xE7]
  | .jpegApp8 => .stream [0xFF, 0xE8]
  | .jpegApp9 => .stream [0xFF, 0xE9]
  | .jpegApp10 => .stream [0xFF, 0xEA]
  | .jpegApp11 => .stream [0xFF, 0xEB]
  | .jpegApp12 => .stream [0xFF, 0xEC]
  | .jpegApp13 => .stream [0xFF, 0xED]
  | .jpegApp14 => .stream [0xFF, 0xEE]
  | .jpegApp15 => .stream [0xFF, 0xEF]
  | .jpegCom => .stream [0xFF, 0xFE]
  | .gifSignature => .stream [0x47, 0x49, 0x46, 0x38, 0x39, 0x61]
  | .gifImage => .stream [0x2C]
  | .gifExtGraphicControl => .stream [0x21, 0xF9]
  | .gifExtComment => .stream [0x21, 0xFE]
  | .gifExtApplication => .stream [0x21, 0xFF]
  | .gifExtPlainText => .stream [0x21, 0x01]
  | .gifExtOther l => .stream [0x21, l]
  | .gifTrailer => .stream [0x3B]

end Sys2Proof
end

