-- ==== Sys2Proof/Machine/Lzw.lean ====
section
/-! DEFINITION. The LZW codec and the sub-block reader and packer: 46_lzw.md R370 to R387. The working state of both
directions is hidden state of the machine (10_state.md R60, R61) and is initialised by each use. -/

namespace Sys2Proof.Machine

open Sys2Proof

/-! ## Sub-block reader (R371, R379) -/

/-- One raw byte at IN_POS (R371). -/
def rawByte : Exec Byte := do
  let s ← look id
  raiseIf (s.inLen.toNat ≤ s.inPos.toNat) .endOfStream s.inPos
  alter (·.advance 1)
  pure (Cells.get s.mem.inp s.inPos.toNat)

/-- The sub-block reader's registers. -/
def State.setSub (s : State) (r : Byte) (t : Bool) : State := { s with sub := ⟨r, t⟩ }

/-- `sbByte()` (R371). The loop `while rem = 0` runs at most once: a zero length byte ends the chain. -/
def sbByte : Exec (Option Byte) := do
  let sb ← look (·.sub)
  if sb.term then pure none
  else do
    if sb.rem = 0 then do
      let n ← rawByte
      alter (·.setSub n (decide (n = 0)))
    else pure ()
    let sb ← look (·.sub)
    if sb.term then pure none
    else do
      let b ← rawByte
      alter (·.setSub (sb.rem - 1) false)
      pure (some b)

/-- `skipToTerminator()` (R379): each turn consumes a byte of IN, of which at most IN_LEN are left
(70_reset_and_hazards.md R560 (3)). -/
def skipToTerminator : Exec Unit := do
  let n ← look (·.inLen)
  loopFuel (n.toNat + 1) (do
    let b ← sbByte
    pure b.isSome)

/-! ## Decode (R372 to R378) -/

/-- `acc <- acc | b << nbits; nbits <- nbits + 8` (R372). -/
def State.lzdFeed (s : State) (b : Byte) : State :=
  { s with lzd := { s.lzd with acc := s.lzd.acc ||| (b.setWidth 19 <<< s.lzd.nbits), nbits := s.lzd.nbits + 8 } }

/-- `code = acc & (2^width - 1)` (R372). -/
def LzwDec.code (z : LzwDec) (w : Nat) : Nat := z.acc.toNat % 2 ^ w

/-- `acc <- acc >> width; nbits <- nbits - width` (R372). -/
def State.lzdDrop (s : State) (w : Nat) : State :=
  { s with lzd := { s.lzd with acc := s.lzd.acc >>> w, nbits := s.lzd.nbits - w } }

/-- The filling loop of R372: `true` when `w` bits are there, `false` when the chain ended first. A code of at most
12 bits needs at most two bytes. -/
def fillCode : Nat → Nat → Exec Bool
  | 0, _ => pure true
  | k + 1, w => do
    let nb ← look (·.lzd.nbits)
    if nb < w then do
      let b ← sbByte
      match b with
      | none => pure false
      | some v => do
        alter (·.lzdFeed v)
        fillCode k w
    else pure true

/-- `readCode(width)` (R372). -/
def readCode (w : Nat) : Exec (Option Nat) := do
  let ok ← fillCode 2 w
  if ok then do
    let c ← look (·.lzd.code w)
    alter (·.lzdDrop w)
    pure (some c)
  else pure none

/-- The walk of R374: codes from CC up have a prefix and a suffix, and prepend. At most 4096 steps (R560 (5)). -/
def LzwDec.expandFuel (z : LzwDec) (cc : Nat) : Nat → Nat → List Byte → List Byte
  | 0, _, acc => acc
  | k + 1, c, acc =>
    if c ≥ cc then z.expandFuel cc k (Cells.get z.pfx c).toNat (Cells.get z.sfx c :: acc)
    else BitVec.ofNat 8 c :: acc

/-- `expand(c)` (R374). -/
def LzwDec.expand (z : LzwDec) (cc c : Nat) : List Byte := z.expandFuel cc 4096 c []

/-- `IDX[a ..] <- bs`. -/
def State.storeIdx (s : State) (a : Nat) (bs : List Byte) : State :=
  { s with mem := { s.mem with idx := Cells.setRange s.mem.idx a bs } }

/-- `prev <- code`. -/
def State.lzdPrev (s : State) (p : Option (BitVec 12)) : State := { s with lzd := { s.lzd with prev := p } }

/-- State at the start of a decode and after a ClearCode (R373): `width`, `avail`, `prev`. -/
def State.lzdClear (s : State) (bitDepth : Nat) : State :=
  { s with lzd := { s.lzd with width := bitDepth + 1, avail := 2 ^ bitDepth + 2, prev := none } }

/-- The start of `lzwDecode` (R373): everything of R60 and R61. -/
def State.lzdStart (s : State) (bitDepth : Nat) : State :=
  { s with
    lzd := { s.lzd with width := bitDepth + 1, avail := 2 ^ bitDepth + 2, prev := none, acc := 0, nbits := 0 }
    sub := SubBlocks.fresh }

/-- A new entry, with the width growth of R376. -/
def State.lzdAdd (s : State) (p : BitVec 12) (v : Byte) : State :=
  if s.lzd.avail < 4096 then
    { s with lzd := { s.lzd with
        pfx := Cells.set s.lzd.pfx s.lzd.avail p
        sfx := Cells.set s.lzd.sfx s.lzd.avail v
        avail := s.lzd.avail + 1
        width := if s.lzd.avail + 1 = 2 ^ s.lzd.width ∧ s.lzd.width < 12 then s.lzd.width + 1 else s.lzd.width } }
  else s

/-- The string of a code that follows `p` (R375): an entry, or the entry being made right now. -/
def LzwDec.string (z : LzwDec) (cc code : Nat) (p : BitVec 12) : List Byte :=
  if code < z.avail then z.expand cc code
  else z.expand cc p.toNat ++ [byteAt (z.expand cc p.toNat) 0]

/-- One data code, neither ClearCode nor EndCode (R375); answers the new `cnt`. -/
def dataCode (cc npix cnt code : Nat) : Exec Nat := do
  let z ← look (·.lzd)
  match z.prev with
  | none => do
    raiseIf (code ≥ cc) .lzwBadCode (wordN code)
    alter (fun s => (s.storeIdx cnt [BitVec.ofNat 8 code]).lzdPrev (some (BitVec.ofNat 12 code)))
    pure (cnt + 1)
  | some p => do
    raiseIf (¬ (code < z.avail ∨ (code = z.avail ∧ z.avail < 4096))) .lzwBadCode (wordN code)
    let str := z.string cc code p
    let kept := str.take (npix - cnt)
    alter (fun s =>
      ((s.storeIdx cnt kept).lzdAdd p (byteAt str 0)).lzdPrev (some (BitVec.ofNat 12 code)))
    pure (cnt + kept.length)

/-- The code loop of R373; answers `(cnt, trunc)`. Each turn takes at least 3 bits of the chain (R560 (3)). -/
def codeLoop (bitDepth npix : Nat) : Nat → Nat → Exec (Nat × Bool)
  | 0, cnt => pure (cnt, false)
  | k + 1, cnt => do
    if cnt < npix then do
      let w ← look (·.lzd.width)
      let c ← readCode w
      match c with
      | none => pure (cnt, true)
      | some code =>
        if code = 2 ^ bitDepth then do
          alter (·.lzdClear bitDepth)
          codeLoop bitDepth npix k cnt
        else if code = 2 ^ bitDepth + 1 then pure (cnt, false)
        else do
          let cnt' ← dataCode (2 ^ bitDepth) npix cnt code
          codeLoop bitDepth npix k cnt'
    else pure (cnt, false)

/-- `IDX[cnt .. npix-1] <- 0` (R373, R377). -/
def State.zeroIdx (s : State) (cnt npix : Nat) : State :=
  { s with mem := { s.mem with idx := Cells.clearRange s.mem.idx cnt (npix - cnt) } }

/-- `lzwDecode(bitDepth, npix)` (R373). -/
def lzwDecode (bitDepth npix : Nat) : Exec (Nat × Bool) := do
  raiseIf (bitDepth < 2 ∨ bitDepth > 8) .badLzwCodeSize (wordN bitDepth)
  alter (·.lzdStart bitDepth)
  let n ← look (·.inLen)
  let r ← codeLoop bitDepth npix (8 * n.toNat + 2) 0
  skipToTerminator
  alter (·.zeroIdx r.1 npix)
  pure r

/-! ## Encode (R381 to R385) -/

/-- The pending sub-block. -/
def State.lzeBlk (s : State) (bs : List Byte) : State := { s with lze := { s.lze with blk := bs } }

/-- `putByte(b)` (R384). -/
def putByte (b : Byte) : Exec Unit := do
  alter (fun s => s.lzeBlk (s.lze.blk ++ [b]))
  let blk ← look (·.lze.blk)
  if blk.length = 255 then do
    out 255
    outAll blk
    alter (·.lzeBlk [])
  else pure ()

/-- The byte loop of `emit` (R384). -/
def packLoop : Nat → Exec Unit
  | 0 => pure ()
  | k + 1 => do
    let z ← look (·.lze)
    putByte (z.acc.setWidth 8)
    alter (fun s => { s with lze := { s.lze with acc := s.lze.acc >>> (8 : Nat), nbits := s.lze.nbits - 8 } })
    packLoop k

/-- `emit(code)` (R384): the loop `while nbits >= 8` runs `nbits div 8` times. -/
def emitCode (code : Nat) : Exec Unit := do
  alter (fun s => { s with lze := { s.lze with
    acc := s.lze.acc ||| (BitVec.ofNat 19 code <<< s.lze.nbits), nbits := s.lze.nbits + s.lze.width } })
  let nb ← look (·.lze.nbits)
  packLoop (nb / 8)

/-- `D[(prefix, s)]`. -/
def LzwEnc.lookup (z : LzwEnc) (p : BitVec 12) (v : Byte) : Option (BitVec 12) :=
  (z.dict.find? (fun e => e.1 == (p, v))).map Prod.snd

/-- The width test on the code just assigned (R382). -/
def LzwEnc.grow (z : LzwEnc) : LzwEnc :=
  if z.nxt = 2 ^ z.width ∧ z.width < 12 then { z with width := z.width + 1 } else z

/-- `D[(prefix, s)] <- nxt`, the width test, `nxt <- nxt + 1` (R381). -/
def LzwEnc.add (z : LzwEnc) (p : BitVec 12) (v : Byte) : LzwEnc :=
  { { z with dict := ((p, v), BitVec.ofNat 12 z.nxt) :: z.dict }.grow with nxt := z.nxt + 1 }

/-- The start, and the restart after a mid-stream ClearCode (R381, R383). -/
def LzwEnc.clear (z : LzwEnc) (bitDepth : Nat) : LzwEnc :=
  { z with dict := [], width := bitDepth + 1, nxt := 2 ^ bitDepth + 2 }

/-- A change of the encode state. -/
def State.onLze (s : State) (f : LzwEnc → LzwEnc) : State := { s with lze := f s.lze }

/-- The symbol loop of R381 with the prefix and the count of mid-stream clears; answers both at the end. -/
def encodeLoop (bitDepth : Nat) : List Byte → BitVec 12 → Nat → Exec (BitVec 12 × Nat)
  | [], p, clears => pure (p, clears)
  | v :: vs, p, clears => do
    let z ← look (·.lze)
    match z.lookup p v with
    | some q => encodeLoop bitDepth vs q clears
    | none => do
      emitCode p.toNat
      if z.nxt < 4096 then do
        alter (·.onLze (·.add p v))
        encodeLoop bitDepth vs (v.setWidth 12) clears
      else do
        emitCode (2 ^ bitDepth)
        alter (·.onLze (·.clear bitDepth))
        encodeLoop bitDepth vs (v.setWidth 12) (clears + 1)

/-- Finish (R385). -/
def encodeFinish : Exec Unit := do
  let z ← look (·.lze)
  if z.nbits > 0 then putByte (z.acc.setWidth 8) else pure ()
  alter (·.onLze (fun z => { z with acc := 0, nbits := 0 }))
  let blk ← look (·.lze.blk)
  if blk.length > 0 then do
    out (BitVec.ofNat 8 blk.length)
    outAll blk
  else pure ()
  out 0

/-- The data codes of R381 for a non-empty input. -/
def encodeData (bitDepth : Nat) : List Byte → Exec Nat
  | [] => pure 0
  | v :: vs => do
    let r ← encodeLoop bitDepth vs (v.setWidth 12) 0
    emitCode r.1.toNat
    alter (·.onLze LzwEnc.grow)
    pure r.2

/-- `lzwEncode(bitDepth, n)` (R381); answers the number of mid-stream ClearCodes. -/
def lzwEncode (bitDepth n : Nat) : Exec Nat := do
  raiseIf (bitDepth < 2 ∨ bitDepth > 8) .badLzwCodeSize (wordN bitDepth)
  let vs ← look (fun s => Cells.getRange s.mem.idx 0 n)
  let bad := vs.find? (fun v => decide (v.toNat ≥ 2 ^ bitDepth))
  raiseIf (bad ≠ none) .badColorIndex ((bad.getD 0).setWidth 32)
  alter (·.onLze (fun z => ({ z with acc := 0, nbits := 0, blk := [] } : LzwEnc).clear bitDepth))
  emitCode (2 ^ bitDepth)
  let clears ← encodeData bitDepth vs
  emitCode (2 ^ bitDepth + 1)
  encodeFinish
  pure clears

/-! ## Commands -/

/-- LZW.DEC (R373). -/
def execLzwDec (s : State) : Host.Outcome State Fault Refusal :=
  runCmd 0x60 (do
    let depth ← look (·.arg0)
    let npix ← look (·.arg1)
    let cap ← look (·.caps.pixCap)
    raiseIf (npix.toNat > cap) .capacityExceeded 4
    let r ← lzwDecode depth.toNat npix.toNat
    alter (fun s => { s.setTrunc r.2 with res0 := wordN r.1 })) s

/-- LZW.ENC (R381). -/
def execLzwEnc (s : State) : Host.Outcome State Fault Refusal :=
  runCmd 0x61 (do
    let depth ← look (·.arg0)
    let n ← look (·.arg1)
    let cap ← look (·.caps.pixCap)
    raiseIf (n.toNat > cap) .capacityExceeded 4
    let clears ← lzwEncode depth.toNat n.toNat
    alter (fun s => { s with res0 := wordN clears })) s

end Sys2Proof.Machine
end

