-- ==== Sys2Proof/Machine/Octree.lean ====
section
/-! DEFINITION. The octree colour quantiser: 47_octree.md R400 to R411. -/

namespace Sys2Proof.Machine

open Sys2Proof

/-! ## Pixel words (10_state.md R55) -/

/-- `R = p[7:0]`. -/
def pixR (p : Word) : Byte := p.extractLsb' 0 8
/-- `G = p[15:8]`. -/
def pixG (p : Word) : Byte := p.extractLsb' 8 8
/-- `B = p[23:16]`. -/
def pixB (p : Word) : Byte := p.extractLsb' 16 8
/-- `A = p[31:24]`. -/
def pixA (p : Word) : Byte := p.extractLsb' 24 8

/-- `a < OCT_ATHRESH` (R403): the pixel is transparent. -/
def State.transparent (s : State) (p : Word) : Bool := decide ((pixA p).toNat < s.octAthresh.toNat)

/-! ## The tree -/

/-- `childIndex(r, g, b, level)` of a pixel, `level` in 0..7 (R402). -/
def childIndex (p : Word) (level : Nat) : BitVec 3 :=
  (pixR p).extractLsb' (7 - level) 1 ++ (pixG p).extractLsb' (7 - level) 1 ++ (pixB p).extractLsb' (7 - level) 1

/-- `n.child[i]`. -/
def OctTree.child : OctTree → BitVec 3 → OctTree
  | .none, _ => .none
  | .node _ c0 c1 c2 c3 c4 c5 c6 c7, i =>
    match i.toNat with
    | 0 => c0
    | 1 => c1
    | 2 => c2
    | 3 => c3
    | 4 => c4
    | 5 => c5
    | 6 => c6
    | _ => c7

/-- `n.child[i] <- c`. -/
def OctTree.setChild : OctTree → BitVec 3 → OctTree → OctTree
  | .none, _, _ => .none
  | .node d c0 c1 c2 c3 c4 c5 c6 c7, i, c =>
    match i.toNat with
    | 0 => .node d c c1 c2 c3 c4 c5 c6 c7
    | 1 => .node d c0 c c2 c3 c4 c5 c6 c7
    | 2 => .node d c0 c1 c c3 c4 c5 c6 c7
    | 3 => .node d c0 c1 c2 c c4 c5 c6 c7
    | 4 => .node d c0 c1 c2 c3 c c5 c6 c7
    | 5 => .node d c0 c1 c2 c3 c4 c c6 c7
    | 6 => .node d c0 c1 c2 c3 c4 c5 c c7
    | _ => .node d c0 c1 c2 c3 c4 c5 c6 c

/-- A node of R400 with depth `d`, count and sums 0, no children; a leaf if it is made at depth 8. -/
def newNode (d : Nat) : OctTree :=
  .node ⟨0, 0, 0, 0, decide (d = 8), Fin.ofNat 9 d, none⟩ .none .none .none .none .none .none .none .none

/-- `accumulate(n)` (R403). -/
def OctData.accumulate (d : OctData) (p : Word) : OctData :=
  { d with
    count := d.count + 1
    sr := d.sr + (pixR p).setWidth 40
    sg := d.sg + (pixG p).setWidth 40
    sb := d.sb + (pixB p).setWidth 40 }

/-- `accumulate` at the top node of a tree. -/
def OctTree.accumulate : OctTree → Word → OctTree
  | .none, _ => .none
  | .node d c0 c1 c2 c3 c4 c5 c6 c7, p => .node (d.accumulate p) c0 c1 c2 c3 c4 c5 c6 c7

/-- `n.leaf = 1`. -/
def OctTree.isLeaf : OctTree → Bool
  | .none => false
  | .node d _ _ _ _ _ _ _ _ => d.leaf

/-- `n = none`. -/
def OctTree.isNone : OctTree → Bool
  | .none => true
  | .node _ _ _ _ _ _ _ _ _ => false

/-- `n.count`, 0 where there is no node. -/
def OctTree.count : OctTree → BitVec 32
  | .none => 0
  | .node d _ _ _ _ _ _ _ _ => d.count

/-- What one pixel does below some position of the tree: the subtree there afterwards, NODES, OCT_LEAVES, and whether
`newNode` found the store full. -/
structure Growth where
  tree : OctTree
  nodes : Nat
  leaves : Nat
  full : Bool
  deriving DecidableEq, Repr

/-- The path of a pixel from a position at depth `d` on (R403): the node is made if absent, accumulates, and the walk
goes on below it until a leaf; `n` is a bound on the depths left. -/
def growPath (cap : Nat) (p : Word) : Nat → Nat → OctTree → Nat → Nat → Growth
  | 0, _, t, nodes, leaves => ⟨t, nodes, leaves, false⟩
  | n + 1, d, t, nodes, leaves =>
    if t.isNone ∧ nodes = cap then ⟨t, nodes, leaves, true⟩
    else
      let nodes' := if t.isNone then nodes + 1 else nodes
      let leaves' := if t.isNone ∧ d = 8 then leaves + 1 else leaves
      let here := (if t.isNone then newNode d else t).accumulate p
      if here.isLeaf then ⟨here, nodes', leaves', false⟩
      else
        let i := childIndex p d
        let g := growPath cap p n (d + 1) (here.child i) nodes' leaves'
        { g with tree := here.setChild i g.tree }

/-- `OCT_FLAGS.PALOK <- 0`. -/
def State.palStale (s : State) : State := { s with oct := { s.oct with palOk := false } }

/-- `OCT_FLAGS.ANYT <- 1`. -/
def State.sawTransparent (s : State) : State := { s with oct := { s.oct with anyT := true } }

/-- The tree after one pixel. -/
def State.putGrowth (s : State) (g : Growth) : State :=
  { s with oct := { s.oct with root := g.tree, nodes := g.nodes, leaves := g.leaves } }

/-- The growth of the tree by one opaque pixel; a path has nine nodes. -/
def State.growth (s : State) (p : Word) : Growth :=
  growPath s.caps.octNodeCap p 9 0 s.oct.root s.oct.nodes s.oct.leaves

/-- `octAdd(p)` (R403). After a full store the nodes made and the sums added so far stay. -/
def octAdd (p : Word) : Exec Unit := do
  alter State.palStale
  let tr ← look (·.transparent p)
  if tr then alter State.sawTransparent
  else do
    let root ← look (·.oct.root)
    raiseIf (root.count = 0xFFFFFFFF) .capacityExceeded 6
    let g ← look (·.growth p)
    alter (·.putGrowth g)
    raiseIf (g.full = true) .capacityExceeded 5

/-- `octReset()` (R401). -/
def State.octReset (s : State) : State := { s with oct := Octree.empty }

/-! ## Reduction (R405) -/

/-- An interior node in a preorder listing: the child numbers leading to it, its depth, count and number of children. -/
structure Interior where
  path : List (BitVec 3)
  depth : Nat
  count : Nat
  kids : Nat
  deriving DecidableEq, Repr

/-- 1 for a node, 0 for `none`. -/
def OctTree.one (t : OctTree) : Nat := if t.isNone then 0 else 1

/-- The interior nodes in preorder, a node before its children, children 0..7 ascending; `path` leads to the tree, the
latest step first. -/
def OctTree.interiors : OctTree → List (BitVec 3) → List Interior
  | .none, _ => []
  | .node d c0 c1 c2 c3 c4 c5 c6 c7, path =>
    (if d.leaf then []
      else [⟨path.reverse, d.depth.val, d.count.toNat,
        c0.one + c1.one + c2.one + c3.one + c4.one + c5.one + c6.one + c7.one⟩]) ++
    (c0.interiors (0 :: path) ++ (c1.interiors (1 :: path) ++ (c2.interiors (2 :: path) ++
      (c3.interiors (3 :: path) ++ (c4.interiors (4 :: path) ++ (c5.interiors (5 :: path) ++
        (c6.interiors (6 :: path) ++ c7.interiors (7 :: path))))))))

/-- `best.child[0..7] <- none; best.leaf <- 1` at the end of a path. -/
def OctTree.mergeAt : OctTree → List (BitVec 3) → OctTree
  | .none, _ => .none
  | .node d _ _ _ _ _ _ _ _, [] =>
    .node { d with leaf := true } .none .none .none .none .none .none .none .none
  | t, i :: path => t.setChild i ((t.child i).mergeAt path)

/-- The first of the list whose count is the least. -/
def leastCount : List Interior → Option Interior
  | [] => none
  | x :: xs =>
    match leastCount xs with
    | none => some x
    | some y => if x.count ≤ y.count then some x else some y

/-- `best` of R405: at the largest depth of any interior node, the first in preorder whose count is the least. -/
def OctTree.best (t : OctTree) : Option Interior :=
  let all := t.interiors []
  let deepest := all.foldl (fun m x => max m x.depth) 0
  leastCount (all.filter (fun x => x.depth == deepest))

/-- One turn of the loop of R405. -/
def Octree.merge (o : Octree) (b : Interior) : Octree :=
  { o with
    root := o.root.mergeAt b.path
    nodes := o.nodes - b.kids
    leaves := o.leaves - b.kids + 1
    palOk := false }

/-- The loop of R405: every merge removes one interior node, so as many turns as there are interior nodes are enough
(70_reset_and_hazards.md R560 (7)). -/
def Octree.reduceFuel (maxc : Nat) : Nat → Octree → Octree
  | 0, o => o
  | k + 1, o =>
    if o.leaves > maxc then
      match o.root.best with
      | .none => { o with palOk := false }
      | .some b => Octree.reduceFuel maxc k (o.merge b)
    else o

/-- `octReduce(maxc)` (R405). -/
def State.octReduce (s : State) (maxc : Nat) : State :=
  { s with oct := Octree.reduceFuel maxc ((s.oct.root.interiors []).length + 1) s.oct }

/-! ## Palette (R406) -/

/-- The palette word of a leaf: average colour, alpha 255 (R406). -/
def OctData.palWord (d : OctData) : Word :=
  0xFF#8 ++ BitVec.ofNat 8 (d.sr.toNat / d.count.toNat) ++ BitVec.ofNat 8 (d.sg.toNat / d.count.toNat) ++
    BitVec.ofNat 8 (d.sb.toNat / d.count.toNat)

/-- `visit(n)` (R406): the tree with the leaves numbered from `k` on, and the palette entries in order. -/
def OctTree.visit : OctTree → Nat → OctTree × List Word
  | .none, _ => (.none, [])
  | .node d c0 c1 c2 c3 c4 c5 c6 c7, k =>
    if d.leaf then
      (.node { d with pal := Option.some (BitVec.ofNat 8 k) } c0 c1 c2 c3 c4 c5 c6 c7, [d.palWord])
    else
      let v0 := c0.visit k
      let v1 := c1.visit (k + v0.2.length)
      let p1 := v0.2 ++ v1.2
      let v2 := c2.visit (k + p1.length)
      let p2 := p1 ++ v2.2
      let v3 := c3.visit (k + p2.length)
      let p3 := p2 ++ v3.2
      let v4 := c4.visit (k + p3.length)
      let p4 := p3 ++ v4.2
      let v5 := c5.visit (k + p4.length)
      let p5 := p4 ++ v5.2
      let v6 := c6.visit (k + p5.length)
      let p6 := p5 ++ v6.2
      let v7 := c7.visit (k + p6.length)
      (.node d v0.1 v1.1 v2.1 v3.1 v4.1 v5.1 v6.1 v7.1, p6 ++ v7.2)

/-- ANYT as a number. -/
def Octree.anyN (o : Octree) : Nat := if o.anyT then 1 else 0

/-- The palette of R406: the colours, then the transparent entry if there is one. -/
def Octree.palette (o : Octree) : List Word :=
  (o.root.visit 0).2 ++ (if o.anyT then [0] else [])

/-- The writes of `octPalette()` (R406); PAL entries at and above PAL_LEN become 0. -/
def State.putPalette (s : State) : State :=
  let v := s.oct.root.visit 0
  { s with
    oct := { s.oct with root := v.1, palOk := true }
    transpIdx := if s.oct.anyT then wordN v.2.length else 0xFFFFFFFF
    palLen := BitVec.ofNat 9 s.oct.palette.length
    mem := { s.mem with pal := Cells.setRange (Cells.clearRange s.mem.pal 0 256) 0 s.oct.palette } }

/-- `octPalette()` (R406). -/
def octPalette : Exec Unit := do
  let o ← look (·.oct)
  raiseIf (o.leaves + o.anyN > 256) .paletteTooSmall (wordN (o.leaves + o.anyN))
  alter State.putPalette

/-! ## Index assignment (R407) -/

/-- The walk of R407 from `level` on: the node where it ends. -/
def OctTree.walk (p : Word) : Nat → Nat → OctTree → OctTree
  | 0, _, t => t
  | n + 1, level, t =>
    if t.isNone ∨ t.isLeaf then t
    else OctTree.walk p n (level + 1) (t.child (childIndex p level))

/-- `n.pal` as a result: −1 where no palette was built. -/
def OctTree.palWord32 : OctTree → Word
  | .none => 0xFFFFFFFF
  | .node d _ _ _ _ _ _ _ _ =>
    match d.pal with
    | .some v => v.setWidth 32
    | .none => 0xFFFFFFFF

/-- `octIndex(p)` (R407). The walk ends after at most 8 steps. -/
def octIndex (p : Word) : Exec Word := do
  let s ← look id
  raiseIf (s.oct.palOk = false) .badState 0
  if s.transparent p then do
    raiseIf (s.transpIdx = 0xFFFFFFFF) .octreeNoPath p
    pure s.transpIdx
  else do
    let n := OctTree.walk p 8 0 s.oct.root
    raiseIf (n.isNone = true) .octreeNoPath p
    pure n.palWord32

/-! ## The whole operation (R404, R408) -/

/-- PIX[i]. -/
def State.pixAt (s : State) (i : Nat) : Word := Cells.get s.mem.pix i

/-- `for i in 0..n-1: octAdd(PIX[i])`. -/
def addPixels (n : Nat) : Exec Unit := do
  let ps ← look (fun s => Cells.getRange s.mem.pix 0 n)
  forEach ps octAdd

/-- `IDX[i] <- v`. -/
def State.setIdx (s : State) (i : Nat) (v : Byte) : State :=
  { s with mem := { s.mem with idx := Cells.set s.mem.idx i v } }

/-- `IDX[i] <- octIndex(PIX[i])`. -/
def indexPixel (i : Nat) : Exec Unit := do
  let p ← look (·.pixAt i)
  let v ← octIndex p
  alter (·.setIdx i (v.setWidth 8))

/-- `octQuantize(req)` (R408). -/
def octQuantize (req : Nat) : Exec Unit := do
  raiseIf (req < 1 ∨ req > 256) .badArgument (wordN req)
  let s ← look id
  let n := s.pixW * s.pixH
  raiseIf (n > s.caps.pixCap) .capacityExceeded 4
  alter State.octReset
  addPixels n
  let o ← look (·.oct)
  raiseIf (o.anyT = true ∧ o.root.isNone = false ∧ req = 1) .paletteTooSmall 1
  if o.root.isNone then pure () else alter (·.octReduce (req - o.anyN))
  octPalette
  forUpTo n indexPixel

/-! ## Commands -/

/-- OCT.RESET (R401). -/
def execOctReset (s : State) : Host.Outcome State Fault Refusal :=
  runCmd 0x70 (alter State.octReset) s

/-- OCT.ADD (R403). -/
def execOctAdd (s : State) : Host.Outcome State Fault Refusal :=
  runCmd 0x71 (do
    let p ← look (·.arg0)
    octAdd p) s

/-- OCT.BUILD (R404). -/
def execOctBuild (s : State) : Host.Outcome State Fault Refusal :=
  runCmd 0x72 (do
    let s ← look id
    raiseIf (s.pixW * s.pixH > s.caps.pixCap) .capacityExceeded 4
    addPixels (s.pixW * s.pixH)) s

/-- OCT.REDUCE (R405). -/
def execOctReduce (s : State) : Host.Outcome State Fault Refusal :=
  runCmd 0x73 (do
    let m ← look (·.arg0)
    raiseIf (m.toNat < 1 ∨ m.toNat > 256) .badArgument m
    alter (·.octReduce m.toNat)) s

/-- OCT.PALETTE (R406). -/
def execOctPalette (s : State) : Host.Outcome State Fault Refusal :=
  runCmd 0x74 octPalette s

/-- OCT.INDEX (R407). -/
def execOctIndex (s : State) : Host.Outcome State Fault Refusal :=
  runCmd 0x75 (do
    let p ← look (·.arg0)
    let v ← octIndex p
    alter (fun s => { s with res0 := v })) s

/-- OCT.QUANTIZE (R408). -/
def execOctQuantize (s : State) : Host.Outcome State Fault Refusal :=
  runCmd 0x76 (do
    let req ← look (·.arg0)
    octQuantize req.toNat) s

end Sys2Proof.Machine
end

