-- ==== Sys2Proof/Machine/Gif.lean ====
section
/-! DEFINITION. The GIF container, decode and encode: 48_gif.md R430 to R468, with the GIF commands and the elements
of a GIF stream (30_encoding.md R140 to R148), which are the instructions GIF.HEADER, GIF.STEP and GIF.DECODE run
(log 3). -/

namespace Sys2Proof.Machine

open Sys2Proof

/-! ## Decode: state -/

/-- G_STATE[2:0] (10_state.md R66). -/
def GifState.num : GifState → Nat
  | .awaitHeader => 0
  | .sections => 1
  | .done => 2
  | .failed => 3

/-- `G_STATE <- st`. -/
def State.setGifState (s : State) (st : GifState) : State := { s with gif := { s.gif with state := st } }

/-- "Any fault raised inside `gifHeader` (`gifStep`) additionally sets `G_STATE <- 3`" (R431, R435). -/
def failingGif {α : Type} (m : Exec α) : Exec α := onRaise (·.setGifState .failed) m

/-- `sw`. -/
def State.sw (s : State) : Nat := s.gif.screenW.toNat

/-- `sh`. -/
def State.sh (s : State) : Nat := s.gif.screenH.toNat

/-- `if gstate != st: raise BadState(gstate)`. -/
def requireGif (st : GifState) : Exec Unit := do
  let g ← look (·.gif.state)
  raiseIf (g ≠ st) .badState (wordN g.num)

/-! ## Colour tables (30_encoding.md R141) -/

/-- Three bytes an entry, R, G, B, as words `R | G<<8 | B<<16`. -/
def colours : List Byte → List Word
  | r :: g :: b :: rest => (0#8 ++ b ++ g ++ r) :: colours rest
  | _ => []

/-- A colour table of `n` entries at IN_POS. -/
def readColours (n : Nat) : Exec (List Word) := do
  let t ← gRead (3 * n)
  pure (colours t)

/-- Entries of a table whose size field is `f`: `2^(f + 1)`. -/
def tableSize (packed : Byte) : Nat := 2 ^ ((packed.extractLsb' 0 3).toNat + 1)

/-- GCT cleared and its first entries written (R431). -/
def State.putGct (s : State) (cs : List Word) : State :=
  { s with mem := { s.mem with gct := Cells.setRange (Cells.clearRange s.mem.gct 0 256) 0 cs } }

/-- LCT cleared and its first entries written (R437). -/
def State.putLct (s : State) (cs : List Word) : State :=
  { s with mem := { s.mem with lct := Cells.setRange (Cells.clearRange s.mem.lct 0 256) 0 cs } }

/-! ## Header (R431) -/

/-- "GIF89a" (30_encoding.md R140). -/
def gifMagic : List Byte := [0x47, 0x49, 0x46, 0x38, 0x39, 0x61]

/-- G_SCREEN and G_LSD from the screen descriptor's seven bytes (R431). -/
def State.putScreen (s : State) (p : List Byte) : State :=
  { s with gif := { s.gif with
      screenW := u16le (byteAt p 0) (byteAt p 1)
      screenH := u16le (byteAt p 2) (byteAt p 3)
      packed := byteAt p 4
      background := byteAt p 5
      aspect := byteAt p 6 } }

/-- `CANVAS[0 .. n-1] <- 0`. -/
def State.clearCanvas (s : State) (n : Nat) : State :=
  { s with mem := { s.mem with canvas := Cells.clearRange s.mem.canvas 0 n } }

/-- `gifHeader()` after its signature: the logical screen descriptor and the global table (R431). -/
def gifScreen : Exec Unit := do
  let p ← gRead 7
  let w := u16le (byteAt p 0) (byteAt p 1)
  let h := u16le (byteAt p 2) (byteAt p 3)
  raiseIf (w = 0 ∨ h = 0) .badDimensions (h ++ w)
  let cap ← look (·.caps.pixCap)
  raiseIf (w.toNat * h.toNat > cap) .capacityExceeded 4
  alter (fun s => (s.putScreen p).putGct [])
  if (byteAt p 4).getLsbD 7 then do
    let cs ← readColours (tableSize (byteAt p 4))
    alter (·.putGct cs)
  else pure ()
  alter (·.clearCanvas (w.toNat * h.toNat))
  alter (·.setGifState .sections)

/-- `gifHeader()` (R431). -/
def gifHeader : Exec Unit := do
  let p ← gRead 6
  raiseIf (p ≠ gifMagic) .badSignature 0
  gifScreen

/-! ## Sections (R435 to R443) -/

/-- Graphic Control, entered after `21 F9` (R436). -/
def graphicControl : Exec Unit := do
  let p ← gRead 6
  raiseIf (byteAt p 0 ≠ 4) .badSectionLength ((byteAt p 0).setWidth 32)
  raiseIf (byteAt p 5 ≠ 0) .badSectionLength (0x100 ||| (byteAt p 5).setWidth 32)
  alter (fun s => { s with gif := { s.gif with gc :=
    { valid := true
      tflag := (byteAt p 1).getLsbD 0
      disposal := (byteAt p 1).extractLsb' 2 3
      tindex := byteAt p 4
      delay := u16le (byteAt p 2) (byteAt p 3) } } })

/-- `skipExtension()` (R443). -/
def skipExtension : Exec Unit := do
  alter (fun s => { s with sub := SubBlocks.fresh })
  skipToTerminator

/-- The image descriptor (30_encoding.md R144). -/
structure ImageDesc where
  left : BitVec 16
  top : BitVec 16
  w : BitVec 16
  h : BitVec 16
  packed : Byte
  deriving DecidableEq, Repr

/-- The nine bytes of a descriptor. -/
def ImageDesc.ofBytes (p : List Byte) : ImageDesc where
  left := u16le (byteAt p 0) (byteAt p 1)
  top := u16le (byteAt p 2) (byteAt p 3)
  w := u16le (byteAt p 4) (byteAt p 5)
  h := u16le (byteAt p 6) (byteAt p 7)
  packed := byteAt p 8

/-- `packed[7]`: a local colour table follows. -/
def ImageDesc.hasLocal (d : ImageDesc) : Bool := d.packed.getLsbD 7

/-- `packed[6]`: interlaced. -/
def ImageDesc.interlaced (d : ImageDesc) : Bool := d.packed.getLsbD 6

/-- The rows of an interlaced image in data order (R447). -/
def rows (h : Nat) : List Nat :=
  (List.range h).filter (fun y => y % 8 == 0) ++ (List.range h).filter (fun y => y % 8 == 4) ++
    (List.range h).filter (fun y => y % 4 == 2) ++ (List.range h).filter (fun y => y % 2 == 1)

/-- `rowOf(r, h)` for every `r`, or `r` itself without the flag (R447). -/
def ImageDesc.rowOrder (d : ImageDesc) : List Nat :=
  if d.interlaced then rows d.h.toNat else List.range d.h.toNat

/-- The active colour table (R437). -/
def State.colour (s : State) (d : ImageDesc) (i : Byte) : Word :=
  Cells.get (if d.hasLocal then s.mem.lct else s.mem.gct) i.toNat

/-- `tsize` (R437). -/
def State.tsize (s : State) (d : ImageDesc) : Nat :=
  if d.hasLocal then tableSize d.packed else tableSize s.gif.packed

/-- A rectangle of CANVAS becomes transparent black (R445). -/
def clearRect (c : Cells 32) (sw l t w h : Nat) : Cells 32 :=
  (List.range h).foldl (fun c y => Cells.clearRange c ((t + y) * sw + l) w) c

/-- CANVAS with the previous frame's rectangle cleared (R445). -/
def State.clearedPrev (s : State) : Cells 32 :=
  clearRect s.mem.canvas s.sw s.gif.prevLeft.toNat s.gif.prevTop.toNat s.gif.prevW.toNat s.gif.prevH.toNat

/-- `disposePrevious()` (R445). -/
def State.disposePrevious (s : State) : State :=
  if s.gif.prevDisposal = 2 then
    { s with mem := { s.mem with canvas := s.clearedPrev } }
  else if s.gif.prevDisposal = 3 then
    { s with mem := { s.mem with canvas := Cells.copyFront s.mem.canvas s.mem.snap (s.sw * s.sh) } }
  else s

/-- `SNAP[0 .. sw*sh-1] <- CANVAS[0 .. sw*sh-1]` (R446). -/
def State.snapshot (s : State) : State :=
  { s with mem := { s.mem with snap := Cells.copyFront s.mem.snap s.mem.canvas (s.sw * s.sh) } }

/-- The graphic control that applies: the pending one, or none (R437, R448). -/
def State.control (s : State) : GraphicControl :=
  if s.gif.gc.valid then s.gif.gc else GraphicControl.zero

/-- `CANVAS[i] <- v`. -/
def State.setCanvas (s : State) (i : Nat) (v : Word) : State :=
  { s with mem := { s.mem with canvas := Cells.set s.mem.canvas i v } }

/-- One pixel of the composite: index `r*w + x` of the data goes to column `x` of image row `y` (R437). -/
def compositePixel (d : ImageDesc) (gc : GraphicControl) (r y x : Nat) : Exec Unit := do
  let s ← look id
  let i := Cells.get s.mem.idx (r * d.w.toNat + x)
  if gc.tflag ∧ i = gc.tindex then pure ()
  else do
    raiseIf (i.toNat ≥ s.tsize d) .badColorIndex (i.setWidth 32)
    alter (·.setCanvas ((d.top.toNat + y) * s.sw + d.left.toNat + x) (s.colour d i ||| 0xFF000000))

/-- The composite loop in data order (R437, R447). -/
def composite (d : ImageDesc) (gc : GraphicControl) : Exec Unit :=
  forEach ((List.range d.h.toNat).zip d.rowOrder) (fun ry =>
    forUpTo d.w.toNat (fun x => compositePixel d gc ry.1 ry.2 x))

/-- The writes that end an image section (R437). -/
def State.endImage (s : State) (d : ImageDesc) (gc : GraphicControl) : State :=
  { s.setFrame true with gif := { s.gif with
      prevLeft := d.left
      prevTop := d.top
      prevW := d.w
      prevH := d.h
      prevDisposal := gc.disposal
      prevInterlace := d.interlaced
      prevLocal := d.hasLocal
      prevDelay := gc.delay
      nframes := s.gif.nframes + 1
      gc := GraphicControl.zero } }

/-- The local colour table, or the check that there is a global one (R437). -/
def imageTable (d : ImageDesc) : Exec Unit :=
  if d.hasLocal then do
    let cs ← readColours (tableSize d.packed)
    alter (·.putLct cs)
  else do
    let g ← look (·.gif.packed)
    raiseIf (g.getLsbD 7 = false) .noColorTable 0

/-- `imageSection()`, entered after `2C` (R437). -/
def imageSection : Exec Unit := do
  let p ← gRead 9
  let d := ImageDesc.ofBytes p
  imageTable d
  let s ← look id
  raiseIf (d.w = 0 ∨ d.h = 0 ∨ d.left.toNat + d.w.toNat > s.sw ∨ d.top.toNat + d.h.toNat > s.sh)
    .frameOutOfBounds 0
  let m ← gRead 1
  let r ← lzwDecode (byteAt m 0).toNat (d.w.toNat * d.h.toNat)
  alter (·.setTrunc r.2)
  let gc ← look (·.control)
  alter State.disposePrevious
  if gc.disposal = 3 then alter State.snapshot else pure ()
  composite d gc
  alter (·.endImage d gc)

/-- A section from the byte after what selects it (R435). -/
def runSection : Sect → Exec Unit
  | .image => imageSection
  | .graphicControl => graphicControl
  | .comment => skipExtension
  | .application => skipExtension
  | .plainText => skipExtension
  | .otherExt _ => skipExtension
  | .trailer => alter (·.setGifState .done)

/-- The introducer, and the label of an extension (R435). -/
def fetchSection : Exec Sect := do
  let b ← gRead 1
  if byteAt b 0 = 0x2C then pure .image
  else if byteAt b 0 = 0x21 then do
    let l ← gRead 1
    pure (decodeLabel (byteAt l 0))
  else do
    raiseIf (byteAt b 0 ≠ 0x3B) .badIntroducer ((byteAt b 0).setWidth 32)
    pure .trailer

/-- `gifStep()` (R435); answers whether the section was an image. -/
def gifStep : Exec Bool := do
  let sec ← fetchSection
  runSection sec
  pure (decide (sec = .image))

/-- The section loop of R450: every turn takes at least one byte (70_reset_and_hazards.md R560 (3)). -/
def gifLoop : Nat → Bool → Exec Bool
  | 0, f => pure f
  | k + 1, f => do
    let st ← look (·.gif.state)
    if st = .sections then do
      let img ← failingGif gifStep
      gifLoop k (f || img)
    else pure f

/-! ## Decode: commands -/

/-- GIF.INIT (R430). -/
def execGifInit (s : State) : Host.Outcome State Fault Refusal :=
  runCmd 0x80 (alter (fun s => { s.setFrame false with gif := GifCtx.init })) s

/-- GIF.HEADER (R431). -/
def execGifHeader (s : State) : Host.Outcome State Fault Refusal :=
  runCmd 0x81 (do
    alter (·.setFrame false)
    requireGif .awaitHeader
    failingGif gifHeader) s

/-- GIF.STEP (R435). -/
def execGifStep (s : State) : Host.Outcome State Fault Refusal :=
  runCmd 0x82 (do
    alter (·.setFrame false)
    requireGif .sections
    let _ ← failingGif gifStep) s

/-- GIF.DECODE (R450). -/
def execGifDecode (s : State) : Host.Outcome State Fault Refusal :=
  runCmd 0x83 (do
    alter (·.setFrame false)
    let g ← look (·.gif.state)
    raiseIf (g = .done ∨ g = .failed) .badState (wordN g.num)
    if g = .awaitHeader then failingGif gifHeader else pure ()
    let n ← look (·.inLen)
    let f ← gifLoop (n.toNat + 1) false
    alter (·.setFrame f)) s

/-! ## Decode: the elements of the stream -/

/-- A section as the instruction GIF.STEP runs, IN_POS just after the bytes that select it (log 3). -/
def runGifElement (sec : Sect) (s : State) : Host.Outcome State Fault Refusal :=
  runCmd 0x82 (do
    alter (·.setFrame false)
    requireGif .sections
    failingGif (runSection sec)) s

/-- The signature as the instruction GIF.HEADER runs, IN_POS just after its six bytes (R431, log 3). -/
def execGifSignature (s : State) : Host.Outcome State Fault Refusal :=
  runCmd 0x81 (do
    alter (·.setFrame false)
    requireGif .awaitHeader
    failingGif gifScreen) s

/-- Image, `2C` (R437). -/
def execGifImage (s : State) : Host.Outcome State Fault Refusal := runGifElement .image s

/-- Graphic Control, `21 F9` (R436). -/
def execGifExtGraphicControl (s : State) : Host.Outcome State Fault Refusal := runGifElement .graphicControl s

/-- Comment, `21 FE` (R443). -/
def execGifExtComment (s : State) : Host.Outcome State Fault Refusal := runGifElement .comment s

/-- Application, `21 FF` (R443). -/
def execGifExtApplication (s : State) : Host.Outcome State Fault Refusal := runGifElement .application s

/-- Plain Text, `21 01` (R443). -/
def execGifExtPlainText (s : State) : Host.Outcome State Fault Refusal := runGifElement .plainText s

/-- Any other extension (R443). -/
def execGifExtOther (label : Byte) (s : State) : Host.Outcome State Fault Refusal :=
  runGifElement (.otherExt label) s

/-- Trailer, `3B` (R435). -/
def execGifTrailer (s : State) : Host.Outcome State Fault Refusal := runGifElement .trailer s

/-! ## Encode (R460 to R466) -/

/-- Little-endian bytes of the low half of a register. -/
def leBytes (v : Word) : List Byte := [v.extractLsb' 0 8, v.extractLsb' 8 8]

/-- Little-endian W and Hh of PIX_DIM. -/
def State.dimBytes (s : State) : List Byte := leBytes s.pixDim ++ leBytes (s.pixDim >>> (16 : Nat))

/-- The 19 bytes of the Netscape extension (30_encoding.md R146). -/
def netscapeBytes (rep : BitVec 16) : List Byte :=
  [0x21, 0xFF, 0x0B, 0x4E, 0x45, 0x54, 0x53, 0x43, 0x41, 0x50, 0x45, 0x32, 0x2E, 0x30, 0x03, 0x01] ++
    [rep.extractLsb' 0 8, rep.extractLsb' 8 8, 0x00]

/-- `netscape()` (R464). -/
def netscape : Exec Unit := do
  let r ← look (·.genc.rep)
  outAll (netscapeBytes r)
  alter (fun s => { s with genc := { s.genc with nsDone := true } })

/-- `if W = 0 or Hh = 0: raise BadDimensions(PIX_DIM)` (R460, R462). -/
def requireDims : Exec Unit := do
  let s ← look id
  raiseIf (s.pixW = 0 ∨ s.pixH = 0) .badDimensions s.pixDim

/-- GIF.EBEGIN (R460). -/
def execGifEbegin (s : State) : Host.Outcome State Fault Refusal :=
  runCmd 0x88 (do
    let s ← look id
    raiseIf (s.genc.opened = true) .badState 1
    raiseIf (s.arg0.toNat > 3) .badArgument s.arg0
    raiseIf (s.arg1.toNat > 65535) .badArgument s.arg1
    requireDims
    outAll gifMagic
    outAll s.dimBytes
    outAll [0x70, 0x00, 0x00]
    alter (fun t => { t with genc :=
      { opened := true
        anim := s.arg0.getLsbD 0
        nsLate := s.arg0.getLsbD 1
        nsDone := false
        rep := s.arg1.setWidth 16
        frames := 0 } })
    if s.arg0.getLsbD 0 ∧ s.arg0.getLsbD 1 = false then netscape else pure ()) s

/-- `ceil_log2(n)` for `n ≤ 512` (R462). -/
def ceilLog2 (n : Nat) : Nat := ((List.range 10).find? (fun k => decide (n ≤ 2 ^ k))).getD 9

/-- Whether a transparent entry exists (R462). -/
def State.hasTransp (s : State) : Bool := decide (s.transpIdx ≠ 0xFFFFFFFF)

/-- `k = max(1, ceil_log2(PAL_LEN))` (R462). -/
def State.tableBits (s : State) : Nat := max 1 (ceilLog2 s.palLen.toNat)

/-- The graphic control of a frame (R462). -/
def State.frameControl (s : State) : List Byte :=
  [0x21, 0xF9, 0x04, BitVec.ofNat 8 (s.arg2.toNat * 4 + (if s.hasTransp then 1 else 0))] ++ leBytes s.arg1 ++
    [if s.hasTransp then s.transpIdx.extractLsb' 0 8 else 0x00, 0x00]

/-- The image descriptor of a frame (R462). -/
def State.frameDesc (s : State) : List Byte :=
  [0x2C, 0, 0, 0, 0] ++ s.dimBytes ++ [0x80 ||| BitVec.ofNat 8 (s.tableBits - 1)]

/-- One entry of the local table, R G B from PAL's B G R A (R462). -/
def State.frameColour (s : State) (i : Nat) : List Byte :=
  if i < s.palLen.toNat then
    let p := Cells.get s.mem.pal i
    [p.extractLsb' 16 8, p.extractLsb' 8 8, p.extractLsb' 0 8]
  else [0, 0, 0]

/-- The local colour table of a frame (R462). -/
def State.frameTable (s : State) : List Byte := (List.range (2 ^ s.tableBits)).flatMap s.frameColour

/-- GIF.EFRAME (R462). -/
def execGifEframe (s : State) : Host.Outcome State Fault Refusal :=
  runCmd 0x89 (do
    let s ← look id
    raiseIf (s.genc.opened = false) .badState 0
    raiseIf (s.arg1.toNat > 65535) .badArgument s.arg1
    raiseIf (s.arg2.toNat > 7) .badArgument s.arg2
    requireDims
    octQuantize s.arg0.toNat
    let q ← look id
    outAll q.frameControl
    outAll q.frameDesc
    outAll q.frameTable
    out (BitVec.ofNat 8 (max 2 q.tableBits))
    let _ ← lzwEncode (max 2 q.tableBits) (s.pixW * s.pixH)
    alter (fun t => { t with genc := { t.genc with frames := t.genc.frames + 1 } })
    let g ← look (·.genc)
    if g.anim ∧ g.nsLate ∧ g.nsDone = false then netscape else pure ()) s

/-- GIF.EEND (R466). -/
def execGifEend (s : State) : Host.Outcome State Fault Refusal :=
  runCmd 0x8A (do
    let g ← look (·.genc)
    raiseIf (g.opened = false) .badState 0
    out 0x3B
    alter (fun t => { t with genc := { t.genc with opened := false } })) s

end Sys2Proof.Machine
end

