-- ==== Sys2Proof/Machine/Huffman.lean ====
section
/-! DEFINITION. Canonical Huffman tables: 41_huffman.md R190 to R203, the build, both decode paths, the encode, and
the five commands. -/

namespace Sys2Proof.Machine

open Sys2Proof

/-! ## Table build (R191 to R195) -/

/-- One length of the code assignment (R191): `first[l]`, `idx[l]` and `counts[l]`. -/
structure HuffRow where
  len : Nat
  first : Nat
  idx : Nat
  count : Nat
  deriving DecidableEq, Repr

/-- The running counter of R191 from length `l` on, with `code` and `k` reached so far. -/
def huffRows : List Byte → Nat → Nat → Nat → List HuffRow
  | [], _, _, _ => []
  | c :: cs, l, code, k => ⟨l, code, k, c.toNat⟩ :: huffRows cs (l + 1) (2 * (code + c.toNat)) (k + c.toNat)

/-- R191 from the start. -/
def HuffSpec.rows (sp : HuffSpec) : List HuffRow := huffRows sp.counts 1 0 0

/-- `total = sum(counts)` (R190). -/
def HuffSpec.total (sp : HuffSpec) : Nat := (sp.counts.map BitVec.toNat).sum

/-- A symbol with its code. -/
structure HuffCode where
  len : Nat
  code : Nat
  sym : Byte
  deriving DecidableEq, Repr

/-- `lenOf[k]`, `codeOf[k]` and `values[k]` for every `k` (R191). -/
def HuffSpec.codes (sp : HuffSpec) : List HuffCode :=
  List.zipWith (fun lc v => ⟨lc.1, lc.2, v⟩)
    (sp.rows.flatMap (fun r => (List.range r.count).map (fun j => (r.len, r.first + j)))) sp.values

/-- Row `l` of R191 at array position `l - 1`. -/
def HuffSpec.row (sp : HuffSpec) (i : Nat) : HuffRow := sp.rows.getD i ⟨0, 0, 0, 0⟩

/-- R193: the entry of the codes of length at most 8 whose bits are the top bits of `i`; 0 where there is none. -/
def lutEntry (short : List HuffCode) (i : Nat) : BitVec 16 :=
  match short.find? (fun c => i / 2 ^ (8 - c.len) == c.code) with
  | some c => c.sym ++ BitVec.ofNat 8 c.len
  | none => 0

/-- R194: the first code of symbol `v`. -/
def codeOfSym (codes : List HuffCode) (v : Nat) : Option HuffCode :=
  codes.find? (fun c => c.sym.toNat == v)

/-- The table fields of R191 to R194; values at and above `total` are 0 (R196). -/
def HuffSpec.build (sp : HuffSpec) : HuffTable :=
  let codes := sp.codes
  let short := codes.filter (fun c => decide (c.len ≤ 8))
  { total := Fin.ofNat 257 sp.total
    counts := Vector.ofFn (fun i => byteAt sp.counts i)
    values := Vector.ofFn (fun i => if i.val < sp.total then byteAt sp.values i else 0)
    minCode := Vector.ofFn (fun i => BitVec.ofNat 17 (sp.row i).first)
    maxCode := Vector.ofFn (fun i =>
      if (sp.row i).count > 0 then some (BitVec.ofNat 16 ((sp.row i).first + (sp.row i).count - 1)) else none)
    valueIndex := Vector.ofFn (fun i => Fin.ofNat 257 (sp.row i).idx)
    lut := Vector.ofFn (fun i => lutEntry short i)
    ehufco := Vector.ofFn (fun i => BitVec.ofNat 16 (((codeOfSym codes i).map HuffCode.code).getD 0))
    ehufsi := Vector.ofFn (fun i => Fin.ofNat 17 (((codeOfSym codes i).map HuffCode.len).getD 0)) }

/-- R195 (2): the first length whose codes do not fit. -/
def HuffSpec.oversubscribed (sp : HuffSpec) : Option Nat :=
  (sp.rows.find? (fun r => decide (r.first + r.count > 2 ^ r.len))).map HuffRow.len

/-- `HT[c][t] <- h; HT_VALID[4*c + t] <- 1` (R196). -/
def State.putTable (s : State) (c t : Nat) (h : HuffTable) : State :=
  { s with
    ht := s.ht.set (tableNo c t).val h (tableNo c t).isLt
    htValid := s.htValid ||| (1#8 <<< (4 * c + t)) }

/-- `buildTable(c, s, counts, values)` (R196), the checks of R195 first. -/
def buildTable (c t : Nat) (sp : HuffSpec) : Exec Unit := do
  raiseIf (sp.total > 256) .badHuffmanTable (wordN sp.total)
  raiseIf (sp.oversubscribed ≠ none) .huffOversubscribed (wordN (sp.oversubscribed.getD 0))
  alter (·.putTable c t sp.build)

/-- The specification in HSPEC (10_state.md R43). -/
def State.hspecSpec (s : State) : HuffSpec where
  counts := Cells.getRange s.mem.hspec 0 16
  values := Cells.getRange s.mem.hspec 16 256

/-- `loadStd()` (R203). -/
def loadStd : Exec Unit := do
  buildTable 0 0 stdDcLum
  buildTable 1 0 stdAcLum
  buildTable 0 1 stdDcChr
  buildTable 1 1 stdAcChr

/-! ## Decode (R197, R198) -/

/-- `maxCode[l]`. -/
def HuffTable.maxAt (t : HuffTable) (l : Nat) : Option (BitVec 16) := (t.maxCode[l - 1]?).getD none

/-- `minCode[l]`. -/
def HuffTable.minAt (t : HuffTable) (l : Nat) : Nat := ((t.minCode[l - 1]?).getD 0).toNat

/-- `valueIndex[l]`. -/
def HuffTable.indexAt (t : HuffTable) (l : Nat) : Nat := ((t.valueIndex[l - 1]?).getD 0).val

/-- `values[k]`. -/
def HuffTable.valueAt (t : HuffTable) (k : Nat) : Byte := (t.values[k]?).getD 0

/-- `code <= maxCode[l]`, signed: −1 never satisfies it (R198). -/
def HuffTable.matchesAt (t : HuffTable) (l code : Nat) : Bool :=
  match t.maxAt l with
  | some m => decide (code ≤ m.toNat)
  | none => false

/-- The walk of R198 from length `l` on, `n` lengths left. -/
def slowFrom (t : HuffTable) : Nat → Nat → Nat → Exec Byte
  | 0, _, _ => do
    let p ← look (·.inPos)
    raise .badHuffmanCode p
  | n + 1, l, code => do
    let b ← decodeBit
    let code' := 2 * code + b.toNat
    if t.matchesAt l code' then pure (t.valueAt (t.indexAt l + code' - t.minAt l))
    else slowFrom t n (l + 1) code'

/-- `slowWalk(T)` (R198). -/
def slowWalk (t : HuffTable) : Exec Byte := slowFrom t 16 1 0

/-- `try fetchByte()`: where it would fault, the fault is not taken and the state is unchanged (R197). -/
def tryFetch : Exec Bool :=
  fun s =>
    match fetchByte s with
    | .ok _ s' => .ok true s'
    | .error _ _ => .ok false s

/-- `lut[i]`. -/
def HuffTable.lutAt (t : HuffTable) (i : Nat) : BitVec 16 := (t.lut[i]?).getD 0

/-- `huffDecode(T)` (R197). -/
def huffDecode (t : HuffTable) : Exec Byte := do
  let nb ← look (·.bcNbits)
  let fast ← if nb < 8 then tryFetch else pure true
  if fast then do
    let i ← look (·.peekBits 8)
    let e := t.lutAt i.toNat
    if e ≠ 0 then do
      alter (·.dropBits (e.extractLsb' 0 8).toNat)
      pure (e.extractLsb' 8 8)
    else slowWalk t
  else slowWalk t

/-! ## Encode (R200, R201) -/

/-- `ehufsi[v]`. -/
def HuffTable.sizeAt (t : HuffTable) (v : Byte) : Nat := ((t.ehufsi[v.toNat]?).getD 0).val

/-- `ehufco[v]`. -/
def HuffTable.codeAt (t : HuffTable) (v : Byte) : BitVec 16 := (t.ehufco[v.toNat]?).getD 0

/-- `huffEncode(T, v)` (R200). -/
def huffEncode (t : HuffTable) (v : Byte) : Exec Unit := do
  raiseIf (t.sizeAt v = 0) .noHuffmanCode (v.setWidth 32)
  emitBits (t.sizeAt v) ((t.codeAt v).setWidth 32)

/-- The size category of a value: `bitlen(|v|)` (R201). -/
def category (v : Int) : Nat := bitlen v.natAbs

/-- The magnitude bits of a value of category `t` (R201). -/
def magnitude (v : Int) (t : Nat) : Word := if v ≥ 0 then word v else word (v + 2 ^ t - 1)

/-- `emitValue(T, run, v)` (R201). -/
def emitValue (t : HuffTable) (run : Nat) (v : Int) : Exec Unit := do
  raiseIf (run > 15 ∨ category v > 15) .badArgument (wordN (category v))
  huffEncode t (BitVec.ofNat 8 (run * 16 + category v))
  if category v > 0 then emitBits (category v) (magnitude v (category v)) else pure ()

/-! ## Commands -/

/-- HUF.BUILD (R196). -/
def execHufBuild (tc th : BitVec 4) (s : State) : Host.Outcome State Fault Refusal :=
  runCmd 0x20 (do
    checkSelector tc th
    let sp ← look (·.hspecSpec)
    buildTable tc.toNat th.toNat sp) s

/-- HUF.DEC (R197). -/
def execHufDec (tc th : BitVec 4) (s : State) : Host.Outcome State Fault Refusal :=
  runCmd 0x21 (do
    checkSelector tc th
    checkBuilt tc th
    let t ← look (·.table tc.toNat th.toNat)
    let v ← huffDecode t
    alter (·.setRes0 (v.setWidth 32))) s

/-- HUF.ENC (R200). -/
def execHufEnc (tc th : BitVec 4) (s : State) : Host.Outcome State Fault Refusal :=
  runCmd 0x22 (do
    let v ← look (·.arg0)
    raiseIf (tc.toNat > 1 ∨ th.toNat > 3 ∨ v.toNat > 255) .badArgument (selectorImm tc th)
    checkBuilt tc th
    let t ← look (·.table tc.toNat th.toNat)
    huffEncode t (v.setWidth 8)) s

/-- HUF.ENCVAL (R201): the run is ARG0, the value ARG1 read signed; Tc, Th and HT_VALID are checked first as in R200. -/
def execHufEncval (tc th : BitVec 4) (s : State) : Host.Outcome State Fault Refusal :=
  runCmd 0x23 (do
    checkSelector tc th
    checkBuilt tc th
    let t ← look (·.table tc.toNat th.toNat)
    let run ← look (·.arg0)
    let v ← look (·.arg1)
    emitValue t run.toNat (sext32 v)) s

/-- HUF.LOADSTD (R203). -/
def execHufLoadstd (s : State) : Host.Outcome State Fault Refusal :=
  runCmd 0x24 loadStd s

end Sys2Proof.Machine
end

