-- ==== Sys2Proof/Machine/Quant.lean ====
section
/-! DEFINITION. Quantisation: 43_quant.md R250 to R257. -/

namespace Sys2Proof.Machine

open Sys2Proof

/-! ## Tables -/

/-- `QT[q][0..63] <- vs; QT_VALID[q] <- 1` (44_jpeg_decode.md R280). -/
def State.putQt (s : State) (q : Nat) (vs : List (BitVec 16)) : State :=
  { s with
    qtValid := s.qtValid ||| (1#4 <<< q)
    mem := { s.mem with qt := Cells.setRange s.mem.qt (64 * q) vs } }

/-- `factor` of R252 for a quality in 1..100. -/
def scaleFactor (q : Nat) : Nat := if q < 50 then 5000 / q else 200 - 2 * q

/-- One scaled entry: `clamp((entry*factor + 50) div 100, 1, 255)` (R252). -/
def scaleEntry (base factor : Nat) : Nat := max 1 (min 255 ((base * factor + 50) / 100))

/-- A base table scaled and put in zig-zag order (R252). -/
def scaledTable (base : List Nat) (q : Nat) : List (BitVec 16) :=
  (List.range 64).map (fun k => BitVec.ofNat 16 (scaleEntry (base.getD (unzig k) 0) (scaleFactor q)))

/-- `scaleTables(q)` (R252). -/
def scaleTables (q : Nat) : Exec Unit := do
  raiseIf (q < 1 ∨ q > 100) .badArgument (wordN q)
  alter (fun s => (s.putQt 0 (scaledTable baseLum q)).putQt 1 (scaledTable baseChr q))

/-! ## De-quantise (R254) -/

/-- BLK after `dequant(q)`: entry `UNZIG[k]` is `mul32(ZZ[k], QT[q][k])` (R254). -/
def State.dequantList (s : State) (q : Nat) : List Word :=
  (List.range 64).map (fun i => s.zzAt (zigOf i) * (s.qtEntry q (zigOf i)).setWidth 32)

/-- `dequant(q)` (R254). -/
def State.dequant (s : State) (q : Nat) : State := s.setBlk (s.dequantList q)

/-! ## Quantise (R255, R256) -/

/-- `div_round(a, d)` (R255), on integers: nearest, ties away from zero. -/
def divRound (a : Int) (d : Nat) : Int :=
  if a ≥ 0 then (((a.toNat + d / 2) / d : Nat) : Int) else -((((-a).toNat + d / 2) / d : Nat) : Int)

/-- The lowest zig-zag index of slot `q` whose entry is 0 (R256). -/
def State.zeroEntry (s : State) (q : Nat) : Option Nat :=
  (List.range 64).find? (fun k => s.qtEntry q k == 0)

/-- ZZ after `quant(q)` (R256). -/
def State.quantList (s : State) (q : Nat) : List Word :=
  (List.range 64).map (fun k =>
    word (divRound (Cells.get s.mem.blk (unzig k)).toInt (8 * (s.qtEntry q k).toNat)))

/-- `quant(q)` (R256): all 64 entries are checked before any write. -/
def quant (q : Nat) : Exec Unit := do
  let z ← look (·.zeroEntry q)
  raiseIf (z ≠ none) .badArgument (wordN (z.getD 0))
  alter (fun s => s.setZz (s.quantList q))

/-! ## Commands -/

/-- QT.SCALE (R252). -/
def execQtScale (s : State) : Host.Outcome State Fault Refusal :=
  runCmd 0x40 (do
    let q ← look (·.arg0)
    scaleTables q.toNat) s

/-- QT.DEQ (R254). -/
def execQtDeq (slot : BitVec 2) (s : State) : Host.Outcome State Fault Refusal :=
  runCmd 0x41 (alter (·.dequant slot.toNat)) s

/-- QT.QUANT (R256). -/
def execQtQuant (slot : BitVec 2) (s : State) : Host.Outcome State Fault Refusal :=
  runCmd 0x42 (quant slot.toNat) s

end Sys2Proof.Machine
end

