-- ==== Sys2Proof/Machine/JpegDecode.lean ====
section
/-! DEFINITION. JPEG decode: 44_jpeg_decode.md R270 to R312, with the JPG decode commands and the elements of a JPEG
stream (30_encoding.md R120 to R130), which are the instructions JPG.STEP and JPG.DECODE run (log 3). -/

namespace Sys2Proof.Machine

open Sys2Proof

/-! ## Context -/

/-- J_STATE[2:0] (10_state.md R44). -/
def JpgState.num : JpgState → Nat
  | .awaitHeader => 0
  | .haveFrameHeader => 1
  | .scanning => 2
  | .done => 3
  | .failed => 4

/-- A change of the J_* registers. -/
def State.onJpg (s : State) (f : JpegCtx → JpegCtx) : State := { s with jpg := f s.jpg }

/-- `state <- st`. -/
def State.setJpgState (s : State) (st : JpgState) : State := s.onJpg (fun j => { j with state := st })

/-- "Any fault raised inside `jpegStep` … additionally sets `J_STATE[2:0] <- 4`" (R271). -/
def failingJpeg {α : Type} (m : Exec α) : Exec α := onRaise (·.setJpgState .failed) m

/-- `if state = 3 or state = 4: raise BadState(state)` (R271, R307). -/
def requireDecoding : Exec Unit := do
  let st ← look (·.jpg.state)
  raiseIf (st = .done ∨ st = .failed) .badState (wordN st.num)

/-- `comp[i]`. -/
def State.comp (s : State) (i : Nat) : Comp := s.jpg.comp[Fin.ofNat 4 i]

/-- `DCPRED[i]`. -/
def State.dcpred (s : State) (i : Nat) : Word := s.jpg.dcpred[Fin.ofNat 4 i]

/-- `DCPRED[i] <- v`. -/
def State.setDcpred (s : State) (i : Nat) (v : Word) : State :=
  s.onJpg (fun j => { j with dcpred := j.dcpred.set (Fin.ofNat 4 i).val v (Fin.ofNat 4 i).isLt })

/-- PLANE_i. -/
def State.plane (s : State) (i : Nat) : Cells 8 := s.mem.plane[Fin.ofNat 4 i]

/-- PLANE_i replaced. -/
def State.setPlane (s : State) (i : Nat) (c : Cells 8) : State :=
  { s with mem := { s.mem with plane := s.mem.plane.set (Fin.ofNat 4 i).val c (Fin.ofNat 4 i).isLt } }

/-- COEF_i. -/
def State.coef (s : State) (i : Nat) : Cells 32 := s.mem.coef[Fin.ofNat 4 i]

/-- COEF_i replaced. -/
def State.setCoef (s : State) (i : Nat) (c : Cells 32) : State :=
  { s with mem := { s.mem with coef := s.mem.coef.set (Fin.ofNat 4 i).val c (Fin.ofNat 4 i).isLt } }

/-- Block columns of component `i`: `H_i * MXX` (R279). -/
def State.blockCols (s : State) (i : Nat) : Nat := (s.comp i).h.toNat * s.jpg.mxx.toNat

/-- Block rows of component `i`: `V_i * MYY` (R279). -/
def State.blockRows (s : State) (i : Nat) : Nat := (s.comp i).v.toNat * s.jpg.myy.toNat

/-- `STRIDE_i = 8 * H_i * MXX` (10_state.md R46). -/
def State.stride (s : State) (i : Nat) : Nat := 8 * s.blockCols i

/-! ## Markers and lengths (R272, R273) -/

/-- The fill-byte loop of R272: each turn takes a byte (70_reset_and_hazards.md R560 (3)). -/
def skipFill : Nat → Byte → Exec Byte
  | 0, m => pure m
  | k + 1, m =>
    if m = 0xFF then do
      let p ← readFull 1
      skipFill k (byteAt p 0)
    else pure m

/-- `nextMarker()` (R272). -/
def nextMarker : Exec Byte := do
  let p ← readFull 1
  let pos ← look (·.inPos)
  raiseIf (byteAt p 0 ≠ 0xFF) .badMarker (pos - 1)
  let n ← look (·.inLen)
  let q ← readFull 1
  let m ← skipFill (n.toNat + 1) (byteAt q 0)
  let pos ← look (·.inPos)
  raiseIf (m = 0x00) .badMarker (pos - 1)
  pure m

/-- `segmentLength()` (R273): the payload byte count. -/
def segmentLength : Exec Nat := do
  let p ← readFull 2
  let l := u16be (byteAt p 0) (byteAt p 1)
  raiseIf (l.toNat < 2) .badSegmentLength (l.setWidth 32)
  pure (l.toNat - 2)

/-! ## Application segments (R275) -/

/-- "Adobe". -/
def adobeMagic : List Byte := [0x41, 0x64, 0x6F, 0x62, 0x65]

/-- `app14(n)` (R275). -/
def app14 (n : Nat) : Exec Unit := do
  let p ← readFull n
  if n ≥ 12 ∧ p.take 5 = adobeMagic then
    alter (·.onJpg (fun j => { j with adobeValid := true, adobeTransform := byteAt p 11 }))
  else pure ()

/-! ## Frame header (R276 to R279) -/

/-- A sampling factor the decoder accepts (R277 (b)). -/
def factorOk (f : Byte) : Bool := f == 1 || f == 2 || f == 4

/-- Checks (a), (b), (c) of R277 for component `i`. -/
def sofCheck (p : List Byte) (i : Nat) : Exec Unit := do
  let cid := byteAt p (6 + 3 * i)
  raiseIf ((List.range i).any (fun j => byteAt p (6 + 3 * j) == cid) = true) .duplicateComponentId (cid.setWidth 32)
  let hv := byteAt p (7 + 3 * i)
  raiseIf ((factorOk (hv >>> (4 : Nat)) && factorOk (hv &&& 15)) = false) .unsupportedSubsampling (hv.setWidth 32)
  let tq := byteAt p (8 + 3 * i)
  raiseIf (tq.toNat > 3) .badTableIndex (tq.setWidth 32)

/-- Component `i` of a frame of `nf` components (R278): a single component is never subsampled. -/
def sofComp (p : List Byte) (nf i : Nat) : Comp where
  id := byteAt p (6 + 3 * i)
  h := if nf = 1 then 1 else (byteAt p (7 + 3 * i)).extractLsb' 4 4
  v := if nf = 1 then 1 else (byteAt p (7 + 3 * i)).extractLsb' 0 4
  tq := (byteAt p (8 + 3 * i)).extractLsb' 0 2
  td := 0
  ta := 0

/-- The largest of a list, 0 when empty. -/
def maxOf (xs : List Nat) : Nat := xs.foldl max 0

/-- A frame header's fields with the geometry of R279. -/
structure Frame where
  width : BitVec 16
  height : BitVec 16
  comps : List Comp
  hmax : Nat
  vmax : Nat
  mxx : Nat
  myy : Nat
  progressive : Bool
  deriving DecidableEq, Repr

/-- The frame a checked payload describes (R278, R279). -/
def Frame.ofBytes (m : Byte) (p : List Byte) : Frame :=
  let nf := (byteAt p 5).toNat
  let comps := (List.range nf).map (sofComp p nf)
  let hmax := maxOf (comps.map (fun c => c.h.toNat))
  let vmax := maxOf (comps.map (fun c => c.v.toNat))
  let x := u16be (byteAt p 3) (byteAt p 4)
  let y := u16be (byteAt p 1) (byteAt p 2)
  { width := x
    height := y
    comps := comps
    hmax := hmax
    vmax := vmax
    mxx := ceilDiv x.toNat (8 * hmax)
    myy := ceilDiv y.toNat (8 * vmax)
    progressive := decide (m = 0xC2) }

/-- BLOCKS_i (10_state.md R46). -/
def Frame.blocks (f : Frame) (c : Comp) : Nat := c.h.toNat * f.mxx * (c.v.toNat * f.myy)

/-- The capacity checks of R278 for one component. -/
def frameFits (f : Frame) (c : Comp) : Exec Unit := do
  let caps ← look (·.caps)
  raiseIf (8 * c.h.toNat * f.mxx * (8 * c.v.toNat * f.myy) > caps.planeCap) .capacityExceeded 2
  raiseIf (64 * f.blocks c > caps.coefCap) .capacityExceeded 3

/-- The register writes of R278. Bits 13 and 23:16 of J_FRAME (Adobe) keep their value. -/
def JpegCtx.putFrame (j : JpegCtx) (f : Frame) : JpegCtx :=
  { j with
    width := f.width
    height := f.height
    ncomp := BitVec.ofNat 3 f.comps.length
    hmax := BitVec.ofNat 3 f.hmax
    vmax := BitVec.ofNat 3 f.vmax
    progressive := f.progressive
    mxx := BitVec.ofNat 16 f.mxx
    myy := BitVec.ofNat 16 f.myy
    comp := Vector.ofFn (fun i => f.comps.getD i.val Comp.zero) }

/-- The planes and coefficient memories of the frame's components become 0 over its extent (R278). -/
def Memory.clearFrame (m : Memory) (f : Frame) : Memory :=
  { m with
    plane := Vector.ofFn (fun i =>
      match f.comps[i.val]? with
      | some c => Cells.clearRange m.plane[i] 0 (64 * f.blocks c)
      | none => m.plane[i])
    coef := Vector.ofFn (fun i =>
      match f.comps[i.val]? with
      | some c => Cells.clearRange m.coef[i] 0 (64 * f.blocks c)
      | none => m.coef[i]) }

/-- R278 and the state change of R276. -/
def State.putFrame (s : State) (f : Frame) : State :=
  { s with
    jpg := { s.jpg.putFrame f with state := .haveFrameHeader }
    mem := s.mem.clearFrame f }

/-- `sof(m, n)` (R276), the checks in the order of R277. -/
def sof (m : Byte) (n : Nat) : Exec Unit := do
  let st ← look (·.jpg.state)
  raiseIf (st ≠ .awaitHeader) .duplicateSOF (m.setWidth 32)
  raiseIf (n < 6) .badSegmentLength (wordN n)
  let p ← readFull n
  let nf := byteAt p 5
  raiseIf (byteAt p 0 ≠ 8) .unsupportedPrecision ((byteAt p 0).setWidth 32)
  raiseIf (n ≠ 6 + 3 * nf.toNat) .badSegmentLength (wordN n)
  raiseIf (nf ≠ 1 ∧ nf ≠ 3 ∧ nf ≠ 4) .unsupportedComponentCount (nf.setWidth 32)
  let x := u16be (byteAt p 3) (byteAt p 4)
  let y := u16be (byteAt p 1) (byteAt p 2)
  raiseIf (x = 0 ∨ y = 0) .badDimensions (y ++ x)
  forUpTo nf.toNat (sofCheck p)
  let f := Frame.ofBytes m p
  forEach f.comps (frameFits f)
  alter (·.putFrame f)

/-! ## Tables and restart interval (R280 to R282) -/

/-- The 64 entries of a table at offset `o` of a DQT payload, zig-zag order (R280). -/
def dqtEntries (p : List Byte) (o : Nat) (wide : Bool) : List (BitVec 16) :=
  (List.range 64).map (fun k =>
    if wide then u16be (byteAt p (o + 1 + 2 * k)) (byteAt p (o + 2 + 2 * k))
    else (byteAt p (o + 1 + k)).setWidth 16)

/-- The loop of R280; every turn takes at least 65 bytes of the payload. -/
def dqtLoop (p : List Byte) (n : Nat) : Nat → Nat → Exec Unit
  | 0, _ => pure ()
  | k + 1, o =>
    if o < n then do
      let b := byteAt p o
      let pq := (b >>> (4 : Nat)).toNat
      let tq := (b &&& 15).toNat
      raiseIf (tq > 3) .badTableIndex (b.setWidth 32)
      raiseIf (pq > 1) .unsupportedPrecision (b.setWidth 32)
      let need := if pq = 0 then 65 else 129
      raiseIf (n - o < need) .badSegmentLength (wordN (n - o))
      alter (·.putQt tq (dqtEntries p o (decide (pq = 1))))
      dqtLoop p n k (o + need)
    else pure ()

/-- `dqt(n)` (R280). -/
def dqt (n : Nat) : Exec Unit := do
  let p ← readFull n
  dqtLoop p n (n + 1) 0

/-- The specification at offset `o` of a DHT payload (R281). -/
def dhtSpec (p : List Byte) (o : Nat) : HuffSpec where
  counts := (List.range 16).map (fun l => byteAt p (o + 1 + l))
  values := (p.drop (o + 17)).take 256

/-- The loop of R281; every turn takes at least 17 bytes of the payload. -/
def dhtLoop (p : List Byte) (n : Nat) : Nat → Nat → Exec Unit
  | 0, _ => pure ()
  | k + 1, o =>
    if o < n then do
      raiseIf (n - o < 17) .badSegmentLength (wordN (n - o))
      let b := byteAt p o
      let tc := (b >>> (4 : Nat)).toNat
      let th := (b &&& 15).toNat
      raiseIf (tc > 1 ∨ th > 3) .badTableIndex (b.setWidth 32)
      let sp := dhtSpec p o
      raiseIf (sp.total > 256) .badHuffmanTable (wordN sp.total)
      raiseIf (n - o - 17 < sp.total) .badSegmentLength (wordN (n - o))
      buildTable tc th sp
      dhtLoop p n k (o + 17 + sp.total)
    else pure ()

/-- `dht(n)` (R281). -/
def dht (n : Nat) : Exec Unit := do
  let p ← readFull n
  dhtLoop p n (n + 1) 0

/-- `dri(n)` (R282). -/
def dri (n : Nat) : Exec Unit := do
  raiseIf (n ≠ 2) .badSegmentLength (wordN n)
  let p ← readFull 2
  alter (·.onJpg (fun j => { j with ri := u16be (byteAt p 0) (byteAt p 1) }))

/-! ## Restart (R299) -/

/-- `DCPRED[0..3] <- 0; EOBRUN <- 0` with `bcReset()` (R288, R299). -/
def State.resetEntropy (s : State) : State :=
  s.bcReset.onJpg (fun j => { j with dcpred := Vector.replicate 4 0, eobrun := 0 })

/-- RSTn met inside a scan (R299). -/
def restartMarker (n : BitVec 3) : Exec Unit := do
  let want ← look (·.jpg.rstn)
  raiseIf (n ≠ want) .badRestart (0xD0 + n.setWidth 32)
  alter (fun s => s.resetEntropy.onJpg (fun j => { j with rstn := j.rstn + 1 }))

/-- `restart()` (R299). -/
def restart : Exec Unit := do
  let p ← readFull 2
  match decodeMarker (byteAt p 1) with
  | .ok (.rst n) => do
    raiseIf (byteAt p 0 ≠ 0xFF) .badRestart ((byteAt p 1).setWidth 32)
    restartMarker n
  | _ => raise .badRestart ((byteAt p 1).setWidth 32)

/-! ## Blocks (R291 to R297) -/

/-- A scan component: the frame component it selects and its tables (R283, R284). -/
structure ScanComp where
  ci : Nat
  td : BitVec 2
  ta : BitVec 2
  deriving DecidableEq, Repr

/-- `EOBRUN <- v`. -/
def State.setEobrun (s : State) (v : BitVec 16) : State := s.onJpg (fun j => { j with eobrun := v })

/-- `EOBRUN <- EOBRUN - 1`. -/
def State.eobDown (s : State) : State := s.setEobrun (s.jpg.eobrun - 1)

/-- `EOBRUN <- 2^r; if r != 0: EOBRUN <- EOBRUN | decodeBits(r)` (R293, R295). -/
def readEobrun (r : Nat) : Exec Unit := do
  alter (·.setEobrun (BitVec.ofNat 16 (2 ^ r)))
  if r ≠ 0 then do
    let v ← decodeBits r
    alter (fun s => s.setEobrun (s.jpg.eobrun ||| v.setWidth 16))
  else pure ()

/-- `rs >> 4`. -/
def runOf (rs : Byte) : Nat := (rs >>> (4 : Nat)).toNat

/-- `rs & 15`. -/
def sizeOf4 (rs : Byte) : Nat := (rs &&& 15).toNat

/-- The loop of R293 from `zig` on; `zig` grows in every turn and ends beyond SE. -/
def acLoop (t : HuffTable) (se al : Nat) : Nat → Nat → Exec Unit
  | 0, _ => pure ()
  | k + 1, zig =>
    if zig ≤ se then do
      let rs ← huffDecode t
      if sizeOf4 rs ≠ 0 then do
        raiseIf (zig + runOf rs > se) .tooManyCoefficients (wordN (zig + runOf rs))
        let v ← receiveExtend (sizeOf4 rs)
        alter (·.setZzAt (zig + runOf rs) (v <<< al))
        acLoop t se al k (zig + runOf rs + 1)
      else if runOf rs = 15 then acLoop t se al k (zig + 16)
      else do
        readEobrun (runOf rs)
        alter State.eobDown
    else pure ()

/-- First pass, AC part (R293). -/
def firstPassAc (ta zig : Nat) : Exec Unit := do
  let s ← look id
  if zig ≤ s.jpg.se.toNat then
    if s.jpg.eobrun ≠ 0 then alter State.eobDown
    else acLoop (s.table 1 ta) s.jpg.se.toNat s.jpg.al.toNat 256 zig
  else pure ()

/-- First pass, DC part (R292). -/
def firstPassDc (ci td : Nat) : Exec Unit := do
  let tab ← look (·.table 0 td)
  let t ← huffDecode tab
  let diff ← receiveExtend t.toNat
  alter (fun s => s.setDcpred ci (s.dcpred ci + diff))
  alter (fun s => s.setZzAt 0 (s.dcpred ci <<< s.jpg.al.toNat))

/-- `firstPass(j)` (R292, R293). -/
def firstPass (ci : Nat) : Exec Unit := do
  let s ← look id
  let c := s.comp ci
  if s.jpg.ss = 0 then do
    firstPassDc ci c.td.toNat
    firstPassAc c.ta.toNat 1
  else firstPassAc c.ta.toNat s.jpg.ss.toNat

/-- A coefficient moved away from zero by `delta` (R297). -/
def correct (z delta : Word) : Word := if z.toInt ≥ 0 then z + delta else z - delta

/-- `refineNonZeroes(zig, nz)` (R297). -/
def refineNonZeroes (se : Nat) (delta : Word) : Nat → Nat → Int → Exec Nat
  | 0, zig, _ => pure zig
  | k + 1, zig, nz =>
    if zig ≤ se then do
      let z ← look (·.zzAt zig)
      if z = 0 then
        if nz = 0 then pure zig else refineNonZeroes se delta k (zig + 1) (nz - 1)
      else do
        let b ← decodeBit
        if b = 1 then alter (·.setZzAt zig (correct z delta)) else pure ()
        refineNonZeroes se delta k (zig + 1) nz
    else pure zig

/-- The value a refinement symbol places: 0, or ±delta by a sign bit (R295, R296). -/
def refineValue (rs : Byte) (delta : Word) : Exec Word := do
  raiseIf (sizeOf4 rs > 1) .badRefinementCode (rs.setWidth 32)
  if sizeOf4 rs = 0 then pure 0
  else do
    let b ← decodeBit
    pure (if b = 1 then delta else -delta)

/-- The loop of R295; answers `zig` where it ended. -/
def refineLoop (t : HuffTable) (se : Nat) (delta : Word) : Nat → Nat → Exec Nat
  | 0, zig => pure zig
  | k + 1, zig =>
    if zig ≤ se then do
      let rs ← huffDecode t
      if sizeOf4 rs = 0 ∧ runOf rs ≠ 15 then do
        readEobrun (runOf rs)
        pure zig
      else do
        let z ← refineValue rs delta
        let zig' ← refineNonZeroes se delta 256 zig (runOf rs)
        raiseIf (zig' > se) .tooManyCoefficients (wordN zig')
        if z ≠ 0 then alter (·.setZzAt zig' z) else pure ()
        refineLoop t se delta k (zig' + 1)
    else pure zig

/-- Refinement pass, AC case (R295). -/
def refineAc (ta : Nat) (delta : Word) : Exec Unit := do
  let s ← look id
  let zig ← if s.jpg.eobrun = 0 then refineLoop (s.table 1 ta) s.jpg.se.toNat delta 256 s.jpg.ss.toNat
    else pure s.jpg.ss.toNat
  let run ← look (·.jpg.eobrun)
  if run ≠ 0 then do
    alter State.eobDown
    let _ ← refineNonZeroes s.jpg.se.toNat delta 256 zig (-1)
  else pure ()

/-- `refineBlock(j)` (R294). -/
def refineBlock (ci : Nat) : Exec Unit := do
  let s ← look id
  let delta : Word := 1 <<< s.jpg.al.toNat
  if s.jpg.ss = 0 then do
    let b ← decodeBit
    if b = 1 then alter (fun s => s.setZzAt 0 (s.zzAt 0 ||| delta)) else pure ()
  else refineAc (s.comp ci).ta.toNat delta

/-! ## Reconstruction (R301 to R304) -/

/-- The bytes of row `y` of BLK. -/
def State.blkRow (s : State) (y : Nat) : List Byte :=
  (Cells.getRange s.mem.blk (8 * y) 8).map (fun v => v.setWidth 8)

/-- PLANE_i after `scatter(i, bx, by)` (R303). -/
def State.scattered (s : State) (i bx by_ : Nat) : Cells 8 :=
  (List.range 8).foldl (fun c y => Cells.setRange c ((8 * by_ + y) * s.stride i + 8 * bx) (s.blkRow y)) (s.plane i)

/-- `dequant(tq); idct(); level(); scatter(i, bx, by)` (R301). -/
def State.reconstructed (s : State) (i bx by_ : Nat) : State :=
  let t := (s.dequant (s.comp i).tq.toNat).idct.level
  t.setPlane i (t.scattered i bx by_)

/-- `reconstruct(i, bx, by)` (R301). -/
def reconstruct (i bx by_ : Nat) : Exec Unit := do
  let s ← look id
  raiseIf (s.qtLoaded (s.comp i).tq.toNat = false) .tableNotDefined (0x20 ||| (s.comp i).tq.setWidth 32)
  alter (·.reconstructed i bx by_)

/-- ZZ <- block `bi` of COEF_i (R291, R304). -/
def State.loadCoef (s : State) (i bi : Nat) : State := s.setZz (Cells.getRange (s.coef i) (64 * bi) 64)

/-- Block `bi` of COEF_i <- ZZ (R291). -/
def State.storeCoef (s : State) (i bi : Nat) : State := s.setCoef i (Cells.setRange (s.coef i) (64 * bi) s.zzList)

/-- ZZ[0..63] <- 0. -/
def State.clearZz (s : State) : State := { s with mem := { s.mem with zz := Cells.clearRange s.mem.zz 0 64 } }

/-- `decodeBlock(j, bx, by)` (R291) of frame component `i`. -/
def decodeBlock (i bx by_ : Nat) : Exec Unit := do
  let s ← look id
  let bi := by_ * s.blockCols i + bx
  if s.jpg.progressive then alter (·.loadCoef i bi) else alter State.clearZz
  if s.jpg.ah ≠ 0 then refineBlock i else firstPass i
  if s.jpg.progressive then alter (·.storeCoef i bi) else reconstruct i bx by_

/-- `reconstructAll()` (R304). -/
def reconstructAll : Exec Unit := do
  let s ← look id
  forUpTo s.jpg.ncomp.toNat (fun i =>
    forUpTo (s.blockRows i) (fun by_ =>
      forUpTo (s.blockCols i) (fun bx => do
        alter (·.loadCoef i (by_ * s.blockCols i + bx))
        reconstruct i bx by_)))

/-- `eoi()` (R306). -/
def eoi : Exec Unit := do
  let s ← look id
  raiseIf (s.jpg.state ≠ .scanning) .missingScan (wordN s.jpg.state.num)
  if s.jpg.progressive then reconstructAll else pure ()
  alter (·.setJpgState .done)

/-! ## Scan (R283 to R290) -/

/-- The frame component whose ID is `cs` (R284). -/
def State.findComp (s : State) (cs : Byte) : Option Nat :=
  (List.range s.jpg.ncomp.toNat).find? (fun i => (s.comp i).id == cs)

/-- The selector loop of R283: selectors `j ..`, `n` of them left, those before in `acc`. -/
def selectors (p : List Byte) : Nat → Nat → List ScanComp → Exec (List ScanComp)
  | 0, _, acc => pure acc
  | n + 1, j, acc => do
    let cs := byteAt p (1 + 2 * j)
    let found ← look (·.findComp cs)
    raiseIf (found = none) .unknownComponentId (cs.setWidth 32)
    let ci := found.getD 0
    raiseIf (acc.any (fun c => c.ci == ci) = true) .duplicateComponentId (cs.setWidth 32)
    let b := byteAt p (2 + 2 * j)
    raiseIf ((b >>> (4 : Nat)).toNat > 3 ∨ (b &&& 15).toNat > 3) .badTableIndex (b.setWidth 32)
    selectors p n (j + 1) (acc ++ [⟨ci, b.extractLsb' 4 2, b.extractLsb' 0 2⟩])

/-- Scan parameters. -/
structure ScanPar where
  ss : Byte
  se : Byte
  ah : BitVec 4
  al : BitVec 4
  deriving DecidableEq, Repr

/-- The parameters of a non-progressive frame (R285). -/
def ScanPar.sequential : ScanPar := ⟨0, 63, 0, 0⟩

/-- The three bytes after `ns` selectors (R287). -/
def ScanPar.ofBytes (p : List Byte) (ns : Nat) : ScanPar where
  ss := byteAt p (1 + 2 * ns)
  se := byteAt p (2 + 2 * ns)
  ah := (byteAt p (3 + 2 * ns)).extractLsb' 4 4
  al := (byteAt p (3 + 2 * ns)).extractLsb' 0 4

/-- `ss | se << 8`. -/
def ScanPar.band (q : ScanPar) : Word := 0#16 ++ q.se ++ q.ss

/-- The checks of R287. -/
def checkProgressive (q : ScanPar) (ns : Nat) : Exec Unit := do
  raiseIf ((q.ss = 0 ∧ q.se ≠ 0) ∨ q.ss > q.se ∨ q.se > 63) .badSpectralSelection q.band
  raiseIf (q.ss ≠ 0 ∧ ns ≠ 1) .badSpectralSelection q.band
  raiseIf (q.ah ≠ 0 ∧ q.ah.toNat ≠ q.al.toNat + 1) .badSuccessiveApproximation (0#24 ++ q.ah ++ q.al)

/-- The table checks of R289 for one scan component. -/
def checkTables (q : ScanPar) (c : ScanComp) : Exec Unit := do
  let s ← look id
  raiseIf (q.ss = 0 ∧ q.ah = 0 ∧ s.htBuilt 0 c.td.toNat = false) .tableNotDefined (c.td.setWidth 32)
  raiseIf (q.se ≠ 0 ∧ s.htBuilt 1 c.ta.toNat = false) .tableNotDefined (0x10 ||| c.ta.setWidth 32)
  raiseIf (s.jpg.progressive = false ∧ s.qtLoaded (s.comp c.ci).tq.toNat = false) .tableNotDefined
    (0x20 ||| (s.comp c.ci).tq.setWidth 32)

/-- `comp[ci].TD <- td; comp[ci].TA <- ta` (R288). -/
def JpegCtx.selectTables (j : JpegCtx) (c : ScanComp) : JpegCtx :=
  let k := Fin.ofNat 4 c.ci
  { j with comp := j.comp.set k.val { j.comp[k] with td := c.td, ta := c.ta } k.isLt }

/-- Scan start (R288). -/
def State.startScan (s : State) (q : ScanPar) (cs : List ScanComp) : State :=
  { s.resetEntropy.onJpg (fun j =>
      { cs.foldl JpegCtx.selectTables j with
        ss := q.ss, se := q.se, ah := q.ah, al := q.al, ns := BitVec.ofNat 3 cs.length
        state := .scanning, rstn := 0 }) with
    inScan := true }

/-- UCOLS and UROWS (R286). -/
def State.unitGrid (s : State) : List ScanComp → Nat × Nat
  | [c] =>
    (ceilDiv (ceilDiv (s.jpg.width.toNat * (s.comp c.ci).h.toNat) s.jpg.hmax.toNat) 8,
      ceilDiv (ceilDiv (s.jpg.height.toNat * (s.comp c.ci).v.toNat) s.jpg.vmax.toNat) 8)
  | _ => (s.jpg.mxx.toNat, s.jpg.myy.toNat)

/-- The blocks of one component in one MCU, `v` outer, `h` inner (R290). -/
def mcuBlocks (ux uy : Nat) (sc : ScanComp) : Exec Unit := do
  let c ← look (·.comp sc.ci)
  forUpTo c.v.toNat (fun v =>
    forUpTo c.h.toNat (fun h =>
      decodeBlock sc.ci (c.h.toNat * ux + h) (c.v.toNat * uy + v)))

/-- One unit of a scan (R290). -/
def scanUnit (cs : List ScanComp) (ux uy : Nat) : Exec Unit :=
  match cs with
  | [c] => decodeBlock c.ci ux uy
  | _ => forEach cs (mcuBlocks ux uy)

/-- The MCU loop (R290): unit `n` of `ucols * urows` is `(n mod ucols, n div ucols)`, and `n + 1` units are done after
it. -/
def mcuLoop (cs : List ScanComp) : Exec Unit := do
  let s ← look id
  let g := s.unitGrid cs
  let ri := s.jpg.ri.toNat
  forUpTo (g.1 * g.2) (fun n => do
    scanUnit cs (n % g.1) (n / g.1)
    if ri > 0 ∧ (n + 1) % ri = 0 ∧ n + 1 < g.1 * g.2 then restart else pure ())

/-- End of the entropy-coded data (R290). -/
def State.endScan (s : State) : State := { s.realign with inScan := false }

/-- `sos(n)` (R283). -/
def sos (n : Nat) : Exec Unit := do
  let s ← look id
  raiseIf (s.jpg.state = .awaitHeader) .missingSOF 0
  raiseIf (n < 6 ∨ n > 4 + 2 * s.jpg.ncomp.toNat ∨ n % 2 ≠ 0) .badSegmentLength (wordN n)
  let p ← readFull n
  let ns := (byteAt p 0).toNat
  raiseIf (ns < 1 ∨ n ≠ 4 + 2 * ns) .badSegmentLength (wordN n)
  let cs ← selectors p ns 0 []
  let q := if s.jpg.progressive then ScanPar.ofBytes p ns else ScanPar.sequential
  if s.jpg.progressive then checkProgressive q ns else pure ()
  forEach cs (checkTables q)
  alter (·.startScan q cs)
  mcuLoop cs
  alter State.endScan

/-! ## Dispatch (R271) -/

/-- A segment: its length, then its handler (R271, R273). -/
def segment (h : Nat → Exec Unit) : Exec Unit := do
  let n ← segmentLength
  h n

/-- SOI after the first (R274). -/
def secondSoi : Exec Unit := do
  let pos ← look (·.inPos)
  raise .badMarker (pos - 1)

/-- RSTn (R274 outside the entropy-coded data of a scan, R299 inside). -/
def rst (n : BitVec 3) : Exec Unit := do
  let inside ← look (·.inScan)
  if inside then restartMarker n else raise .badRestart (0xD0 + n.setWidth 32)

/-- What `jpegStep` does with a marker once SOI has been seen, from the byte after the code byte on (R271). -/
def runMarker : Marker → Exec Unit
  | .soi => secondSoi
  | .eoi => eoi
  | .rst n => rst n
  | .sof0 => segment (sof 0xC0)
  | .sof1 => segment (sof 0xC1)
  | .sof2 => segment (sof 0xC2)
  | .dht => segment dht
  | .dqt => segment dqt
  | .dri => segment dri
  | .sos => segment sos
  | .app n => if n = 14 then segment app14 else segment ignore
  | .com => segment ignore

/-- `J_STATE[4] <- 1`. -/
def State.sawSoi (s : State) : State := s.onJpg (fun j => { j with soiSeen := true })

/-- A marker from the byte after its code byte on, in any state (R271, R300): the first element must be SOI, and the
info of the fault is the index of the marker's first byte. -/
def runElement (k : Marker) : Exec Unit := do
  let s ← look id
  if s.jpg.soiSeen then runMarker k
  else do
    raiseIf (k ≠ .soi) .badMarker (s.inPos - 2)
    alter State.sawSoi

/-- `jpegStep()` before SOI (R271). -/
def firstElement : Exec Unit := do
  let p ← readFull 2
  let pos ← look (·.inPos)
  raiseIf (byteAt p 0 ≠ 0xFF ∨ byteAt p 1 ≠ 0xD8) .badMarker (pos - 2)
  alter State.sawSoi

/-- `jpegStep()` (R271). -/
def jpegStep : Exec Unit := do
  let seen ← look (·.jpg.soiSeen)
  if seen then do
    let m ← nextMarker
    match decodeMarker m with
    | .ok k => runMarker k
    | .error _ => raise .unknownMarker (m.setWidth 32)
  else firstElement

/-- `while state != 3: jpegStep()` (R307); every turn takes at least two bytes (70_reset_and_hazards.md R560 (3)). -/
def jpegLoop : Nat → Exec Unit
  | 0 => pure ()
  | k + 1 => do
    let st ← look (·.jpg.state)
    if st = .done then pure ()
    else do
      jpegStep
      jpegLoop k

/-! ## Plane assembly (R308, R309) -/

/-- A sample clamped to a byte. -/
def clampByte (v : Int) : Byte := BitVec.ofInt 8 (clampInt v 0 255)

/-- A pixel word `r | g << 8 | b << 16 | 255 << 24` (R308). -/
def pixel (r g b : Byte) : Word := 0xFF#8 ++ b ++ g ++ r

/-- `ycbcrToRgb(y, cb, cr)` (R309). -/
def ycbcrToRgb (y cb cr : Byte) : Word :=
  let yi : Int := y.toNat
  let u : Int := (cb.toNat : Int) - 128
  let v : Int := (cr.toNat : Int) - 128
  pixel (clampByte (yi + (91881 * v + 32768) / 65536))
    (clampByte (yi - (22554 * u + 46802 * v + 32768) / 65536))
    (clampByte (yi + (116130 * u + 32768) / 65536))

/-- `s_i` at pixel `(x, y)` (R308). -/
def State.sample (s : State) (i x y : Nat) : Byte :=
  Cells.get (s.plane i)
    ((y * (s.comp i).v.toNat) / s.jpg.vmax.toNat * s.stride i + (x * (s.comp i).h.toNat) / s.jpg.hmax.toNat)

/-- The colour of pixel `(x, y)` (R308). -/
def State.assembledPixel (s : State) (x y : Nat) : Word :=
  if s.jpg.ncomp = 1 then pixel (s.sample 0 x y) (s.sample 0 x y) (s.sample 0 x y)
  else if s.jpg.adobeValid ∧ s.jpg.adobeTransform = 0 then
    pixel (s.sample 0 x y) (s.sample 1 x y) (s.sample 2 x y)
  else ycbcrToRgb (s.sample 0 x y) (s.sample 1 x y) (s.sample 2 x y)

/-- All pixels in raster order (R308). -/
def State.assembledImage (s : State) : List Word :=
  (List.range s.jpg.height.toNat).flatMap (fun y =>
    (List.range s.jpg.width.toNat).map (fun x => s.assembledPixel x y))

/-- The writes of JPG.ASSEMBLE (R308). -/
def State.assemble (s : State) : State :=
  { s with
    pixDim := s.jpg.height ++ s.jpg.width
    mem := { s.mem with pix := Cells.setRange s.mem.pix 0 s.assembledImage } }

/-! ## Commands -/

/-- JPG.INIT (R270). -/
def execJpgInit (s : State) : Host.Outcome State Fault Refusal :=
  runCmd 0x50 (alter (fun s => { s.bcReset with jpg := JpegCtx.init, qtValid := 0, htValid := 0 })) s

/-- JPG.STEP (R271). -/
def execJpgStep (s : State) : Host.Outcome State Fault Refusal :=
  runCmd 0x51 (do
    requireDecoding
    failingJpeg jpegStep) s

/-- JPG.DECODE (R307). -/
def execJpgDecode (s : State) : Host.Outcome State Fault Refusal :=
  runCmd 0x52 (do
    requireDecoding
    let n ← look (·.inLen)
    failingJpeg (jpegLoop (n.toNat + 4))) s

/-- JPG.ASSEMBLE (R308). -/
def execJpgAssemble (s : State) : Host.Outcome State Fault Refusal :=
  runCmd 0x53 (do
    let s ← look id
    raiseIf (s.jpg.state ≠ .done) .badState (wordN s.jpg.state.num)
    raiseIf (s.jpg.ncomp = 4) .unsupported 4
    raiseIf (s.jpg.width.toNat * s.jpg.height.toNat > s.caps.pixCap) .capacityExceeded 4
    alter State.assemble) s

/-! ## The elements of the stream -/

/-- A marker with its segment as the instruction JPG.STEP runs, IN_POS just after the code byte (log 3). -/
def runJpegElement (k : Marker) (s : State) : Host.Outcome State Fault Refusal :=
  runCmd 0x51 (do
    requireDecoding
    failingJpeg (runElement k)) s

/-- SOI (R271). -/
def execJpegSoi (s : State) : Host.Outcome State Fault Refusal := runJpegElement .soi s
/-- EOI (R306). -/
def execJpegEoi (s : State) : Host.Outcome State Fault Refusal := runJpegElement .eoi s
/-- RSTn (R274, R299). -/
def execJpegRst (n : BitVec 3) (s : State) : Host.Outcome State Fault Refusal := runJpegElement (.rst n) s
/-- SOF0 (R276). -/
def execJpegSof0 (s : State) : Host.Outcome State Fault Refusal := runJpegElement .sof0 s
/-- SOF1 (R276). -/
def execJpegSof1 (s : State) : Host.Outcome State Fault Refusal := runJpegElement .sof1 s
/-- SOF2 (R276). -/
def execJpegSof2 (s : State) : Host.Outcome State Fault Refusal := runJpegElement .sof2 s
/-- DHT (R281). -/
def execJpegDht (s : State) : Host.Outcome State Fault Refusal := runJpegElement .dht s
/-- DQT (R280). -/
def execJpegDqt (s : State) : Host.Outcome State Fault Refusal := runJpegElement .dqt s
/-- DRI (R282). -/
def execJpegDri (s : State) : Host.Outcome State Fault Refusal := runJpegElement .dri s
/-- SOS (R283). -/
def execJpegSos (s : State) : Host.Outcome State Fault Refusal := runJpegElement .sos s
/-- APP0 (R275). -/
def execJpegApp0 (s : State) : Host.Outcome State Fault Refusal := runJpegElement (.app 0) s
/-- APP1 (R275). -/
def execJpegApp1 (s : State) : Host.Outcome State Fault Refusal := runJpegElement (.app 1) s
/-- APP2 (R275). -/
def execJpegApp2 (s : State) : Host.Outcome State Fault Refusal := runJpegElement (.app 2) s
/-- APP3 (R275). -/
def execJpegApp3 (s : State) : Host.Outcome State Fault Refusal := runJpegElement (.app 3) s
/-- APP4 (R275). -/
def execJpegApp4 (s : State) : Host.Outcome State Fault Refusal := runJpegElement (.app 4) s
/-- APP5 (R275). -/
def execJpegApp5 (s : State) : Host.Outcome State Fault Refusal := runJpegElement (.app 5) s
/-- APP6 (R275). -/
def execJpegApp6 (s : State) : Host.Outcome State Fault Refusal := runJpegElement (.app 6) s
/-- APP7 (R275). -/
def execJpegApp7 (s : State) : Host.Outcome State Fault Refusal := runJpegElement (.app 7) s
/-- APP8 (R275). -/
def execJpegApp8 (s : State) : Host.Outcome State Fault Refusal := runJpegElement (.app 8) s
/-- APP9 (R275). -/
def execJpegApp9 (s : State) : Host.Outcome State Fault Refusal := runJpegElement (.app 9) s
/-- APP10 (R275). -/
def execJpegApp10 (s : State) : Host.Outcome State Fault Refusal := runJpegElement (.app 10) s
/-- APP11 (R275). -/
def execJpegApp11 (s : State) : Host.Outcome State Fault Refusal := runJpegElement (.app 11) s
/-- APP12 (R275). -/
def execJpegApp12 (s : State) : Host.Outcome State Fault Refusal := runJpegElement (.app 12) s
/-- APP13 (R275). -/
def execJpegApp13 (s : State) : Host.Outcome State Fault Refusal := runJpegElement (.app 13) s
/-- APP14 (R275). -/
def execJpegApp14 (s : State) : Host.Outcome State Fault Refusal := runJpegElement (.app 14) s
/-- APP15 (R275). -/
def execJpegApp15 (s : State) : Host.Outcome State Fault Refusal := runJpegElement (.app 15) s
/-- COM (R275). -/
def execJpegCom (s : State) : Host.Outcome State Fault Refusal := runJpegElement .com s

end Sys2Proof.Machine
end

