-- ==== Sys2Proof/Machine/JpegEncode.lean ====
section
/-! DEFINITION. JPEG encode: 45_jpeg_encode.md R340 to R355. -/

namespace Sys2Proof.Machine

open Sys2Proof

/-! ## Header (R341 to R345) -/

/-- Big-endian bytes of the low half of a register. -/
def beBytes (v : Word) : List Byte := [v.extractLsb' 8 8, v.extractLsb' 0 8]

/-- One table of a DQT segment: `Pq = 0`, `Tq = q`, and 64 bytes in stored order (R342). -/
def State.dqtTable (s : State) (q : Nat) : List Byte :=
  BitVec.ofNat 8 q :: (List.range 64).map (fun k => (s.qtEntry q k).setWidth 8)

/-- One table of a DHT segment (R344). -/
def dhtTable (sel : Byte) (sp : HuffSpec) : List Byte := sel :: (sp.counts ++ sp.values)

/-- Sections 1 to 5 of R341. -/
def State.jpegHeader (s : State) : List Byte :=
  [0xFF, 0xD8] ++
  ([0xFF, 0xDB, 0x00, 0x84] ++ s.dqtTable 0 ++ s.dqtTable 1) ++
  ([0xFF, 0xC0, 0x00, 0x11, 0x08] ++ beBytes (s.pixDim >>> (16 : Nat)) ++ beBytes s.pixDim ++
    [0x03, 0x01, 0x11, 0x00, 0x02, 0x11, 0x01, 0x03, 0x11, 0x01]) ++
  ([0xFF, 0xC4, 0x01, 0xA2] ++ dhtTable 0x00 stdDcLum ++ dhtTable 0x10 stdAcLum ++ dhtTable 0x01 stdDcChr ++
    dhtTable 0x11 stdAcChr) ++
  [0xFF, 0xDA, 0x00, 0x0C, 0x03, 0x01, 0x00, 0x02, 0x11, 0x03, 0x11, 0x00, 0x3F, 0x00]

/-! ## Colour (R347) -/

/-- Y, Cb or Cr of a pixel as an i32 entry of BLK (R347). -/
def ycbcr (c : Nat) (p : Word) : Word :=
  let r : Int := (pixR p).toNat
  let g : Int := (pixG p).toNat
  let b : Int := (pixB p).toNat
  match c with
  | 0 => word (clampInt ((19595 * r + 38470 * g + 7471 * b + 32768) / 65536) 0 255)
  | 1 => word (clampInt ((-11056 * r - 21712 * g + 32768 * b + 32768) / 65536 + 128) 0 255)
  | _ => word (clampInt ((32768 * r - 27440 * g - 5328 * b + 32768) / 65536 + 128) 0 255)

/-- Tile sample `(x, y)` of the tile at `(tx, ty)` repeats the last column and the last row (R346). -/
def State.tilePixel (s : State) (tx ty x y : Nat) : Word :=
  s.pixAt (min (ty + y) (s.pixH - 1) * s.pixW + min (tx + x) (s.pixW - 1))

/-- The block `S_c` of a tile, row-major (R348). -/
def State.tileBlock (s : State) (c tx ty : Nat) : List Word :=
  (List.range 64).map (fun i => ycbcr c (s.tilePixel tx ty (i % 8) (i / 8)))

/-! ## Block coding (R349, R350) -/

/-- The AC part of R350: coefficients 1 to 63 in order, with the run of zeros before them. -/
def encodeAc (t : HuffTable) : List Word → Nat → Exec Unit
  | [], run => if run > 0 then huffEncode t 0x00 else pure ()
  | z :: zs, run =>
    if z = 0 then encodeAc t zs (run + 1)
    else do
      forUpTo (run / 16) (fun _ => huffEncode t 0xF0)
      emitValue t (run % 16) z.toInt
      encodeAc t zs 0

/-- `encodeBlock(c, t)` (R349); answers the new predictor. -/
def encodeBlock (t : Nat) (pred : Word) : Exec Word := do
  let s ← look id
  emitValue (s.table 0 t) 0 ((s.zzAt 0).toInt - pred.toInt)
  encodeAc (s.table 1 t) (s.zzList.drop 1) 0
  pure (s.zzAt 0)

/-- One component of a tile (R348). -/
def encodeComponent (c t tx ty : Nat) (pred : Word) : Exec Word := do
  alter (fun s => (s.setBlk (s.tileBlock c tx ty)).fdct)
  quant t
  encodeBlock t pred

/-- `pred[0..2]` (R349). -/
structure Preds where
  y : Word
  cb : Word
  cr : Word
  deriving DecidableEq, Repr

/-- `tile(tx, ty)` (R348). -/
def encodeTile (tx ty : Nat) (p : Preds) : Exec Preds := do
  let y ← encodeComponent 0 0 tx ty p.y
  let cb ← encodeComponent 1 1 tx ty p.cb
  let cr ← encodeComponent 2 1 tx ty p.cr
  pure ⟨y, cb, cr⟩

/-- The tiles in raster order (R346). -/
def encodeTiles : List (Nat × Nat) → Preds → Exec Unit
  | [], _ => pure ()
  | t :: ts, p => do
    let p' ← encodeTile t.1 t.2 p
    encodeTiles ts p'

/-- The corners `(tx, ty)` of the tiles (R340, R346). -/
def State.tiles (s : State) : List (Nat × Nat) :=
  (List.range (ceilDiv s.pixH 8)).flatMap (fun ty =>
    (List.range (ceilDiv s.pixW 8)).map (fun tx => (8 * tx, 8 * ty)))

/-- JPG.ENCODE (R340). -/
def execJpgEncode (s : State) : Host.Outcome State Fault Refusal :=
  runCmd 0x58 (do
    let s ← look id
    raiseIf (s.arg0.toNat < 1 ∨ s.arg0.toNat > 100) .badArgument s.arg0
    raiseIf (s.pixW = 0 ∨ s.pixH = 0) .badDimensions s.pixDim
    raiseIf (s.pixW * s.pixH > s.caps.pixCap) .capacityExceeded 4
    scaleTables s.arg0.toNat
    loadStd
    alter State.bwClear
    let h ← look (·.jpegHeader)
    outAll h
    encodeTiles s.tiles ⟨0, 0, 0⟩
    flushBits
    outAll [0xFF, 0xD9]
    alter (fun t => t.setRes0 (t.outLen - s.outLen))) s

end Sys2Proof.Machine
end

