-- ==== Sys2Proof/Machine/System.lean ====
section
/-! DEFINITION. The system commands: 49_system.md R480 to R482. -/

namespace Sys2Proof.Machine

open Sys2Proof

/-- SYS.NOP (R480): changes nothing except STATUS. -/
def execSysNop (s : State) : Host.Outcome State Fault Refusal :=
  runCmd 0x00 (pure ()) s

/-- SYS.SRESET (R481): the reset state, then DONE. -/
def execSysSreset (s : State) : Host.Outcome State Fault Refusal :=
  runCmd 0x01 (alter State.resetCore) s

/-- SYS.OUTCLR (R482): `OUT_LEN <- 0`, nothing else. -/
def execSysOutclr (s : State) : Host.Outcome State Fault Refusal :=
  runCmd 0x02 (alter (fun s => { s with outLen := 0 })) s

end Sys2Proof.Machine
end

