-- ==== Sys2Proof/Machine/Dispatch.lean ====
section
/-! DEFINITION. One arm per instruction of spec/opcode_table.json. -/

namespace Sys2Proof.Machine

/-- The meaning of an instruction. -/
def exec (i : Instr) (s : State) : Host.Outcome State Fault Refusal :=
  match i with
  | .sysNop => Sys2Proof.Machine.execSysNop s
  | .sysSreset => Sys2Proof.Machine.execSysSreset s
  | .sysOutclr => Sys2Proof.Machine.execSysOutclr s
  | .bcReset => Sys2Proof.Machine.execBcReset s
  | .bcEnsure n => Sys2Proof.Machine.execBcEnsure n s
  | .bcBit => Sys2Proof.Machine.execBcBit s
  | .bcBits n => Sys2Proof.Machine.execBcBits n s
  | .bcRecvext t => Sys2Proof.Machine.execBcRecvext t s
  | .bcIgnore => Sys2Proof.Machine.execBcIgnore s
  | .bcReadfull => Sys2Proof.Machine.execBcReadfull s
  | .bcRealign => Sys2Proof.Machine.execBcRealign s
  | .bwEmit len => Sys2Proof.Machine.execBwEmit len s
  | .bwFlush => Sys2Proof.Machine.execBwFlush s
  | .hufBuild tc th => Sys2Proof.Machine.execHufBuild tc th s
  | .hufDec tc th => Sys2Proof.Machine.execHufDec tc th s
  | .hufEnc tc th => Sys2Proof.Machine.execHufEnc tc th s
  | .hufEncval tc th => Sys2Proof.Machine.execHufEncval tc th s
  | .hufLoadstd => Sys2Proof.Machine.execHufLoadstd s
  | .dctInv => Sys2Proof.Machine.execDctInv s
  | .dctFwd => Sys2Proof.Machine.execDctFwd s
  | .blkLevel => Sys2Proof.Machine.execBlkLevel s
  | .blkClear mask => Sys2Proof.Machine.execBlkClear mask s
  | .qtScale => Sys2Proof.Machine.execQtScale s
  | .qtDeq slot => Sys2Proof.Machine.execQtDeq slot s
  | .qtQuant slot => Sys2Proof.Machine.execQtQuant slot s
  | .jpgInit => Sys2Proof.Machine.execJpgInit s
  | .jpgStep => Sys2Proof.Machine.execJpgStep s
  | .jpgDecode => Sys2Proof.Machine.execJpgDecode s
  | .jpgAssemble => Sys2Proof.Machine.execJpgAssemble s
  | .jpgEncode => Sys2Proof.Machine.execJpgEncode s
  | .lzwDec => Sys2Proof.Machine.execLzwDec s
  | .lzwEnc => Sys2Proof.Machine.execLzwEnc s
  | .octReset => Sys2Proof.Machine.execOctReset s
  | .octAdd => Sys2Proof.Machine.execOctAdd s
  | .octBuild => Sys2Proof.Machine.execOctBuild s
  | .octReduce => Sys2Proof.Machine.execOctReduce s
  | .octPalette => Sys2Proof.Machine.execOctPalette s
  | .octIndex => Sys2Proof.Machine.execOctIndex s
  | .octQuantize => Sys2Proof.Machine.execOctQuantize s
  | .gifInit => Sys2Proof.Machine.execGifInit s
  | .gifHeader => Sys2Proof.Machine.execGifHeader s
  | .gifStep => Sys2Proof.Machine.execGifStep s
  | .gifDecode => Sys2Proof.Machine.execGifDecode s
  | .gifEbegin => Sys2Proof.Machine.execGifEbegin s
  | .gifEframe => Sys2Proof.Machine.execGifEframe s
  | .gifEend => Sys2Proof.Machine.execGifEend s
  | .jpegSoi => Sys2Proof.Machine.execJpegSoi s
  | .jpegEoi => Sys2Proof.Machine.execJpegEoi s
  | .jpegRst n => Sys2Proof.Machine.execJpegRst n s
  | .jpegSof0 => Sys2Proof.Machine.execJpegSof0 s
  | .jpegSof1 => Sys2Proof.Machine.execJpegSof1 s
  | .jpegSof2 => Sys2Proof.Machine.execJpegSof2 s
  | .jpegDht => Sys2Proof.Machine.execJpegDht s
  | .jpegDqt => Sys2Proof.Machine.execJpegDqt s
  | .jpegDri => Sys2Proof.Machine.execJpegDri s
  | .jpegSos => Sys2Proof.Machine.execJpegSos s
  | .jpegApp0 => Sys2Proof.Machine.execJpegApp0 s
  | .jpegApp1 => Sys2Proof.Machine.execJpegApp1 s
  | .jpegApp2 => Sys2Proof.Machine.execJpegApp2 s
  | .jpegApp3 => Sys2Proof.Machine.execJpegApp3 s
  | .jpegApp4 => Sys2Proof.Machine.execJpegApp4 s
  | .jpegApp5 => Sys2Proof.Machine.execJpegApp5 s
  | .jpegApp6 => Sys2Proof.Machine.execJpegApp6 s
  | .jpegApp7 => Sys2Proof.Machine.execJpegApp7 s
  | .jpegApp8 => Sys2Proof.Machine.execJpegApp8 s
  | .jpegApp9 => Sys2Proof.Machine.execJpegApp9 s
  | .jpegApp10 => Sys2Proof.Machine.execJpegApp10 s
  | .jpegApp11 => Sys2Proof.Machine.execJpegApp11 s
  | .jpegApp12 => Sys2Proof.Machine.execJpegApp12 s
  | .jpegApp13 => Sys2Proof.Machine.execJpegApp13 s
  | .jpegApp14 => Sys2Proof.Machine.execJpegApp14 s
  | .jpegApp15 => Sys2Proof.Machine.execJpegApp15 s
  | .jpegCom => Sys2Proof.Machine.execJpegCom s
  | .gifSignature => Sys2Proof.Machine.execGifSignature s
  | .gifImage => Sys2Proof.Machine.execGifImage s
  | .gifExtGraphicControl => Sys2Proof.Machine.execGifExtGraphicControl s
  | .gifExtComment => Sys2Proof.Machine.execGifExtComment s
  | .gifExtApplication => Sys2Proof.Machine.execGifExtApplication s
  | .gifExtPlainText => Sys2Proof.Machine.execGifExtPlainText s
  | .gifExtOther label => Sys2Proof.Machine.execGifExtOther label s
  | .gifTrailer => Sys2Proof.Machine.execGifTrailer s

end Sys2Proof.Machine
end

