-- ==== Sys2Proof/Machine/HostAccess.lean ====
section
/-! DEFINITION. The host's side: the register file (10_state.md R22 to R71), the memory window (20_memory.md R80 to
R86) and what a write to CMD does before a command runs (30_encoding.md R111). -/

namespace Sys2Proof.Machine

open Sys2Proof

/-! ## Register views -/

/-- J_STATE (R44). -/
def JpegCtx.stateWord (j : JpegCtx) : Word := 0#27 ++ bit j.soiSeen ++ 0#1 ++ BitVec.ofNat 3 j.state.num

/-- J_FRAME (R45). -/
def JpegCtx.frameWord (j : JpegCtx) : Word :=
  0#8 ++ j.adobeTransform ++ 0#2 ++ bit j.adobeValid ++ bit j.progressive ++ 0#1 ++ j.vmax ++ 0#1 ++ j.hmax ++ 0#1 ++
    j.ncomp

/-- J_SCAN (R49). -/
def JpegCtx.scanWord (j : JpegCtx) : Word := 0#5 ++ j.ns ++ j.al ++ j.ah ++ j.se ++ j.ss

/-- J_COMPi (R46). -/
def Comp.toWord (c : Comp) : Word := 0#6 ++ c.ta ++ 0#2 ++ c.td ++ 0#2 ++ c.tq ++ c.v ++ c.h ++ c.id

/-- G_LSD (R67, 48_gif.md R431). -/
def GifCtx.lsdWord (g : GifCtx) : Word :=
  0#4 ++ g.packed.extractLsb' 0 3 ++ g.packed.extractLsb' 7 1 ++ g.aspect ++ g.background ++ g.packed

/-- G_GC (R68). -/
def GraphicControl.toWord (g : GraphicControl) : Word :=
  g.delay ++ g.tindex ++ 0#3 ++ g.disposal ++ bit g.tflag ++ bit g.valid

/-- G_PREVINFO (R69). -/
def GifCtx.prevInfoWord (g : GifCtx) : Word :=
  g.prevDelay ++ 0#8 ++ bit g.prevLocal ++ bit g.prevInterlace ++ 0#3 ++ g.prevDisposal

/-- G_ENC (R71). -/
def GifEnc.toWord (g : GifEnc) : Word :=
  g.rep ++ 0#9 ++ bit g.nsDone ++ bit g.nsLate ++ bit g.anim ++ 0#3 ++ bit g.opened

/-- OCT_FLAGS (R62). -/
def Octree.flagsWord (o : Octree) : Word := 0#30 ++ bit o.palOk ++ bit o.anyT

/-- The register at a byte offset as the host reads it (R22); CMD reads 0, and so does an offset that is not listed.
MEM_DATA (0x3C) is the window's. -/
def readReg (s : State) (offset : Nat) : Word :=
  match offset with
  | 0x04 => s.status.toWord
  | 0x08 => s.err
  | 0x0C => s.errInfo
  | 0x10 => s.arg0
  | 0x14 => s.arg1
  | 0x18 => s.arg2
  | 0x1C => s.arg3
  | 0x20 => s.res0
  | 0x24 => s.res1
  | 0x28 => s.inPos
  | 0x2C => s.inLen
  | 0x30 => s.outLen
  | 0x34 => s.memSel
  | 0x38 => s.memAddr
  | 0x40 => s.bcAcc
  | 0x44 => wordN s.bcNbits
  | 0x48 => s.bwAcc
  | 0x4C => wordN s.bwNbits
  | 0x50 => s.jpg.stateWord
  | 0x54 => s.jpg.height ++ s.jpg.width
  | 0x58 => s.jpg.frameWord
  | 0x5C => s.jpg.myy ++ s.jpg.mxx
  | 0x60 => s.jpg.ri.setWidth 32
  | 0x64 => s.jpg.eobrun.setWidth 32
  | 0x68 => s.jpg.scanWord
  | 0x6C => s.jpg.rstn.setWidth 32
  | 0x70 => (s.comp 0).toWord
  | 0x74 => (s.comp 1).toWord
  | 0x78 => (s.comp 2).toWord
  | 0x7C => (s.comp 3).toWord
  | 0x80 => s.dcpred 0
  | 0x84 => s.dcpred 1
  | 0x88 => s.dcpred 2
  | 0x8C => s.dcpred 3
  | 0x90 => s.octAthresh.setWidth 32
  | 0x94 => wordN s.oct.leaves
  | 0x98 => s.palLen.setWidth 32
  | 0x9C => s.transpIdx
  | 0xA0 => s.pixDim
  | 0xA4 => wordN s.gif.state.num
  | 0xA8 => s.gif.screenH ++ s.gif.screenW
  | 0xAC => s.gif.lsdWord
  | 0xB0 => s.gif.gc.toWord
  | 0xB4 => s.gif.prevTop ++ s.gif.prevLeft
  | 0xB8 => s.gif.prevH ++ s.gif.prevW
  | 0xBC => s.gif.prevInfoWord
  | 0xC0 => s.gif.nframes
  | 0xC4 => s.genc.toWord
  | 0xC8 => s.genc.frames
  | 0xCC => s.oct.flagsWord
  | 0xD0 => s.qtValid.setWidth 32
  | 0xD4 => s.htValid.setWidth 32
  | _ => 0

/-- What OCT_ATHRESH stores: `min(value[8:0], 256)` (R63). -/
def athreshOf (v : Word) : BitVec 9 := if (v.setWidth 9).toNat > 256 then 256 else v.setWidth 9

/-- What IN_LEN stores: a write greater than IN_CAP is stored as IN_CAP (R32). -/
def inLenOf (cap : Nat) (v : Word) : Word := if v.toNat > cap then wordN cap else v

/-- A host write to a register other than CMD and MEM_DATA: an RW register stores it, an RO register or an offset that
is not listed ignores it (R22, 20_memory.md R86). -/
def writeReg (s : State) (offset : Nat) (v : Word) : State :=
  match offset with
  | 0x10 => { s with arg0 := v }
  | 0x14 => { s with arg1 := v }
  | 0x18 => { s with arg2 := v }
  | 0x1C => { s with arg3 := v }
  | 0x28 => { s with inPos := v }
  | 0x2C => { s with inLen := inLenOf s.caps.inCap v }
  | 0x34 => { s with memSel := v }
  | 0x38 => { s with memAddr := v }
  | 0x90 => { s with octAthresh := athreshOf v }
  | 0xA0 => { s with pixDim := v }
  | 0xD0 => { s with qtValid := v.setWidth 4 }
  | _ => s

/-! ## Memory spaces through the window (20_memory.md R80) -/

/-- Elements of a space; no elements where there is no such space. -/
def spaceSize (c : Config.Capacities) (space : Nat) : Nat :=
  match space with
  | 0 => c.inCap
  | 1 => c.outCap
  | 2 => 64
  | 3 => 64
  | 4 => 256
  | 5 => 272
  | 6 => 8192
  | 7 => c.pixCap
  | 8 => c.pixCap
  | 9 => 256
  | 10 => c.planeCap
  | 11 => c.planeCap
  | 12 => c.planeCap
  | 13 => c.planeCap
  | 14 => c.coefCap
  | 15 => c.coefCap
  | 16 => c.coefCap
  | 17 => c.coefCap
  | 18 => c.pixCap
  | 19 => c.pixCap
  | 20 => 256
  | 21 => 256
  | 22 => Config.tmpCap
  | _ => 0

/-- Field `f` of a table in HTAB (R83). -/
def HuffTable.field (t : HuffTable) (f : Nat) : Word :=
  if f = 0 then wordN t.total.val
  else if f ≤ 16 then wordN (t.minAt f)
  else if f ≤ 32 then
    match t.maxAt (f - 16) with
    | some m => m.setWidth 32
    | none => 0xFFFFFFFF
  else if f ≤ 48 then wordN (t.indexAt (f - 32))
  else if f ≤ 64 then ((t.counts[f - 49]?).getD 0).setWidth 32
  else if f ≤ 255 then 0
  else if f ≤ 511 then (t.valueAt (f - 256)).setWidth 32
  else if f ≤ 767 then (t.lutAt (f - 512)).setWidth 32
  else
    BitVec.ofNat 16 (t.sizeAt (BitVec.ofNat 8 (f - 768))) ++ t.codeAt (BitVec.ofNat 8 (f - 768))

/-- Element `a` of HTAB: field `a mod 1024` of table `a div 1024` (R83). -/
def State.htab (s : State) (a : Nat) : Word := (s.ht[Fin.ofNat 8 (a / 1024)]).field (a % 1024)

/-- `MemRead(space, a, 1)` extended to 32 bits (R80). -/
def readElem (s : State) (space a : Nat) : Word :=
  match space with
  | 0 => (Cells.get s.mem.inp a).setWidth 32
  | 1 => (Cells.get s.mem.out a).setWidth 32
  | 2 => Cells.get s.mem.blk a
  | 3 => Cells.get s.mem.zz a
  | 4 => (Cells.get s.mem.qt a).setWidth 32
  | 5 => (Cells.get s.mem.hspec a).setWidth 32
  | 6 => s.htab a
  | 7 => Cells.get s.mem.pix a
  | 8 => (Cells.get s.mem.idx a).setWidth 32
  | 9 => Cells.get s.mem.pal a
  | 10 => (Cells.get (s.plane 0) a).setWidth 32
  | 11 => (Cells.get (s.plane 1) a).setWidth 32
  | 12 => (Cells.get (s.plane 2) a).setWidth 32
  | 13 => (Cells.get (s.plane 3) a).setWidth 32
  | 14 => Cells.get (s.coef 0) a
  | 15 => Cells.get (s.coef 1) a
  | 16 => Cells.get (s.coef 2) a
  | 17 => Cells.get (s.coef 3) a
  | 18 => Cells.get s.mem.canvas a
  | 19 => Cells.get s.mem.snap a
  | 20 => Cells.get s.mem.gct a
  | 21 => Cells.get s.mem.lct a
  | 22 => (Cells.get s.mem.tmp a).setWidth 32
  | _ => 0

/-- Spaces the host may write (R80): IN, BLK, ZZ, QT, HSPEC, PIX, IDX, PAL. -/
def spaceWritable (space : Nat) : Bool :=
  match space with
  | 0 => true
  | 2 => true
  | 3 => true
  | 4 => true
  | 5 => true
  | 7 => true
  | 8 => true
  | 9 => true
  | _ => false

/-- `MemWrite(space, a, 1, w[E-1:0])` for a space the host may write (R85). -/
def writeElem (s : State) (space a : Nat) (w : Word) : State :=
  match space with
  | 0 => { s with mem := { s.mem with inp := Cells.set s.mem.inp a (w.setWidth 8) } }
  | 2 => { s with mem := { s.mem with blk := Cells.set s.mem.blk a w } }
  | 3 => { s with mem := { s.mem with zz := Cells.set s.mem.zz a w } }
  | 4 => { s with mem := { s.mem with qt := Cells.set s.mem.qt a (w.setWidth 16) } }
  | 5 => { s with mem := { s.mem with hspec := Cells.set s.mem.hspec a (w.setWidth 8) } }
  | 7 => { s with mem := { s.mem with pix := Cells.set s.mem.pix a w } }
  | 8 => { s with mem := { s.mem with idx := Cells.set s.mem.idx a (w.setWidth 8) } }
  | 9 => { s with mem := { s.mem with pal := Cells.set s.mem.pal a w } }
  | _ => s

/-- Whether MEM_SEL and MEM_ADDR name an element (R84); a MEM_SEL above 22 has none. -/
def State.windowOk (s : State) : Bool := decide (s.memAddr.toNat < spaceSize s.caps s.memSel.toNat)

/-- `MEM_SEL << 24 | a[23:0]` (R84). -/
def State.windowInfo (s : State) : Word := (s.memSel <<< (24 : Nat)) ||| (s.memAddr &&& 0xFFFFFF)

/-- `MEM_ADDR <- a + 1`, modulo 2^32 (R84). -/
def State.bumpAddr (s : State) : State := { s with memAddr := s.memAddr + 1 }

/-- BadMemAccess by a window access: the opcode byte of ERR is FF (60_exceptions.md R514, R530). -/
def windowFault (s : State) : State := enterFault 0xFF ⟨.badMemAccess, s.windowInfo⟩ s

/-- A host read of MEM_DATA (R84; while FAULT = 1 an out-of-range read returns 0 and changes nothing, R514). -/
def windowRead (s : State) : State :=
  if s.windowOk then { s.bumpAddr with rdata := readElem s s.memSel.toNat s.memAddr.toNat }
  else if s.status.fault then { s with rdata := 0 }
  else { windowFault s with rdata := 0 }

/-- A host write of MEM_DATA (R85; while FAULT = 1 a window write changes nothing, R86, R514). -/
def windowWrite (s : State) (w : Word) : State :=
  if s.status.fault then s
  else if s.windowOk ∧ spaceWritable s.memSel.toNat then
    (writeElem s s.memSel.toNat s.memAddr.toNat w).bumpAddr
  else windowFault s

/-- A host read of a register. -/
def hostRead (offset : Nat) (s : State) : State :=
  if offset = 0x3C then windowRead s else { s with rdata := readReg s offset }

/-- A host write to a register other than CMD. -/
def hostWrite (offset : Nat) (w : Word) (s : State) : State :=
  if offset = 0x3C then windowWrite s w else writeReg s offset w

/-! ## Issuing a command (30_encoding.md R111) -/

/-- What a word written to CMD comes to before a command's rule executes. -/
inductive Issue where
  /-- The access is over: the command was refused (step (1)) or the word is illegal (step (2)). -/
  | ended (s : State)
  /-- The command runs. -/
  | run (i : Instr) (s : State)

/-- Steps (1) and (2) of R111. -/
def issue (w : Word) (s : State) : Issue :=
  if s.status.fault ∧ opcOf w ≠ 0x01 then .ended s.refuse
  else
    match decodeCommand w with
    | .ok i => .run i s.accept
    | .error _ => .ended (enterFault (opcOf w) ⟨.illegalCommand, w⟩ s.accept)

/-! ## Placing an instruction -/

/-- The bytes of a stream element laid out at the head of IN, with zeros up to 16 bytes (the longest element's
selecting bytes and a payload of zeros). -/
def elementBytes (nbits w : Nat) : List Byte :=
  (bytesBE (nbits / 8) w ++ List.replicate 16 0).take 16

/-- STREAM (30_encoding.md R117) with an element's bytes, the bit cursor emptied. -/
def State.streamElement (s : State) (nbits w : Nat) : State :=
  { s.bcReset with
    inPos := 0
    inLen := inLenOf s.caps.inCap 16
    mem := { s.mem with inp := Cells.setRange s.mem.inp 0 (elementBytes nbits w) } }

/-- A JPEG decode about to meet this element: the SOI unless the element is SOI itself, and not yet at its end. -/
def State.readyJpeg (s : State) (soi : Bool) : State :=
  s.onJpg (fun j =>
    { j with
      soiSeen := !soi
      state := if j.state = .done ∨ j.state = .failed then .awaitHeader else j.state })

/-- Command word `w` is the host's next access, with no fault pending. -/
def State.queueCommand (s : State) (w : Word) : State :=
  { s with
    status := { s.status with fault := false }
    inputs := .write 0 w :: s.inputs }

/-- An instruction placed so that the very next step runs it: a command word as the host's next write to CMD, a stream
element at IN_POS with the command that executes one element. -/
def State.placeWord (s : State) (nbits w : Nat) : State :=
  if nbits = 32 then s.queueCommand (BitVec.ofNat 32 w)
  else if nbits = 48 then
    ((s.streamElement nbits w).setGifState .awaitHeader).queueCommand 0x81000000
  else if nbits = 16 ∧ w / 256 = 0xFF then
    ((s.streamElement nbits w).readyJpeg (decide (w % 256 = 0xD8))).queueCommand 0x51000000
  else
    ((s.streamElement nbits w).setGifState .sections).queueCommand 0x82000000

end Sys2Proof.Machine
end

