-- ==== Sys2Proof/Machine/Step.lean ====
section
/-! DEFINITION. One step: the host's first pending access is made (10_state.md R21; 30_encoding.md R111; log 1). -/

namespace Sys2Proof.Machine

open Sys2Proof

/-- A host write: to CMD it issues a command, which runs to its end (R111); elsewhere it is a register access. -/
def hostWriteStep (offset : Nat) (w : Word) (s : State) : Host.Outcome State Fault Refusal :=
  if offset = 0 then
    match issue w s with
    | .ended t => .next t
    | .run i t => exec i t
  else .next (hostWrite offset w s)

/-- One step. With no access pending the core is idle and holds its state (60_exceptions.md R527). -/
def step (s : State) : Host.Outcome State Fault Refusal :=
  match s.inputs with
  | [] => .next s
  | .reset :: rest => .next ({ s with inputs := rest } : State).resetCore
  | .read off :: rest => .next (hostRead off { s with inputs := rest })
  | .write off w :: rest => hostWriteStep off w { s with inputs := rest }

/-- `s` with an instruction placed where the next step takes it from (log 1, log 3). -/
def State.withFetchWord (s : State) (nbits w : Nat) : State := s.placeWord nbits w

end Sys2Proof.Machine
end

