-- ==== Sys2Proof/Safety.lean ====
section
/-! DEFINITION. What counts as a sound state and a safe run, and the vocabulary the statements use: the bit streams
behind the BitCursor and the bit writer, canonical Huffman codes, sub-block chains, and the octree invariants. Nothing
here is part of a step. -/

namespace Sys2Proof.Machine

open Sys2Proof

/-! ## Sound states -/

/-- The ranges the spec gives between commands (40_bitcursor.md R173, 10_state.md R33) and the canonical form of every
memory space. -/
structure State.Sound (s : State) : Prop where
  /-- Every memory space is in its canonical form. -/
  mem : s.mem.wf
  /-- `0 <= BC_NBITS <= 23` (R173). -/
  bc : s.bcNbits ≤ 23
  /-- `0 <= BW_NBITS <= 7` (R173); a fault may end a command inside the loop of R171. -/
  bw : s.status.fault = false → s.bwNbits ≤ 7
  /-- OUT_LEN counts bytes of OUT. -/
  out : s.outLen.toNat ≤ s.caps.outCap
  /-- The decoder stands in no scan between commands (log 4). -/
  scan : s.inScan = false
  /-- The LZW dictionary is in its canonical form. -/
  lzw : s.lzd.pfx.wf ∧ s.lzd.sfx.wf

/-- No fault has been raised since reset. -/
def State.Clean (s : State) : Prop := s.status.fault = false

/-! ## Streams -/

/-- Byte `i` after IN_POS. -/
def State.byteIn (s : State) (i : Nat) : Byte := Cells.get s.mem.inp (s.inPos.toNat + i)

/-- The bytes `bs` stand at IN_POS, below IN_LEN. -/
def State.Reads (s : State) (bs : List Byte) : Prop :=
  s.inPos.toNat + bs.length ≤ s.inLen.toNat ∧ ∀ i : Nat, i < bs.length → s.byteIn i = byteAt bs i

/-- `s` after the bytes `bs` went to OUT in order. -/
def State.appended (s : State) (bs : List Byte) : State := bs.foldl State.appendOut s

/-- There is room for `bs` in OUT. -/
def State.RoomFor (s : State) (bs : List Byte) : Prop := s.outLen.toNat + bs.length ≤ s.caps.outCap

/-- `n` bits of `v`, most significant first (20_memory.md R90). -/
def bitsMsb : Nat → Nat → List Bool
  | 0, _ => []
  | n + 1, v => v.testBit n :: bitsMsb n v

/-- The number whose bits, most significant first, are these. -/
def ofBits (bs : List Bool) : Nat := bs.foldl (fun a b => 2 * a + b.toNat) 0

/-- Entropy-coded bytes up to the next marker or the end, without the stuffing bytes (40_bitcursor.md R160). -/
def unstuffed : List Byte → List Byte
  | [] => []
  | [b] => if b = 0xFF then [] else [b]
  | b :: c :: rest =>
    if b = 0xFF then (if c = 0 then 0xFF :: unstuffed rest else []) else b :: unstuffed (c :: rest)

/-- Bytes with a 00 after every FF (R170). -/
def stuffed (bs : List Byte) : List Byte := bs.flatMap (fun b => if b = 0xFF then [0xFF, 0x00] else [b])

/-- The bits the reader can still deliver: those buffered, then those of the stream before the next marker. -/
def State.pendingBits (s : State) : List Bool :=
  bitsMsb s.bcNbits s.bcAcc.toNat ++
    (unstuffed (s.inBytes s.inPos.toNat (s.inLen.toNat - s.inPos.toNat))).flatMap (fun b => bitsMsb 8 b.toNat)

/-- Stream bytes of the whole bytes buffered but not consumed, two for an FF (R166). -/
def State.overshoot (s : State) : Nat :=
  ((List.range (s.bcNbits / 8)).map
    (fun i => if (s.bcAcc.toNat / 256 ^ i) % 256 = 255 then 2 else 1)).sum

/-- `s` realigned (R166). -/
def State.realigned (s : State) : State :=
  { s with inPos := s.inPos - wordN s.overshoot, bcAcc := 0, bcNbits := 0 }

/-- The bits the writer holds. -/
def State.writerBits (s : State) : List Bool := bitsMsb s.bwNbits s.bwAcc.toNat

/-- The whole bytes of a bit string, first bit most significant. -/
def wholeBytes (bs : List Bool) : List Byte :=
  (List.range (bs.length / 8)).map (fun i => BitVec.ofNat 8 (ofBits ((bs.drop (8 * i)).take 8)))

/-- The bytes the writer appends when `bits` are given to it. -/
def State.emitted (s : State) (bits : List Bool) : List Byte := stuffed (wholeBytes (s.writerBits ++ bits))

/-- `t` is `s` after `bits` went through the bit writer (R170, R171): whole bytes, stuffed, are in OUT, the rest stays
pending, nothing else changed. -/
def State.Emits (s : State) (bits : List Bool) (t : State) : Prop :=
  t.bwNbits = (s.writerBits ++ bits).length % 8 ∧
  t.writerBits = (s.writerBits ++ bits).drop (8 * ((s.writerBits ++ bits).length / 8)) ∧
  t = { s.appended (s.emitted bits) with bwAcc := t.bwAcc, bwNbits := t.bwNbits }

/-! ## Canonical Huffman codes (41_huffman.md R190, R191) -/

/-- `counts[l]` for `l` in 1..16; 0 elsewhere. -/
def HuffSpec.count (sp : HuffSpec) (l : Nat) : Nat := if l = 0 then 0 else (byteAt sp.counts (l - 1)).toNat

/-- `first[l]`: the running counter, doubled after each length. -/
def HuffSpec.firstCode (sp : HuffSpec) : Nat → Nat
  | 0 => 0
  | l + 1 => 2 * (sp.firstCode l + sp.count l)

/-- `idx[l]`: how many codes are shorter than `l`. -/
def HuffSpec.firstIndex (sp : HuffSpec) : Nat → Nat
  | 0 => 0
  | l + 1 => sp.firstIndex l + sp.count l

/-- A specification that passes R195 and names a value for each of its codes. -/
structure HuffSpec.Valid (sp : HuffSpec) : Prop where
  lengths : sp.counts.length = 16
  total : sp.total ≤ 256
  values : sp.total ≤ sp.values.length
  fits : ∀ l : Nat, 1 ≤ l → l ≤ 16 → sp.firstCode l + sp.count l ≤ 2 ^ l

/-- The `j`-th code of length `l` stands for symbol `v`. -/
def HuffSpec.HasCode (sp : HuffSpec) (l j : Nat) (v : Byte) : Prop :=
  1 ≤ l ∧ l ≤ 16 ∧ j < sp.count l ∧ byteAt sp.values (sp.firstIndex l + j) = v

/-! ## JPEG segments -/

/-- A length field and its payload (30_encoding.md R121). -/
def segmentBytes (payload : List Byte) : List Byte :=
  [BitVec.ofNat 8 ((payload.length + 2) / 256), BitVec.ofNat 8 (payload.length + 2)] ++ payload

/-- The decoder takes an element now: SOI was seen and the decode is not over. -/
def State.Decoding (s : State) : Prop :=
  s.jpg.soiSeen = true ∧ s.jpg.state ≠ .done ∧ s.jpg.state ≠ .failed

/-- A table of a DQT segment (R123). -/
structure DqtTable where
  wide : Bool
  slot : Fin 4
  entries : List (BitVec 16)
  deriving DecidableEq, Repr

/-- 64 entries, each of one byte unless the table is wide. -/
def DqtTable.Ok (q : DqtTable) : Prop :=
  q.entries.length = 64 ∧ (q.wide = false → ∀ e ∈ q.entries, e.toNat < 256)

/-- The bytes of a table (R123). -/
def DqtTable.bytes (q : DqtTable) : List Byte :=
  BitVec.ofNat 8 ((if q.wide then 16 else 0) + q.slot.val) ::
    q.entries.flatMap (fun e => if q.wide then [e.extractLsb' 8 8, e.extractLsb' 0 8] else [e.extractLsb' 0 8])

/-- A table of a DHT segment (R125). -/
structure DhtTable where
  cls : Fin 2
  slot : Fin 4
  spec : HuffSpec
  deriving DecidableEq, Repr

/-- A specification that builds, with exactly its values. -/
def DhtTable.Ok (h : DhtTable) : Prop := h.spec.Valid ∧ h.spec.values.length = h.spec.total

/-- The bytes of a table (R125). -/
def DhtTable.bytes (h : DhtTable) : List Byte :=
  BitVec.ofNat 8 (16 * h.cls.val + h.slot.val) :: (h.spec.counts ++ h.spec.values)

/-- A component as a frame header names it (R124). -/
structure SofComp where
  id : Byte
  h : BitVec 4
  v : BitVec 4
  tq : BitVec 2
  deriving DecidableEq, Repr

/-- A frame header (R124). -/
structure SofHeader where
  width : BitVec 16
  height : BitVec 16
  comps : List SofComp
  deriving DecidableEq, Repr

/-- The payload of a frame header (R124). -/
def SofHeader.bytes (f : SofHeader) : List Byte :=
  [0x08, f.height.extractLsb' 8 8, f.height.extractLsb' 0 8, f.width.extractLsb' 8 8, f.width.extractLsb' 0 8,
    BitVec.ofNat 8 f.comps.length] ++ f.comps.flatMap (fun c => [c.id, c.h ++ c.v, 0#6 ++ c.tq])

/-- A sampling factor of R277. -/
def SamplingFactor (f : BitVec 4) : Prop := f = 1 ∨ f = 2 ∨ f = 4

/-- The checks of R277, as conditions on the header. -/
structure SofHeader.Ok (f : SofHeader) : Prop where
  count : f.comps.length = 1 ∨ f.comps.length = 3 ∨ f.comps.length = 4
  width : f.width ≠ 0
  height : f.height ≠ 0
  ids : (f.comps.map SofComp.id).Nodup
  factors : ∀ c ∈ f.comps, SamplingFactor c.h ∧ SamplingFactor c.v

/-- The factors in force: a single component is never subsampled (R278). -/
def SofHeader.hOf (f : SofHeader) (c : SofComp) : Nat := if f.comps.length = 1 then 1 else c.h.toNat

/-- As `hOf`, vertically. -/
def SofHeader.vOf (f : SofHeader) (c : SofComp) : Nat := if f.comps.length = 1 then 1 else c.v.toNat

/-- HMAX (R279). -/
def SofHeader.hmax (f : SofHeader) : Nat := (f.comps.map f.hOf).foldr max 0

/-- VMAX (R279). -/
def SofHeader.vmax (f : SofHeader) : Nat := (f.comps.map f.vOf).foldr max 0

/-- MXX (R279). -/
def SofHeader.mxx (f : SofHeader) : Nat := ceilDiv f.width.toNat (8 * f.hmax)

/-- MYY (R279). -/
def SofHeader.myy (f : SofHeader) : Nat := ceilDiv f.height.toNat (8 * f.vmax)

/-- BLOCKS_i (10_state.md R46). -/
def SofHeader.blocks (f : SofHeader) (c : SofComp) : Nat := f.hOf c * f.mxx * f.vOf c * f.myy

/-! ## Sub-block chains (30_encoding.md R145) -/

/-- A chain of sub-blocks with its terminator. -/
def chainBytes (blocks : List (List Byte)) : List Byte :=
  blocks.flatMap (fun b => BitVec.ofNat 8 b.length :: b) ++ [0x00]

/-- Sub-blocks of 1 to 255 bytes. -/
def ChainOk (blocks : List (List Byte)) : Prop := ∀ b ∈ blocks, 1 ≤ b.length ∧ b.length ≤ 255

/-! ## The octree (47_octree.md R400) -/

/-- The number of leaves. -/
def OctTree.leafCount : OctTree → Nat
  | .none => 0
  | .node d c0 c1 c2 c3 c4 c5 c6 c7 =>
    (if d.leaf then 1 else 0) + c0.leafCount + c1.leafCount + c2.leafCount + c3.leafCount + c4.leafCount +
      c5.leafCount + c6.leafCount + c7.leafCount

/-- The number of nodes. -/
def OctTree.nodeCount : OctTree → Nat
  | .none => 0
  | .node _ c0 c1 c2 c3 c4 c5 c6 c7 =>
    1 + c0.nodeCount + c1.nodeCount + c2.nodeCount + c3.nodeCount + c4.nodeCount + c5.nodeCount + c6.nodeCount +
      c7.nodeCount

/-- A tree at depth `d` of the shape R400 describes: a leaf has no children, an interior node is
above depth 8, depths grow by 1, every node has counted a pixel, and an interior node has counted those of its
children (so it has at least one child). -/
def OctTree.Ok : OctTree → Nat → Prop
  | .none, _ => True
  | .node d c0 c1 c2 c3 c4 c5 c6 c7, k =>
    d.depth.val = k ∧ d.count ≠ 0 ∧
    (d.leaf = true → c0 = .none ∧ c1 = .none ∧ c2 = .none ∧ c3 = .none ∧ c4 = .none ∧ c5 = .none ∧ c6 = .none ∧
      c7 = .none) ∧
    (d.leaf = false → k < 8 ∧ d.count.toNat = c0.count.toNat + c1.count.toNat + c2.count.toNat + c3.count.toNat +
      c4.count.toNat + c5.count.toNat + c6.count.toNat + c7.count.toNat) ∧
    c0.Ok (k + 1) ∧ c1.Ok (k + 1) ∧ c2.Ok (k + 1) ∧ c3.Ok (k + 1) ∧ c4.Ok (k + 1) ∧ c5.Ok (k + 1) ∧ c6.Ok (k + 1) ∧
      c7.Ok (k + 1)

/-- The invariants of R400: the shape, OCT_LEAVES and NODES. -/
structure Octree.Ok (o : Octree) : Prop where
  shape : o.root.Ok 0
  leaves : o.leaves = o.root.leafCount
  nodes : o.nodes = o.root.nodeCount

end Sys2Proof.Machine
end

