-- ==== Sys2Proof/Certificates/Slice0/Obligations.lean ====
section
/-! DEFINITION. The statements for the provers, one def Obligations.<Name> : Prop each. `s.complete` is `s` with
STATUS.DONE = 1 (30_encoding.md R111 step (4)); `enterFault opc ⟨f, info⟩ s` is the fault entry of 60_exceptions.md R530
for the command with opcode byte `opc`. -/

open Sys2Proof Sys2Proof.Machine

/-! ## Reset -/

/-- After reset every register of 10_state.md R22 reads 0, except OCT_ATHRESH = 128 and TRANSP_IDX = 0xFFFFFFFF; an
offset that is not listed reads 0 (MEM_DATA, 0x3C, is the window and not a register here). Every element of every memory
space is 0, except the fields `maxCode` of HTAB, which are −1 (20_memory.md R83, 10_state.md R42, R76). -/
def Obligations.ResetState : Prop :=
  (∀ off : Nat, readReg State.reset off =
    if off = 0x90 then 128 else if off = 0x9C then 0xFFFFFFFF else 0) ∧
  ∀ space a : Nat, a < spaceSize State.reset.caps space →
    readElem State.reset space a =
      if space = 6 ∧ 17 ≤ a % 1024 ∧ a % 1024 ≤ 32 then 0xFFFFFFFF else 0

/-- The reset state is sound: canonical memories, BC_NBITS = BW_NBITS = 0, OUT_LEN = 0 (10_state.md R76;
70_reset_and_hazards.md R540; 20_memory.md R80). That no scan is open at reset, and the empty LZW dictionary, are the
model's choice (logs 4, 5). -/
def Obligations.ResetSound : Prop := State.reset.Sound

/-! ## Encoding -/

/-- Every well-formed instruction decodes from its encoding, with every operand at every value. -/
def Obligations.DecodeEncode : Prop :=
  ∀ i : Instr, i.wellFormed = true → decode (encode i) = .ok i

/-- The 46 opcodes of 30_encoding.md R114, with the immediate bits each format uses (R112). -/
def Sys2Proof.opcodeMap : List (Byte × BitVec 24) :=
  [(0x00, 0), (0x01, 0), (0x02, 0), (0x10, 0), (0x11, 0x1F), (0x12, 0), (0x13, 0x1F), (0x14, 0xFF), (0x15, 0), (0x16, 0)] ++
  [(0x17, 0), (0x18, 0x1F), (0x19, 0), (0x20, 0xFF), (0x21, 0xFF), (0x22, 0xFF), (0x23, 0xFF), (0x24, 0), (0x30, 0)] ++
  [(0x31, 0), (0x32, 0), (0x33, 3), (0x40, 0), (0x41, 3), (0x42, 3), (0x50, 0), (0x51, 0), (0x52, 0), (0x53, 0)] ++
  [(0x58, 0), (0x60, 0), (0x61, 0), (0x70, 0), (0x71, 0), (0x72, 0), (0x73, 0), (0x74, 0), (0x75, 0), (0x76, 0)] ++
  [(0x80, 0), (0x81, 0), (0x82, 0), (0x83, 0), (0x88, 0), (0x89, 0), (0x8A, 0)]

/-- A command word decodes if and only if its opcode is one of the 46 and every immediate bit its format requires to be
0 is 0 (R115); and a word that decodes is the encoding of the instruction it decodes to, so no bit of it was ignored
(30_encoding.md R110, R112). -/
def Obligations.LegalCommandWords : Prop :=
  (∀ w : Word, (∃ i, decodeCommand w = .ok i) ↔
    ∃ r ∈ opcodeMap, w.extractLsb' 24 8 = r.1 ∧ w.extractLsb' 0 24 &&& ~~~ r.2 = 0) ∧
  ∀ (w : Word) (i : Instr), decodeCommand w = .ok i → encode i = .command w

/-- A few words written out from the encodings of the spec decode to the instruction they stand for: command words
(R110, R112), markers (R120), GIF elements (R140, R142). -/
def Obligations.SampleWords : Prop :=
  decodeCommand 0x00000000 = .ok .sysNop ∧
  decodeCommand 0x11000010 = .ok (.bcEnsure 16) ∧
  decodeCommand 0x14000008 = .ok (.bcRecvext 8) ∧
  decodeCommand 0x21000011 = .ok (.hufDec 1 1) ∧
  decodeCommand 0x33000002 = .ok (.blkClear 2) ∧
  decodeCommand 0x42000001 = .ok (.qtQuant 1) ∧
  decodeCommand 0x58000000 = .ok .jpgEncode ∧
  decodeCommand 0x76000000 = .ok .octQuantize ∧
  decode (.stream [0xFF, 0xD8]) = .ok .jpegSoi ∧
  decode (.stream [0xFF, 0xD5]) = .ok (.jpegRst 5) ∧
  decode (.stream [0xFF, 0xEE]) = .ok .jpegApp14 ∧
  decode (.stream [0x21, 0xF9]) = .ok .gifExtGraphicControl ∧
  decode (.stream [0x21, 0x07]) = .ok (.gifExtOther 7) ∧
  decode (.stream [0x47, 0x49, 0x46, 0x38, 0x39, 0x61]) = .ok .gifSignature ∧
  decodeCommand 0x03000000 = .error (.reservedOpcode 0x03) ∧
  decodeCommand 0x13000020 = .error (.immediateNotZero 0x20) ∧
  decode (.stream [0xFF, 0xC3]) = .error (.unknownMarker 0xC3) ∧
  decode (.stream [0x99]) = .error (.badIntroducer 0x99)

/-! ## A step -/

/-- A legal word at the head of the host's accesses, written to CMD while no fault is pending (or SYS.SRESET at any
time), runs the instruction it decodes to, on the state with that access taken and STATUS.REFUSED = 0 (R111). -/
def Obligations.StepRunsCommand : Prop :=
  ∀ (s : State) (w : Word) (rest : List HostEvent) (i : Instr),
    s.inputs = .write 0 w :: rest → decodeCommand w = .ok i →
    (s.status.fault = false ∨ w.extractLsb' 24 8 = 0x01) →
    step s = exec i { s with inputs := rest, status := { s.status with refused := false } }

/-- The other steps: with no access pending the core holds its state (60_exceptions.md R527); a register read returns
the register and changes only what the host last read (10_state.md R22, 20_memory.md R84); the reset input gives the
reset state (10_state.md R76, 70_reset_and_hazards.md R540); and a write to a register other than CMD and MEM_DATA is
that register's write (R22, 20_memory.md R86). That accesses queue, and what is kept at reset, is the model's choice
(logs 1, 7). -/
def Obligations.StepOtherAccess : Prop :=
  (∀ s : State, s.inputs = [] → step s = .next s) ∧
  (∀ (s : State) (rest : List HostEvent), s.inputs = .reset :: rest →
    step s = .next { State.reset with caps := s.caps, inputs := rest, rdata := s.rdata }) ∧
  (∀ (s : State) (off : Nat) (rest : List HostEvent), s.inputs = .read off :: rest → off ≠ 0x3C →
    step s = .next { s with inputs := rest, rdata := readReg s off }) ∧
  (∀ (s : State) (off : Nat) (w : Word) (rest : List HostEvent), s.inputs = .write off w :: rest →
    off ≠ 0 → off ≠ 0x3C → step s = .next (writeReg { s with inputs := rest } off w))

/-- While FAULT = 1 every word whose opcode byte is not 0x01, legal or not, is refused: REFUSED <- 1, DONE <- 0, nothing
else changes (R111 step (1), R531 (a)). An illegal word raises IllegalCommand with the whole word as info, and changes
nothing else (R111 step (2), R115, 60_exceptions.md R530). A word with opcode byte 0x01 and IMM != 0 is not refused while
FAULT = 1: it is illegal, and changes only DONE and REFUSED, because ERR is written once (49_system.md R481, R531 (c)).
SYS.NOP changes only DONE (REFUSED is written before it runs); SYS.OUTCLR sets OUT_LEN to 0, keeps the bytes of OUT and
everything else (R480, R482). SYS.SRESET is accepted in every state, a faulted one too, and gives the reset state with
DONE = 1, so STATUS = 0x00000002 (R481). The capacities, the host's pending accesses and what the host last read are not
the core's (the model's choice, log 7). -/
def Obligations.SystemAndRefusedWords : Prop :=
  (∀ (s : State) (w : Word) (rest : List HostEvent),
    s.inputs = .write 0 w :: rest → s.status.fault = true → w.extractLsb' 24 8 ≠ 0x01 →
    step s = .next { s with inputs := rest, status := { s.status with refused := true, done := false } }) ∧
  (∀ (s : State) (w : Word) (rest : List HostEvent),
    s.inputs = .write 0 w :: rest → s.inScan = false → (∀ i, decodeCommand w ≠ .ok i) → s.status.fault = false →
    step s = .next { s with
      inputs := rest
      err := 0#8 ++ w.extractLsb' 24 8 ++ 0x0450#16
      errInfo := w
      status := { s.status with refused := false, fault := true, done := false } }) ∧
  (∀ (s : State) (w : Word) (rest : List HostEvent),
    s.inputs = .write 0 w :: rest → s.inScan = false → w.extractLsb' 24 8 = 0x01 → w.extractLsb' 0 24 ≠ 0 →
    s.status.fault = true →
    step s = .next { s with inputs := rest, status := { s.status with refused := false, done := false } }) ∧
  (∀ s : State, exec .sysNop s = .next s.complete) ∧
  (∀ s : State, exec .sysOutclr s = .next ({ s with outLen := 0 } : State).complete) ∧
  (∀ s : State, exec .sysSreset s =
    .next { State.reset with
      status := { Status.zero with done := true }, caps := s.caps, inputs := s.inputs, rdata := s.rdata }) ∧
  (∀ (s : State) (rest : List HostEvent), s.inputs = .write 0 0x01000000 :: rest →
    step s = .next { State.reset with
      status := { Status.zero with done := true }, caps := s.caps, inputs := rest, rdata := s.rdata }) ∧
  ({ Status.zero with done := true } : Status).toWord = 0x00000002

/-- Every instruction started with FAULT = 0 ends in a next state: either it completed (DONE = 1, FAULT = 0, and ERR and
ERRINFO unchanged unless it was SYS.SRESET, which clears them), or it raised (DONE = 0, FAULT = 1, ERR holds the code
and class of one of the faults of R501 and the opcode byte of the command, R530). That an element of a stream run as an
instruction records the opcode byte of JPG.STEP, GIF.HEADER or GIF.STEP is the model's choice (log 3). -/
def Obligations.EveryInstructionEnds : Prop :=
  ∀ (i : Instr) (s : State), s.status.fault = false →
    ∃ t, exec i s = .next t ∧
      ((t.status.fault = false ∧ t.status.done = true ∧
          (i ≠ .sysSreset → t.err = s.err ∧ t.errInfo = s.errInfo) ∧
          (i = .sysSreset → t.err = 0 ∧ t.errInfo = 0)) ∨
        (t.status.fault = true ∧ t.status.done = false ∧
          ∃ f : HwFault, t.err = 0#8 ++ (match encode i with
            | .command w => w.extractLsb' 24 8
            | .stream bs => if byteAt bs 0 = 0xFF then 0x51 else if byteAt bs 0 = 0x47 then 0x81 else 0x82) ++
            0#4 ++ f.cls ++ f.code))

/-! ## Host access -/

/-- The element width in bits of the spaces the host may write (20_memory.md R80). -/
def Sys2Proof.writableWidth (space : Nat) : Option Nat :=
  if space = 0 ∨ space = 5 ∨ space = 8 then some 8
  else if space = 4 then some 16
  else if space = 2 ∨ space = 3 ∨ space = 7 ∨ space = 9 then some 32
  else none

/-- A host read of MEM_DATA: in range it returns the element and increments MEM_ADDR; out of range it returns 0 and, if
no fault is pending, raises BadMemAccess with opcode byte 0xFF, MEM_ADDR unchanged (20_memory.md R84, 60_exceptions.md
R514). A host write of MEM_DATA to a space the host may write, in range, with no fault pending: that element reads the
low bits of the word, every other element of every space reads as before, MEM_ADDR grows by 1, and no register, flag or
other state changes. A write out of range or to a read-only space raises BadMemAccess and writes nothing; with FAULT = 1
nothing changes at all (20_memory.md R80, R85, R86). -/
def Obligations.MemoryWindow : Prop :=
  (∀ s : State,
    (s.memAddr.toNat < spaceSize s.caps s.memSel.toNat →
      hostRead 0x3C s = { s with
        rdata := readElem s s.memSel.toNat s.memAddr.toNat, memAddr := s.memAddr + 1 }) ∧
    (spaceSize s.caps s.memSel.toNat ≤ s.memAddr.toNat → s.status.fault = true →
      hostRead 0x3C s = { s with rdata := 0 }) ∧
    (spaceSize s.caps s.memSel.toNat ≤ s.memAddr.toNat → s.status.fault = false → s.inScan = false →
      hostRead 0x3C s = { s with
        rdata := 0
        err := 0x00FF0456
        errInfo := (s.memSel <<< (24 : Nat)) ||| (s.memAddr &&& 0xFFFFFF)
        status := { s.status with fault := true, done := false } })) ∧
  (∀ (s : State) (w : Word) (k : Nat), s.mem.wf → s.status.fault = false →
    writableWidth s.memSel.toNat = some k → s.memAddr.toNat < spaceSize s.caps s.memSel.toNat →
    let t := hostWrite 0x3C w s
    t = { s with memAddr := s.memAddr + 1, mem := t.mem } ∧
    readElem t s.memSel.toNat s.memAddr.toNat = BitVec.ofNat 32 (w.toNat % 2 ^ k) ∧
    ∀ space a : Nat, (space ≠ s.memSel.toNat ∨ a ≠ s.memAddr.toNat) → readElem t space a = readElem s space a) ∧
  (∀ (s : State) (w : Word), s.status.fault = false → s.inScan = false →
    (writableWidth s.memSel.toNat = none ∨ spaceSize s.caps s.memSel.toNat ≤ s.memAddr.toNat) →
    hostWrite 0x3C w s = { s with
      err := 0x00FF0456
      errInfo := (s.memSel <<< (24 : Nat)) ||| (s.memAddr &&& 0xFFFFFF)
      status := { s.status with fault := true, done := false } }) ∧
  (∀ (s : State) (w : Word), s.status.fault = true → hostWrite 0x3C w s = s)

/-- Host writes to registers: ARG0..ARG3, IN_POS, MEM_SEL, MEM_ADDR and PIX_DIM store the word; IN_LEN stores at most
IN_CAP; OCT_ATHRESH stores `min(value[8:0], 256)`; QT_VALID stores bits 3:0; every other offset ignores the write
(10_state.md R22, R32, R41, R63). Each then reads back so, and no other register changes. -/
def Obligations.RegisterWrites : Prop :=
  ∀ (s : State) (w : Word) (off : Nat), off ≠ 0 → off ≠ 0x3C → s.caps.inCap < 2 ^ 32 →
    let t := hostWrite off w s
    (∀ off' : Nat, off' ≠ off → readReg t off' = readReg s off') ∧
    t.mem = s.mem ∧ t.ht = s.ht ∧
    readReg t off =
      if off ∈ [0x10, 0x14, 0x18, 0x1C, 0x28, 0x34, 0x38, 0xA0] then w
      else if off = 0x2C then BitVec.ofNat 32 (min w.toNat s.caps.inCap)
      else if off = 0x90 then BitVec.ofNat 32 (min (w.toNat % 512) 256)
      else if off = 0xD0 then BitVec.ofNat 32 (w.toNat % 16)
      else readReg s off

/-! ## What holds in every state -/

/-- Every step keeps the memories in canonical form, BC_NBITS at most 23, BW_NBITS at most 7 while no fault is pending,
OUT_LEN within OUT_CAP, and leaves the decoder outside a scan (40_bitcursor.md R173; 10_state.md R33; log 4). -/
def Obligations.StepKeepsSound : Prop :=
  ∀ s t : State, s.caps.outCap < 2 ^ 32 → s.Sound → step s = .next t → t.Sound

/-- No instruction moves IN_POS beyond IN_LEN, if the bytes buffered in the BitCursor were taken from before IN_POS
(10_state.md R31: a host write to IN_POS or IN_LEN can break this, a command cannot), and it leaves them so. -/
def Obligations.InPosStaysInRange : Prop :=
  ∀ (i : Instr) (s t : State), s.bcNbits ≤ 23 → s.inPos.toNat ≤ s.inLen.toNat → s.overshoot ≤ s.inPos.toNat →
    exec i s = .next t →
    t.bcNbits ≤ 23 ∧ t.inPos.toNat ≤ t.inLen.toNat ∧ t.overshoot ≤ t.inPos.toNat

/-- What only the host writes: no instruction but SYS.SRESET changes ARG0..ARG3, IN_LEN, MEM_SEL, MEM_ADDR, OCT_ATHRESH,
IN or HSPEC, and none but JPG.ASSEMBLE changes PIX_DIM or PIX, whether it completes or faults (10_state.md R27, R32,
R34, R63; 20_memory.md R81; 30_encoding.md R116). -/
def Obligations.HostStateKept : Prop :=
  ∀ (i : Instr) (s t : State), i ≠ .sysSreset → exec i s = .next t →
    t.arg0 = s.arg0 ∧ t.arg1 = s.arg1 ∧ t.arg2 = s.arg2 ∧ t.arg3 = s.arg3 ∧ t.inLen = s.inLen ∧
    t.memSel = s.memSel ∧ t.memAddr = s.memAddr ∧ t.octAthresh = s.octAthresh ∧
    t.mem.inp = s.mem.inp ∧ t.mem.hspec = s.mem.hspec ∧ t.caps = s.caps ∧ t.inputs = s.inputs ∧ t.rdata = s.rdata ∧
    (i ≠ .jpgAssemble → t.pixDim = s.pixDim ∧ t.mem.pix = s.mem.pix)

/-- OUT is only appended to: no instruction but SYS.SRESET and SYS.OUTCLR makes OUT_LEN smaller or changes a byte below
it, whether it completes or faults (10_state.md R33, 20_memory.md R82). -/
def Obligations.OutIsAppendOnly : Prop :=
  ∀ (i : Instr) (s t : State), i ≠ .sysSreset → i ≠ .sysOutclr → s.mem.out.wf →
    s.outLen.toNat ≤ s.caps.outCap → s.caps.outCap < 2 ^ 32 → exec i s = .next t →
    s.outLen.toNat ≤ t.outLen.toNat ∧ t.outLen.toNat ≤ t.caps.outCap ∧
    ∀ a : Nat, a < s.outLen.toNat → Cells.get t.mem.out a = Cells.get s.mem.out a

/-- The commands that append to OUT (30_encoding.md R116). -/
def Sys2Proof.isOutWriter : Instr → Bool
  | .bwEmit _ | .bwFlush | .hufEnc _ _ | .hufEncval _ _ | .jpgEncode | .lzwEnc | .gifEbegin | .gifEframe | .gifEend => true
  | _ => false

/-- `out(b)` raises CapacityExceeded(1) exactly where OUT is full, and else appends its byte (00_scope.md R8, 20_memory.md
R82). So the nine commands that append to OUT do with a smaller OUT what they do with a larger one as long as their
bytes fit; where they do not fit, the command raises CapacityExceeded(1) with OUT full of exactly the first of those
bytes, whatever the command (60_exceptions.md R514, R530). -/
def Obligations.FullOutputRaises : Prop :=
  (∀ (s : State) (b : Byte),
    (s.outLen.toNat = s.caps.outCap → out b s = .error ⟨.capacityExceeded, 1⟩ s) ∧
    (s.outLen.toNat ≠ s.caps.outCap → out b s = .ok () (s.appendOut b))) ∧
  ∀ (i : Instr) (s t : State) (cap : Nat), isOutWriter i = true → s.status.fault = false → s.inScan = false →
    s.outLen.toNat ≤ s.caps.outCap → s.caps.outCap ≤ cap → cap < 2 ^ 32 →
    exec i { s with caps := { s.caps with outCap := cap } } = .next t → t.status.fault = false →
    (t.outLen.toNat ≤ s.caps.outCap → exec i s = .next { t with caps := s.caps }) ∧
    (s.caps.outCap < t.outLen.toNat → ∃ u, exec i s = .next u ∧ u.status.fault = true ∧ u.status.done = false ∧
      (∀ w, encode i = .command w → u.err = 0#8 ++ w.extractLsb' 24 8 ++ 0x0455#16) ∧ u.errInfo = 1 ∧
      u.outLen.toNat = s.caps.outCap ∧
      ∀ a : Nat, a < s.caps.outCap → Cells.get u.mem.out a = Cells.get t.mem.out a)

/-- The instructions of the BitCursor reader (40_bitcursor.md) and the Huffman decode. -/
def Sys2Proof.isReader : Instr → Bool
  | .bcReset | .bcEnsure _ | .bcBit | .bcBits _ | .bcRecvext _ | .bcIgnore | .bcReadfull | .bcRealign | .hufDec _ _ => true
  | _ => false

/-- The instructions of the bit writer and the Huffman encode. -/
def Sys2Proof.isWriter : Instr → Bool
  | .bwEmit _ | .bwFlush | .hufEnc _ _ | .hufEncval _ _ => true
  | _ => false

/-- Reader and writer are independent: no reader command touches BW_*, OUT or OUT_LEN, no writer command touches BC_*,
IN, IN_POS or TMP, and neither touches any block, table, plane, pixel or GIF state (R173). -/
def Obligations.ReaderWriterIndependent : Prop :=
  (∀ (i : Instr) (s t : State), isReader i = true → s.inScan = false → exec i s = .next t →
    t = { s with
      status := t.status, err := t.err, errInfo := t.errInfo, res0 := t.res0, inPos := t.inPos
      bcAcc := t.bcAcc, bcNbits := t.bcNbits, mem := { s.mem with tmp := t.mem.tmp } }) ∧
  (∀ (i : Instr) (s t : State), isWriter i = true → s.inScan = false → exec i s = .next t →
    t = { s with
      status := t.status, err := t.err, errInfo := t.errInfo, outLen := t.outLen
      bwAcc := t.bwAcc, bwNbits := t.bwNbits, mem := { s.mem with out := t.mem.out } })

/-- The instructions of the GIF, LZW and octree units. -/
def Sys2Proof.isGifSide : Instr → Bool
  | .lzwDec | .lzwEnc | .octReset | .octAdd | .octBuild | .octReduce | .octPalette | .octIndex | .octQuantize => true
  | .gifInit | .gifHeader | .gifStep | .gifDecode | .gifEbegin | .gifEframe | .gifEend | .gifSignature | .gifImage => true
  | .gifExtGraphicControl | .gifExtComment | .gifExtApplication | .gifExtPlainText | .gifExtOther _ | .gifTrailer => true
  | _ => false

/-- The two codecs share no state but the streams, PIX, RES0 and the status: an instruction of the GIF, LZW or octree
units leaves the BitCursor, the bit writer, the JPEG context, the block buffers, the quantisation and Huffman tables,
the planes and TMP alone (46_lzw.md; 48_gif.md R432; 20_memory.md R91), and an instruction of the other units,
SYS.SRESET apart, leaves the GIF context, the encoder registers, the octree, the palette, IDX, CANVAS, SNAP and the
colour tables alone (30_encoding.md R116). -/
def Obligations.CodecsShareNothing : Prop :=
  (∀ (i : Instr) (s t : State), isGifSide i = true → exec i s = .next t →
    t.bcAcc = s.bcAcc ∧ t.bcNbits = s.bcNbits ∧ t.bwAcc = s.bwAcc ∧ t.bwNbits = s.bwNbits ∧ t.jpg = s.jpg ∧
    t.qtValid = s.qtValid ∧ t.htValid = s.htValid ∧ t.ht = s.ht ∧ t.mem.blk = s.mem.blk ∧ t.mem.zz = s.mem.zz ∧
    t.mem.qt = s.mem.qt ∧ t.mem.plane = s.mem.plane ∧ t.mem.coef = s.mem.coef ∧ t.mem.tmp = s.mem.tmp) ∧
  (∀ (i : Instr) (s t : State), isGifSide i = false → i ≠ .sysSreset → exec i s = .next t →
    t.gif = s.gif ∧ t.genc = s.genc ∧ t.oct = s.oct ∧ t.palLen = s.palLen ∧ t.transpIdx = s.transpIdx ∧
    t.status.frame = s.status.frame ∧ t.status.trunc = s.status.trunc ∧ t.mem.idx = s.mem.idx ∧
    t.mem.pal = s.mem.pal ∧ t.mem.canvas = s.mem.canvas ∧ t.mem.snap = s.mem.snap ∧ t.mem.gct = s.mem.gct ∧
    t.mem.lct = s.mem.lct)

/-! ## Fault entry -/

/-- Class 1, StreamFault, of 60_exceptions.md R501: fault and code. -/
def Sys2Proof.streamFaults : List (HwFault × Byte) := [
  (.endOfStream, 0x01)]

/-- Class 2, FormatViolation. -/
def Sys2Proof.formatViolations : List (HwFault × Byte) := [
  (.missingStuffingByte, 0x10), (.badMarker, 0x11), (.badSegmentLength, 0x12), (.unknownMarker, 0x13),
  (.unsupportedPrecision, 0x14), (.unsupportedComponentCount, 0x15), (.duplicateComponentId, 0x16), (.unknownComponentId, 0x17),
  (.unsupportedSubsampling, 0x18), (.badTableIndex, 0x19), (.tableNotDefined, 0x1A), (.missingSOF, 0x1B),
  (.duplicateSOF, 0x1C), (.missingScan, 0x1D), (.badRestart, 0x1E), (.badSpectralSelection, 0x1F),
  (.badSuccessiveApproximation, 0x20), (.badDimensions, 0x21), (.badHuffmanTable, 0x22), (.huffOversubscribed, 0x23),
  (.badSignature, 0x30), (.badIntroducer, 0x31), (.badSectionLength, 0x32), (.noColorTable, 0x33),
  (.frameOutOfBounds, 0x34), (.badColorIndex, 0x35), (.badLzwCodeSize, 0x36)]

/-- Class 3, EntropyDecodeFault. -/
def Sys2Proof.entropyFaults : List (HwFault × Byte) := [
  (.badHuffmanCode, 0x40), (.lzwBadCode, 0x41), (.badMagnitudeCategory, 0x42), (.badRefinementCode, 0x43),
  (.tooManyCoefficients, 0x44)]

/-- Class 4, HostError. -/
def Sys2Proof.hostErrors : List (HwFault × Byte) := [
  (.illegalCommand, 0x50), (.badArgument, 0x51), (.noHuffmanCode, 0x52), (.paletteTooSmall, 0x53),
  (.octreeNoPath, 0x54), (.capacityExceeded, 0x55), (.badMemAccess, 0x56), (.badState, 0x57),
  (.unsupported, 0x58)]

/-- The rows of R501: fault `f` has code `c` and class `k`. -/
def Sys2Proof.FaultRow (f : HwFault) (c : Byte) (k : BitVec 4) : Prop :=
  ((f, c) ∈ streamFaults ∧ k = 1) ∨ ((f, c) ∈ formatViolations ∧ k = 2) ∨ ((f, c) ∈ entropyFaults ∧ k = 3) ∨
    ((f, c) ∈ hostErrors ∧ k = 4)

/-- Fault entry: every fault is in R501's table, and entering it writes ERR = code | class << 8 | opcode << 16 and
ERRINFO = info if no fault was pending, leaves both alone if one was, sets FAULT and clears DONE, and changes nothing
else of the core: no rollback (60_exceptions.md R501, R530). That the decoder then stands in no scan is the model's own
field (log 4). -/
def Obligations.FaultEntry : Prop :=
  (∀ (f : HwFault) (c : Byte) (k : BitVec 4), FaultRow f c k → ∀ (opc : Byte) (info : Word) (s : State),
    s.status.fault = false →
    enterFault opc ⟨f, info⟩ s = { s with
      err := 0#8 ++ opc ++ 0#4 ++ k ++ c
      errInfo := info
      status := { s.status with fault := true, done := false }
      inScan := false }) ∧
  (∀ f : HwFault, ∃ (c : Byte) (k : BitVec 4), FaultRow f c k) ∧
  (∀ (f : HwFault) (opc : Byte) (info : Word) (s : State), s.status.fault = true →
    enterFault opc ⟨f, info⟩ s = { s with
      status := { s.status with done := false }
      inScan := false })

/-! ## BitCursor -/

/-- BC.RESET drops the buffered bits and leaves IN_POS (40_bitcursor.md R169). BC.REALIGN gives whole unconsumed bytes
back, two stream bytes for an FF, and drops the rest (R166). BC.IGNORE and BC.READFULL first realign, then move IN_POS
by ARG0 bytes or raise EndOfStream at the realigned position; BC.READFULL stores the raw bytes to TMP and raises
BadArgument above 65536 before it realigns (R167, R168). Where the host moved IN_POS under buffered bits it wraps (log
6). -/
def Obligations.BulkReads : Prop :=
  (∀ s : State, exec .bcReset s = .next ({ s with bcAcc := 0, bcNbits := 0 } : State).complete) ∧
  (∀ s : State, exec .bcRealign s = .next s.realigned.complete) ∧
  (∀ s : State, let u := s.realigned
    u.inPos.toNat + s.arg0.toNat ≤ u.inLen.toNat →
    exec .bcIgnore s = .next ({ u with inPos := u.inPos + s.arg0 } : State).complete) ∧
  (∀ s : State, let u := s.realigned
    u.inLen.toNat < u.inPos.toNat + s.arg0.toNat →
    exec .bcIgnore s = .next (enterFault 0x15 ⟨.endOfStream, u.inPos⟩ u)) ∧
  (∀ s : State, let u := s.realigned
    s.arg0.toNat ≤ 65536 → u.inPos.toNat + s.arg0.toNat ≤ u.inLen.toNat →
    ∃ t, exec .bcReadfull s = .next t ∧
      t = { u with
        inPos := u.inPos + s.arg0, res0 := s.arg0, mem := { u.mem with tmp := t.mem.tmp }
        status := { u.status with done := true } } ∧
      ∀ i : Nat, Cells.get t.mem.tmp i = if i < s.arg0.toNat then u.byteIn i else Cells.get s.mem.tmp i) ∧
  (∀ s : State, let u := s.realigned
    s.arg0.toNat ≤ 65536 → u.inLen.toNat < u.inPos.toNat + s.arg0.toNat →
    exec .bcReadfull s = .next (enterFault 0x16 ⟨.endOfStream, u.inPos⟩ u)) ∧
  (∀ s : State, 65536 < s.arg0.toNat → exec .bcReadfull s = .next (enterFault 0x16 ⟨.badArgument, s.arg0⟩ s))

/-- The reader delivers the bits of the entropy-coded stream in order, most significant first, without the stuffing
bytes, as far as there are such bits before the end or the next marker, and changes nothing else: BC.BIT, BC.BITS and
BC.RECVEXT take bits, BC.ENSURE only buffers them (R161, R163, R164, R165). -/
def Obligations.ReaderDeliversStream : Prop :=
  ∀ s : State, s.bcNbits ≤ 23 →
    (∀ n : BitVec 5, n.toNat ≤ 16 → n.toNat ≤ s.pendingBits.length →
      ∃ t, exec (.bcBits n) s = .next t ∧
        t = { s with
          res0 := wordN (ofBits (s.pendingBits.take n.toNat)), inPos := t.inPos, bcAcc := t.bcAcc
          bcNbits := t.bcNbits, status := { s.status with done := true } } ∧
        t.pendingBits = s.pendingBits.drop n.toNat ∧ t.bcNbits ≤ 23) ∧
    (1 ≤ s.pendingBits.length →
      ∃ t, exec .bcBit s = .next t ∧
        t = { s with
          res0 := wordN (ofBits (s.pendingBits.take 1)), inPos := t.inPos, bcAcc := t.bcAcc
          bcNbits := t.bcNbits, status := { s.status with done := true } } ∧
        t.pendingBits = s.pendingBits.drop 1 ∧ t.bcNbits ≤ 23) ∧
    (∀ k : Byte, k.toNat ≤ 16 → k.toNat ≤ s.pendingBits.length →
      ∃ t, exec (.bcRecvext k) s = .next t ∧
        t = { s with
          res0 := word (if k = 0 then 0
            else if (s.pendingBits.take 1) = [true] then (ofBits (s.pendingBits.take k.toNat) : Int)
            else (ofBits (s.pendingBits.take k.toNat) : Int) - 2 ^ k.toNat + 1)
          inPos := t.inPos, bcAcc := t.bcAcc, bcNbits := t.bcNbits, status := { s.status with done := true } } ∧
        t.pendingBits = s.pendingBits.drop k.toNat ∧ t.bcNbits ≤ 23) ∧
    (∀ n : BitVec 5, 1 ≤ n.toNat → n.toNat ≤ 16 → n.toNat ≤ s.pendingBits.length →
      ∃ t, exec (.bcEnsure n) s = .next t ∧
        t = { s with
          inPos := t.inPos, bcAcc := t.bcAcc, bcNbits := t.bcNbits, status := { s.status with done := true } } ∧
        t.pendingBits = s.pendingBits ∧ n.toNat ≤ t.bcNbits ∧ t.bcNbits ≤ 23)

/-- A reader command that needs more bits than come before the end or the next marker, BC.RECVEXT with a category of 1
to 16 among them, raises EndOfStream at the end or at a last FF, MissingStuffingByte at a marker, with the position as
info; it consumes no bit, and what it fetched stays buffered (R161, R162, R164, R165). HUF.DEC raises the same where the
bits end inside a code; the bits it walked over stay consumed, and nothing else changes (41_huffman.md R198).
Out-of-range operands raise before anything is read. -/
def Obligations.ReaderStopsAtMarker : Prop :=
  (∀ (s : State) (n : BitVec 5) (i : Instr), s.status.fault = false → s.bcNbits ≤ 23 → s.inPos.toNat ≤ s.inLen.toNat →
    n.toNat ≤ 16 → s.pendingBits.length < n.toNat →
    (i = .bcBits n ∨ i = .bcEnsure n ∨ (i = .bcBit ∧ n = 1) ∨ i = .bcRecvext (n.setWidth 8)) →
    ∃ t, exec i s = .next t ∧ t.status.fault = true ∧ t.status.done = false ∧ t.res0 = s.res0 ∧
      t.errInfo = t.inPos ∧ t.pendingBits = s.pendingBits ∧ t.bcNbits = s.pendingBits.length ∧
      t.err.extractLsb' 0 12 = if t.inPos.toNat + 1 < t.inLen.toNat then 0x210 else 0x101) ∧
  (∀ (s : State) (tc th : BitVec 4) (sp : HuffSpec), s.status.fault = false → s.bcNbits ≤ 23 →
    s.inPos.toNat ≤ s.inLen.toNat → tc.toNat ≤ 1 → th.toNat ≤ 3 → s.htBuilt tc.toNat th.toNat = true →
    s.table tc.toNat th.toNat = sp.build → sp.Valid → s.pendingBits.length < 16 →
    (∀ (l j : Nat) (v : Byte), sp.HasCode l j v → ¬ bitsMsb l (sp.firstCode l + j) <+: s.pendingBits) →
    ∃ t, exec (.hufDec tc th) s = .next t ∧
      t = { s with
        inPos := t.inPos, bcAcc := t.bcAcc, bcNbits := 0
        err := if t.inPos.toNat + 1 < t.inLen.toNat then 0x00210210 else 0x00210101
        errInfo := t.inPos, inScan := false, status := { s.status with fault := true, done := false } } ∧
      t.pendingBits = []) ∧
  (∀ (s : State) (n : BitVec 5), 16 < n.toNat →
    exec (.bcBits n) s = .next (enterFault 0x13 ⟨.badArgument, wordN n.toNat⟩ s)) ∧
  (∀ (s : State) (n : BitVec 5), (n.toNat = 0 ∨ 16 < n.toNat) →
    exec (.bcEnsure n) s = .next (enterFault 0x11 ⟨.badArgument, wordN n.toNat⟩ s)) ∧
  (∀ (s : State) (k : Byte), 16 < k.toNat →
    exec (.bcRecvext k) s = .next (enterFault 0x14 ⟨.badMagnitudeCategory, wordN k.toNat⟩ s))

/-- BW.EMIT appends the low `len` bits of ARG0, most significant first, to the bits pending; whole bytes go to OUT, each
FF with a 00 after it, and nothing else changes. BW.FLUSH fills the last byte with 1-bits and empties the writer (R170,
R171, R172). -/
def Obligations.WriterPacksBits : Prop :=
  (∀ (s : State) (len : BitVec 5), s.bwNbits ≤ 7 → 1 ≤ len.toNat → len.toNat ≤ 16 → s.arg0.toNat < 2 ^ len.toNat →
    s.RoomFor (s.emitted (bitsMsb len.toNat s.arg0.toNat)) →
    ∃ t, exec (.bwEmit len) s = .next t.complete ∧ s.Emits (bitsMsb len.toNat s.arg0.toNat) t) ∧
  (∀ (s : State) (len : BitVec 5), (len.toNat = 0 ∨ 16 < len.toNat ∨ 2 ^ len.toNat ≤ s.arg0.toNat) →
    exec (.bwEmit len) s = .next (enterFault 0x18 ⟨.badArgument, wordN len.toNat⟩ s)) ∧
  (∀ s : State, s.bwNbits ≤ 7 →
    let pad := List.replicate ((8 - s.bwNbits) % 8) true
    s.RoomFor (s.emitted pad) →
    exec .bwFlush s = .next ({ s.appended (s.emitted pad) with bwAcc := 0, bwNbits := 0 } : State).complete)

/-! ## Huffman -/

/-- HUF.BUILD: BadArgument for a selector out of range; else the specification in HSPEC is checked (more than 256 codes,
then the first length whose codes do not fit); if it passes the selected table becomes the one built from it and is
marked valid, and nothing else changes (41_huffman.md R195, R196). The Huffman commands stop before they read or write a
bit for a selector out of range (BadArgument) and for a table that was not built (TableNotDefined), with IMM as info;
HUF.ENC also for ARG0 above 255 (R197, R200, R201). HUF.LOADSTD builds the four builtin tables into the slots 0 and 1 of
both classes, marks them valid, and changes nothing else, neither the slots 2 and 3 nor HSPEC; the builtin specifications
are valid (R202, R203). -/
def Obligations.HuffBuildAndLoadstd : Prop :=
  (∀ (tc th : BitVec 4) (s : State),
    ((1 < tc.toNat ∨ 3 < th.toNat) →
      exec (.hufBuild tc th) s = .next (enterFault 0x20 ⟨.badArgument, 0#24 ++ tc ++ th⟩ s)) ∧
    (tc.toNat ≤ 1 → th.toNat ≤ 3 → 256 < s.hspecSpec.total →
      exec (.hufBuild tc th) s = .next (enterFault 0x20 ⟨.badHuffmanTable, wordN s.hspecSpec.total⟩ s)) ∧
    (∀ l : Nat, tc.toNat ≤ 1 → th.toNat ≤ 3 → s.hspecSpec.total ≤ 256 → 1 ≤ l → l ≤ 16 →
      2 ^ l < s.hspecSpec.firstCode l + s.hspecSpec.count l →
      (∀ k : Nat, 1 ≤ k → k < l → s.hspecSpec.firstCode k + s.hspecSpec.count k ≤ 2 ^ k) →
      exec (.hufBuild tc th) s = .next (enterFault 0x20 ⟨.huffOversubscribed, wordN l⟩ s)) ∧
    (tc.toNat ≤ 1 → th.toNat ≤ 3 → s.hspecSpec.Valid →
      exec (.hufBuild tc th) s = .next ({ s with
        ht := s.ht.set (tableNo tc.toNat th.toNat).val s.hspecSpec.build (tableNo tc.toNat th.toNat).isLt
        htValid := s.htValid ||| (1#8 <<< (4 * tc.toNat + th.toNat)) } : State).complete)) ∧
  (∀ (s : State) (tc th : BitVec 4),
    ((1 < tc.toNat ∨ 3 < th.toNat) →
      exec (.hufDec tc th) s = .next (enterFault 0x21 ⟨.badArgument, 0#24 ++ tc ++ th⟩ s) ∧
      exec (.hufEnc tc th) s = .next (enterFault 0x22 ⟨.badArgument, 0#24 ++ tc ++ th⟩ s) ∧
      exec (.hufEncval tc th) s = .next (enterFault 0x23 ⟨.badArgument, 0#24 ++ tc ++ th⟩ s)) ∧
    (255 < s.arg0.toNat →
      exec (.hufEnc tc th) s = .next (enterFault 0x22 ⟨.badArgument, 0#24 ++ tc ++ th⟩ s)) ∧
    (tc.toNat ≤ 1 → th.toNat ≤ 3 → s.htValid.getLsbD (4 * tc.toNat + th.toNat) = false →
      exec (.hufDec tc th) s = .next (enterFault 0x21 ⟨.tableNotDefined, 0#24 ++ tc ++ th⟩ s) ∧
      (s.arg0.toNat ≤ 255 →
        exec (.hufEnc tc th) s = .next (enterFault 0x22 ⟨.tableNotDefined, 0#24 ++ tc ++ th⟩ s)) ∧
      exec (.hufEncval tc th) s = .next (enterFault 0x23 ⟨.tableNotDefined, 0#24 ++ tc ++ th⟩ s))) ∧
  (stdDcLum.Valid ∧ stdAcLum.Valid ∧ stdDcChr.Valid ∧ stdAcChr.Valid) ∧
  ∀ s : State, exec .hufLoadstd s = .next ({ s with
    ht := (((s.ht.set 0 stdDcLum.build).set 4 stdAcLum.build).set 1 stdDcChr.build).set 5 stdAcChr.build
    htValid := s.htValid ||| 0x33 } : State).complete

/-- The fields of a built table: the counts (R190), the decoder arrays of R192, the fast table of R193 and the encoder
arrays of R194 (the first of the codes of a symbol), in terms of the running counter of R191. -/
def Obligations.HuffTableFields : Prop :=
  ∀ sp : HuffSpec, sp.Valid →
    sp.build.total.val = sp.total ∧
    (∀ i : Fin 16, sp.build.counts[i] = byteAt sp.counts i.val) ∧
    (∀ l : Nat, 1 ≤ l → l ≤ 16 →
      sp.build.minAt l = sp.firstCode l ∧ sp.build.indexAt l = sp.firstIndex l ∧
      (sp.build.maxAt l).map BitVec.toNat =
        if sp.count l = 0 then none else some (sp.firstCode l + sp.count l - 1)) ∧
    (∀ i : Nat, i < 256 →
      sp.build.valueAt i = if i < sp.total then byteAt sp.values i else 0) ∧
    (∀ (l j : Nat) (v : Byte) (i : Nat), sp.HasCode l j v → l ≤ 8 → i < 256 → i / 2 ^ (8 - l) = sp.firstCode l + j →
      sp.build.lutAt i = v ++ BitVec.ofNat 8 l) ∧
    (∀ i : Nat, i < 256 →
      (∀ (l j : Nat) (v : Byte), sp.HasCode l j v → l ≤ 8 → i / 2 ^ (8 - l) ≠ sp.firstCode l + j) →
      sp.build.lutAt i = 0) ∧
    (∀ (l j : Nat) (v : Byte), sp.HasCode l j v →
      (∀ l' j' : Nat, sp.HasCode l' j' v → sp.firstIndex l + j ≤ sp.firstIndex l' + j') →
      sp.build.sizeAt v = l ∧ (sp.build.codeAt v).toNat = sp.firstCode l + j) ∧
    (∀ v : Byte, (∀ l j : Nat, ¬ sp.HasCode l j v) → sp.build.sizeAt v = 0 ∧ sp.build.codeAt v = 0)

/-- HUF.DEC with a table built from a valid specification returns the symbol whose code comes next in the stream and
takes exactly the bits of that code, by the fast table or by the slow walk; a code may end right before a marker or the
end of the stream (R197, R198). Where no code comes next, it takes 16 bits and raises BadHuffmanCode with IN_POS as info
(R198). -/
def Obligations.HuffDecode : Prop :=
  (∀ (s : State) (tc th : BitVec 4) (sp : HuffSpec) (l j : Nat) (v : Byte),
    tc.toNat ≤ 1 → th.toNat ≤ 3 → s.htBuilt tc.toNat th.toNat = true → s.table tc.toNat th.toNat = sp.build →
    sp.Valid → sp.HasCode l j v → s.bcNbits ≤ 23 → bitsMsb l (sp.firstCode l + j) <+: s.pendingBits →
    ∃ t, exec (.hufDec tc th) s = .next t ∧
      t = { s with
        res0 := v.setWidth 32, inPos := t.inPos, bcAcc := t.bcAcc, bcNbits := t.bcNbits
        status := { s.status with done := true } } ∧
      t.pendingBits = s.pendingBits.drop l ∧ t.bcNbits ≤ 23) ∧
  (∀ (s : State) (tc th : BitVec 4) (sp : HuffSpec),
    tc.toNat ≤ 1 → th.toNat ≤ 3 → s.htBuilt tc.toNat th.toNat = true → s.table tc.toNat th.toNat = sp.build →
    sp.Valid → s.status.fault = false → s.bcNbits ≤ 23 → 16 ≤ s.pendingBits.length →
    (∀ (l j : Nat) (v : Byte), sp.HasCode l j v → ¬ bitsMsb l (sp.firstCode l + j) <+: s.pendingBits) →
    ∃ t, exec (.hufDec tc th) s = .next t ∧
      t = { s with
        inPos := t.inPos, bcAcc := t.bcAcc, bcNbits := t.bcNbits, err := 0x00210340, errInfo := t.inPos
        inScan := false, status := { s.status with fault := true, done := false } } ∧
      t.pendingBits = s.pendingBits.drop 16 ∧ t.bcNbits ≤ 23)

/-- The magnitude bits of a value of category `c` (41_huffman.md R201). -/
def Sys2Proof.magnitudeBits (c : Nat) (v : Int) : List Bool :=
  bitsMsb c (if 0 ≤ v then v else v + 2 ^ c - 1).toNat

/-- HUF.ENC writes the first code of symbol ARG0, HUF.ENCVAL the code of the symbol `run << 4 | category` and then the
magnitude bits of the value, both through the bit writer, and change nothing else; in both a symbol without a code raises
NoHuffmanCode, and HUF.ENCVAL raises BadArgument with the category for a run or a category above 15 (R200, R201). -/
def Obligations.HuffEncode : Prop :=
  (∀ (s : State) (tc th : BitVec 4) (sp : HuffSpec) (l j : Nat) (v : Byte),
    tc.toNat ≤ 1 → th.toNat ≤ 3 → s.htBuilt tc.toNat th.toNat = true → s.table tc.toNat th.toNat = sp.build →
    sp.Valid → sp.HasCode l j v →
    (∀ l' j' : Nat, sp.HasCode l' j' v → sp.firstIndex l + j ≤ sp.firstIndex l' + j') →
    s.bwNbits ≤ 7 →
    (s.arg0 = v.setWidth 32 → s.RoomFor (s.emitted (bitsMsb l (sp.firstCode l + j))) →
      ∃ t, exec (.hufEnc tc th) s = .next t.complete ∧ s.Emits (bitsMsb l (sp.firstCode l + j)) t) ∧
    (∀ (run c : Nat), run ≤ 15 → c ≤ 15 → s.arg0 = wordN run → v = BitVec.ofNat 8 (16 * run + c) →
      s.arg1.toInt.natAbs < 2 ^ c → (c = 0 ∨ 2 ^ (c - 1) ≤ s.arg1.toInt.natAbs) →
      s.RoomFor (s.emitted (bitsMsb l (sp.firstCode l + j) ++ magnitudeBits c s.arg1.toInt)) →
      ∃ t, exec (.hufEncval tc th) s = .next t.complete ∧
        s.Emits (bitsMsb l (sp.firstCode l + j) ++ magnitudeBits c s.arg1.toInt) t)) ∧
  (∀ (s : State) (tc th : BitVec 4) (sp : HuffSpec) (v : Byte),
    tc.toNat ≤ 1 → th.toNat ≤ 3 → s.htBuilt tc.toNat th.toNat = true → s.table tc.toNat th.toNat = sp.build →
    sp.Valid → (∀ l j : Nat, ¬ sp.HasCode l j v) → s.arg0 = v.setWidth 32 →
    exec (.hufEnc tc th) s = .next (enterFault 0x22 ⟨.noHuffmanCode, v.setWidth 32⟩ s)) ∧
  (∀ (s : State) (tc th : BitVec 4) (c : Nat),
    tc.toNat ≤ 1 → th.toNat ≤ 3 → s.htBuilt tc.toNat th.toNat = true →
    s.arg1.toInt.natAbs < 2 ^ c → (c = 0 ∨ 2 ^ (c - 1) ≤ s.arg1.toInt.natAbs) →
    ((15 < s.arg0.toNat ∨ 15 < c) →
      exec (.hufEncval tc th) s = .next (enterFault 0x23 ⟨.badArgument, wordN c⟩ s)) ∧
    (∀ sp : HuffSpec, s.table tc.toNat th.toNat = sp.build → sp.Valid → s.arg0.toNat ≤ 15 → c ≤ 15 →
      (∀ l j : Nat, ¬ sp.HasCode l j (BitVec.ofNat 8 (16 * s.arg0.toNat + c))) →
      exec (.hufEncval tc th) s = .next (enterFault 0x23 ⟨.noHuffmanCode, wordN (16 * s.arg0.toNat + c)⟩ s)))

/-- "decode(encode(symbol)) == symbol": HUF.ENC of a symbol that has a code and BW.FLUSH, from an empty writer, then
HUF.DEC with the same table over exactly the bytes they wrote, returns the symbol (R199). -/
def Obligations.HuffRoundTrip : Prop :=
  ∀ (s : State) (tc th : BitVec 4) (sp : HuffSpec) (v : Byte),
    tc.toNat ≤ 1 → th.toNat ≤ 3 → s.htBuilt tc.toNat th.toNat = true → s.table tc.toNat th.toNat = sp.build →
    sp.Valid → sp.build.sizeAt v ≠ 0 → s.arg0 = v.setWidth 32 →
    s.bwNbits = 0 → s.mem.out.wf → s.outLen.toNat + 8 ≤ s.caps.outCap → s.outLen.toNat + 8 < 2 ^ 32 →
    ∃ t u, exec (.hufEnc tc th) s = .next t ∧ exec .bwFlush t = .next u ∧
      ∀ r : State, r.ht = s.ht → r.htValid = s.htValid → r.bcNbits = 0 →
        r.inPos.toNat + (u.outLen.toNat - s.outLen.toNat) = r.inLen.toNat →
        (∀ i : Nat, i < u.outLen.toNat - s.outLen.toNat →
          r.byteIn i = Cells.get u.mem.out (s.outLen.toNat + i)) →
        ∃ q, exec (.hufDec tc th) r = .next q ∧ q.res0 = v.setWidth 32 ∧ q.status.done = true ∧
          q.status.fault = r.status.fault

/-! ## Block transform and quantisation -/

/-- Output `k` of a line of the inverse from its even part `a` and its odd part `b`. -/
def Sys2Proof.inverseOut (sh : Nat) (a b : Nat → Word) (k : Nat) : Word :=
  if k < 4 then (a k + b k).sshiftRight sh else (a (7 - k) - b (7 - k)).sshiftRight sh

/-- The even part, from the terms of entries 0 and 4 and the two rotations of entries 2 and 6. -/
def Sys2Proof.inverseEven (e f g h : Word) (k : Nat) : Word :=
  if k = 0 then e + f + g else if k = 1 then e - f + h else if k = 2 then e - f - h else e + f - g

/-- The odd part, from the rotations of entries 1 and 7 (`p`, `r`) and of 3 and 5 (`q`, `u`); 181 is R2. -/
def Sys2Proof.inverseOdd (p q r u : Word) (k : Nat) : Word :=
  if k = 0 then p + q
  else if k = 1 then (181 * (p - q + (r - u)) + 128).sshiftRight 8
  else if k = 2 then (181 * (p - q - (r - u)) + 128).sshiftRight 8
  else r + u

/-- Output `k` of the row pass on the row `x` (42_dct.md R223, R224, each rotation multiplied out). -/
def Sys2Proof.inverseRow (x : Nat → Word) (k : Nat) : Word :=
  if ∀ i : Nat, i < 8 → 1 ≤ i → x i = 0 then x 0 <<< (3 : Nat)
  else inverseOut 8
    (inverseEven ((x 0 <<< (11 : Nat)) + 128) (x 4 <<< (11 : Nat)) (2676 * x 2 + 1108 * x 6) (1108 * x 2 - 2676 * x 6))
    (inverseOdd (2841 * x 1 + 565 * x 7) (2408 * x 3 + 1609 * x 5) (565 * x 1 - 2841 * x 7) (2408 * x 5 - 1609 * x 3)) k

/-- Output `k` of the column pass on the column `x` (R225, likewise). -/
def Sys2Proof.inverseCol (x : Nat → Word) (k : Nat) : Word :=
  let third := fun w : Word => (w + 4).sshiftRight 3
  inverseOut 14
    (inverseEven ((x 0 <<< (8 : Nat)) + 8192) (x 4 <<< (8 : Nat)) (third (2676 * x 2 + 1108 * x 6))
      (third (1108 * x 2 - 2676 * x 6)))
    (inverseOdd (third (2841 * x 1 + 565 * x 7)) (third (2408 * x 3 + 1609 * x 5)) (third (565 * x 1 - 2841 * x 7))
      (third (2408 * x 5 - 1609 * x 3))) k

/-- Row `y`, column `x` of the inverse transform of the block `b` (R220, R221). -/
def Sys2Proof.inverseAt (b : Nat → Word) (y x : Nat) : Word :=
  inverseCol (fun r => inverseRow (fun c => b (8 * r + c)) x) y

/-- Outputs 1, 2, 3, 5, 6 and 7 of a forward line (R230, R231, each rotation multiplied out). -/
def Sys2Proof.forwardAc (rnd : Word) (sh : Nat) (x : Nat → Word) (k : Nat) : Word :=
  let u := x 0 + x 7 - (x 3 + x 4)
  let w := x 1 + x 6 - (x 2 + x 5)
  let d := fun i => x i - x (7 - i)
  let z := 9633 * (d 0 + d 1 + d 2 + d 3) + rnd
  (if k = 2 then 10703 * u + 4433 * w + rnd
  else if k = 6 then 4433 * u - 10704 * w + rnd
  else if k = 1 then 12299 * d 0 - 7373 * (d 0 + d 3) - 3196 * (d 0 + d 2) + z
  else if k = 3 then 25172 * d 1 - 20995 * (d 1 + d 2) - 16069 * (d 1 + d 3) + z
  else if k = 5 then 16819 * d 2 - 20995 * (d 1 + d 2) - 3196 * (d 0 + d 2) + z
  else 2446 * d 3 - 7373 * (d 0 + d 3) - 16069 * (d 1 + d 3) + z).sshiftRight sh

/-- Outputs 0 and 4 of a forward line, before scaling: the sum of all entries, and the outer less the inner ones. -/
def Sys2Proof.forwardEven (x : Nat → Word) (k : Nat) : Word :=
  if k = 0 then x 0 + x 1 + x 2 + x 3 + x 4 + x 5 + x 6 + x 7
  else x 0 + x 3 + x 4 + x 7 - (x 1 + x 2 + x 5 + x 6)

/-- Output `k` of the forward row pass on the row `x` (R230). -/
def Sys2Proof.forwardRow (x : Nat → Word) (k : Nat) : Word :=
  if k = 0 then (forwardEven x 0 - 1024) <<< (2 : Nat) else if k = 4 then forwardEven x 4 <<< (2 : Nat)
  else forwardAc 1024 11 x k

/-- Output `k` of the forward column pass on the column `x` (R231). -/
def Sys2Proof.forwardCol (x : Nat → Word) (k : Nat) : Word :=
  if k = 0 ∨ k = 4 then (forwardEven x k + 2).sshiftRight 2 else forwardAc 16384 15 x k

/-- Vertical frequency `v`, horizontal frequency `u` of the forward transform of the block `b` (R228). -/
def Sys2Proof.forwardAt (b : Nat → Word) (v u : Nat) : Word :=
  forwardCol (fun r => forwardRow (fun c => b (8 * r + c)) u) v

/-- DCT.INV and DCT.FWD complete in every state, write BLK[0..63] and nothing else. On every block, DCT.INV is the row
butterfly with its short-circuit and then the column butterfly (R221 to R225), DCT.FWD the forward row and then column
butterfly (R228 to R231), all modulo 2^32 (R236; for the row of its example see log 14). DCT.INV of a DC-only block is flat
with `floor((d + 4) / 8)`; of a block with only its row 0 it has identical rows; of a block with only its column 0 it
has identical columns (42_dct.md R226). DCT.FWD of a flat block of samples `v` gives `64 * (v - 128)` and 63 zeros
(R233). BLK.CLEAR: bit 0 of the mask zeroes BLK[0..63], bit 1 zeroes ZZ[0..63]; nothing else changes (R232). -/
def Obligations.TransformAndClear : Prop :=
  (∀ s : State,
    (∃ t, exec .dctInv s = .next t ∧
      t = { s with mem := { s.mem with blk := t.mem.blk }, status := { s.status with done := true } } ∧
      (∀ i : Nat, 64 ≤ i → Cells.get t.mem.blk i = Cells.get s.mem.blk i) ∧
      (∀ y x : Nat, y < 8 → x < 8 → Cells.get t.mem.blk (8 * y + x) = inverseAt (Cells.get s.mem.blk) y x) ∧
      ((∀ i : Nat, 1 ≤ i → i < 64 → Cells.get s.mem.blk i = 0) → (Cells.get s.mem.blk 0).toInt.natAbs < 2 ^ 19 →
        ∀ i : Nat, i < 64 → (Cells.get t.mem.blk i).toInt = ((Cells.get s.mem.blk 0).toInt + 4) / 8) ∧
      ((∀ i : Nat, 8 ≤ i → i < 64 → Cells.get s.mem.blk i = 0) →
        ∀ y x : Nat, y < 8 → x < 8 → Cells.get t.mem.blk (8 * y + x) = Cells.get t.mem.blk x) ∧
      ((∀ y x : Nat, y < 8 → 1 ≤ x → x < 8 → Cells.get s.mem.blk (8 * y + x) = 0) →
        ∀ y x : Nat, y < 8 → x < 8 → Cells.get t.mem.blk (8 * y + x) = Cells.get t.mem.blk (8 * y))) ∧
    (∃ t, exec .dctFwd s = .next t ∧
      t = { s with mem := { s.mem with blk := t.mem.blk }, status := { s.status with done := true } } ∧
      (∀ i : Nat, 64 ≤ i → Cells.get t.mem.blk i = Cells.get s.mem.blk i) ∧
      (∀ v u : Nat, v < 8 → u < 8 → Cells.get t.mem.blk (8 * v + u) = forwardAt (Cells.get s.mem.blk) v u) ∧
      ∀ v : Nat, v < 256 → (∀ i : Nat, i < 64 → Cells.get s.mem.blk i = wordN v) →
        ∀ i : Nat, i < 64 → (Cells.get t.mem.blk i).toInt = if i = 0 then 64 * ((v : Int) - 128) else 0)) ∧
  (∀ (m : BitVec 2) (s : State), ∃ t, exec (.blkClear m) s = .next t ∧
    t = { s with
      mem := { s.mem with blk := t.mem.blk, zz := t.mem.zz }, status := { s.status with done := true } } ∧
    (∀ i : Nat, Cells.get t.mem.blk i = if m.getLsbD 0 = true ∧ i < 64 then 0 else Cells.get s.mem.blk i) ∧
    (∀ i : Nat, Cells.get t.mem.zz i = if m.getLsbD 1 = true ∧ i < 64 then 0 else Cells.get s.mem.zz i))

/-- BLK.LEVEL is the command word 0x32000000 and completes in every state: an entry below −128 becomes 0, one above 127
becomes 255, every other gets 128 added; nothing else changes (R227). -/
def Obligations.BlockLevel : Prop :=
  decodeCommand 0x32000000 = .ok .blkLevel ∧
  ∀ s : State, ∃ t, exec .blkLevel s = .next t ∧
    t = { s with mem := { s.mem with blk := t.mem.blk }, status := { s.status with done := true } } ∧
    ∀ i : Nat, Cells.get t.mem.blk i =
      if 64 ≤ i then Cells.get s.mem.blk i
      else if (Cells.get s.mem.blk i).toInt < -128 then 0
      else if 127 < (Cells.get s.mem.blk i).toInt then 255
      else Cells.get s.mem.blk i + 128

/-- The scaled entry of a base value at quality `q` (43_quant.md R252). -/
def Sys2Proof.qualityEntry (base q : Nat) : Nat :=
  let factor := if q < 50 then 5000 / q else 200 - 2 * q
  let v := (base * factor + 50) / 100
  if v < 1 then 1 else if 255 < v then 255 else v

/-- `div_round`: nearest, ties away from zero (R255). -/
def Sys2Proof.roundedQuotient (a : Int) (d : Nat) : Int :=
  if 0 ≤ a then (a + (d / 2 : Nat)) / d else -((-a + (d / 2 : Nat)) / d)

/-- QT.SCALE: a quality outside 1..100 raises BadArgument; else slots 0 and 1 become the two base tables scaled, in
zig-zag order, and are marked valid; slots 2 and 3 and everything else keep their value (R252). QT.QUANT: with no
zero entry in the slot, ZZ[k] becomes BLK[UNZIG[k]] divided by 8·QT[slot][k], rounded to nearest with ties away from
zero, and nothing else changes; otherwise BadArgument(k) for the lowest zero entry, before any write (R255, R256). -/
def Obligations.ScaleAndQuantise : Prop :=
  (∀ s : State,
    ((s.arg0.toNat < 1 ∨ 100 < s.arg0.toNat) →
      exec .qtScale s = .next (enterFault 0x40 ⟨.badArgument, s.arg0⟩ s)) ∧
    (1 ≤ s.arg0.toNat → s.arg0.toNat ≤ 100 →
      ∃ t, exec .qtScale s = .next t ∧
        t = { s with
          qtValid := s.qtValid ||| 3, mem := { s.mem with qt := t.mem.qt }
          status := { s.status with done := true } } ∧
        (∀ k : Nat, k < 64 →
          (Cells.get t.mem.qt k).toNat = qualityEntry (baseLum.getD (unzig k) 0) s.arg0.toNat ∧
          (Cells.get t.mem.qt (64 + k)).toNat = qualityEntry (baseChr.getD (unzig k) 0) s.arg0.toNat) ∧
        ∀ i : Nat, 128 ≤ i → Cells.get t.mem.qt i = Cells.get s.mem.qt i)) ∧
  (∀ (q : BitVec 2) (s : State),
    ((∀ k : Nat, k < 64 → Cells.get s.mem.qt (64 * q.toNat + k) ≠ 0) →
      ∃ t, exec (.qtQuant q) s = .next t ∧
        t = { s with mem := { s.mem with zz := t.mem.zz }, status := { s.status with done := true } } ∧
        (∀ k : Nat, k < 64 → (Cells.get t.mem.zz k).toInt =
          roundedQuotient (Cells.get s.mem.blk (unzig k)).toInt (8 * (Cells.get s.mem.qt (64 * q.toNat + k)).toNat)) ∧
        ∀ i : Nat, 64 ≤ i → Cells.get t.mem.zz i = Cells.get s.mem.zz i) ∧
    (∀ k : Nat, k < 64 → Cells.get s.mem.qt (64 * q.toNat + k) = 0 →
      (∀ j : Nat, j < k → Cells.get s.mem.qt (64 * q.toNat + j) ≠ 0) →
      exec (.qtQuant q) s = .next (enterFault 0x42 ⟨.badArgument, wordN k⟩ s)))

/-- QT.DEQ is the command word 0x41000000 plus the slot and completes in every state: BLK[UNZIG[k]] becomes the product,
modulo 2^32, of ZZ[k] and QT[slot][k] for every k, and nothing else changes (R254). -/
def Obligations.Dequantise : Prop :=
  (∀ q : BitVec 2, decodeCommand (0x41000000 + q.setWidth 32) = .ok (.qtDeq q)) ∧
  ∀ (q : BitVec 2) (s : State), ∃ t, exec (.qtDeq q) s = .next t ∧
    t = { s with mem := { s.mem with blk := t.mem.blk }, status := { s.status with done := true } } ∧
    (∀ k : Nat, k < 64 → Cells.get t.mem.blk (unzig k) =
      Cells.get s.mem.zz k * (Cells.get s.mem.qt (64 * q.toNat + k)).setWidth 32) ∧
    ∀ i : Nat, 64 ≤ i → Cells.get t.mem.blk i = Cells.get s.mem.blk i

/-! ## JPEG decode -/

/-- `s` after `jpegStep` or `jpegLoop` failed on it: J_STATE is Failed (R271). -/
def Sys2Proof.Machine.State.failedJpeg (s : State) : State := { s with jpg := { s.jpg with state := .failed } }

/-- JPG.INIT: all J_* registers, BC_ACC, BC_NBITS, QT_VALID and HT_VALID become 0 and nothing else changes
(44_jpeg_decode.md R270). JPG.STEP consumes one element at the realigned position. Before SOI the two bytes must be FF
D8, and then only J_STATE[4], IN_POS and the scratch TMP change; any other two bytes are consumed, raise BadMarker and
leave the decoder Failed (R271). After it, a marker with any number of fill bytes runs the instruction the marker is,
from the byte after its code byte; FF 00, a byte that is no FF, and a code byte of no marker raise BadMarker or
UnknownMarker and leave the decoder Failed (R272, R274). A stream that ends before the first two bytes, before the marker or inside its
fill bytes raises EndOfStream with IN_POS as it stands then, and leaves the decoder Failed (R271, R272). A decoder that
is Done or Failed raises BadState and does not move (R271). That an element is an instruction entered there is log 3; positions wrap modulo 2^32 (log 6). -/
def Obligations.JpegInitAndStep : Prop :=
  (∀ s : State, exec .jpgInit s = .next ({ s with
    jpg := {
      state := .awaitHeader, soiSeen := false, width := 0, height := 0, ncomp := 0, hmax := 0, vmax := 0
      progressive := false, adobeValid := false, adobeTransform := 0, mxx := 0, myy := 0, ri := 0, rstn := 0
      eobrun := 0, ss := 0, se := 0, ah := 0, al := 0, ns := 0
      comp := Vector.replicate 4 ⟨0, 0, 0, 0, 0, 0⟩, dcpred := Vector.replicate 4 0 }
    bcAcc := 0, bcNbits := 0, qtValid := 0, htValid := 0 } : State).complete) ∧
  (∀ s : State, let u := s.realigned
    s.jpg.soiSeen = false → s.jpg.state ≠ .done → s.jpg.state ≠ .failed → u.Reads [0xFF, 0xD8] →
    exec .jpgStep s = .next ({ (u.storeTmp [0xFF, 0xD8]) with
      inPos := u.inPos + 2, jpg := { s.jpg with soiSeen := true } } : State).complete) ∧
  (∀ (s : State) (b c : Byte), let u := s.realigned
    s.jpg.soiSeen = false → s.jpg.state ≠ .done → s.jpg.state ≠ .failed → ¬ (b = 0xFF ∧ c = 0xD8) → u.Reads [b, c] →
    exec .jpgStep s = .next (enterFault 0x51 ⟨.badMarker, u.inPos⟩
      ({ (u.storeTmp [b, c]) with inPos := u.inPos + 2 } : State).failedJpeg)) ∧
  (∀ (s : State) (j : Nat) (m : Byte) (k : Marker), let u := s.realigned
    s.Decoding → decodeMarker m = .ok k → u.Reads (List.replicate (j + 1) 0xFF ++ [m]) →
    exec .jpgStep s = exec k.toInstr { (u.storeTmp [m]) with inPos := u.inPos + wordN (j + 2) }) ∧
  (∀ (s : State) (j : Nat) (m : Byte), let u := s.realigned
    s.Decoding → decodeMarker m = .error (.unknownMarker m) → u.Reads (List.replicate (j + 1) 0xFF ++ [m]) →
    exec .jpgStep s = .next (enterFault 0x51 ⟨.unknownMarker, m.setWidth 32⟩
      ({ (u.storeTmp [m]) with inPos := u.inPos + wordN (j + 2) } : State).failedJpeg)) ∧
  (∀ (s : State) (j : Nat), let u := s.realigned
    s.Decoding → u.Reads (List.replicate (j + 1) 0xFF ++ [0x00]) →
    exec .jpgStep s = .next (enterFault 0x51 ⟨.badMarker, u.inPos + wordN (j + 1)⟩
      ({ (u.storeTmp [0x00]) with inPos := u.inPos + wordN (j + 2) } : State).failedJpeg)) ∧
  (∀ (s : State) (b : Byte), let u := s.realigned
    s.Decoding → b ≠ 0xFF → u.Reads [b] →
    exec .jpgStep s = .next (enterFault 0x51 ⟨.badMarker, u.inPos⟩
      ({ (u.storeTmp [b]) with inPos := u.inPos + 1 } : State).failedJpeg)) ∧
  (∀ s : State, let u := s.realigned
    s.jpg.soiSeen = false → s.jpg.state ≠ .done → s.jpg.state ≠ .failed → s.inLen.toNat < u.inPos.toNat + 2 →
    exec .jpgStep s = .next (enterFault 0x51 ⟨.endOfStream, u.inPos⟩ u.failedJpeg)) ∧
  (∀ s : State, let u := s.realigned
    s.Decoding → s.inLen.toNat ≤ u.inPos.toNat →
    exec .jpgStep s = .next (enterFault 0x51 ⟨.endOfStream, u.inPos⟩ u.failedJpeg)) ∧
  (∀ (s : State) (j : Nat), let u := s.realigned
    s.Decoding → u.Reads (List.replicate (j + 1) 0xFF) → u.inPos.toNat + (j + 1) = s.inLen.toNat →
    exec .jpgStep s = .next (enterFault 0x51 ⟨.endOfStream, s.inLen⟩
      ({ (u.storeTmp [0xFF]) with inPos := s.inLen } : State).failedJpeg)) ∧
  (∀ s : State, (s.jpg.state = .done → exec .jpgStep s = .next (enterFault 0x51 ⟨.badState, 3⟩ s)) ∧
    (s.jpg.state = .failed → exec .jpgStep s = .next (enterFault 0x51 ⟨.badState, 4⟩ s)))

/-- JPG.DECODE is JPG.STEP repeated until EOI: where one step completes and the decoder is not Done, JPG.DECODE goes on
as from the state after that step; where the step was the EOI, it ends there; where the step faults, it faults there,
with its own opcode byte in ERR (R307). It ends on every stream, Done or with a fault and the decoder Failed
(70_reset_and_hazards.md R560); with the scan complete and FF D9 next it is Done, and only J_STATE, IN_POS, the bit
cursor and TMP changed (R306). -/
def Obligations.JpegDecodeIteratesStep : Prop :=
  (∀ s t : State, s.status.fault = false → s.jpg.state ≠ .done → s.jpg.state ≠ .failed → exec .jpgStep s = .next t →
    (t.status.fault = false → t.jpg.state ≠ .done → exec .jpgDecode s = exec .jpgDecode t) ∧
    (t.status.fault = false → t.jpg.state = .done → exec .jpgDecode s = .next t) ∧
    (t.status.fault = true →
      exec .jpgDecode s = .next { t with err := 0x00520000 ||| (t.err &&& 0xFFFF) })) ∧
  (∀ s : State, s.status.fault = false → s.jpg.state ≠ .done → s.jpg.state ≠ .failed →
    ∃ t, exec .jpgDecode s = .next t ∧
      ((t.status.fault = false ∧ t.status.done = true ∧ t.jpg.state = .done) ∨
        (t.status.fault = true ∧ t.status.done = false ∧ t.jpg.state = .failed))) ∧
  (∀ s : State, let u := s.realigned
    s.jpg.soiSeen = true → s.jpg.state = .scanning → s.jpg.progressive = false → u.Reads [0xFF, 0xD9] →
    exec .jpgDecode s = .next ({ (u.storeTmp [0xD9]) with
      inPos := u.inPos + 2, jpg := { s.jpg with state := .done } } : State).complete)

/-- A byte from a sum that may leave 0..255 (R309). -/
def Sys2Proof.clamped (v : Int) : Byte := if v < 0 then 0 else if 255 < v then 255 else BitVec.ofInt 8 v

/-- The zig-zag index of the coefficient at natural index `i` (30_encoding.md R150). -/
def Sys2Proof.zigOf (i : Nat) : Nat := ((List.range 64).find? (fun k => unzig k == i)).getD 0

/-- The sample in row `y`, column `x` of the block with zig-zag coefficients `z` under the quantisation table `q`:
dequantised, inverse-transformed, levelled (R301, R302). -/
def Sys2Proof.blockSample (q : Nat → BitVec 16) (z : Nat → Word) (y x : Nat) : Byte :=
  clamped ((inverseAt (fun i => z (zigOf i) * (q (zigOf i)).setWidth 32) y x).toInt + 128)

/-- JPG.ASSEMBLE of a finished image of one or three components writes each pixel from the samples its components have
there, by replication: grey, RGB after an Adobe segment with transform 0, and the conversion of R309 otherwise; PIX_DIM
is the image's, and nothing else changes. A decoder that is not Done raises BadState, four components raise Unsupported,
an image above PIX_CAP raises CapacityExceeded, all before any write (R308). -/
def Obligations.JpegAssemble : Prop :=
  ∀ s : State,
    (s.jpg.state = .done → (s.jpg.ncomp = 1 ∨ s.jpg.ncomp = 3) →
      s.jpg.width.toNat * s.jpg.height.toNat ≤ s.caps.pixCap →
      ∃ t, exec .jpgAssemble s = .next t ∧
        t = { s with
          pixDim := s.jpg.height ++ s.jpg.width, mem := { s.mem with pix := t.mem.pix }
          status := { s.status with done := true } } ∧
        (∀ x y : Nat, x < s.jpg.width.toNat → y < s.jpg.height.toNat →
          let smp := fun i : Fin 4 => Cells.get s.mem.plane[i]
            (y * s.jpg.comp[i].v.toNat / s.jpg.vmax.toNat * (8 * (s.jpg.comp[i].h.toNat * s.jpg.mxx.toNat)) +
              x * s.jpg.comp[i].h.toNat / s.jpg.hmax.toNat)
          let yy : Int := (smp 0).toNat
          let cb : Int := ((smp 1).toNat : Int) - 128
          let cr : Int := ((smp 2).toNat : Int) - 128
          Cells.get t.mem.pix (y * s.jpg.width.toNat + x) =
            if s.jpg.ncomp = 1 then 0xFF#8 ++ smp 0 ++ smp 0 ++ smp 0
            else if s.jpg.adobeValid = true ∧ s.jpg.adobeTransform = 0 then 0xFF#8 ++ smp 2 ++ smp 1 ++ smp 0
            else 0xFF#8 ++ clamped (yy + (116130 * cb + 32768) / 65536) ++
              clamped (yy - (22554 * cb + 46802 * cr + 32768) / 65536) ++
              clamped (yy + (91881 * cr + 32768) / 65536)) ∧
        ∀ i : Nat, s.jpg.width.toNat * s.jpg.height.toNat ≤ i → Cells.get t.mem.pix i = Cells.get s.mem.pix i) ∧
    (s.jpg.state ≠ .done →
      exec .jpgAssemble s = .next (enterFault 0x53 ⟨.badState, wordN s.jpg.state.num⟩ s)) ∧
    (s.jpg.state = .done → s.jpg.ncomp = 4 →
      exec .jpgAssemble s = .next (enterFault 0x53 ⟨.unsupported, 4⟩ s)) ∧
    (s.jpg.state = .done → s.jpg.ncomp ≠ 4 → s.caps.pixCap < s.jpg.width.toNat * s.jpg.height.toNat →
      exec .jpgAssemble s = .next (enterFault 0x53 ⟨.capacityExceeded, 4⟩ s))

/-- The segments the decoder skips (R275). -/
def Sys2Proof.isSkipped : Instr → Bool
  | .jpegApp0 | .jpegApp1 | .jpegApp2 | .jpegApp3 | .jpegApp4 | .jpegApp5 | .jpegApp6 | .jpegApp7 | .jpegApp8 => true
  | .jpegApp9 | .jpegApp10 | .jpegApp11 | .jpegApp12 | .jpegApp13 | .jpegApp15 | .jpegCom => true
  | _ => false

/-- `s` past a segment whose payload was read: IN_POS moved over length and payload, both of which went through TMP
(R273; 40_bitcursor.md R168). -/
def Sys2Proof.Machine.State.pastSegment (s : State) (p : List Byte) : State :=
  { (s.realigned.storeTmp ((segmentBytes p).take 2)).storeTmp p with
    inPos := s.realigned.inPos + wordN (p.length + 2) }

/-- The instructions that begin with a length field (R273). -/
def Sys2Proof.isSegment : Instr → Bool
  | .jpegSof0 | .jpegSof1 | .jpegSof2 | .jpegDht | .jpegDqt | .jpegDri | .jpegSos | .jpegApp14 => true
  | i => isSkipped i

/-- The length field of a payload of `n` bytes (30_encoding.md R121). -/
def Sys2Proof.lengthField (n : Nat) : List Byte := [BitVec.ofNat 8 ((n + 2) / 256), BitVec.ofNat 8 (n + 2)]

/-- `s` after the length field of a payload of `n` bytes went through TMP (R273). -/
def Sys2Proof.Machine.State.pastLength (s : State) (n : Nat) : State :=
  { s.realigned.storeTmp (lengthField n) with inPos := s.realigned.inPos + 2 }

/-- What an instruction asks for before it takes a payload of `n` bytes (R276, R282, R283). -/
def Sys2Proof.Machine.State.TakesPayload (s : State) (i : Instr) (n : Nat) : Prop :=
  (i = .jpegSof0 ∨ i = .jpegSof1 ∨ i = .jpegSof2 → s.jpg.state = .awaitHeader ∧ 6 ≤ n) ∧
  (i = .jpegDri → n = 2) ∧
  (i = .jpegSos → s.jpg.state ≠ .awaitHeader ∧ 6 ≤ n ∧ n ≤ 4 + 2 * s.jpg.ncomp.toNat ∧ n % 2 = 0)

/-- SOI, EOI, RSTn and the segments without a table. The first SOI sets J_STATE[4]; any other element before it, and a
second SOI, raise BadMarker. EOI after a scan makes the decoder Done, and in a non-progressive frame changes nothing
else; before any scan it raises MissingScan. RSTn outside the entropy-coded data of a scan raises BadRestart; inside, the
expected one resets the bit cursor, the DC predictors and EOBRUN and advances RSTN modulo 8, any other raises BadRestart
(R271, R274, R299, R306). APP0..APP13, APP15 and COM are skipped whole; APP14 sets ADOBE_VALID and ADOBE_TRANSFORM if its
payload has at least 12 bytes and starts with "Adobe", and else changes nothing; DRI sets J_RI, or raises
BadSegmentLength for a payload that is not of 2 bytes (R275, R282); beside IN_POS, the bit cursor and TMP nothing else
changes. Every segment raises EndOfStream where its length field or its payload runs past the end of the stream, and
BadSegmentLength for a length below 2, before it does anything else (R273). The flag that says whether RSTn is inside a
scan, and the position an element is entered at, are the model's choice (logs 3, 4). -/
def Obligations.JpegMarkersAndSegments : Prop :=
  (∀ s : State, s.jpg.soiSeen = false → s.jpg.state ≠ .done → s.jpg.state ≠ .failed →
    exec .jpegSoi s = .next ({ s with jpg := { s.jpg with soiSeen := true } } : State).complete ∧
    ∀ k : Marker, k ≠ .soi →
      exec k.toInstr s = .next (enterFault 0x51 ⟨.badMarker, s.inPos - 2⟩ s.failedJpeg)) ∧
  (∀ s : State, s.Decoding →
    exec .jpegSoi s = .next (enterFault 0x51 ⟨.badMarker, s.inPos - 1⟩ s.failedJpeg)) ∧
  (∀ s : State, s.Decoding → s.jpg.state ≠ .scanning →
    exec .jpegEoi s = .next (enterFault 0x51 ⟨.missingScan, wordN s.jpg.state.num⟩ s.failedJpeg)) ∧
  (∀ s : State, s.Decoding → s.jpg.state = .scanning → s.jpg.progressive = false →
    exec .jpegEoi s = .next ({ s with jpg := { s.jpg with state := .done } } : State).complete) ∧
  (∀ (s : State) (n : BitVec 3), s.Decoding → s.inScan = false →
    exec (.jpegRst n) s = .next (enterFault 0x51 ⟨.badRestart, wordN (0xD0 + n.toNat)⟩ s.failedJpeg)) ∧
  (∀ (s : State) (n : BitVec 3), s.Decoding → s.inScan = true → n ≠ s.jpg.rstn →
    exec (.jpegRst n) s = .next (enterFault 0x51 ⟨.badRestart, wordN (0xD0 + n.toNat)⟩ s.failedJpeg)) ∧
  (∀ (s : State) (n : BitVec 3), s.Decoding → s.inScan = true → n = s.jpg.rstn →
    exec (.jpegRst n) s = .next ({ s with
      bcAcc := 0, bcNbits := 0
      jpg := { s.jpg with
        dcpred := Vector.replicate 4 0, eobrun := 0, rstn := BitVec.ofNat 3 (n.toNat + 1) } } : State).complete) ∧
  (∀ (s : State) (p : List Byte), s.Decoding → p.length ≤ 65533 → s.realigned.Reads (segmentBytes p) →
    (∀ i : Instr, isSkipped i = true →
      exec i s = .next ({ (s.realigned.storeTmp ((segmentBytes p).take 2)) with
        inPos := s.realigned.inPos + wordN (p.length + 2) } : State).complete) ∧
    (p.length < 12 ∨ p.take 5 ≠ [0x41, 0x64, 0x6F, 0x62, 0x65] →
      exec .jpegApp14 s = .next (s.pastSegment p).complete) ∧
    (12 ≤ p.length → p.take 5 = [0x41, 0x64, 0x6F, 0x62, 0x65] →
      exec .jpegApp14 s = .next ({ s.pastSegment p with
        jpg := { s.jpg with adobeValid := true, adobeTransform := byteAt p 11 } } : State).complete) ∧
    (p.length = 2 →
      exec .jpegDri s = .next ({ s.pastSegment p with
        jpg := { s.jpg with ri := byteAt p 0 ++ byteAt p 1 } } : State).complete)) ∧
  (∀ (s : State) (i : Instr), s.Decoding → isSegment i = true →
    (s.inLen.toNat < s.realigned.inPos.toNat + 2 →
      exec i s = .next (enterFault 0x51 ⟨.endOfStream, s.realigned.inPos⟩ s.realigned.failedJpeg)) ∧
    (∀ b : Byte, b.toNat < 2 → s.realigned.Reads [0x00, b] →
      exec i s = .next (enterFault 0x51 ⟨.badSegmentLength, b.setWidth 32⟩
        ({ s.realigned.storeTmp [0x00, b] with inPos := s.realigned.inPos + 2 } : State).failedJpeg)) ∧
    (∀ n : Nat, n ≤ 65533 → s.realigned.Reads (lengthField n) →
      (s.TakesPayload i n → s.inLen.toNat < s.realigned.inPos.toNat + 2 + n →
        exec i s = .next (enterFault 0x51 ⟨.endOfStream, s.realigned.inPos + 2⟩ (s.pastLength n).failedJpeg)) ∧
      (i = .jpegDri → n ≠ 2 →
        exec i s = .next (enterFault 0x51 ⟨.badSegmentLength, wordN n⟩ (s.pastLength n).failedJpeg))))

/-- Block columns of component `i` (R279). -/
def Sys2Proof.Machine.State.colsOf (s : State) (i : Fin 4) : Nat := s.jpg.comp[i].h.toNat * s.jpg.mxx.toNat

/-- Block rows of component `i` (R279). -/
def Sys2Proof.Machine.State.rowsOf (s : State) (i : Fin 4) : Nat := s.jpg.comp[i].v.toNat * s.jpg.myy.toNat

/-- The plane of component `i` in `t` is that of `s` with every block reconstructed from its coefficients (R301, R304). -/
def Sys2Proof.Machine.State.PlaneDone (s t : State) (i : Fin 4) : Prop :=
  (∀ by_ bx y x : Nat, by_ < s.rowsOf i → bx < s.colsOf i → y < 8 → x < 8 →
    Cells.get t.mem.plane[i] ((8 * by_ + y) * (8 * s.colsOf i) + (8 * bx + x)) =
      blockSample (fun k => Cells.get s.mem.qt (64 * s.jpg.comp[i].tq.toNat + k))
        (fun k => Cells.get s.mem.coef[i] (64 * (by_ * s.colsOf i + bx) + k)) y x) ∧
  ∀ a : Nat, 64 * (s.rowsOf i * s.colsOf i) ≤ a → Cells.get t.mem.plane[i] a = Cells.get s.mem.plane[i] a

/-- EOI of a progressive frame reconstructs every block of every component from its coefficients and makes the decoder
Done; COEF is unchanged, and beside J_STATE only the planes and the block buffers change. Each sample of each block is its
coefficients dequantised, inverse-transformed, levelled and clamped, at the block's place in the plane, and every byte
outside the blocks stays. In a frame of one block and one component with only a DC coefficient, the plane becomes flat
with that coefficient dequantised, transformed, levelled and clamped. At the first component with a block whose table was
never loaded TableNotDefined is raised; the planes before it are done, its own and those after it stay, and the decoder
is Failed (R301, R302, R304, R306). The element is entered at the byte after its code byte (log 3). -/
def Obligations.JpegProgressiveEnd : Prop :=
  ∀ s : State, s.Decoding → s.jpg.state = .scanning → s.jpg.progressive = true → s.jpg.ncomp.toNat ≤ 4 →
    ((∀ i : Fin 4, i.val < s.jpg.ncomp.toNat → s.qtValid.getLsbD s.jpg.comp[i].tq.toNat = true) →
      ∃ t, exec .jpegEoi s = .next t ∧
        t = { s with
          jpg := { s.jpg with state := .done }
          mem := { s.mem with blk := t.mem.blk, zz := t.mem.zz, plane := t.mem.plane }
          status := { s.status with done := true } } ∧
        (∀ i : Fin 4, i.val < s.jpg.ncomp.toNat → s.PlaneDone t i) ∧
        (∀ i : Fin 4, s.jpg.ncomp.toNat ≤ i.val → t.mem.plane[i] = s.mem.plane[i]) ∧
        (s.jpg.ncomp = 1 → s.jpg.comp[(0 : Fin 4)].h = 1 → s.jpg.comp[(0 : Fin 4)].v = 1 → s.jpg.mxx = 1 →
          s.jpg.myy = 1 → (∀ k : Nat, 1 ≤ k → k < 64 → Cells.get s.mem.coef[(0 : Fin 4)] k = 0) →
          let dc := (Cells.get s.mem.coef[(0 : Fin 4)] 0).toInt *
            (Cells.get s.mem.qt (64 * s.jpg.comp[(0 : Fin 4)].tq.toNat)).toNat
          dc.natAbs < 2 ^ 19 →
          ∀ a : Nat, Cells.get t.mem.plane[(0 : Fin 4)] a =
            if a < 64 then clamped ((dc + 4) / 8 + 128) else Cells.get s.mem.plane[(0 : Fin 4)] a)) ∧
    (∀ j : Fin 4, j.val < s.jpg.ncomp.toNat → s.rowsOf j * s.colsOf j ≠ 0 →
      s.qtValid.getLsbD s.jpg.comp[j].tq.toNat = false →
      (∀ i : Fin 4, i.val < j.val →
        s.rowsOf i * s.colsOf i = 0 ∨ s.qtValid.getLsbD s.jpg.comp[i].tq.toNat = true) →
      ∃ t, exec .jpegEoi s =
          .next (enterFault 0x51 ⟨.tableNotDefined, wordN (32 + s.jpg.comp[j].tq.toNat)⟩ t.failedJpeg) ∧
        t = { s with mem := { s.mem with blk := t.mem.blk, zz := t.mem.zz, plane := t.mem.plane } } ∧
        (∀ i : Fin 4, i.val < j.val → s.PlaneDone t i) ∧
        ∀ i : Fin 4, j.val ≤ i.val → t.mem.plane[i] = s.mem.plane[i])

/-- `s` after these quantisation tables were loaded in order (R280). -/
def Sys2Proof.Machine.State.withDqt (s : State) (qs : List DqtTable) : State :=
  qs.foldl (fun t q => { t with
    qtValid := t.qtValid ||| (1#4 <<< q.slot.val)
    mem := { t.mem with qt := Cells.setRange t.mem.qt (64 * q.slot.val) q.entries } }) s

/-- `s` after these Huffman tables were built in order (R281). -/
def Sys2Proof.Machine.State.withDht (s : State) (hs : List DhtTable) : State :=
  hs.foldl (fun t h => t.putTable h.cls.val h.slot.val h.spec.build) s

/-- What is wrong with the table a DQT payload goes on with (R280). -/
def Sys2Proof.dqtFault (rest : List Byte) : Option Raise :=
  match rest with
  | [] => none
  | b :: _ =>
    if 3 < b.toNat % 16 then some ⟨.badTableIndex, b.setWidth 32⟩
    else if 1 < b.toNat / 16 then some ⟨.unsupportedPrecision, b.setWidth 32⟩
    else if rest.length < (if b.toNat / 16 = 0 then 65 else 129) then some ⟨.badSegmentLength, wordN rest.length⟩
    else none

/-- What is wrong with the table a DHT payload goes on with (R281; 41_huffman.md R195). -/
def Sys2Proof.dhtFault (rest : List Byte) : Option Raise :=
  match rest with
  | [] => none
  | b :: more =>
    let sp : HuffSpec := ⟨more.take 16, more.drop 16⟩
    if rest.length < 17 then some ⟨.badSegmentLength, wordN rest.length⟩
    else if 1 < b.toNat / 16 ∨ 3 < b.toNat % 16 then some ⟨.badTableIndex, b.setWidth 32⟩
    else if 256 < sp.total then some ⟨.badHuffmanTable, wordN sp.total⟩
    else if rest.length < 17 + sp.total then some ⟨.badSegmentLength, wordN rest.length⟩
    else ((List.range 17).find? (fun l => decide (2 ^ l < sp.firstCode l + sp.count l))).map
      (fun l => ⟨.huffOversubscribed, wordN l⟩)

/-- DQT loads each of its tables into its slot, in order, 8- or 16-bit entries alike, and marks it valid; DHT builds
each of its tables into its class and slot and marks it valid. Beside IN_POS, the bit cursor and TMP nothing else
changes. Where the table after some good ones is not acceptable, the first check that fails in the order of R280 and
R281 raises, and the tables before it stay loaded (R280, R281; 30_encoding.md R123, R125; 41_huffman.md R195). The
element is entered at the byte after its code byte (log 3). -/
def Obligations.JpegTableSegments : Prop :=
  (∀ (s : State) (qs : List DqtTable) (rest : List Byte), s.Decoding → (∀ q ∈ qs, q.Ok) →
    let p := qs.flatMap DqtTable.bytes ++ rest
    p.length ≤ 65533 → s.realigned.Reads (segmentBytes p) →
    (rest = [] → exec .jpegDqt s = .next ((s.pastSegment p).withDqt qs).complete) ∧
    (∀ r : Raise, dqtFault rest = some r →
      exec .jpegDqt s = .next (enterFault 0x51 r ((s.pastSegment p).withDqt qs).failedJpeg))) ∧
  (∀ (s : State) (hs : List DhtTable) (rest : List Byte), s.Decoding → (∀ h ∈ hs, h.Ok) →
    let p := hs.flatMap DhtTable.bytes ++ rest
    p.length ≤ 65533 → s.realigned.Reads (segmentBytes p) →
    (rest = [] → exec .jpegDht s = .next ((s.pastSegment p).withDht hs).complete) ∧
    (∀ r : Raise, dhtFault rest = some r →
      exec .jpegDht s = .next (enterFault 0x51 r ((s.pastSegment p).withDht hs).failedJpeg)))

/-- The first of the checks of R277 that a frame header's payload of at least 6 bytes fails. -/
def Sys2Proof.frameFault (p : List Byte) : Option Raise :=
  let nf := (byteAt p 5).toNat
  let y := byteAt p 1 ++ byteAt p 2
  let x := byteAt p 3 ++ byteAt p 4
  if byteAt p 0 ≠ 8 then some ⟨.unsupportedPrecision, (byteAt p 0).setWidth 32⟩
  else if p.length ≠ 6 + 3 * nf then some ⟨.badSegmentLength, wordN p.length⟩
  else if nf ∉ [1, 3, 4] then some ⟨.unsupportedComponentCount, wordN nf⟩
  else if x = 0 ∨ y = 0 then some ⟨.badDimensions, y ++ x⟩
  else (List.range nf).findSome? (fun i =>
    let id := byteAt p (6 + 3 * i)
    let hv := byteAt p (7 + 3 * i)
    let tq := byteAt p (8 + 3 * i)
    if ∃ j < i, byteAt p (6 + 3 * j) = id then some ⟨.duplicateComponentId, id.setWidth 32⟩
    else if hv.toNat / 16 ∉ [1, 2, 4] ∨ hv.toNat % 16 ∉ [1, 2, 4] then some ⟨.unsupportedSubsampling, hv.setWidth 32⟩
    else if 3 < tq.toNat then some ⟨.badTableIndex, tq.setWidth 32⟩
    else none)

/-- SOF0, SOF1 and SOF2 with an acceptable header that fits the capacities set the frame registers, the geometry of R279
and the components (a single component is never subsampled), clear the planes and coefficient memories of the frame's
components over its extent, and change nothing else; PROGRESSIVE is set by SOF2 only. A payload of fewer than 6 bytes,
the first check of R277 that fails, and the first component whose plane or coefficients exceed their capacity raise
before any register is written. A second frame header raises DuplicateSOF (R276, R277, R278, R279). The element is
entered at the byte after its code byte (log 3). -/
def Obligations.JpegFrame : Prop :=
  (∀ (s : State) (f : SofHeader) (i : Instr), (i = .jpegSof0 ∨ i = .jpegSof1 ∨ i = .jpegSof2) →
    s.Decoding → s.jpg.state = .awaitHeader → f.Ok → s.realigned.Reads (segmentBytes f.bytes) →
    (∀ c ∈ f.comps, 64 * f.blocks c ≤ s.caps.planeCap ∧ 64 * f.blocks c ≤ s.caps.coefCap) →
    ∃ t, exec i s = .next t ∧
      t = { s.pastSegment f.bytes with
        jpg := { s.jpg with
          state := .haveFrameHeader, width := f.width, height := f.height, ncomp := BitVec.ofNat 3 f.comps.length
          hmax := BitVec.ofNat 3 f.hmax, vmax := BitVec.ofNat 3 f.vmax, progressive := decide (i = .jpegSof2)
          mxx := BitVec.ofNat 16 f.mxx, myy := BitVec.ofNat 16 f.myy
          comp := Vector.ofFn (fun k => match f.comps[k.val]? with
            | some c => ⟨c.id, BitVec.ofNat 4 (f.hOf c), BitVec.ofNat 4 (f.vOf c), c.tq, 0, 0⟩
            | none => ⟨0, 0, 0, 0, 0, 0⟩) }
        mem := { (s.pastSegment f.bytes).mem with plane := t.mem.plane, coef := t.mem.coef }
        status := { s.status with done := true } } ∧
      ∀ (k : Fin 4) (a : Nat),
        let inside := match f.comps[k.val]? with
          | some c => a < 64 * f.blocks c
          | none => False
        (inside → Cells.get t.mem.plane[k] a = 0 ∧ Cells.get t.mem.coef[k] a = 0) ∧
        (¬ inside → Cells.get t.mem.plane[k] a = Cells.get s.mem.plane[k] a ∧
          Cells.get t.mem.coef[k] a = Cells.get s.mem.coef[k] a)) ∧
  (∀ (s : State) (i : Instr), (i = .jpegSof0 ∨ i = .jpegSof1 ∨ i = .jpegSof2) →
    s.Decoding → s.jpg.state = .awaitHeader →
    (∀ n : Nat, n < 6 → s.realigned.Reads (lengthField n) →
      exec i s = .next (enterFault 0x51 ⟨.badSegmentLength, wordN n⟩ (s.pastLength n).failedJpeg)) ∧
    (∀ (p : List Byte) (r : Raise), 6 ≤ p.length → p.length ≤ 65533 → s.realigned.Reads (segmentBytes p) →
      frameFault p = some r → exec i s = .next (enterFault 0x51 r (s.pastSegment p).failedJpeg)) ∧
    (∀ (f : SofHeader) (k : Nat), f.Ok → s.realigned.Reads (segmentBytes f.bytes) →
      f.comps.findSome? (fun c => if s.caps.planeCap < 64 * f.blocks c then some 2
        else if s.caps.coefCap < 64 * f.blocks c then some 3 else none) = some k →
      exec i s = .next (enterFault 0x51 ⟨.capacityExceeded, wordN k⟩ (s.pastSegment f.bytes).failedJpeg))) ∧
  (∀ (s : State) (n : Nat) (i : Instr) (m : Byte),
    ((i = .jpegSof0 ∧ m = 0xC0) ∨ (i = .jpegSof1 ∧ m = 0xC1) ∨ (i = .jpegSof2 ∧ m = 0xC2)) →
    s.Decoding → s.jpg.state ≠ .awaitHeader → 2 ≤ n → n < 65536 →
    s.realigned.Reads [BitVec.ofNat 8 (n / 256), BitVec.ofNat 8 n] →
    exec i s = .next (enterFault 0x51 ⟨.duplicateSOF, m.setWidth 32⟩
      ({ (s.realigned.storeTmp [BitVec.ofNat 8 (n / 256), BitVec.ofNat 8 n]) with
        inPos := s.realigned.inPos + 2 } : State).failedJpeg))

/-- A frame of one component and one block, as R278 and R279 leave it. -/
def Sys2Proof.Machine.State.OneBlock (s : State) : Prop :=
  s.jpg.ncomp = 1 ∧ s.jpg.hmax = 1 ∧ s.jpg.vmax = 1 ∧ s.jpg.mxx = 1 ∧ s.jpg.myy = 1 ∧
  s.jpg.comp[(0 : Fin 4)].h = 1 ∧ s.jpg.comp[(0 : Fin 4)].v = 1 ∧
  1 ≤ s.jpg.width.toNat ∧ s.jpg.width.toNat ≤ 8 ∧ 1 ≤ s.jpg.height.toNat ∧ s.jpg.height.toNat ≤ 8

/-- The payload of a scan header that selects one component (30_encoding.md R127). -/
def Sys2Proof.scanPayload (id : Byte) (td ta : BitVec 2) (ss se ahal : Byte) : List Byte :=
  [0x01, id, 0#2 ++ td ++ 0#2 ++ ta, ss, se, ahal]

/-- SOS of a one-block sequential frame whose data is a DC difference `d` of category `c` followed by end-of-block gives
the flat block of Scenario B: the plane holds `d` dequantised, transformed, levelled and clamped, the predictor of the
component is `d`, the scan registers are those of a sequential scan, the bit cursor is empty, and nothing else changes
but the block buffers, IN_POS and TMP; the three last bytes of the header do not matter (R283 to R293, R301 to R303,
R310). The element is entered at the byte after its code byte, and the flag that a scan is open is cleared at its end:
the model's choice (logs 3, 4). -/
def Obligations.JpegFlatScan : Prop :=
  ∀ (s : State) (td ta : BitVec 2) (ss se ahal : Byte) (dcSpec acSpec : HuffSpec) (lc jc le je c : Nat) (d : Int),
    s.Decoding → s.jpg.state ≠ .awaitHeader → s.OneBlock → s.jpg.progressive = false →
    s.qtValid.getLsbD s.jpg.comp[(0 : Fin 4)].tq.toNat = true →
    s.htBuilt 0 td.toNat = true → s.table 0 td.toNat = dcSpec.build → dcSpec.Valid →
    s.htBuilt 1 ta.toNat = true → s.table 1 ta.toNat = acSpec.build → acSpec.Valid →
    c ≤ 11 → dcSpec.HasCode lc jc (BitVec.ofNat 8 c) → acSpec.HasCode le je 0x00 →
    d.natAbs < 2 ^ c → (c = 0 ∨ 2 ^ (c - 1) ≤ d.natAbs) →
    let p := scanPayload s.jpg.comp[(0 : Fin 4)].id td ta ss se ahal
    s.realigned.Reads (segmentBytes p) →
    bitsMsb lc (dcSpec.firstCode lc + jc) ++ magnitudeBits c d ++ bitsMsb le (acSpec.firstCode le + je) <+:
      (s.pastSegment p).pendingBits →
    let dc := d * (Cells.get s.mem.qt (64 * s.jpg.comp[(0 : Fin 4)].tq.toNat)).toNat
    dc.natAbs < 2 ^ 19 →
    ∃ t, exec .jpegSos s = .next t ∧
      t = { s.pastSegment p with
        inPos := t.inPos, inScan := false
        jpg := { s.jpg with
          state := .scanning, ss := 0, se := 63, ah := 0, al := 0, ns := 1, rstn := 0, eobrun := 0
          comp := s.jpg.comp.set 0 { s.jpg.comp[(0 : Fin 4)] with td := td, ta := ta }
          dcpred := (Vector.replicate 4 0).set 0 (word d) }
        mem := { (s.pastSegment p).mem with blk := t.mem.blk, zz := t.mem.zz, plane := t.mem.plane }
        status := { s.status with done := true } } ∧
      (∀ k : Fin 4, k ≠ 0 → t.mem.plane[k] = s.mem.plane[k]) ∧
      ∀ a : Nat, Cells.get t.mem.plane[(0 : Fin 4)] a =
        if a < 64 then clamped ((dc + 4) / 8 + 128) else Cells.get s.mem.plane[(0 : Fin 4)] a

/-- SOS of a progressive DC refinement scan over a one-block frame reads one bit and, if it is 1, sets the bit of weight
`2^Al` in the DC coefficient; the other coefficients, the planes and the quantisation state stay, and the bit cursor is
empty after it (R287, R288, R291, R294). A scan before any frame header raises MissingSOF (R283). The element is entered
at the byte after its code byte, and the flag that a scan is open is cleared at its end: the model's choice (logs 3,
4). -/
def Obligations.JpegRefinementScan : Prop :=
  (∀ (s : State) (td ta : BitVec 2) (al : BitVec 4) (b : Bool) (rest : List Bool),
    s.Decoding → s.jpg.state ≠ .awaitHeader → s.OneBlock → s.jpg.progressive = true → al.toNat ≤ 14 →
    let p := scanPayload s.jpg.comp[(0 : Fin 4)].id td ta 0 0 ((al + 1) ++ al)
    s.realigned.Reads (segmentBytes p) → (s.pastSegment p).pendingBits = b :: rest →
    ∃ t, exec .jpegSos s = .next t ∧
      t = { s.pastSegment p with
        inPos := t.inPos, inScan := false
        jpg := { s.jpg with
          state := .scanning, ss := 0, se := 0, ah := al + 1, al := al, ns := 1, rstn := 0, eobrun := 0
          comp := s.jpg.comp.set 0 { s.jpg.comp[(0 : Fin 4)] with td := td, ta := ta }
          dcpred := Vector.replicate 4 0 }
        mem := { (s.pastSegment p).mem with zz := t.mem.zz, coef := t.mem.coef }
        status := { s.status with done := true } } ∧
      (∀ k : Fin 4, k ≠ 0 → t.mem.coef[k] = s.mem.coef[k]) ∧
      ∀ a : Nat, Cells.get t.mem.coef[(0 : Fin 4)] a =
        if a = 0 ∧ b = true then Cells.get s.mem.coef[(0 : Fin 4)] 0 ||| (1 <<< al.toNat)
        else Cells.get s.mem.coef[(0 : Fin 4)] a) ∧
  (∀ (s : State) (n : Nat), s.Decoding → s.jpg.state = .awaitHeader → 2 ≤ n → n < 65536 →
    s.realigned.Reads [BitVec.ofNat 8 (n / 256), BitVec.ofNat 8 n] →
    exec .jpegSos s = .next (enterFault 0x51 ⟨.missingSOF, 0⟩
      ({ (s.realigned.storeTmp [BitVec.ofNat 8 (n / 256), BitVec.ofNat 8 n]) with
        inPos := s.realigned.inPos + 2 } : State).failedJpeg))

/-! ### Scans of any frame -/

/-- `bits` is a code of symbol `v`. -/
def Sys2Proof.Machine.HuffSpec.CodeBits (sp : HuffSpec) (v : Byte) (bits : List Bool) : Prop :=
  ∃ l j : Nat, sp.HasCode l j v ∧ bits = bitsMsb l (sp.firstCode l + j)

/-- `v` is a value of size category `c` (30_encoding.md R129). -/
def Sys2Proof.OfCategory (v : Int) (c : Nat) : Prop := v.natAbs < 2 ^ c ∧ (c = 0 ∨ 2 ^ (c - 1) ≤ v.natAbs)

/-- The coefficients `z` with the positions and values `cs` written. -/
def Sys2Proof.updated (z : Nat → Word) (cs : List (Nat × Word)) (k : Nat) : Word :=
  ((cs.find? (fun c => c.1 == k)).map Prod.snd).getD (z k)

/-- `BandBits ac se al zig bits e cs`: `bits` code the coefficients `cs` of a first pass from position `zig` on and leave
the end-of-band run `e` (44_jpeg_decode.md R293). -/
inductive Sys2Proof.BandBits (ac : HuffSpec) (se al : Nat) : Nat → List Bool → Nat → List (Nat × Word) → Prop
  /-- The band is full. -/
  | full {zig : Nat} : se < zig → BandBits ac se al zig [] 0 []
  /-- A value `v` of category `c` after `run` zeros. -/
  | pair {zig run c e : Nat} {v : Int} {code rest : List Bool} {cs : List (Nat × Word)} : zig + run ≤ se → run ≤ 15 →
      1 ≤ c → c ≤ 15 → OfCategory v c → ac.CodeBits (BitVec.ofNat 8 (16 * run + c)) code →
      BandBits ac se al (zig + run + 1) rest e cs →
      BandBits ac se al zig (code ++ magnitudeBits c v ++ rest) e ((zig + run, word v <<< al) :: cs)
  /-- Sixteen zeros. -/
  | zrl {zig e : Nat} {code rest : List Bool} {cs : List (Nat × Word)} : zig ≤ se → ac.CodeBits 0xF0 code →
      BandBits ac se al (zig + 16) rest e cs → BandBits ac se al zig (code ++ rest) e cs
  /-- End of band for this block and `2^r + extra - 1` more. -/
  | eob {zig r extra : Nat} {code : List Bool} : zig ≤ se → r ≤ 14 → extra < 2 ^ r →
      ac.CodeBits (BitVec.ofNat 8 (16 * r)) code →
      BandBits ac se al zig (code ++ bitsMsb r extra) (2 ^ r + extra - 1) []

/-- A non-zero coefficient one `delta` further from zero (R297). -/
def Sys2Proof.movedAway (z delta : Word) : Word := if 0 ≤ z.toInt then z + delta else z - delta

/-- `WalkBits se delta z zig nz bits stop cs`: `bits` are the correction bits of the non-zero coefficients of `z` from
`zig` to `stop`, where `nz` zero coefficients were passed, or the band ended (`nz = none`: always); `cs` are the
corrections (R297). -/
inductive Sys2Proof.WalkBits (se : Nat) (delta : Word) (z : Nat → Word) :
    Nat → Option Nat → List Bool → Nat → List (Nat × Word) → Prop
  | past {zig : Nat} {nz : Option Nat} : se < zig → WalkBits se delta z zig nz [] zig []
  | stop {zig : Nat} : zig ≤ se → z zig = 0 → WalkBits se delta z zig (some 0) [] zig []
  | pass {zig w : Nat} {nz : Option Nat} {bits : List Bool} {cs : List (Nat × Word)} : zig ≤ se → z zig = 0 →
      nz ≠ some 0 → WalkBits se delta z (zig + 1) (nz.map (· - 1)) bits w cs → WalkBits se delta z zig nz bits w cs
  | keep {zig w : Nat} {nz : Option Nat} {bits : List Bool} {cs : List (Nat × Word)} : zig ≤ se → z zig ≠ 0 →
      WalkBits se delta z (zig + 1) nz bits w cs → WalkBits se delta z zig nz (false :: bits) w cs
  | move {zig w : Nat} {nz : Option Nat} {bits : List Bool} {cs : List (Nat × Word)} : zig ≤ se → z zig ≠ 0 →
      WalkBits se delta z (zig + 1) nz bits w cs →
      WalkBits se delta z zig nz (true :: bits) w ((zig, movedAway (z zig) delta) :: cs)

/-- `RefineBits ac se delta z zig bits e cs`: `bits` refine the band of `z` from `zig` on, writing `cs`, and leave the
end-of-band run `e` (R295, R296). -/
inductive Sys2Proof.RefineBits (ac : HuffSpec) (se : Nat) (delta : Word) (z : Nat → Word) :
    Nat → List Bool → Nat → List (Nat × Word) → Prop
  /-- The band is full. -/
  | full {zig : Nat} : se < zig → RefineBits ac se delta z zig [] 0 []
  /-- A new coefficient after `run` zero ones; its sign comes before the corrections on the way. -/
  | place {zig run w e : Nat} {sign : Bool} {code fix rest : List Bool} {cs cs' : List (Nat × Word)} : run ≤ 15 →
      ac.CodeBits (BitVec.ofNat 8 (16 * run + 1)) code → WalkBits se delta z zig (some run) fix w cs → w ≤ se →
      RefineBits ac se delta z (w + 1) rest e cs' →
      RefineBits ac se delta z zig (code ++ (sign :: fix) ++ rest) e
        (cs ++ ((w, if sign = true then delta else -delta) :: cs'))
  /-- Sixteen zero coefficients. -/
  | zrl {zig w e : Nat} {code fix rest : List Bool} {cs cs' : List (Nat × Word)} : ac.CodeBits 0xF0 code →
      WalkBits se delta z zig (some 15) fix w cs → w ≤ se → RefineBits ac se delta z (w + 1) rest e cs' →
      RefineBits ac se delta z zig (code ++ fix ++ rest) e (cs ++ cs')
  /-- End of band for this block, whose remaining coefficients are still corrected, and `2^r + extra - 1` more. -/
  | eob {zig w r extra : Nat} {code fix : List Bool} {cs : List (Nat × Word)} : zig ≤ se → r ≤ 14 → extra < 2 ^ r →
      ac.CodeBits (BitVec.ofNat 8 (16 * r)) code → WalkBits se delta z zig none fix w cs →
      RefineBits ac se delta z zig (code ++ bitsMsb r extra ++ fix) (2 ^ r + extra - 1) cs

/-- What a scan carries from block to block: the DC predictors and the end-of-band run (R292, R298). -/
structure Sys2Proof.Carry where
  pred : Nat → Word
  eob : Nat

/-- `bits` code the band of a first pass from `start` on (R293). -/
def Sys2Proof.FirstBits (q : ScanPar) (ac : HuffSpec) (start e : Nat) (bits : List Bool) (e' : Nat)
    (cs : List (Nat × Word)) : Prop :=
  if q.se.toNat < start then bits = [] ∧ e' = e ∧ cs = []
  else if e ≠ 0 then bits = [] ∧ e' = e - 1 ∧ cs = []
  else BandBits ac q.se.toNat q.al.toNat start bits e' cs

/-- `bits` code a block of component `ci`: from the coefficients `z` and what the scan carries they give `z'` and what it
carries on (R291 to R297). -/
def Sys2Proof.BlockBits (q : ScanPar) (dc ac : HuffSpec) (ci : Nat) (z : Nat → Word) (c : Carry) (bits : List Bool)
    (c' : Carry) (z' : Nat → Word) : Prop :=
  let delta : Word := 1 <<< q.al.toNat
  if q.ah = 0 ∧ q.ss = 0 then
    ∃ (k e : Nat) (d : Int) (code rest : List Bool) (cs : List (Nat × Word)), k ≤ 16 ∧ OfCategory d k ∧
      dc.CodeBits (BitVec.ofNat 8 k) code ∧ FirstBits q ac 1 c.eob rest e cs ∧
      bits = code ++ magnitudeBits k d ++ rest ∧
      c' = ⟨fun i => if i = ci then c.pred i + word d else c.pred i, e⟩ ∧
      z' = updated z ((0, (c.pred ci + word d) <<< q.al.toNat) :: cs)
  else if q.ah = 0 then
    ∃ (e : Nat) (cs : List (Nat × Word)), FirstBits q ac q.ss.toNat c.eob bits e cs ∧ c' = ⟨c.pred, e⟩ ∧ z' = updated z cs
  else if q.ss = 0 then
    ∃ b : Bool, bits = [b] ∧ c' = c ∧ z' = if b = true then updated z [(0, z 0 ||| delta)] else z
  else
    ∃ (e w : Nat) (cs : List (Nat × Word)), c' = ⟨c.pred, e⟩ ∧ z' = updated z cs ∧
      if c.eob = 0 then RefineBits ac q.se.toNat delta z q.ss.toNat bits e cs
      else WalkBits q.se.toNat delta z q.ss.toNat none bits w cs ∧ e = c.eob - 1

/-- A block of a scan: its scan component, its block column and its block row. -/
abbrev Sys2Proof.BlockPos := ScanComp × Nat × Nat

/-- `bits` code these blocks one after the other; `zs` are the coefficients of each (R290). `old` are the coefficients
before the scan. -/
inductive Sys2Proof.BlocksBits (q : ScanPar) (dc ac : BitVec 2 → HuffSpec) (old : BlockPos → Nat → Word) :
    List BlockPos → Carry → List Bool → Carry → List (Nat → Word) → Prop
  | nil {c : Carry} : BlocksBits q dc ac old [] c [] c []
  | cons {b : BlockPos} {bs : List BlockPos} {c c' c'' : Carry} {bits rest : List Bool} {z : Nat → Word}
      {zs : List (Nat → Word)} : BlockBits q (dc b.1.td) (ac b.1.ta) b.1.ci (old b) c bits c' z →
      BlocksBits q dc ac old bs c' rest c'' zs → BlocksBits q dc ac old (b :: bs) c (bits ++ rest) c'' (z :: zs)

/-- A scan: the frame it belongs to, the components it selects in order, its parameters and the restart interval. -/
structure Sys2Proof.Scan where
  frame : SofHeader
  sel : List ScanComp
  par : ScanPar
  ri : Nat

/-- H of frame component `i`. -/
def Sys2Proof.Scan.h (v : Scan) (i : Nat) : Nat := ((v.frame.comps[i]?).map v.frame.hOf).getD 0

/-- V of frame component `i`. -/
def Sys2Proof.Scan.v (v : Scan) (i : Nat) : Nat := ((v.frame.comps[i]?).map v.frame.vOf).getD 0

/-- UCOLS and UROWS (R286). -/
def Sys2Proof.Scan.grid (v : Scan) : Nat × Nat :=
  match v.sel with
  | [c] => (ceilDiv (ceilDiv (v.frame.width.toNat * v.h c.ci) v.frame.hmax) 8,
      ceilDiv (ceilDiv (v.frame.height.toNat * v.v c.ci) v.frame.vmax) 8)
  | _ => (v.frame.mxx, v.frame.myy)

/-- The number of units. -/
def Sys2Proof.Scan.total (v : Scan) : Nat := v.grid.1 * v.grid.2

/-- The blocks of unit `n`, in the order they are coded (R286, R290). -/
def Sys2Proof.Scan.unit (v : Scan) (n : Nat) : List BlockPos :=
  match v.sel with
  | [c] => [(c, n % v.grid.1, n / v.grid.1)]
  | cs => cs.flatMap (fun c => (List.range (v.v c.ci)).flatMap (fun y => (List.range (v.h c.ci)).map (fun x =>
      (c, v.h c.ci * (n % v.grid.1) + x, v.v c.ci * (n / v.grid.1) + y))))

/-- The number of restart intervals (R290, R299). -/
def Sys2Proof.Scan.intervals (v : Scan) : Nat := if v.ri = 0 then 1 else ceilDiv v.total v.ri

/-- The blocks of restart interval `k`. -/
def Sys2Proof.Scan.blocks (v : Scan) (k : Nat) : List BlockPos :=
  ((List.range v.total).filter (fun n => v.ri = 0 ∨ n / v.ri = k)).flatMap v.unit

/-- Block columns of component `i` (R279). -/
def Sys2Proof.Scan.cols (v : Scan) (i : Nat) : Nat := v.h i * v.frame.mxx

/-- The coded data of a restart interval: its bits, the padding after them, and the coefficients of its blocks. -/
structure Sys2Proof.Interval where
  bits : List Bool
  pad : List Bool
  zs : List (Nat → Word)

/-- Its bytes (30_encoding.md R130). -/
def Sys2Proof.Interval.bytes (x : Interval) : List Byte := stuffed (wholeBytes (x.bits ++ x.pad))

/-- The entropy-coded data of a scan from interval `k` on, RSTn between the intervals (R299). -/
def Sys2Proof.dataBytes : Nat → List Interval → List Byte
  | _, [] => []
  | _, [x] => x.bytes
  | k, x :: xs => x.bytes ++ [0xFF, 0xD0 + BitVec.ofNat 8 (k % 8)] ++ dataBytes (k + 1) xs

/-- The intervals `xs` code the scan `v`: each starts afresh and is padded to a whole byte; the last one leaves `last`. -/
def Sys2Proof.Scan.Coded (v : Scan) (dc ac : BitVec 2 → HuffSpec) (old : BlockPos → Nat → Word) (xs : List Interval)
    (last : Carry) : Prop :=
  xs.length = v.intervals ∧
  ∀ (k : Nat) (x : Interval), xs[k]? = some x →
    x.pad.length < 8 ∧ (x.bits.length + x.pad.length) % 8 = 0 ∧
    ∃ c : Carry, BlocksBits v.par dc ac old (v.blocks k) ⟨fun _ => 0, 0⟩ x.bits c x.zs ∧ (k + 1 = xs.length → c = last)

/-- Every block of the scan with its coefficients. -/
def Sys2Proof.Scan.decoded (v : Scan) (xs : List Interval) : List (BlockPos × (Nat → Word)) :=
  (List.range xs.length).flatMap (fun k => (v.blocks k).zip ((xs[k]?.map Interval.zs).getD []))

/-- `s` is decoding the frame `f`, as R278 and R279 leave it. -/
structure Sys2Proof.Machine.State.FrameIs (s : State) (f : SofHeader) : Prop where
  ok : f.Ok
  started : s.jpg.state ≠ .awaitHeader
  width : s.jpg.width = f.width
  height : s.jpg.height = f.height
  ncomp : s.jpg.ncomp.toNat = f.comps.length
  hmax : s.jpg.hmax.toNat = f.hmax
  vmax : s.jpg.vmax.toNat = f.vmax
  mxx : s.jpg.mxx.toNat = f.mxx
  myy : s.jpg.myy.toNat = f.myy
  comps : ∀ (i : Fin 4) (c : SofComp), f.comps[i.val]? = some c →
    s.jpg.comp[i].id = c.id ∧ s.jpg.comp[i].h.toNat = f.hOf c ∧ s.jpg.comp[i].v.toNat = f.vOf c ∧ s.jpg.comp[i].tq = c.tq

/-- The scan `v` can start in `s`: its components are of the frame, none twice (R284), and the tables R289 asks for are
those of `dc` and `ac`. -/
structure Sys2Proof.Scan.Startable (v : Scan) (s : State) (dc ac : BitVec 2 → HuffSpec) : Prop where
  decoding : s.Decoding
  frame : s.FrameIs v.frame
  some : v.sel ≠ []
  once : (v.sel.map ScanComp.ci).Nodup
  within : ∀ c ∈ v.sel, c.ci < v.frame.comps.length
  ri : v.ri = s.jpg.ri.toNat
  dcTables : v.par.ss = 0 → v.par.ah = 0 → ∀ c ∈ v.sel,
    s.htBuilt 0 c.td.toNat = true ∧ s.table 0 c.td.toNat = (dc c.td).build ∧ (dc c.td).Valid
  acTables : v.par.se ≠ 0 → ∀ c ∈ v.sel,
    s.htBuilt 1 c.ta.toNat = true ∧ s.table 1 c.ta.toNat = (ac c.ta).build ∧ (ac c.ta).Valid

/-- The payload of the scan's header (30_encoding.md R127) with these last three bytes. -/
def Sys2Proof.Scan.header (v : Scan) (ss se ahal : Byte) : List Byte :=
  [BitVec.ofNat 8 v.sel.length] ++
  v.sel.flatMap (fun c => [((v.frame.comps[c.ci]?).map SofComp.id).getD 0, 0#2 ++ c.td ++ 0#2 ++ c.ta]) ++ [ss, se, ahal]

/-- `s` after the scan `v` whose header and data are `n` bytes, but for the block buffers, TMP, the planes and the
coefficient memories of `t`: the scan registers are the scan's, the tables are selected, the predictors and the
end-of-band run are what the last interval left, the bit cursor is empty (R288, R290, R299). -/
def Sys2Proof.Scan.After (v : Scan) (s : State) (n k : Nat) (last : Carry) (t : State) : Prop :=
  t = { s with
    inPos := s.realigned.inPos + wordN n, bcAcc := 0, bcNbits := 0, inScan := false
    jpg := { s.jpg with
      state := .scanning, ss := v.par.ss, se := v.par.se, ah := v.par.ah, al := v.par.al
      ns := BitVec.ofNat 3 v.sel.length, rstn := BitVec.ofNat 3 (k - 1), eobrun := BitVec.ofNat 16 last.eob
      comp := t.jpg.comp, dcpred := Vector.ofFn (fun i : Fin 4 => last.pred i.val) }
    mem := { s.mem with
      blk := t.mem.blk, zz := t.mem.zz, tmp := t.mem.tmp, plane := t.mem.plane, coef := t.mem.coef }
    status := { s.status with done := true } } ∧
  ∀ i : Fin 4, t.jpg.comp[i] = match v.sel.find? (fun c => c.ci == i.val) with
    | some c => { s.jpg.comp[i] with td := c.td, ta := c.ta }
    | none => s.jpg.comp[i]

/-- The planes of `t` are those of `s` with these blocks reconstructed at their places (R301 to R303); COEF stays. -/
def Sys2Proof.Scan.Reconstructed (v : Scan) (s t : State) (done : List (BlockPos × (Nat → Word))) : Prop :=
  t.mem.coef = s.mem.coef ∧
  (∀ e ∈ done, ∀ y x : Nat, y < 8 → x < 8 →
    Cells.get (t.plane e.1.1.ci) ((8 * e.1.2.2 + y) * (8 * v.cols e.1.1.ci) + (8 * e.1.2.1 + x)) =
      blockSample (fun k => Cells.get s.mem.qt (64 * (s.comp e.1.1.ci).tq.toNat + k)) e.2 y x) ∧
  ∀ (i : Fin 4) (a : Nat),
    (∀ e ∈ done, e.1.1.ci = i.val → ∀ y x : Nat, y < 8 → x < 8 →
      a ≠ (8 * e.1.2.2 + y) * (8 * v.cols i.val) + (8 * e.1.2.1 + x)) →
    Cells.get t.mem.plane[i] a = Cells.get s.mem.plane[i] a

/-- Where coefficient `k` of a block stands in COEF (10_state.md R51). -/
def Sys2Proof.Scan.coefAt (v : Scan) (b : BlockPos) (k : Nat) : Nat := 64 * (b.2.2 * v.cols b.1.ci + b.2.1) + k

/-- The coefficient memories of `t` are those of `s` with these blocks' coefficients; the planes stay (R291). -/
def Sys2Proof.Scan.Accumulated (v : Scan) (s t : State) (done : List (BlockPos × (Nat → Word))) : Prop :=
  t.mem.plane = s.mem.plane ∧
  (∀ e ∈ done, ∀ k : Nat, k < 64 → Cells.get (t.coef e.1.1.ci) (v.coefAt e.1 k) = e.2 k) ∧
  ∀ (i : Fin 4) (a : Nat),
    (∀ e ∈ done, e.1.1.ci = i.val → ∀ k : Nat, k < 64 → a ≠ v.coefAt e.1 k) →
    Cells.get t.mem.coef[i] a = Cells.get s.mem.coef[i] a

/-- The parameters R287 accepts. -/
def Sys2Proof.Scan.Progression (v : Scan) : Prop :=
  (v.par.ss = 0 → v.par.se = 0) ∧ v.par.ss ≤ v.par.se ∧ v.par.se ≤ 63 ∧ (v.par.ss ≠ 0 → v.sel.length = 1) ∧
  (v.par.ah ≠ 0 → v.par.ah.toNat = v.par.al.toNat + 1)

/-- SOS of a sequential frame, of any components, sampling, size and restart interval: where the entropy-coded data are
the codes of blocks with DC differences, run and level pairs, zero runs and end-of-band codes, interval after interval
with RSTn between them, each sample of each block coded is the block's coefficients dequantised, transformed, levelled
and clamped, at the block's place in the plane; every other byte of the planes and COEF stay (R283 to R286, R288 to
R293, R298, R299, R301 to R303). The three last bytes of the header do not matter. The element is entered at the byte
after its code byte, and the flag that a scan is open is cleared at its end: the model's choice (logs 3, 4). -/
def Obligations.JpegSequentialScan : Prop :=
  ∀ (s : State) (v : Scan) (dc ac : BitVec 2 → HuffSpec) (ss se ahal : Byte) (xs : List Interval) (last : Carry),
    v.Startable s dc ac → s.jpg.progressive = false → v.par = ⟨0, 63, 0, 0⟩ →
    (∀ c ∈ v.sel, s.qtLoaded (s.comp c.ci).tq.toNat = true) → v.Coded dc ac (fun _ _ => 0) xs last →
    let bytes := segmentBytes (v.header ss se ahal) ++ dataBytes 0 xs
    s.realigned.Reads bytes →
    ∃ t, exec .jpegSos s = .next t ∧ v.After s bytes.length xs.length last t ∧ v.Reconstructed s t (v.decoded xs)

/-- SOS of a progressive frame, of any components, sampling, size, band, bit plane and restart interval: where the
entropy-coded data are the codes of blocks of a first pass or of a refinement pass over the coefficients that stand in
COEF, each coefficient of each block coded becomes the one coded, every other coefficient and the planes stay (R283,
R284, R286 to R299). The element is entered at the byte after its code byte, and the flag that a scan is open is
cleared at its end: the model's choice (logs 3, 4). -/
def Obligations.JpegProgressiveScan : Prop :=
  ∀ (s : State) (v : Scan) (dc ac : BitVec 2 → HuffSpec) (xs : List Interval) (last : Carry),
    v.Startable s dc ac → s.jpg.progressive = true → v.Progression →
    v.Coded dc ac (fun b k => Cells.get (s.coef b.1.ci) (v.coefAt b k)) xs last →
    let bytes := segmentBytes (v.header v.par.ss v.par.se (v.par.ah ++ v.par.al)) ++ dataBytes 0 xs
    s.realigned.Reads bytes →
    ∃ t, exec .jpegSos s = .next t ∧ v.After s bytes.length xs.length last t ∧ v.Accumulated s t (v.decoded xs)

/-! ### Scans that raise -/

/-- The first of the checks of R283, R284, R287 and R289 that the payload of a scan header fails. -/
def Sys2Proof.Machine.State.scanFault (s : State) (p : List Byte) : Option Raise :=
  let ns := (byteAt p 0).toNat
  let idOf := fun j => byteAt p (1 + 2 * j)
  let tabs := fun j => byteAt p (2 + 2 * j)
  let frameComp := fun id : Byte => (List.range s.jpg.ncomp.toNat).find? (fun i => (s.comp i).id == id)
  let ss := if s.jpg.progressive = true then byteAt p (1 + 2 * ns) else 0
  let se := if s.jpg.progressive = true then byteAt p (2 + 2 * ns) else 63
  let ahal := if s.jpg.progressive = true then (byteAt p (3 + 2 * ns)).toNat else 0
  if ns < 1 ∨ p.length ≠ 4 + 2 * ns then some ⟨.badSegmentLength, wordN p.length⟩
  else ((List.range ns).findSome? (fun j =>
      if frameComp (idOf j) = none then some ⟨.unknownComponentId, (idOf j).setWidth 32⟩
      else if ∃ k < j, idOf k = idOf j then some ⟨.duplicateComponentId, (idOf j).setWidth 32⟩
      else if 3 < (tabs j).toNat / 16 ∨ 3 < (tabs j).toNat % 16 then some ⟨.badTableIndex, (tabs j).setWidth 32⟩
      else none)).or
    (if (ss = 0 ∧ se ≠ 0 ∨ se < ss ∨ 63 < se ∨ ss ≠ 0 ∧ ns ≠ 1) ∧ s.jpg.progressive = true then
      some ⟨.badSpectralSelection, wordN (ss.toNat + 256 * se.toNat)⟩
    else if ahal / 16 ≠ 0 ∧ ahal / 16 ≠ ahal % 16 + 1 then some ⟨.badSuccessiveApproximation, wordN ahal⟩
    else (List.range ns).findSome? (fun j =>
      let tq := (s.comp ((frameComp (idOf j)).getD 0)).tq.toNat
      if ss = 0 ∧ ahal / 16 = 0 ∧ s.htBuilt 0 ((tabs j).toNat / 16) = false then
        some ⟨.tableNotDefined, wordN ((tabs j).toNat / 16)⟩
      else if se ≠ 0 ∧ s.htBuilt 1 ((tabs j).toNat % 16) = false then
        some ⟨.tableNotDefined, wordN (16 + (tabs j).toNat % 16)⟩
      else if s.jpg.progressive = false ∧ s.qtLoaded tq = false then some ⟨.tableNotDefined, wordN (32 + tq)⟩
      else none))

/-- SOS with a payload that cannot be a scan header of the frame raises BadSegmentLength before it takes the payload;
with one that can, the first check of R283, R284, R287 and R289 that fails raises, and nothing was written but IN_POS,
the bit cursor and TMP; the decoder is Failed. The element is entered at the byte after its code byte (log 3). -/
def Obligations.JpegScanChecks : Prop :=
  ∀ s : State, s.Decoding → s.jpg.state ≠ .awaitHeader → s.jpg.ncomp.toNat ≤ 4 →
    (∀ n : Nat, n ≤ 65533 → (n < 6 ∨ 4 + 2 * s.jpg.ncomp.toNat < n ∨ n % 2 = 1) → s.realigned.Reads (lengthField n) →
      exec .jpegSos s = .next (enterFault 0x51 ⟨.badSegmentLength, wordN n⟩ (s.pastLength n).failedJpeg)) ∧
    (∀ (p : List Byte) (r : Raise), 6 ≤ p.length → p.length ≤ 4 + 2 * s.jpg.ncomp.toNat → p.length % 2 = 0 →
      s.realigned.Reads (segmentBytes p) → s.scanFault p = some r →
      exec .jpegSos s = .next (enterFault 0x51 r (s.pastSegment p).failedJpeg))

/-- `bits` are 16 bits that begin with no code. -/
def Sys2Proof.NoCode (sp : HuffSpec) (bits : List Bool) : Prop :=
  bits.length = 16 ∧ ∀ (v : Byte) (code : List Bool), sp.CodeBits v code → ¬ code <+: bits

/-- `BandStops ac se zig bits f info`: a first pass over the band from `zig` on raises `f` when it has taken `bits`;
`info` is the fault's number, or none where it is IN_POS (R293; 41_huffman.md R198). -/
inductive Sys2Proof.BandStops (ac : HuffSpec) (se : Nat) : Nat → List Bool → HwFault → Option Nat → Prop
  | noCode {zig : Nat} {bits : List Bool} : zig ≤ se → NoCode ac bits → BandStops ac se zig bits .badHuffmanCode none
  /-- A pair beyond the band. -/
  | tooMany {zig run c : Nat} {code : List Bool} : zig ≤ se → se < zig + run → run ≤ 15 → 1 ≤ c → c ≤ 15 →
      ac.CodeBits (BitVec.ofNat 8 (16 * run + c)) code →
      BandStops ac se zig code .tooManyCoefficients (some (zig + run))
  | pair {zig run c : Nat} {v : Int} {code rest : List Bool} {f : HwFault} {info : Option Nat} : zig + run ≤ se →
      run ≤ 15 → 1 ≤ c → c ≤ 15 → OfCategory v c → ac.CodeBits (BitVec.ofNat 8 (16 * run + c)) code →
      BandStops ac se (zig + run + 1) rest f info → BandStops ac se zig (code ++ magnitudeBits c v ++ rest) f info
  | zrl {zig : Nat} {code rest : List Bool} {f : HwFault} {info : Option Nat} : zig ≤ se → ac.CodeBits 0xF0 code →
      BandStops ac se (zig + 16) rest f info → BandStops ac se zig (code ++ rest) f info

/-- `RefineStops`: the same of an AC refinement pass over `z` (R295 to R297). -/
inductive Sys2Proof.RefineStops (ac : HuffSpec) (se : Nat) (delta : Word) (z : Nat → Word) :
    Nat → List Bool → HwFault → Option Nat → Prop
  | noCode {zig : Nat} {bits : List Bool} : zig ≤ se → NoCode ac bits →
      RefineStops ac se delta z zig bits .badHuffmanCode none
  /-- A size above 1 (R296). -/
  | size {zig run c : Nat} {code : List Bool} : zig ≤ se → run ≤ 15 → 2 ≤ c → c ≤ 15 →
      ac.CodeBits (BitVec.ofNat 8 (16 * run + c)) code →
      RefineStops ac se delta z zig code .badRefinementCode (some (16 * run + c))
  /-- A new coefficient beyond the band. -/
  | placeOut {zig run w : Nat} {sign : Bool} {code fix : List Bool} {cs : List (Nat × Word)} : zig ≤ se → run ≤ 15 →
      ac.CodeBits (BitVec.ofNat 8 (16 * run + 1)) code → WalkBits se delta z zig (some run) fix w cs → se < w →
      RefineStops ac se delta z zig (code ++ (sign :: fix)) .tooManyCoefficients (some w)
  /-- Sixteen zeros beyond the band. -/
  | zrlOut {zig w : Nat} {code fix : List Bool} {cs : List (Nat × Word)} : zig ≤ se → ac.CodeBits 0xF0 code →
      WalkBits se delta z zig (some 15) fix w cs → se < w →
      RefineStops ac se delta z zig (code ++ fix) .tooManyCoefficients (some w)
  | place {zig run w : Nat} {sign : Bool} {code fix rest : List Bool} {cs : List (Nat × Word)} {f : HwFault}
      {info : Option Nat} : run ≤ 15 → ac.CodeBits (BitVec.ofNat 8 (16 * run + 1)) code →
      WalkBits se delta z zig (some run) fix w cs → w ≤ se → RefineStops ac se delta z (w + 1) rest f info →
      RefineStops ac se delta z zig (code ++ (sign :: fix) ++ rest) f info
  | zrl {zig w : Nat} {code fix rest : List Bool} {cs : List (Nat × Word)} {f : HwFault} {info : Option Nat} :
      ac.CodeBits 0xF0 code → WalkBits se delta z zig (some 15) fix w cs → w ≤ se →
      RefineStops ac se delta z (w + 1) rest f info → RefineStops ac se delta z zig (code ++ fix ++ rest) f info

/-- The same of a block of coefficients `z` (R291 to R297). -/
def Sys2Proof.BlockStops (q : ScanPar) (dc ac : HuffSpec) (z : Nat → Word) (c : Carry) (bits : List Bool) (f : HwFault)
    (info : Option Nat) : Prop :=
  if q.ah = 0 then
    if q.ss = 0 then
      (NoCode dc bits ∧ f = .badHuffmanCode ∧ info = none) ∨
      (∃ k, 16 < k ∧ k < 256 ∧ dc.CodeBits (BitVec.ofNat 8 k) bits ∧ f = .badMagnitudeCategory ∧ info = some k) ∨
      ∃ (k : Nat) (d : Int) (code rest : List Bool), k ≤ 16 ∧ OfCategory d k ∧ dc.CodeBits (BitVec.ofNat 8 k) code ∧
        c.eob = 0 ∧ bits = code ++ magnitudeBits k d ++ rest ∧ BandStops ac q.se.toNat 1 rest f info
    else c.eob = 0 ∧ BandStops ac q.se.toNat q.ss.toNat bits f info
  else q.ss ≠ 0 ∧ c.eob = 0 ∧ RefineStops ac q.se.toNat (1 <<< q.al.toNat) z q.ss.toNat bits f info

/-- `t` is `s` after a scan that started (R288) raised `f` with the blocks `done` behind it: the decoder is Failed, ERR
and ERRINFO name the fault, and beside the scan's registers, IN_POS, the bit cursor and the block buffers only the planes
or the coefficients of the blocks behind it changed. -/
def Sys2Proof.Scan.Broke (v : Scan) (s t : State) (f : HwFault) (info : Option Nat) (done : List (BlockPos × (Nat → Word))) :
    Prop :=
  t = { s with
    inPos := t.inPos, bcAcc := t.bcAcc, bcNbits := t.bcNbits, inScan := false
    err := 0x00510000 ||| (0#20 ++ f.cls ++ f.code), errInfo := (info.map wordN).getD t.inPos
    jpg := { s.jpg with
      state := .failed, ss := v.par.ss, se := v.par.se, ah := v.par.ah, al := v.par.al
      ns := BitVec.ofNat 3 v.sel.length, rstn := t.jpg.rstn, eobrun := t.jpg.eobrun
      comp := t.jpg.comp, dcpred := t.jpg.dcpred }
    mem := { s.mem with
      blk := t.mem.blk, zz := t.mem.zz, tmp := t.mem.tmp, plane := t.mem.plane, coef := t.mem.coef }
    status := { s.status with fault := true, done := false } } ∧
  if s.jpg.progressive = true then v.Accumulated s t done else v.Reconstructed s t done

/-- Entropy-coded data that does not decode: in the first restart interval, after any number of good blocks, 16 bits
that begin with no code raise BadHuffmanCode, a DC category above 16 BadMagnitudeCategory, a pair or a new coefficient
beyond the band TooManyCoefficients, a size above 1 in a refinement BadRefinementCode, and data that end inside a block
EndOfStream, or MissingStuffingByte before a marker; and bytes other than RST0 after that interval raise BadRestart. The
blocks before stay decoded, the broken block does not reach its memory, and the decoder is Failed (R291 to R297, R299;
41_huffman.md R198). The element is entered at the byte after its code byte, and the flag that a scan is open is cleared
at its end: the model's choice (logs 3, 4). -/
def Obligations.JpegEntropyFaults : Prop :=
  ∀ (s : State) (v : Scan) (dc ac : BitVec 2 → HuffSpec) (ss se ahal : Byte) (n : Nat) (c : Carry) (bits : List Bool)
    (zs : List (Nat → Word)),
    v.Startable s dc ac → s.status.fault = false →
    (s.jpg.progressive = false → v.par = ⟨0, 63, 0, 0⟩ ∧ ∀ c ∈ v.sel, s.qtLoaded (s.comp c.ci).tq.toNat = true) →
    (s.jpg.progressive = true → v.Progression ∧ ss = v.par.ss ∧ se = v.par.se ∧ ahal = v.par.ah ++ v.par.al) →
    let p := v.header ss se ahal
    let old : BlockPos → Nat → Word := fun b k =>
      if s.jpg.progressive = true then Cells.get (s.coef b.1.ci) (v.coefAt b k) else 0
    let done := ((v.blocks 0).take n).zip zs
    s.realigned.Reads (segmentBytes p) → BlocksBits v.par dc ac old ((v.blocks 0).take n) ⟨fun _ => 0, 0⟩ bits c zs →
    (∀ (b : BlockPos) (bad rest : List Bool) (f : HwFault) (info : Option Nat), (v.blocks 0)[n]? = some b →
      BlockStops v.par (dc b.1.td) (ac b.1.ta) (old b) c bad f info →
      (s.pastSegment p).pendingBits = bits ++ bad ++ rest →
      ∃ t, exec .jpegSos s = .next t ∧ v.Broke s t f info done) ∧
    (∀ (b : BlockPos) (short rest : List Bool) (c' : Carry) (z : Nat → Word), (v.blocks 0)[n]? = some b →
      BlockBits v.par (dc b.1.td) (ac b.1.ta) b.1.ci (old b) c (short ++ rest) c' z → rest ≠ [] →
      (s.pastSegment p).pendingBits = bits ++ short →
      ∃ t, exec .jpegSos s = .next t ∧
        v.Broke s t (if t.inPos.toNat + 1 < t.inLen.toNat then .missingStuffingByte else .endOfStream) none done) ∧
    (∀ (pad : List Bool) (b0 b1 : Byte), v.ri ≠ 0 → v.ri < v.total → (v.blocks 0).length ≤ n →
      pad.length < 8 → (bits.length + pad.length) % 8 = 0 → ¬ (b0 = 0xFF ∧ b1 = 0xD0) →
      s.realigned.Reads (segmentBytes p ++ stuffed (wholeBytes (bits ++ pad)) ++ [b0, b1]) →
      ∃ t, exec .jpegSos s = .next t ∧ v.Broke s t .badRestart (some b1.toNat) done)

/-! ## JPEG encode -/

/-- The header bytes of an encoded image of quality `q` (45_jpeg_encode.md R341 to R345). -/
def Sys2Proof.encodedHeader (q : Nat) (w h : BitVec 16) : List Byte :=
  let scaled := fun base : List Nat =>
    (List.range 64).map (fun k => BitVec.ofNat 8 (qualityEntry (base.getD (unzig k) 0) q))
  [0xFF, 0xD8, 0xFF, 0xDB, 0x00, 0x84, 0x00] ++ scaled baseLum ++ [0x01] ++ scaled baseChr ++
  [0xFF, 0xC0, 0x00, 0x11, 0x08, h.extractLsb' 8 8, h.extractLsb' 0 8, w.extractLsb' 8 8, w.extractLsb' 0 8] ++
  [0x03, 0x01, 0x11, 0x00, 0x02, 0x11, 0x01, 0x03, 0x11, 0x01] ++
  [0xFF, 0xC4, 0x01, 0xA2, 0x00] ++ stdDcLum.counts ++ stdDcLum.values ++ [0x10] ++ stdAcLum.counts ++
  stdAcLum.values ++ [0x01] ++ stdDcChr.counts ++ stdDcChr.values ++ [0x11] ++ stdAcChr.counts ++ stdAcChr.values ++
  [0xFF, 0xDA, 0x00, 0x0C, 0x03, 0x01, 0x00, 0x02, 0x11, 0x03, 0x11, 0x00, 0x3F, 0x00]

/-- The entropy-coded bits of one mid-grey tile: a zero difference and an end-of-block for each of Y, Cb and Cr (R348 to
R350). -/
def Sys2Proof.greyTile : List Bool := bitsMsb 14 0x0A00

/-- Y (`c = 0`), Cb or Cr of a pixel (R347). -/
def Sys2Proof.lumaChroma (c : Nat) (p : Word) : Int :=
  let r : Int := (p.extractLsb' 0 8).toNat
  let g : Int := (p.extractLsb' 8 8).toNat
  let b : Int := (p.extractLsb' 16 8).toNat
  max 0 (min 255 (if c = 0 then (19595 * r + 38470 * g + 7471 * b + 32768) / 65536
    else if c = 1 then (32768 * b - 11056 * r - 21712 * g + 32768) / 65536 + 128
    else (32768 * r - 27440 * g - 5328 * b + 32768) / 65536 + 128))

/-- Sample `i`, row-major, of component `c` in tile `n`; the last column and the last row are repeated (R346). -/
def Sys2Proof.Machine.State.tileSample (s : State) (n c i : Nat) : Word :=
  let w := (s.pixDim.extractLsb' 0 16).toNat
  let h := (s.pixDim.extractLsb' 16 16).toNat
  let cols := (w + 7) / 8
  word (lumaChroma c
    (Cells.get s.mem.pix (min (8 * (n / cols) + i / 8) (h - 1) * w + min (8 * (n % cols) + i % 8) (w - 1))))

/-- Coefficient `k`, in zig-zag order, of component `c` in tile `n`: transformed and quantised at quality ARG0 (R348). -/
def Sys2Proof.Machine.State.tileCoef (s : State) (n c k : Nat) : Int :=
  roundedQuotient (forwardAt (s.tileSample n c) (unzig k / 8) (unzig k % 8)).toInt
    (8 * qualityEntry ((if c = 0 then baseLum else baseChr).getD (unzig k) 0) s.arg0.toNat)

/-- The first code of a symbol (41_huffman.md R194). -/
def Sys2Proof.symbolBits (sp : HuffSpec) (v : Byte) : List Bool := bitsMsb (sp.build.sizeAt v) (sp.build.codeAt v).toNat

/-- A value after `run` zeros: its symbol, then its magnitude bits (41_huffman.md R201). -/
def Sys2Proof.valueBits (sp : HuffSpec) (run : Nat) (v : Int) : List Bool :=
  let c := if v = 0 then 0 else v.natAbs.log2 + 1
  symbolBits sp (BitVec.ofNat 8 (16 * run + c)) ++ magnitudeBits c v

/-- The bits of a block of coefficients `z` after one whose DC coefficient was `pred`: the DC difference; each non-zero
AC coefficient with the zeros since the one before, sixteen at a time first; end-of-block unless the last coefficient is
non-zero (R349, R350). -/
def Sys2Proof.blockCode (dc ac : HuffSpec) (pred : Int) (z : Nat → Int) : List Bool :=
  let nonzero := (List.range 64).filter (fun k => decide (1 ≤ k ∧ z k ≠ 0))
  valueBits dc 0 (z 0 - pred) ++
  ((0 :: nonzero).zip nonzero).flatMap (fun (before, k) =>
    let run := k - before - 1
    (List.replicate (run / 16) (symbolBits ac 0xF0)).flatten ++ valueBits ac (run % 16) (z k)) ++
  if z 63 = 0 then symbolBits ac 0x00 else []

/-- The bits of tile `n`: its Y, Cb and Cr block (R348). -/
def Sys2Proof.Machine.State.tileCode (s : State) (n : Nat) : List Bool :=
  (List.range 3).flatMap (fun c =>
    blockCode (if c = 0 then stdDcLum else stdDcChr) (if c = 0 then stdAcLum else stdAcChr)
      (if n = 0 then 0 else s.tileCoef (n - 1) c 0) (s.tileCoef n c))

/-- `t` is `s` after JPG.ENCODE appended `bytes`: RES0 is their number, the two quantisation tables and the four Huffman
tables are left built, the writer is empty, and nothing else changed but the block buffers (R340, R351). -/
def Sys2Proof.Machine.State.Encoded (s : State) (bytes : List Byte) (t : State) : Prop :=
  t = { s with
    outLen := s.outLen + wordN bytes.length, res0 := wordN bytes.length, bwAcc := 0, bwNbits := 0
    qtValid := s.qtValid ||| 3, htValid := s.htValid ||| 0x33
    ht := (((s.ht.set 0 stdDcLum.build).set 4 stdAcLum.build).set 1 stdDcChr.build).set 5 stdAcChr.build
    mem := { s.mem with out := (s.appended bytes).mem.out, blk := t.mem.blk, zz := t.mem.zz, qt := t.mem.qt }
    status := { s.status with done := true } } ∧
  ∀ i : Nat, (Cells.get t.mem.qt i).toNat =
    if i < 64 then qualityEntry (baseLum.getD (unzig i) 0) s.arg0.toNat
    else if i < 128 then qualityEntry (baseChr.getD (unzig (i - 64)) 0) s.arg0.toNat
    else (Cells.get s.mem.qt i).toNat

/-- JPG.ENCODE of every image of any size at any quality appends the header, the bits of its tiles in raster order filled
up with ones and stuffed, and EOI: each tile's samples by the colour matrix with the edge repeated, its forward
transform, its quantised coefficients, their DC differences and run and level codes (R340 to R351; 40_bitcursor.md R172).
BLK and ZZ hold the Cr block of the last tile (R348). -/
def Obligations.JpegEncode : Prop :=
  ∀ s : State, let w := s.pixDim.extractLsb' 0 16
    let h := s.pixDim.extractLsb' 16 16
    1 ≤ s.arg0.toNat → s.arg0.toNat ≤ 100 → w ≠ 0 → h ≠ 0 → w.toNat * h.toNat ≤ s.caps.pixCap →
    let tiles := (w.toNat + 7) / 8 * ((h.toNat + 7) / 8)
    let bits := (List.range tiles).flatMap s.tileCode
    let bytes := encodedHeader s.arg0.toNat w h ++
      stuffed (wholeBytes (bits ++ List.replicate ((8 - bits.length % 8) % 8) true)) ++ [0xFF, 0xD9]
    s.RoomFor bytes →
    ∃ t, exec .jpgEncode s = .next t ∧ s.Encoded bytes t ∧
      (∀ k : Nat, k < 64 → (Cells.get t.mem.zz k).toInt = s.tileCoef (tiles - 1) 2 k) ∧
      (∀ v u : Nat, v < 8 → u < 8 →
        Cells.get t.mem.blk (8 * v + u) = forwardAt (s.tileSample (tiles - 1) 2) v u) ∧
      ∀ i : Nat, 64 ≤ i → Cells.get t.mem.blk i = Cells.get s.mem.blk i ∧ Cells.get t.mem.zz i = Cells.get s.mem.zz i

/-- JPG.ENCODE of a mid-grey image of any size at any quality appends the header, 14 bits for each tile filled up with
ones, and EOI; RES0 is the number of bytes, the two quantisation tables and the four Huffman tables are left built, the
writer is empty, and nothing else changes but the block buffers (R341 to R351; 40_bitcursor.md R172). Its argument checks
BadArgument, BadDimensions and CapacityExceeded(4) come before any write (R340). -/
def Obligations.JpegEncodeGrey : Prop :=
  ∀ s : State, let w := s.pixDim.extractLsb' 0 16
    let h := s.pixDim.extractLsb' 16 16
    ((s.arg0.toNat < 1 ∨ 100 < s.arg0.toNat) →
      exec .jpgEncode s = .next (enterFault 0x58 ⟨.badArgument, s.arg0⟩ s)) ∧
    (1 ≤ s.arg0.toNat → s.arg0.toNat ≤ 100 → (w = 0 ∨ h = 0) →
      exec .jpgEncode s = .next (enterFault 0x58 ⟨.badDimensions, s.pixDim⟩ s)) ∧
    (1 ≤ s.arg0.toNat → s.arg0.toNat ≤ 100 → w ≠ 0 → h ≠ 0 → s.caps.pixCap < w.toNat * h.toNat →
      exec .jpgEncode s = .next (enterFault 0x58 ⟨.capacityExceeded, 4⟩ s)) ∧
    (1 ≤ s.arg0.toNat → s.arg0.toNat ≤ 100 → w ≠ 0 → h ≠ 0 → w.toNat * h.toNat ≤ s.caps.pixCap →
      (∀ i : Nat, i < w.toNat * h.toNat → (Cells.get s.mem.pix i).extractLsb' 0 24 = 0x808080#24) →
      let bits := (List.replicate ((w.toNat + 7) / 8 * ((h.toNat + 7) / 8)) greyTile).flatten
      let bytes := encodedHeader s.arg0.toNat w h ++
        wholeBytes (bits ++ List.replicate ((8 - bits.length % 8) % 8) true) ++ [0xFF, 0xD9]
      s.RoomFor bytes →
      ∃ t, exec .jpgEncode s = .next t ∧ s.Encoded bytes t)

/-! ## LZW -/

/-- LZW.ENC completes for every code size 2..8 and every index string below `2^size`, with room for two bytes an index
and 16 more; and LZW.DEC of the bytes it wrote restores the string exactly: RES0 is its length, TRUNC is 0, IN_POS is at
the end of the chain, and neither changes anything else (46_lzw.md R373, R381, R387). -/
def Obligations.LzwRoundTrip : Prop :=
  ∀ s : State, 2 ≤ s.arg0.toNat → s.arg0.toNat ≤ 8 → s.arg1.toNat ≤ s.caps.pixCap →
    (∀ i : Nat, i < s.arg1.toNat → (Cells.get s.mem.idx i).toNat < 2 ^ s.arg0.toNat) → s.mem.out.wf →
    s.outLen.toNat + 2 * s.arg1.toNat + 16 ≤ s.caps.outCap → s.outLen.toNat + 2 * s.arg1.toNat + 16 < 2 ^ 32 →
    ∃ t, exec .lzwEnc s = .next t ∧
      t = { s with
        res0 := t.res0, outLen := t.outLen, lze := t.lze, mem := { s.mem with out := t.mem.out }
        status := { s.status with done := true } } ∧
      s.outLen.toNat ≤ t.outLen.toNat ∧
      (∀ a : Nat, a < s.outLen.toNat → Cells.get t.mem.out a = Cells.get s.mem.out a) ∧
      ∀ r : State, r.arg0 = s.arg0 → r.arg1 = s.arg1 → r.arg1.toNat ≤ r.caps.pixCap → r.lzd.pfx.wf → r.lzd.sfx.wf →
        r.inPos.toNat + (t.outLen.toNat - s.outLen.toNat) ≤ r.inLen.toNat →
        (∀ i : Nat, i < t.outLen.toNat - s.outLen.toNat →
          r.byteIn i = Cells.get t.mem.out (s.outLen.toNat + i)) →
        ∃ q, exec .lzwDec r = .next q ∧
          q = { r with
            res0 := r.arg1, inPos := r.inPos + wordN (t.outLen.toNat - s.outLen.toNat), sub := q.sub, lzd := q.lzd
            mem := { r.mem with idx := q.mem.idx }, status := { r.status with done := true, trunc := false } } ∧
          ∀ i : Nat, Cells.get q.mem.idx i =
            if i < s.arg1.toNat then Cells.get s.mem.idx i else Cells.get r.mem.idx i

/-- `n` bits of `v`, least significant first (46_lzw.md R372). -/
def Sys2Proof.bitsLsb (n v : Nat) : List Bool := (List.range n).map v.testBit

/-- What the codes read so far have built: the strings of the entries from `CC + 2` on, the string of the code before,
and the indices delivered. -/
structure Sys2Proof.LzwRun where
  dict : List (List Byte)
  prev : Option (List Byte)
  out : List Byte

/-- `avail` (R373). -/
def Sys2Proof.LzwRun.avail (r : LzwRun) (d : Nat) : Nat := 2 ^ d + 2 + r.dict.length

/-- The width of the next code: the bits of `avail`, at most 12 (R376). -/
def Sys2Proof.LzwRun.width (r : LzwRun) (d : Nat) : Nat := min 12 ((r.avail d).log2 + 1)

/-- The string of a root or an entry (R374). -/
def Sys2Proof.LzwRun.string (r : LzwRun) (d code : Nat) : List Byte :=
  if code < 2 ^ d then [BitVec.ofNat 8 code] else r.dict.getD (code - (2 ^ d + 2)) []

/-- A code that R375 refuses: a first code that is no root, and a code beyond the entry being made. -/
def Sys2Proof.LzwRun.refuses (r : LzwRun) (d code : Nat) : Bool :=
  decide (code ≠ 2 ^ d ∧ code ≠ 2 ^ d + 1 ∧
    if r.prev = none then 2 ^ d ≤ code else r.avail d < code ∨ (code = r.avail d ∧ r.avail d = 4096))

/-- One ClearCode or data code (R373, R375). -/
def Sys2Proof.LzwRun.next (r : LzwRun) (d code : Nat) : LzwRun :=
  if code = 2 ^ d then ⟨[], none, r.out⟩
  else match r.prev with
    | none => ⟨r.dict, some (r.string d code), r.out ++ r.string d code⟩
    | some p =>
      let str := if code = r.avail d then p ++ p.take 1 else r.string d code
      ⟨if r.avail d < 4096 then r.dict ++ [p ++ str.take 1] else r.dict, some str, r.out ++ str⟩

/-- `LzwCodes d npix r codes bits r'`: from `r` these codes, each needed and none refused, are these bits and lead to
`r'`. -/
inductive Sys2Proof.LzwCodes (d npix : Nat) : LzwRun → List Bool → LzwRun → Prop
  | nil {r : LzwRun} : LzwCodes d npix r [] r
  | cons {r r' : LzwRun} {code : Nat} {bits : List Bool} : r.out.length < npix → code < 2 ^ r.width d →
      code ≠ 2 ^ d + 1 → r.refuses d code = false → LzwCodes d npix (r.next d code) bits r' →
      LzwCodes d npix r (bitsLsb (r.width d) code ++ bits) r'

/-- How a decode ends whose needed codes led to `r`, with these bits of the chain left: all indices are there, EndCode
comes, or the chain ends inside a code (R373, R377, R378). -/
def Sys2Proof.LzwRun.Ends (r : LzwRun) (d npix : Nat) (rest : List Bool) (trunc : Bool) : Prop :=
  (npix ≤ r.out.length ∧ trunc = false) ∨
  (r.out.length < npix ∧ bitsLsb (r.width d) (2 ^ d + 1) <+: rest ∧ trunc = false) ∨
  (r.out.length < npix ∧ rest.length < r.width d ∧ trunc = true)

/-- LZW.DEC on any chain of sub-blocks: the codes in its bits, least significant first and of the width R376 gives,
build the dictionary and the indices, until all indices are there, EndCode comes, or the chain ends inside a code, which
alone sets TRUNC; the indices that are missing become 0, RES0 is how many came, and IN_POS is at the end of the chain.
Where the stream ends before such a chain does, EndOfStream is raised at its end. A first code that is no root and a
code beyond the next free one raise LzwBadCode with the code as info, and the indices before it stay (R372 to R379). The
hidden reader and dictionary after it are the model's (log 5); the dictionary before it is canonical, which every step
keeps (StepKeepsSound). -/
def Obligations.LzwDecode : Prop :=
  ∀ (s : State) (blocks : List (List Byte)) (bits rest : List Bool) (r : LzwRun),
    let d := s.arg0.toNat
    let npix := s.arg1.toNat
    2 ≤ d → d ≤ 8 → npix ≤ s.caps.pixCap → s.lzd.pfx.wf → s.lzd.sfx.wf → ChainOk blocks →
    blocks.flatten.flatMap (fun b => bitsLsb 8 b.toNat) = bits ++ rest → LzwCodes d npix ⟨[], none, []⟩ bits r →
    (∀ trunc : Bool, r.Ends d npix rest trunc → s.Reads (chainBytes blocks) →
      ∃ t, exec .lzwDec s = .next t ∧
        t = { s with
          res0 := wordN (min npix r.out.length), inPos := s.inPos + wordN (chainBytes blocks).length
          sub := t.sub, lzd := t.lzd, mem := { s.mem with idx := t.mem.idx }
          status := { s.status with done := true, trunc := trunc } } ∧
        ∀ i : Nat, Cells.get t.mem.idx i = if i < npix then r.out.getD i 0 else Cells.get s.mem.idx i) ∧
    (∀ (trunc : Bool) (k : Nat), r.Ends d npix rest trunc → s.status.fault = false → k < (chainBytes blocks).length →
      s.Reads ((chainBytes blocks).take k) → s.inPos.toNat + k = s.inLen.toNat →
      ∃ t, exec .lzwDec s = .next t ∧
        t = { s with
          inPos := s.inLen, sub := t.sub, lzd := t.lzd, mem := { s.mem with idx := t.mem.idx }
          err := 0x00600101, errInfo := s.inLen, inScan := false
          status := { s.status with fault := true, done := false } } ∧
        ∀ i : Nat, npix ≤ i → Cells.get t.mem.idx i = Cells.get s.mem.idx i) ∧
    (∀ code : Nat, s.Reads (chainBytes blocks) → s.status.fault = false → r.out.length < npix →
      bitsLsb (r.width d) code <+: rest → code < 2 ^ r.width d → r.refuses d code = true →
      ∃ t, exec .lzwDec s = .next t ∧
        t = { s with
          inPos := t.inPos, sub := t.sub, lzd := t.lzd, mem := { s.mem with idx := t.mem.idx }
          err := 0x00600341, errInfo := wordN code, inScan := false
          status := { s.status with fault := true, done := false } } ∧
        ∀ i : Nat, Cells.get t.mem.idx i = if i < r.out.length then r.out.getD i 0 else Cells.get s.mem.idx i)

/-- The argument checks of the LZW commands come before anything is read or written: a count above PIX_CAP, then a code
size outside 2..8, then, in LZW.ENC, the first index at or above `2^size` (R373, R381). -/
def Obligations.LzwArguments : Prop :=
  ∀ s : State,
    (s.caps.pixCap < s.arg1.toNat →
      exec .lzwDec s = .next (enterFault 0x60 ⟨.capacityExceeded, 4⟩ s) ∧
      exec .lzwEnc s = .next (enterFault 0x61 ⟨.capacityExceeded, 4⟩ s)) ∧
    (s.arg1.toNat ≤ s.caps.pixCap → (s.arg0.toNat < 2 ∨ 8 < s.arg0.toNat) →
      exec .lzwDec s = .next (enterFault 0x60 ⟨.badLzwCodeSize, s.arg0⟩ s) ∧
      exec .lzwEnc s = .next (enterFault 0x61 ⟨.badLzwCodeSize, s.arg0⟩ s)) ∧
    (∀ i : Nat, s.arg1.toNat ≤ s.caps.pixCap → 2 ≤ s.arg0.toNat → s.arg0.toNat ≤ 8 → i < s.arg1.toNat →
      2 ^ s.arg0.toNat ≤ (Cells.get s.mem.idx i).toNat →
      (∀ j : Nat, j < i → (Cells.get s.mem.idx j).toNat < 2 ^ s.arg0.toNat) →
      exec .lzwEnc s = .next (enterFault 0x61 ⟨.badColorIndex, (Cells.get s.mem.idx i).setWidth 32⟩ s))

/-! ## Octree -/

/-- Pixel `p` is opaque under OCT_ATHRESH (47_octree.md R403). -/
def Sys2Proof.Machine.State.opaquePixel (s : State) (p : Word) : Bool :=
  decide (s.octAthresh.toNat ≤ (p.extractLsb' 24 8).toNat)

/-- The walk of `p` from the root ends at a leaf with these data (R407). -/
def Sys2Proof.Machine.Octree.LeafOf (o : Octree) (p : Word) (d : OctData) : Prop :=
  d.leaf = true ∧ OctTree.walk p 8 0 o.root = .node d .none .none .none .none .none .none .none .none

/-- The number of pixels of the image in PIX (10_state.md R55). -/
def Sys2Proof.Machine.State.imageSize (s : State) : Nat :=
  (s.pixDim.extractLsb' 0 16).toNat * (s.pixDim.extractLsb' 16 16).toNat

/-- The node at the end of a path of child numbers, without its children. -/
def Sys2Proof.Machine.OctTree.dataAt (t : OctTree) (path : List (BitVec 3)) : Option OctData :=
  match path.foldl OctTree.child t with
  | .none => .none
  | .node d _ _ _ _ _ _ _ _ => .some d

/-- The child numbers of a colour at the levels below `n` (R402). -/
def Sys2Proof.pixelPath (p : Word) (n : Nat) : List (BitVec 3) := (List.range n).map (childIndex p)

/-- A pixel of colour `p` passes through this position of the tree: it is on the colour's path, and no node above it is a
leaf (R403). -/
def Sys2Proof.Machine.OctTree.passes (t : OctTree) (path : List (BitVec 3)) (p : Word) : Bool :=
  decide (path.length ≤ 8) && path == pixelPath p path.length &&
  (List.range path.length).all (fun m => (t.dataAt (path.take m)).map OctData.leaf != some true)

/-- A node at depth `n`, made if absent, after one pixel more of colour `p` (R403). -/
def Sys2Proof.countedAt (n : Nat) (p : Word) (d : Option OctData) : OctData :=
  let e := d.getD ⟨0, 0, 0, 0, decide (n = 8), Fin.ofNat 9 n, none⟩
  { e with
    count := e.count + 1
    sr := e.sr + (p.extractLsb' 0 8).setWidth 40
    sg := e.sg + (p.extractLsb' 8 8).setWidth 40
    sb := e.sb + (p.extractLsb' 16 8).setWidth 40 }

/-- The node at `path` after the opaque pixels `ps`: those that pass through it are counted, and no others. -/
def Sys2Proof.Machine.OctTree.after (t : OctTree) (ps : List Word) (path : List (BitVec 3)) : Option OctData :=
  (ps.filter (t.passes path)).foldl (fun d p => some (countedAt path.length p d)) (t.dataAt path)

/-- How many nodes a pixel of colour `p` would make: the absent ones on its path (R403). -/
def Sys2Proof.Machine.OctTree.missing (t : OctTree) (p : Word) : Nat :=
  (List.range 9).countP (fun n => t.passes (pixelPath p n) p && (t.dataAt (pixelPath p n)).isNone)

/-- OCT.ADD of these pixels one after the other, up to the first that raises. -/
def Sys2Proof.Machine.State.addEach (s : State) : List Word → State
  | [] => s
  | p :: ps =>
    match exec .octAdd { s with arg0 := p } with
    | .next t => if t.status.fault = true then t else t.addEach ps
    | _ => s

/-- OCT.RESET empties the tree and its flags. OCT.ADD of a transparent pixel sets ANYT and clears PALOK; of an opaque
one it gives every node of its path down to the first leaf, made where absent, one count and the pixel's channels, and
leaves every other node as it was; where the node store has no room for the path, the nodes that were made and the sums
added so far stay and CapacityExceeded(5) is raised, and a root whose count is full raises CapacityExceeded(6) before the
tree changes. OCT.BUILD adds every pixel of the image, so that each node has counted exactly the pixels that pass through
it, ends where one of them raises, and raises CapacityExceeded(4) before any change for an image above PIX_CAP. All keep
the invariants of the tree and everything outside it (R400 to R404). -/
def Obligations.OctreeBuild : Prop :=
  (∀ s : State, exec .octReset s = .next ({ s with oct := ⟨.none, 0, 0, false, false⟩ } : State).complete) ∧
  (∀ s : State, s.opaquePixel s.arg0 = false →
    exec .octAdd s = .next ({ s with oct := { s.oct with anyT := true, palOk := false } } : State).complete) ∧
  (∀ s : State, s.opaquePixel s.arg0 = true → s.oct.Ok → s.oct.root.count.toNat + 1 < 2 ^ 32 →
    (s.oct.nodes + s.oct.root.missing s.arg0 ≤ s.caps.octNodeCap →
      ∃ t, exec .octAdd s = .next t ∧
        t = { s with oct := t.oct, status := { s.status with done := true } } ∧
        t.oct.Ok ∧ t.oct.palOk = false ∧ t.oct.anyT = s.oct.anyT ∧
        t.oct.root.count.toNat = s.oct.root.count.toNat + 1 ∧ t.oct.leaves ≤ s.oct.leaves + 1 ∧
        t.oct.nodes = s.oct.nodes + s.oct.root.missing s.arg0 ∧
        (∀ path, t.oct.root.dataAt path = s.oct.root.after [s.arg0] path) ∧
        ∃ d, t.oct.LeafOf s.arg0 d) ∧
    (s.oct.nodes ≤ s.caps.octNodeCap → s.caps.octNodeCap < s.oct.nodes + s.oct.root.missing s.arg0 →
      ∃ o : Octree, exec .octAdd s = .next (enterFault 0x71 ⟨.capacityExceeded, 5⟩ { s with oct := o }) ∧
        o.nodes = s.caps.octNodeCap ∧ o.leaves = s.oct.leaves ∧ o.palOk = false ∧ o.anyT = s.oct.anyT ∧
        ∀ path, o.root.dataAt path =
          if path.length + s.oct.root.missing s.arg0 < 9 + (s.caps.octNodeCap - s.oct.nodes) then
            s.oct.root.after [s.arg0] path
          else s.oct.root.dataAt path)) ∧
  (∀ s : State, s.opaquePixel s.arg0 = true → s.oct.root.count = 0xFFFFFFFF →
    exec .octAdd s = .next (enterFault 0x71 ⟨.capacityExceeded, 6⟩ { s with oct := { s.oct with palOk := false } })) ∧
  (∀ s : State, s.imageSize ≤ s.caps.pixCap → s.oct.Ok → s.oct.root.count.toNat + s.imageSize < 2 ^ 32 →
    s.oct.nodes + 9 * s.imageSize ≤ s.caps.octNodeCap →
    ∃ t, exec .octBuild s = .next t ∧
      t = { s with oct := t.oct, status := { s.status with done := true } } ∧ t.oct.Ok ∧
      t.oct.root.count.toNat = s.oct.root.count.toNat +
        (Cells.getRange s.mem.pix 0 s.imageSize).countP s.opaquePixel ∧
      (∀ path, t.oct.root.dataAt path =
        s.oct.root.after ((Cells.getRange s.mem.pix 0 s.imageSize).filter s.opaquePixel) path) ∧
      (t.oct.anyT = true ↔ s.oct.anyT = true ∨ ∃ i, i < s.imageSize ∧ s.opaquePixel (Cells.get s.mem.pix i) = false) ∧
      ∀ i : Nat, i < s.imageSize → s.opaquePixel (Cells.get s.mem.pix i) = true →
        ∃ d, t.oct.LeafOf (Cells.get s.mem.pix i) d) ∧
  (∀ s : State, s.caps.pixCap < s.imageSize →
    exec .octBuild s = .next (enterFault 0x72 ⟨.capacityExceeded, 4⟩ s)) ∧
  (∀ s : State, s.imageSize ≤ s.caps.pixCap → s.status.fault = false →
    let r := s.addEach (Cells.getRange s.mem.pix 0 s.imageSize)
    (r.status.fault = false → exec .octBuild s = .next ({ r with arg0 := s.arg0 } : State).complete) ∧
    (r.status.fault = true →
      exec .octBuild s = .next { r with arg0 := s.arg0, err := 0x00720000 ||| (r.err &&& 0xFFFF) }))

/-- A colour's path as a number: the octal digits are its child numbers, level 0 first (R402). -/
def Sys2Proof.pathKey (p : Word) : Nat := (List.range 8).foldl (fun n l => 8 * n + (childIndex p l).toNat) 0

/-- The number whose octal digits are a path; among paths of one length its order is the preorder. -/
def Sys2Proof.pathNo (path : List (BitVec 3)) : Nat := path.foldl (fun n i => 8 * n + i.toNat) 0

/-- The node R405 merges next: an interior node, none deeper, of those at its depth none with a smaller count, of those
with its count the first in preorder. -/
def Sys2Proof.Machine.OctTree.NextMerge (t : OctTree) (path : List (BitVec 3)) (d : OctData) : Prop :=
  t.dataAt path = some d ∧ d.leaf = false ∧
  ∀ (path' : List (BitVec 3)) (d' : OctData), t.dataAt path' = some d' → d'.leaf = false →
    path'.length ≤ path.length ∧
    (path'.length = path.length →
      d.count.toNat < d'.count.toNat ∨ (d.count = d'.count ∧ pathNo path ≤ pathNo path'))

/-- OCT.REDUCE brings the leaves to at most ARG0 without losing a pixel or the path of a colour, and does nothing where
they are that few; while they are more, it goes on as from the tree in which the next node to merge has become a leaf
with its own count and sums and has lost its children. OCT.PALETTE numbers the leaves in the order of their paths, writes
their average colours and the transparent entry after them, and zeroes the rest. OCT.INDEX answers the slot of the leaf a
pixel's path ends at, or TRANSP_IDX, or raises OctreeNoPath, and changes only RES0; without a palette it raises BadState
(R402, R405, R406, R407). -/
def Obligations.OctreePalette : Prop :=
  (∀ s : State, 1 ≤ s.arg0.toNat → s.arg0.toNat ≤ 256 → s.oct.Ok →
    ∃ t, exec .octReduce s = .next t ∧
      t = { s with oct := t.oct, status := { s.status with done := true } } ∧ t.oct.Ok ∧
      t.oct.leaves ≤ s.arg0.toNat ∧ t.oct.leaves ≤ s.oct.leaves ∧ t.oct.root.count = s.oct.root.count ∧
      t.oct.anyT = s.oct.anyT ∧ (s.oct.leaves ≤ s.arg0.toNat → t.oct = s.oct) ∧
      ∀ (p : Word) (d : OctData), s.oct.LeafOf p d → ∃ d', t.oct.LeafOf p d') ∧
  (∀ (s : State) (path : List (BitVec 3)) (d : OctData), 1 ≤ s.arg0.toNat → s.arg0.toNat ≤ 256 → s.oct.Ok →
    s.arg0.toNat < s.oct.leaves → s.oct.root.NextMerge path d →
    let kids := (List.range 8).countP (fun i => (s.oct.root.dataAt (path ++ [BitVec.ofNat 3 i])).isSome)
    ∃ o : Octree, exec .octReduce s = exec .octReduce { s with oct := o } ∧
      o.leaves + kids = s.oct.leaves + 1 ∧ o.nodes + kids = s.oct.nodes ∧ o.anyT = s.oct.anyT ∧ o.palOk = false ∧
      ∀ path' : List (BitVec 3), o.root.dataAt path' =
        if path' = path then some { d with leaf := true }
        else if path <+: path' then none else s.oct.root.dataAt path') ∧
  (∀ s : State, (s.arg0.toNat < 1 ∨ 256 < s.arg0.toNat) →
    exec .octReduce s = .next (enterFault 0x73 ⟨.badArgument, s.arg0⟩ s)) ∧
  (∀ s : State, let k := s.oct.leaves
    let n := k + (if s.oct.anyT = true then 1 else 0)
    s.oct.Ok →
    (256 < n → exec .octPalette s = .next (enterFault 0x74 ⟨.paletteTooSmall, wordN n⟩ s)) ∧
    (n ≤ 256 → ∃ t, exec .octPalette s = .next t ∧
      t = { s with
        oct := t.oct, palLen := BitVec.ofNat 9 n, transpIdx := if s.oct.anyT = true then wordN k else 0xFFFFFFFF
        mem := { s.mem with pal := t.mem.pal }, status := { s.status with done := true } } ∧
      t.oct.Ok ∧ t.oct.palOk = true ∧ t.oct.anyT = s.oct.anyT ∧ t.oct.leaves = k ∧
      (∀ i : Nat, k ≤ i → i < 256 → Cells.get t.mem.pal i = 0) ∧
      (∀ i : Nat, 256 ≤ i → Cells.get t.mem.pal i = Cells.get s.mem.pal i) ∧
      (∀ (p : Word) (d : OctData), s.oct.LeafOf p d → ∃ v : Byte,
        v.toNat < k ∧ t.oct.LeafOf p { d with pal := some v } ∧
        Cells.get t.mem.pal v.toNat = 0xFF#8 ++ BitVec.ofNat 8 (d.sr.toNat / d.count.toNat) ++
          BitVec.ofNat 8 (d.sg.toNat / d.count.toNat) ++ BitVec.ofNat 8 (d.sb.toNat / d.count.toNat)) ∧
      (∀ v : Byte, v.toNat < k → ∃ (p : Word) (d : OctData), t.oct.LeafOf p d ∧ d.pal = some v) ∧
      ∀ (p p' : Word) (d d' : OctData) (v v' : Byte), t.oct.LeafOf p d → t.oct.LeafOf p' d' → d.pal = some v →
        d'.pal = some v' → v.toNat < v'.toNat → pathKey p < pathKey p')) ∧
  (∀ s : State,
    (s.oct.palOk = false → exec .octIndex s = .next (enterFault 0x75 ⟨.badState, 0⟩ s)) ∧
    (s.oct.palOk = true → s.opaquePixel s.arg0 = false → s.transpIdx ≠ 0xFFFFFFFF →
      exec .octIndex s = .next ({ s with res0 := s.transpIdx } : State).complete) ∧
    (s.oct.palOk = true → s.opaquePixel s.arg0 = false → s.transpIdx = 0xFFFFFFFF →
      exec .octIndex s = .next (enterFault 0x75 ⟨.octreeNoPath, s.arg0⟩ s)) ∧
    (∀ (d : OctData) (v : Byte), s.oct.palOk = true → s.opaquePixel s.arg0 = true → s.oct.LeafOf s.arg0 d →
      d.pal = some v → exec .octIndex s = .next ({ s with res0 := v.setWidth 32 } : State).complete) ∧
    (s.oct.palOk = true → s.opaquePixel s.arg0 = true → OctTree.walk s.arg0 8 0 s.oct.root = .none →
      exec .octIndex s = .next (enterFault 0x75 ⟨.octreeNoPath, s.arg0⟩ s)))

/-- OCT.QUANTIZE never fails on an image that fits, unless one slot is asked for and both an opaque and a transparent
pixel exist: the palette is at most as long as requested, every index is a valid slot, TRANSP_IDX is the last slot if a
transparent pixel exists and is the index of exactly the transparent pixels, and an image with no more colours than
requested (the transparent one counted) keeps every colour exactly. It is OCT.RESET, OCT.BUILD, OCT.REDUCE to the slots
the colours get, OCT.PALETTE and OCT.INDEX of every pixel, one after the other. BadArgument for the request and
CapacityExceeded(4) come before any change, a fault of the build keeps its code and info, and PaletteTooSmall(1) comes
after the build and before anything else (R408, R410). IDX is canonical before, which every step keeps
(StepKeepsSound). -/
def Obligations.OctreeQuantize : Prop :=
  (∀ s : State, 1 ≤ s.arg0.toNat → s.arg0.toNat ≤ 256 → s.imageSize ≤ s.caps.pixCap →
    9 * s.imageSize ≤ s.caps.octNodeCap → s.mem.idx.wf →
    let pix := fun i => Cells.get s.mem.pix i
    let hole := ∃ i, i < s.imageSize ∧ s.opaquePixel (pix i) = false
    ¬ (s.arg0 = 1 ∧ hole ∧ ∃ i, i < s.imageSize ∧ s.opaquePixel (pix i) = true) →
    ∃ t, exec .octQuantize s = .next t ∧
      t = { s with
        oct := t.oct, palLen := t.palLen, transpIdx := t.transpIdx
        mem := { s.mem with pal := t.mem.pal, idx := t.mem.idx }, status := { s.status with done := true } } ∧
      t.oct.Ok ∧ t.oct.palOk = true ∧ t.palLen.toNat ≤ s.arg0.toNat ∧
      (hole → t.transpIdx = wordN (t.palLen.toNat - 1)) ∧ (¬ hole → t.transpIdx = 0xFFFFFFFF) ∧
      (∀ i : Nat, i < s.imageSize → (Cells.get t.mem.idx i).toNat < t.palLen.toNat ∧
        (s.opaquePixel (pix i) = false ↔ (Cells.get t.mem.idx i).setWidth 32 = t.transpIdx)) ∧
      (∀ i : Nat, s.imageSize ≤ i → Cells.get t.mem.idx i = Cells.get s.mem.idx i) ∧
      ∀ cs : List (BitVec 24),
        ((hole ∧ cs.length + 1 ≤ s.arg0.toNat) ∨ (¬ hole ∧ cs.length ≤ s.arg0.toNat)) →
        (∀ i : Nat, i < s.imageSize → s.opaquePixel (pix i) = true → (pix i).extractLsb' 0 24 ∈ cs) →
        ∀ i : Nat, i < s.imageSize → s.opaquePixel (pix i) = true →
          Cells.get t.mem.pal (Cells.get t.mem.idx i).toNat =
            0xFF#8 ++ (pix i).extractLsb' 0 8 ++ (pix i).extractLsb' 8 8 ++ (pix i).extractLsb' 16 8) ∧
  (∀ s : State,
    ((s.arg0.toNat < 1 ∨ 256 < s.arg0.toNat) →
      exec .octQuantize s = .next (enterFault 0x76 ⟨.badArgument, s.arg0⟩ s)) ∧
    (1 ≤ s.arg0.toNat → s.arg0.toNat ≤ 256 → s.caps.pixCap < s.imageSize →
      exec .octQuantize s = .next (enterFault 0x76 ⟨.capacityExceeded, 4⟩ s))) ∧
  (∀ s a b : State, 1 ≤ s.arg0.toNat → s.arg0.toNat ≤ 256 → s.imageSize ≤ s.caps.pixCap → s.status.fault = false →
    exec .octReset s = .next a → exec .octBuild a = .next b →
    let anyN := if b.oct.anyT = true then 1 else 0
    (b.status.fault = true →
      exec .octQuantize s = .next { b with err := 0x00760000 ||| (b.err &&& 0xFFFF) }) ∧
    (b.status.fault = false → s.arg0 = 1 → b.oct.anyT = true → b.oct.root ≠ .none →
      exec .octQuantize s = .next (enterFault 0x76 ⟨.paletteTooSmall, 1⟩ { s with oct := b.oct })) ∧
    (b.status.fault = false → ¬ (s.arg0 = 1 ∧ b.oct.anyT = true ∧ b.oct.root ≠ .none) → b.oct.Ok → s.mem.idx.wf →
      ∃ c q t : State,
        (if b.oct.root = .none then c = b
          else exec .octReduce { b with arg0 := s.arg0 - wordN anyN } = .next c ∧ c.status.fault = false) ∧
        exec .octPalette c = .next q ∧ q.status.fault = false ∧ exec .octQuantize s = .next t ∧
        t = { q with arg0 := s.arg0, mem := { q.mem with idx := t.mem.idx } } ∧
        (∀ i : Nat, i < s.imageSize → ∃ u, exec .octIndex { q with arg0 := Cells.get s.mem.pix i } = .next u ∧
          u.status.fault = false ∧ Cells.get t.mem.idx i = u.res0.setWidth 8) ∧
        ∀ i : Nat, s.imageSize ≤ i → Cells.get t.mem.idx i = Cells.get s.mem.idx i))

/-- Every step that leaves no fault pending keeps the invariants of the tree: its shape, OCT_LEAVES and the number of
nodes (R400). -/
def Obligations.StepKeepsOctree : Prop :=
  ∀ s t : State, s.oct.Ok → step s = .next t → t.status.fault = false → t.oct.Ok

/-! ## GIF decode -/

/-- Entry `i` of a colour table of three bytes an entry, black beyond it (30_encoding.md R141). -/
def Sys2Proof.tableColour (tbl : List Byte) (i : Nat) : Word :=
  if 3 * i + 2 < tbl.length then 0#8 ++ byteAt tbl (3 * i + 2) ++ byteAt tbl (3 * i + 1) ++ byteAt tbl (3 * i) else 0

/-- The bytes of a colour table announced by a packed byte (R141). -/
def Sys2Proof.tableBytes (packed : Byte) : Nat :=
  if packed.getLsbD 7 = true then 3 * 2 ^ ((packed.extractLsb' 0 3).toNat + 1) else 0

/-- The low half of `w`, then its high half. -/
def Sys2Proof.le16 (w : BitVec 16) : List Byte := [w.extractLsb' 0 8, w.extractLsb' 8 8]

/-- `s` with FRAME = 0. -/
def Sys2Proof.Machine.State.noFrame (s : State) : State := { s with status := { s.status with frame := false } }

/-- `s` after `gifHeader` or `gifStep` failed on it: G_STATE is Failed, FRAME is 0 (48_gif.md R431, R435). -/
def Sys2Proof.Machine.State.failedGif (s : State) : State := { s.noFrame with gif := { s.gif with state := .failed } }

/-- GIF.INIT zeroes the decode registers and FRAME. GIF.HEADER at the signature runs the signature's element after it,
and at anything else raises BadSignature and leaves the decoder Failed. That element reads the screen descriptor and the
global table, sets G_SCREEN, G_LSD and GCT, clears the canvas over the screen, and nothing else changes. A decoder that
is not awaiting its header raises BadState and does not move; a stream that ends inside the signature, the descriptor or
the table EndOfStream, with nothing of that part read, an empty screen BadDimensions and one above PIX_CAP
CapacityExceeded(4), all leaving the decoder Failed; a screen whose table is cut short was written (48_gif.md R430, R431,
R432). The element is entered after the signature (log 3). -/
def Obligations.GifHeader : Prop :=
  (∀ s : State, exec .gifInit s = .next ({ s with
    status := { s.status with frame := false }
    gif := {
      state := .awaitHeader, screenW := 0, screenH := 0, packed := 0, background := 0, aspect := 0
      gc := ⟨false, false, 0, 0, 0⟩, prevLeft := 0, prevTop := 0, prevW := 0, prevH := 0, prevDisposal := 0
      prevInterlace := false, prevLocal := false, prevDelay := 0, nframes := 0 } } : State).complete) ∧
  (∀ (s : State) (p : List Byte), s.gif.state = .awaitHeader → p.length = 6 → s.Reads p →
    let u : State := { s with inPos := s.inPos + 6 }
    (p = [0x47, 0x49, 0x46, 0x38, 0x39, 0x61] → exec .gifHeader s = exec .gifSignature u) ∧
    (p ≠ [0x47, 0x49, 0x46, 0x38, 0x39, 0x61] →
      exec .gifHeader s = .next (enterFault 0x81 ⟨.badSignature, 0⟩ { u with
        gif := { s.gif with state := .failed }, status := { s.status with frame := false } }))) ∧
  (∀ (s : State) (w h : BitVec 16) (packed bg asp : Byte) (tbl : List Byte), s.gif.state = .awaitHeader →
    w ≠ 0 → h ≠ 0 → w.toNat * h.toNat ≤ s.caps.pixCap → tbl.length = tableBytes packed →
    s.Reads (le16 w ++ le16 h ++ [packed, bg, asp] ++ tbl) →
    ∃ t, exec .gifSignature s = .next t ∧
      t = { s with
        inPos := s.inPos + wordN (7 + tbl.length)
        gif := { s.gif with
          state := .sections, screenW := w, screenH := h, packed := packed, background := bg, aspect := asp }
        mem := { s.mem with gct := t.mem.gct, canvas := t.mem.canvas }
        status := { s.status with done := true, frame := false } } ∧
      (∀ i : Nat, Cells.get t.mem.gct i = if i < 256 then tableColour tbl i else Cells.get s.mem.gct i) ∧
      ∀ i : Nat, Cells.get t.mem.canvas i = if i < w.toNat * h.toNat then 0 else Cells.get s.mem.canvas i) ∧
  (∀ s : State, s.gif.state ≠ .awaitHeader →
    exec .gifHeader s = .next (enterFault 0x81 ⟨.badState, wordN s.gif.state.num⟩ s.noFrame) ∧
    exec .gifSignature s = .next (enterFault 0x81 ⟨.badState, wordN s.gif.state.num⟩ s.noFrame)) ∧
  (∀ s : State, s.gif.state = .awaitHeader →
    (s.inLen.toNat < s.inPos.toNat + 6 →
      exec .gifHeader s = .next (enterFault 0x81 ⟨.endOfStream, s.inPos⟩ s.failedGif)) ∧
    (s.inLen.toNat < s.inPos.toNat + 7 →
      exec .gifSignature s = .next (enterFault 0x81 ⟨.endOfStream, s.inPos⟩ s.failedGif)) ∧
    (∀ (w h : BitVec 16) (packed bg asp : Byte), s.Reads (le16 w ++ le16 h ++ [packed, bg, asp]) →
      let u : State := { s with inPos := s.inPos + 7 }
      ((w = 0 ∨ h = 0) →
        exec .gifSignature s = .next (enterFault 0x81 ⟨.badDimensions, h ++ w⟩ u.failedGif)) ∧
      (w ≠ 0 → h ≠ 0 → s.caps.pixCap < w.toNat * h.toNat →
        exec .gifSignature s = .next (enterFault 0x81 ⟨.capacityExceeded, 4⟩ u.failedGif)) ∧
      (w ≠ 0 → h ≠ 0 → w.toNat * h.toNat ≤ s.caps.pixCap → s.inLen.toNat < s.inPos.toNat + 7 + tableBytes packed →
        exec .gifSignature s = .next (enterFault 0x81 ⟨.endOfStream, s.inPos + 7⟩ ({ u with
          gif := { s.gif with screenW := w, screenH := h, packed := packed, background := bg, aspect := asp }
          mem := { s.mem with gct := Cells.clearRange s.mem.gct 0 256 } } : State).failedGif))))

/-- The nine bytes of an image descriptor (30_encoding.md R144). -/
def Sys2Proof.Machine.ImageDesc.bytes (d : ImageDesc) : List Byte :=
  le16 d.left ++ le16 d.top ++ le16 d.w ++ le16 d.h ++ [d.packed]

/-- LCT after an image's local table was read (R437). -/
def Sys2Proof.Machine.State.LocalTable (s : State) (d : ImageDesc) (tbl : List Byte) (t : State) : Prop :=
  ∀ i : Nat, Cells.get t.mem.lct i =
    if d.packed.getLsbD 7 = true ∧ i < 256 then tableColour tbl i else Cells.get s.mem.lct i

/-- The elements GIF.STEP runs (R435). -/
def Sys2Proof.isSection : Instr → Bool
  | .gifImage | .gifExtGraphicControl | .gifExtComment | .gifExtApplication | .gifExtPlainText | .gifExtOther _ => true
  | .gifTrailer => true
  | _ => false

/-- GIF.STEP runs the element that its introducer, and for an extension its label, selects, from the byte after them
(log 3); any other introducer raises BadIntroducer and leaves the decoder Failed. The trailer ends the decode; a graphic
control is recorded for the next image; every other extension is skipped up to its terminator. All write FRAME = 0 and
change nothing else but IN_POS and, where they skip, the sub-block reader, whose value after a command is the model's
choice (log 5; R435, R436, R443). A decoder that is not at a section raises BadState and does not move; a stream that
ends before an introducer or a label, inside a graphic control or inside a chain raises EndOfStream, and a graphic
control whose size is not 4 or whose terminator is not 0 BadSectionLength, with the decoder Failed (R432, R435, R436).
The checks of an image before its data come in this order: a descriptor or a local table cut short EndOfStream, no table
NoColorTable, an empty frame or one beyond the screen FrameOutOfBounds, a missing code size byte EndOfStream; beside
IN_POS only LCT was written then, where the local table was read whole (R437). -/
def Obligations.GifSections : Prop :=
  (∀ s : State, s.gif.state = .sections →
    (s.Reads [0x2C] → exec .gifStep s = exec .gifImage { s with inPos := s.inPos + 1 }) ∧
    (∀ l : Byte, s.Reads [0x21, l] →
      exec .gifStep s = exec (if l = 0xF9 then .gifExtGraphicControl else if l = 0xFE then .gifExtComment
        else if l = 0xFF then .gifExtApplication else if l = 0x01 then .gifExtPlainText else .gifExtOther l)
        { s with inPos := s.inPos + 2 }) ∧
    (s.Reads [0x3B] → exec .gifStep s = .next ({ s with
      inPos := s.inPos + 1, gif := { s.gif with state := .done }
      status := { s.status with frame := false } } : State).complete) ∧
    (∀ b : Byte, b ≠ 0x2C → b ≠ 0x21 → b ≠ 0x3B → s.Reads [b] →
      exec .gifStep s = .next (enterFault 0x82 ⟨.badIntroducer, b.setWidth 32⟩ { s with
        inPos := s.inPos + 1, gif := { s.gif with state := .failed }
        status := { s.status with frame := false } }))) ∧
  (∀ s : State, s.gif.state = .sections →
    exec .gifTrailer s = .next ({ s with
      gif := { s.gif with state := .done }, status := { s.status with frame := false } } : State).complete) ∧
  (∀ (s : State) (packed index : Byte) (delay : BitVec 16), s.gif.state = .sections →
    s.Reads ([0x04, packed] ++ le16 delay ++ [index, 0x00]) →
    exec .gifExtGraphicControl s = .next ({ s with
      inPos := s.inPos + 6
      gif := { s.gif with gc := ⟨true, packed.getLsbD 0, packed.extractLsb' 2 3, index, delay⟩ }
      status := { s.status with frame := false } } : State).complete) ∧
  (∀ (s : State) (i : Instr) (blocks : List (List Byte)),
    (i = .gifExtComment ∨ i = .gifExtApplication ∨ i = .gifExtPlainText ∨ ∃ l, i = .gifExtOther l) →
    s.gif.state = .sections → ChainOk blocks → s.Reads (chainBytes blocks) →
    exec i s = .next ({ s with
      inPos := s.inPos + wordN (chainBytes blocks).length, sub := ⟨0, true⟩
      status := { s.status with frame := false } } : State).complete) ∧
  (∀ (s : State) (i : Instr), s.gif.state ≠ .sections → (i = .gifStep ∨ isSection i = true) →
    exec i s = .next (enterFault 0x82 ⟨.badState, wordN s.gif.state.num⟩ s.noFrame)) ∧
  (∀ s : State, s.gif.state = .sections →
    (s.inLen.toNat < s.inPos.toNat + 1 →
      exec .gifStep s = .next (enterFault 0x82 ⟨.endOfStream, s.inPos⟩ s.failedGif)) ∧
    (s.Reads [0x21] → s.inLen.toNat < s.inPos.toNat + 2 →
      exec .gifStep s = .next (enterFault 0x82 ⟨.endOfStream, s.inPos + 1⟩ { s.failedGif with
        inPos := s.inPos + 1 })) ∧
    (s.inLen.toNat < s.inPos.toNat + 6 →
      exec .gifExtGraphicControl s = .next (enterFault 0x82 ⟨.endOfStream, s.inPos⟩ s.failedGif)) ∧
    (∀ p : List Byte, p.length = 6 → s.Reads p →
      let u : State := { s.failedGif with inPos := s.inPos + 6 }
      (byteAt p 0 ≠ 4 → exec .gifExtGraphicControl s =
        .next (enterFault 0x82 ⟨.badSectionLength, (byteAt p 0).setWidth 32⟩ u)) ∧
      (byteAt p 0 = 4 → byteAt p 5 ≠ 0 → exec .gifExtGraphicControl s =
        .next (enterFault 0x82 ⟨.badSectionLength, wordN (256 + (byteAt p 5).toNat)⟩ u))) ∧
    (∀ (i : Instr) (blocks : List (List Byte)) (k : Nat),
      (i = .gifExtComment ∨ i = .gifExtApplication ∨ i = .gifExtPlainText ∨ ∃ l, i = .gifExtOther l) →
      ChainOk blocks → k < (chainBytes blocks).length → s.Reads ((chainBytes blocks).take k) →
      s.inPos.toNat + k = s.inLen.toNat →
      ∃ t, t = { s.failedGif with inPos := s.inLen, sub := t.sub } ∧
        exec i s = .next (enterFault 0x82 ⟨.endOfStream, s.inLen⟩ t))) ∧
  ∀ s : State, s.gif.state = .sections →
    (s.inLen.toNat < s.inPos.toNat + 9 →
      exec .gifImage s = .next (enterFault 0x82 ⟨.endOfStream, s.inPos⟩ s.failedGif)) ∧
    ∀ d : ImageDesc, s.Reads d.bytes →
      let u : State := { s.failedGif with inPos := s.inPos + 9 }
      (s.inLen.toNat < s.inPos.toNat + 9 + tableBytes d.packed →
        exec .gifImage s = .next (enterFault 0x82 ⟨.endOfStream, s.inPos + 9⟩ u)) ∧
      (d.packed.getLsbD 7 = false → s.gif.packed.getLsbD 7 = false →
        exec .gifImage s = .next (enterFault 0x82 ⟨.noColorTable, 0⟩ u)) ∧
      (∀ tbl : List Byte, tbl.length = tableBytes d.packed → s.Reads (d.bytes ++ tbl) →
        (d.packed.getLsbD 7 = true ∨ s.gif.packed.getLsbD 7 = true) →
        let pos := s.inPos + wordN (9 + tbl.length)
        let outside := d.w = 0 ∨ d.h = 0 ∨ s.gif.screenW.toNat < d.left.toNat + d.w.toNat ∨
          s.gif.screenH.toNat < d.top.toNat + d.h.toNat
        ∃ t : State, t = { s.failedGif with inPos := pos, mem := { s.mem with lct := t.mem.lct } } ∧
          s.LocalTable d tbl t ∧
          (outside → exec .gifImage s = .next (enterFault 0x82 ⟨.frameOutOfBounds, 0⟩ t)) ∧
          (¬ outside → s.inLen.toNat < s.inPos.toNat + 10 + tbl.length →
            exec .gifImage s = .next (enterFault 0x82 ⟨.endOfStream, pos⟩ t)))

/-- GIF.DECODE is GIF.HEADER, where the header is still to come, and GIF.STEP repeated to the trailer, with FRAME = 1 if
any of the steps composited an image and its own opcode byte in ERR (R450); it ends on every stream, Done or with a
fault and the decoder Failed (70_reset_and_hazards.md R560). -/
def Obligations.GifDecodeIteratesStep : Prop :=
  (∀ s t : State, s.status.fault = false → s.gif.state = .sections → exec .gifStep s = .next t →
    (t.status.fault = false → t.gif.state = .done → exec .gifDecode s = .next t) ∧
    (t.status.fault = false → t.gif.state = .sections → ∃ q, exec .gifDecode t = .next q ∧
      exec .gifDecode s = .next { q with
        status := { q.status with frame := q.status.frame || t.status.frame } }) ∧
    (t.status.fault = true → exec .gifDecode s = .next { t with err := 0x00830000 ||| (t.err &&& 0xFFFF) })) ∧
  (∀ s t : State, s.status.fault = false → s.gif.state = .awaitHeader → exec .gifHeader s = .next t →
    (t.status.fault = false → exec .gifDecode s = exec .gifDecode t) ∧
    (t.status.fault = true → exec .gifDecode s = .next { t with err := 0x00830000 ||| (t.err &&& 0xFFFF) })) ∧
  (∀ s : State, s.status.fault = false → s.gif.state ≠ .done → s.gif.state ≠ .failed →
    ∃ t, exec .gifDecode s = .next t ∧
      ((t.status.fault = false ∧ t.status.done = true ∧ t.gif.state = .done) ∨
        (t.status.fault = true ∧ t.status.done = false ∧ t.gif.state = .failed))) ∧
  (∀ s : State, s.gif.state = .sections → s.Reads [0x3B] →
    exec .gifDecode s = .next ({ s with
      inPos := s.inPos + 1, gif := { s.gif with state := .done }
      status := { s.status with frame := false } } : State).complete)

/-- The canvas position of column `x` of the `r`-th row of data (48_gif.md R437, R447). -/
def Sys2Proof.Machine.State.drawnAt (s : State) (d : ImageDesc) (r x : Nat) : Nat :=
  (d.top.toNat + d.rowOrder.getD r 0) * s.gif.screenW.toNat + d.left.toNat + x

/-- What the previous frame's disposal leaves at canvas position `a` (R445). -/
def Sys2Proof.Machine.State.Disposed (s : State) (a : Nat) (v : Word) : Prop :=
  let inPrev := ∃ y x : Nat, y < s.gif.prevH.toNat ∧ x < s.gif.prevW.toNat ∧
    a = (s.gif.prevTop.toNat + y) * s.gif.screenW.toNat + s.gif.prevLeft.toNat + x
  (s.gif.prevDisposal = 2 ∧ inPrev ∧ v = 0) ∨
  (s.gif.prevDisposal = 3 ∧ a < s.gif.screenW.toNat * s.gif.screenH.toNat ∧ v = Cells.get s.mem.snap a) ∨
  (¬ (s.gif.prevDisposal = 2 ∧ inPrev) ∧
    ¬ (s.gif.prevDisposal = 3 ∧ a < s.gif.screenW.toNat * s.gif.screenH.toNat) ∧ v = Cells.get s.mem.canvas a)

/-- The graphic control that applies (R437, R448). -/
def Sys2Proof.Machine.State.pendingControl (s : State) : GraphicControl :=
  if s.gif.gc.valid = true then s.gif.gc else ⟨false, false, 0, 0, 0⟩

/-- The number of entries of the table that applies (R437). -/
def Sys2Proof.Machine.State.tableLimit (s : State) (d : ImageDesc) : Nat :=
  2 ^ (((if d.packed.getLsbD 7 = true then d.packed else s.gif.packed).extractLsb' 0 3).toNat + 1)

/-- CANVAS and SNAP of `t` after the previous frame was disposed of and the first `n` indices of `t` in data order were
drawn, those of the transparent index left out (R437, R445 to R447). -/
def Sys2Proof.Machine.State.Drawn (s : State) (d : ImageDesc) (n : Nat) (t : State) : Prop :=
  (∀ row x : Nat, row < d.h.toNat → x < d.w.toNat → row * d.w.toNat + x < n →
    let i := Cells.get t.mem.idx (row * d.w.toNat + x)
    let c := Cells.get t.mem.canvas (s.drawnAt d row x)
    (s.pendingControl.tflag = true ∧ i = s.pendingControl.tindex → s.Disposed (s.drawnAt d row x) c) ∧
    (¬ (s.pendingControl.tflag = true ∧ i = s.pendingControl.tindex) →
      c = Cells.get (if d.packed.getLsbD 7 = true then t.mem.lct else s.mem.gct) i.toNat ||| 0xFF000000)) ∧
  (∀ a : Nat, (∀ row x : Nat, row < d.h.toNat → x < d.w.toNat → row * d.w.toNat + x < n → a ≠ s.drawnAt d row x) →
    s.Disposed a (Cells.get t.mem.canvas a)) ∧
  ∀ a : Nat,
    (s.pendingControl.disposal = 3 ∧ a < s.gif.screenW.toNat * s.gif.screenH.toNat →
      s.Disposed a (Cells.get t.mem.snap a)) ∧
    (¬ (s.pendingControl.disposal = 3 ∧ a < s.gif.screenW.toNat * s.gif.screenH.toNat) →
      Cells.get t.mem.snap a = Cells.get s.mem.snap a)

/-- A pixel of the data that is to be drawn has no colour in the table (R437). -/
def Sys2Proof.Machine.State.badIndex (s : State) (d : ImageDesc) (i : Byte) : Bool :=
  decide (¬ (s.pendingControl.tflag = true ∧ i = s.pendingControl.tindex) ∧ s.tableLimit d ≤ i.toNat)

/-- An image section with its local table, drawn where the descriptor says: its data is LZW.DEC's, with the code size
byte as the depth and the frame's area as the count; then the previous frame is disposed of, the canvas is saved if this
frame's own method is "restore to previous", and each pixel that is not of the transparent index gets its colour, the
rows of an interlaced image in their four passes; the previous-frame registers, the frame count, FRAME and TRUNC are
written and the graphic control is used up; nothing else changes (R437, R445 to R448). A chain that ends at once gives
index 0 everywhere and TRUNC = 1 (46_lzw.md R378). Where the data does not decode, LZW.DEC's fault is the section's; at
the first index without a colour BadColorIndex is raised, with the pixels before it drawn and the registers of the
previous frame as they were. The element is entered after its introducer (log 3); the frame count wraps modulo 2^32 (log
8). -/
def Obligations.GifImage : Prop :=
  ∀ (s : State) (d : ImageDesc) (tbl : List Byte) (m : Byte), s.gif.state = .sections → s.status.fault = false →
    s.mem.wf → tbl.length = tableBytes d.packed → (d.packed.getLsbD 7 = true ∨ s.gif.packed.getLsbD 7 = true) →
    d.w ≠ 0 → d.h ≠ 0 → d.left.toNat + d.w.toNat ≤ s.gif.screenW.toNat →
    d.top.toNat + d.h.toNat ≤ s.gif.screenH.toNat → s.gif.screenW.toNat * s.gif.screenH.toNat ≤ s.caps.pixCap →
    s.Reads (d.bytes ++ tbl ++ [m]) →
    let pos := s.inPos + wordN (10 + tbl.length)
    let area := d.w.toNat * d.h.toNat
    let gc := s.pendingControl
    (∀ r : State,
      exec .lzwDec { s with inPos := pos, arg0 := m.setWidth 32, arg1 := wordN area } = .next r →
      (r.status.fault = false →
        (∀ k : Nat, k < area → s.badIndex d (Cells.get r.mem.idx k) = false) →
        ∃ t, exec .gifImage s = .next t ∧
          t = { s with
            inPos := r.inPos, sub := r.sub, lzd := r.lzd
            gif := { s.gif with
              prevLeft := d.left, prevTop := d.top, prevW := d.w, prevH := d.h, prevDisposal := gc.disposal
              prevInterlace := d.packed.getLsbD 6, prevLocal := d.packed.getLsbD 7, prevDelay := gc.delay
              nframes := s.gif.nframes + 1, gc := ⟨false, false, 0, 0, 0⟩ }
            mem := { s.mem with
              idx := r.mem.idx, lct := t.mem.lct, canvas := t.mem.canvas, snap := t.mem.snap }
            status := { s.status with done := true, frame := true, trunc := r.status.trunc } } ∧
          s.LocalTable d tbl t ∧ s.Drawn d area t) ∧
      (∀ k : Nat, r.status.fault = false → k < area → s.badIndex d (Cells.get r.mem.idx k) = true →
        (∀ j : Nat, j < k → s.badIndex d (Cells.get r.mem.idx j) = false) →
        ∃ t, exec .gifImage s = .next t ∧
          t = { s with
            inPos := r.inPos, sub := r.sub, lzd := r.lzd, gif := { s.gif with state := .failed }
            err := 0x00820235, errInfo := (Cells.get r.mem.idx k).setWidth 32, inScan := false
            mem := { s.mem with
              idx := r.mem.idx, lct := t.mem.lct, canvas := t.mem.canvas, snap := t.mem.snap }
            status := { s.status with fault := true, done := false, frame := false, trunc := r.status.trunc } } ∧
          s.LocalTable d tbl t ∧ s.Drawn d k t) ∧
      (r.status.fault = true →
        ∃ t, exec .gifImage s = .next t ∧
          t = { r with
            arg0 := s.arg0, arg1 := s.arg1, gif := { s.gif with state := .failed }
            err := 0x00820000 ||| (r.err &&& 0xFFFF), mem := { r.mem with lct := t.mem.lct }
            status := { r.status with frame := false } } ∧
          s.LocalTable d tbl t)) ∧
    (2 ≤ m.toNat → m.toNat ≤ 8 → s.Reads (d.bytes ++ tbl ++ [m, 0x00]) →
      ∃ t, exec .gifImage s = .next t ∧ t.status = { s.status with done := true, frame := true, trunc := true } ∧
        t.inPos = s.inPos + wordN (11 + tbl.length) ∧ t.gif.nframes = s.gif.nframes + 1 ∧ t.gif.state = .sections ∧
        ∀ i : Nat, Cells.get t.mem.idx i = if i < area then 0 else Cells.get s.mem.idx i)

/-! ## GIF encode -/

/-- GIF.EBEGIN opens an encode: it appends the signature and the screen descriptor, and for an animation without late
placement the Netscape extension with the repeat count, and sets the encoder registers; GIF.EEND appends the trailer and
clears OPEN. Neither changes anything else, and each raises BadState where the other should come first; EBEGIN's checks
come before any write (R460, R464, R466). -/
def Obligations.GifEncodeEnds : Prop :=
  (∀ s : State, s.genc.opened = false → s.arg0.toNat ≤ 3 → s.arg1.toNat ≤ 65535 →
    s.pixDim.extractLsb' 0 16 ≠ 0 → s.pixDim.extractLsb' 16 16 ≠ 0 →
    let bytes := [0x47, 0x49, 0x46, 0x38, 0x39, 0x61] ++ le16 (s.pixDim.extractLsb' 0 16) ++
      le16 (s.pixDim.extractLsb' 16 16) ++ [0x70, 0x00, 0x00] ++
      (if s.arg0 = 1 then netscapeBytes (s.arg1.extractLsb' 0 16) else [])
    s.RoomFor bytes →
    exec .gifEbegin s = .next ({ s.appended bytes with
      genc := {
        opened := true, anim := s.arg0.getLsbD 0, nsLate := s.arg0.getLsbD 1, nsDone := decide (s.arg0 = 1)
        rep := s.arg1.extractLsb' 0 16, frames := 0 } } : State).complete) ∧
  (∀ s : State,
    (s.genc.opened = true → exec .gifEbegin s = .next (enterFault 0x88 ⟨.badState, 1⟩ s)) ∧
    (s.genc.opened = false → 3 < s.arg0.toNat →
      exec .gifEbegin s = .next (enterFault 0x88 ⟨.badArgument, s.arg0⟩ s)) ∧
    (s.genc.opened = false → s.arg0.toNat ≤ 3 → 65535 < s.arg1.toNat →
      exec .gifEbegin s = .next (enterFault 0x88 ⟨.badArgument, s.arg1⟩ s)) ∧
    (s.genc.opened = false → s.arg0.toNat ≤ 3 → s.arg1.toNat ≤ 65535 →
      (s.pixDim.extractLsb' 0 16 = 0 ∨ s.pixDim.extractLsb' 16 16 = 0) →
      exec .gifEbegin s = .next (enterFault 0x88 ⟨.badDimensions, s.pixDim⟩ s)) ∧
    (s.genc.opened = false → exec .gifEend s = .next (enterFault 0x8A ⟨.badState, 0⟩ s)) ∧
    (s.genc.opened = false → exec .gifEframe s = .next (enterFault 0x89 ⟨.badState, 0⟩ s))) ∧
  (∀ s : State, s.genc.opened = true → s.RoomFor [0x3B] →
    exec .gifEend s = .next ({ s.appended [0x3B] with genc := { s.genc with opened := false } } : State).complete) ∧
  (∀ rep : BitVec 16, netscapeBytes rep =
    [0x21, 0xFF, 0x0B, 0x4E, 0x45, 0x54, 0x53, 0x43, 0x41, 0x50, 0x45, 0x32, 0x2E, 0x30, 0x03, 0x01] ++ le16 rep ++
      [0x00])

/-- The bytes GIF.EFRAME writes before the image data (48_gif.md R462), from the quantised state: graphic control, image
descriptor, local colour table of `2^k` entries, code size. -/
def Sys2Proof.Machine.State.frameBytes (q : State) (k : Nat) : List Byte :=
  let hole := decide (q.transpIdx ≠ 0xFFFFFFFF)
  [0x21, 0xF9, 0x04, BitVec.ofNat 8 (4 * q.arg2.toNat + hole.toNat)] ++ le16 (q.arg1.extractLsb' 0 16) ++
  [if hole = true then q.transpIdx.extractLsb' 0 8 else 0x00, 0x00] ++
  [0x2C, 0x00, 0x00, 0x00, 0x00] ++ le16 (q.pixDim.extractLsb' 0 16) ++ le16 (q.pixDim.extractLsb' 16 16) ++
  [BitVec.ofNat 8 (0x80 + (k - 1))] ++
  (List.range (2 ^ k)).flatMap (fun i =>
    let p := if i < q.palLen.toNat then Cells.get q.mem.pal i else 0
    [p.extractLsb' 16 8, p.extractLsb' 8 8, p.extractLsb' 0 8]) ++
  [BitVec.ofNat 8 (max 2 k)]

/-- GIF.EFRAME completes on every frame OCT.QUANTIZE takes, with room in OUT: it is OCT.QUANTIZE with the requested
palette size, then the bytes of the section group, then LZW.ENC of the indices with code size `max(2, k)`, then, after
the first frame of an animation with late placement, the Netscape extension; ARG0, ARG1 and RES0 stay as they were and
the frame count grows by 1. A delay above 65535 and then a disposal above 7 raise BadArgument, and then an empty image
BadDimensions, before any write; a fault of OCT.QUANTIZE keeps its code and info and comes before any byte is written
(R462, R464). The frame count wraps modulo 2^32 (log 8). -/
def Obligations.GifEncodeFrame : Prop :=
  (∀ s : State, s.genc.opened = true → s.arg1.toNat ≤ 65535 → s.arg2.toNat ≤ 7 → s.status.fault = false →
    s.pixDim.extractLsb' 0 16 ≠ 0 → s.pixDim.extractLsb' 16 16 ≠ 0 → s.mem.wf →
    1 ≤ s.arg0.toNat → s.arg0.toNat ≤ 256 → s.imageSize ≤ s.caps.pixCap → 9 * s.imageSize ≤ s.caps.octNodeCap →
    ¬ (s.arg0 = 1 ∧ (∃ i, i < s.imageSize ∧ s.opaquePixel (Cells.get s.mem.pix i) = false) ∧
      ∃ i, i < s.imageSize ∧ s.opaquePixel (Cells.get s.mem.pix i) = true) →
    s.outLen.toNat + 2 * s.imageSize + 1000 ≤ s.caps.outCap → s.outLen.toNat + 2 * s.imageSize + 1000 < 2 ^ 32 →
    ∃ q r : State,
      let k := max 1 (Nat.clog 2 q.palLen.toNat)
      let f : State := { r with
        arg0 := s.arg0, arg1 := s.arg1, res0 := s.res0, genc := { s.genc with frames := s.genc.frames + 1 } }
      exec .octQuantize s = .next q ∧ q.status.fault = false ∧
      exec .lzwEnc { q.appended (q.frameBytes k) with
        arg0 := wordN (max 2 k), arg1 := wordN s.imageSize } = .next r ∧ r.status.fault = false ∧
      exec .gifEframe s = .next
        (if s.genc.anim = true ∧ s.genc.nsLate = true ∧ s.genc.nsDone = false then
          { f.appended (netscapeBytes s.genc.rep) with genc := { f.genc with nsDone := true } }
        else f)) ∧
  ∀ s : State, s.genc.opened = true →
    (65535 < s.arg1.toNat → exec .gifEframe s = .next (enterFault 0x89 ⟨.badArgument, s.arg1⟩ s)) ∧
    (s.arg1.toNat ≤ 65535 → 7 < s.arg2.toNat →
      exec .gifEframe s = .next (enterFault 0x89 ⟨.badArgument, s.arg2⟩ s)) ∧
    (s.arg1.toNat ≤ 65535 → s.arg2.toNat ≤ 7 →
      (s.pixDim.extractLsb' 0 16 = 0 ∨ s.pixDim.extractLsb' 16 16 = 0) →
      exec .gifEframe s = .next (enterFault 0x89 ⟨.badDimensions, s.pixDim⟩ s)) ∧
    (∀ q : State, s.arg1.toNat ≤ 65535 → s.arg2.toNat ≤ 7 → s.pixDim.extractLsb' 0 16 ≠ 0 →
      s.pixDim.extractLsb' 16 16 ≠ 0 → s.status.fault = false → exec .octQuantize s = .next q → q.status.fault = true →
      exec .gifEframe s = .next { q with err := 0x00890000 ||| (q.err &&& 0xFFFF) })
end

