-- ==== Sys2Proof/Laws/Exec.lean ====
section
/-! SUPPORT. How pseudocode with `raise` evaluates, what a command comes to, and one rule per combinator for properties
that hold wherever the pseudocode ends, so that no proof unfolds a whole command. -/

namespace Sys2Proof.Machine

open Sys2Proof

/-! ## Evaluation -/

section
variable {α β : Type} (s : State)

@[simp] theorem exec_pure (a : α) : (pure a : Exec α) s = .ok a s := rfl

@[simp] theorem exec_bind (m : Exec α) (f : α → Exec β) :
    (m >>= f) s = match m s with
      | .ok a t => f a t
      | .error r t => .error r t := by
  show EStateM.bind m f s = _
  unfold EStateM.bind
  cases m s <;> rfl

@[simp] theorem exec_look (f : State → α) : look f s = .ok (f s) s := rfl

@[simp] theorem exec_alter (f : State → State) : alter f s = .ok () (f s) := rfl

@[simp] theorem exec_raise (f : HwFault) (i : Word) : (raise f i : Exec α) s = .error ⟨f, i⟩ s := rfl

theorem exec_raiseIf (c : Prop) [Decidable c] (f : HwFault) (i : Word) :
    raiseIf c f i s = if c then .error ⟨f, i⟩ s else .ok () s := rfl

@[simp] theorem exec_raiseIf_neg {c : Prop} [Decidable c] (h : ¬ c) (f : HwFault) (i : Word) :
    raiseIf c f i s = .ok () s := if_neg h

@[simp] theorem exec_raiseIf_pos {c : Prop} [Decidable c] (h : c) (f : HwFault) (i : Word) :
    raiseIf c f i s = .error ⟨f, i⟩ s := if_pos h

@[simp] theorem exec_ite (c : Prop) [Decidable c] (m m' : Exec α) :
    (if c then m else m') s = if c then m s else m' s := by split <;> rfl

theorem exec_onRaise (f : State → State) (m : Exec α) :
    onRaise f m s = match m s with
      | .ok a t => .ok a t
      | .error r t => .error r (f t) := rfl

@[simp] theorem forFrom_zero (i : Nat) (f : Nat → Exec Unit) : forFrom i 0 f = pure () := rfl

@[simp] theorem forFrom_succ (i n : Nat) (f : Nat → Exec Unit) :
    forFrom i (n + 1) f = (do f i; forFrom (i + 1) n f) := rfl

@[simp] theorem forEach_nil (f : α → Exec Unit) : forEach [] f = pure () := rfl

@[simp] theorem forEach_cons (a : α) (as : List α) (f : α → Exec Unit) :
    forEach (a :: as) f = (do f a; forEach as f) := rfl

theorem loopFuel_succ (k : Nat) (body : Exec Bool) :
    loopFuel (k + 1) body = (do if ← body then loopFuel k body else pure ()) := rfl

end

/-! ## A whole command (30_encoding.md R111) -/

section
variable {opc : Byte} {body : Exec Unit} {s t : State} {r : Raise}

/-- A command whose pseudocode completes sets DONE. -/
theorem runCmd_ok (h : body s = .ok () t) : runCmd opc body s = .next t.complete := by
  simp [runCmd, h]

/-- A command whose pseudocode raises enters the fault. -/
theorem runCmd_error (h : body s = .error r t) : runCmd opc body s = .next (enterFault opc r t) := by
  simp [runCmd, h]

/-- Everything a command can come to. -/
theorem runCmd_next (h : runCmd opc body s = .next t) :
    (∃ u, body s = .ok () u ∧ t = u.complete) ∨ (∃ r u, body s = .error r u ∧ t = enterFault opc r u) := by
  unfold runCmd at h
  split at h
  · rename_i u hu
    exact .inl ⟨u, hu, by simpa using h.symm⟩
  · rename_i r u hu
    exact .inr ⟨r, u, hu, by simpa using h.symm⟩

/-- No command stops the machine. -/
theorem runCmd_isNext (opc : Byte) (body : Exec Unit) (s : State) : ∃ t, runCmd opc body s = .next t := by
  cases h : body s with
  | ok u t => exact ⟨_, runCmd_ok h⟩
  | error r t => exact ⟨_, runCmd_error h⟩

end

/-! ## What holds at the end -/

/-- From every state with `P`, `m` completes with `Q` or raises with `E`. -/
def Exec.Triple {α : Type} (P : State → Prop) (m : Exec α) (Q : α → State → Prop) (E : State → Prop) : Prop :=
  ∀ s, P s → match m s with
    | .ok a t => Q a t
    | .error _ t => E t

/-- `P` holds at the end if it held at the start, whichever way `m` ends. -/
def Exec.Keeps {α : Type} (P : State → Prop) (m : Exec α) : Prop := Exec.Triple P m (fun _ => P) P

namespace Exec

section
variable {α β : Type} {P : State → Prop} {E : State → Prop}

theorem triple_pure {Q : α → State → Prop} {a : α} (h : ∀ s, P s → Q a s) : Triple P (pure a) Q E :=
  fun s hs => h s hs

theorem triple_bind {m : Exec α} {f : α → Exec β} {R : α → State → Prop} {Q : β → State → Prop}
    (hm : Triple P m R E) (hf : ∀ a, Triple (R a) (f a) Q E) : Triple P (m >>= f) Q E := by
  intro s hs
  have h := hm s hs
  rw [exec_bind]
  cases hms : m s with
  | ok a t => rw [hms] at h; exact hf a t h
  | error r t => rw [hms] at h; exact h

theorem triple_look {f : State → α} {Q : α → State → Prop} (h : ∀ s, P s → Q (f s) s) :
    Triple P (look f) Q E := fun s hs => h s hs

theorem triple_alter {f : State → State} {Q : Unit → State → Prop} (h : ∀ s, P s → Q () (f s)) :
    Triple P (alter f) Q E := fun s hs => h s hs

theorem triple_raise {f : HwFault} {i : Word} {Q : α → State → Prop} (h : ∀ s, P s → E s) :
    Triple P (raise f i) Q E := fun s hs => h s hs

theorem triple_raiseIf {c : Prop} [Decidable c] {f : HwFault} {i : Word} {Q : Unit → State → Prop}
    (hok : ∀ s, P s → ¬ c → Q () s) (herr : ∀ s, P s → c → E s) : Triple P (raiseIf c f i) Q E := by
  intro s hs
  rw [exec_raiseIf]
  by_cases h : c
  · rw [if_pos h]; exact herr s hs h
  · rw [if_neg h]; exact hok s hs h

theorem triple_ite {c : Prop} [Decidable c] {m m' : Exec α} {Q : α → State → Prop}
    (h : c → Triple P m Q E) (h' : ¬ c → Triple P m' Q E) : Triple P (if c then m else m') Q E := by
  split
  · exact h ‹_›
  · exact h' ‹_›

theorem triple_mono {m : Exec α} {P' : State → Prop} {Q Q' : α → State → Prop} {E' : State → Prop}
    (h : Triple P m Q E) (hP : ∀ s, P' s → P s) (hQ : ∀ a s, Q a s → Q' a s) (hE : ∀ s, E s → E' s) :
    Triple P' m Q' E' := by
  intro s hs
  have := h s (hP s hs)
  cases hms : m s with
  | ok a t => rw [hms] at this; exact hQ a t this
  | error r t => rw [hms] at this; exact hE t this

theorem keeps_pure {a : α} : Keeps P (pure a) := triple_pure fun _ h => h

theorem keeps_look {f : State → α} : Keeps P (look f) := triple_look fun _ h => h

theorem keeps_raise {f : HwFault} {i : Word} : Keeps P (raise f i : Exec α) := triple_raise fun _ h => h

theorem keeps_raiseIf {c : Prop} [Decidable c] {f : HwFault} {i : Word} : Keeps P (raiseIf c f i) :=
  triple_raiseIf (fun _ h _ => h) (fun _ h _ => h)

theorem keeps_alter {f : State → State} (h : ∀ s, P s → P (f s)) : Keeps P (alter f) := triple_alter h

theorem keeps_bind {m : Exec α} {f : α → Exec β} (hm : Keeps P m) (hf : ∀ a, Keeps P (f a)) : Keeps P (m >>= f) :=
  triple_bind hm hf

theorem keeps_ite {c : Prop} [Decidable c] {m m' : Exec α} (h : Keeps P m) (h' : Keeps P m') :
    Keeps P (if c then m else m') := triple_ite (fun _ => h) (fun _ => h')

theorem keeps_onRaise {f : State → State} {m : Exec α} (hm : Keeps P m) (hf : ∀ s, P s → P (f s)) :
    Keeps P (onRaise f m) := by
  intro s hs
  have h := hm s hs
  rw [exec_onRaise]
  cases hms : m s with
  | ok a t => rw [hms] at h; exact h
  | error r t => rw [hms] at h; exact hf t h

theorem keeps_forFrom {f : Nat → Exec Unit} (h : ∀ i, Keeps P (f i)) (i n : Nat) : Keeps P (forFrom i n f) := by
  induction n generalizing i with
  | zero => exact keeps_pure
  | succ n ih => exact keeps_bind (h i) (fun _ => ih (i + 1))

theorem keeps_forUpTo {f : Nat → Exec Unit} (h : ∀ i, Keeps P (f i)) (n : Nat) : Keeps P (forUpTo n f) :=
  keeps_forFrom h 0 n

theorem keeps_forEach {f : α → Exec Unit} (h : ∀ a, Keeps P (f a)) (as : List α) : Keeps P (forEach as f) := by
  induction as with
  | nil => exact keeps_pure
  | cons a as ih => exact keeps_bind (h a) (fun _ => ih)

theorem keeps_loopFuel {body : Exec Bool} (h : Keeps P body) (k : Nat) : Keeps P (loopFuel k body) := by
  induction k with
  | zero => exact keeps_pure
  | succ k ih => exact keeps_bind h (fun b => by cases b <;> simp [keeps_pure, ih])

/-- `P` at the end of a command, from `P` at its start. -/
theorem Keeps.runCmd {body : Exec Unit} {opc : Byte} {s t : State} (h : Keeps P body) (hs : P s)
    (hc : ∀ u, P u → P u.complete) (he : ∀ r u, P u → P (enterFault opc r u))
    (ht : Machine.runCmd opc body s = .next t) : P t := by
  have hb := h s hs
  rcases runCmd_next ht with ⟨u, hu, rfl⟩ | ⟨r, u, hu, rfl⟩
  · rw [hu] at hb; exact hc u hb
  · rw [hu] at hb; exact he r u hb

end

end Exec

end Sys2Proof.Machine
end

