-- ==== Sys2Proof/Laws/Frames.lean ====
section
/-! SUPPORT. One frame law per shared operation: a property that does not look at the fields an operation writes holds
after it, whether it completed or raised. `Frame.<unit> P` says which fields those are, once for each unit. -/

namespace Sys2Proof.Machine

open Sys2Proof

/-! ## The fields each unit writes -/

namespace Frame

/-- The bit reader writes IN_POS, BC_ACC and BC_NBITS. -/
structure Reader (P : State → Prop) : Prop where
  pos : ∀ s v, P s → P { s with inPos := v }
  bc : ∀ s a n, P s → P { s with bcAcc := a, bcNbits := n }

/-- The bulk reads also write TMP. -/
structure Raw (P : State → Prop) : Prop extends Reader P where
  tmp : ∀ s c, P s → P { s with mem := { s.mem with tmp := c } }

/-- `out` writes OUT and OUT_LEN. -/
structure Out (P : State → Prop) : Prop where
  out : ∀ s n c, P s → P { s with outLen := n, mem := { s.mem with out := c } }

/-- The bit writer also writes BW_ACC and BW_NBITS. -/
structure Writer (P : State → Prop) : Prop extends Out P where
  bw : ∀ s a n, P s → P { s with bwAcc := a, bwNbits := n }

/-- Huffman builds write HT and HT_VALID. -/
structure Tables (P : State → Prop) : Prop where
  ht : ∀ s t v, P s → P { s with ht := t, htValid := v }

/-- The quantiser and the transform write QT, QT_VALID, BLK and ZZ. -/
structure Blocks (P : State → Prop) : Prop where
  qt : ∀ s v c, P s → P { s with qtValid := v, mem := { s.mem with qt := c } }
  blk : ∀ s c, P s → P { s with mem := { s.mem with blk := c } }
  zz : ∀ s c, P s → P { s with mem := { s.mem with zz := c } }

/-- The JPEG decoder writes, beside these, the J_* registers, the scan flag, the planes and the coefficients. -/
structure Jpeg (P : State → Prop) : Prop extends Raw P, Tables P, Blocks P where
  jpg : ∀ s j, P s → P { s with jpg := j }
  scan : ∀ s b, P s → P { s with inScan := b }
  plane : ∀ s c, P s → P { s with mem := { s.mem with plane := c } }
  coef : ∀ s c, P s → P { s with mem := { s.mem with coef := c } }

/-- LZW decode writes IN_POS, its hidden state and IDX. -/
structure LzwDec (P : State → Prop) : Prop where
  pos : ∀ s v, P s → P { s with inPos := v }
  sub : ∀ s v, P s → P { s with sub := v }
  lzd : ∀ s v, P s → P { s with lzd := v }
  idx : ∀ s c, P s → P { s with mem := { s.mem with idx := c } }

/-- LZW encode writes its hidden state and OUT. -/
structure LzwEnc (P : State → Prop) : Prop extends Out P where
  lze : ∀ s v, P s → P { s with lze := v }

/-- The quantiser writes the tree, the palette and IDX. -/
structure Octree (P : State → Prop) : Prop where
  oct : ∀ s v, P s → P { s with oct := v }
  pal : ∀ s n t c, P s → P { s with palLen := n, transpIdx := t, mem := { s.mem with pal := c } }
  idx : ∀ s c, P s → P { s with mem := { s.mem with idx := c } }

/-- The GIF decoder writes, beside LZW decode's, its registers, FRAME, TRUNC and the canvas and colour tables. -/
structure Gif (P : State → Prop) : Prop extends LzwDec P where
  gif : ∀ s g, P s → P { s with gif := g }
  frame : ∀ s b, P s → P (s.setFrame b)
  trunc : ∀ s b, P s → P (s.setTrunc b)
  canvas : ∀ s c, P s → P { s with mem := { s.mem with canvas := c } }
  snap : ∀ s c, P s → P { s with mem := { s.mem with snap := c } }
  gct : ∀ s c, P s → P { s with mem := { s.mem with gct := c } }
  lct : ∀ s c, P s → P { s with mem := { s.mem with lct := c } }

end Frame

namespace Exec

variable {α : Type} {P : State → Prop}

/-! ## Reader -/

theorem Frame.Reader.feed (h : Frame.Reader P) {s : State} (hs : P s) (b : Byte) (n : Nat) : P (s.feed b n) := by
  have h1 := h.pos s (s.feed b n).inPos hs
  exact h.bc _ (s.feed b n).bcAcc (s.feed b n).bcNbits h1

theorem Frame.Reader.realign (h : Frame.Reader P) {s : State} (hs : P s) : P s.realign := by
  have h1 := h.pos s s.realign.inPos hs
  exact h.bc _ s.realign.bcAcc s.realign.bcNbits h1

theorem Frame.Reader.bcReset (h : Frame.Reader P) {s : State} (hs : P s) : P s.bcReset :=
  h.bc s s.bcReset.bcAcc s.bcReset.bcNbits hs

theorem keeps_fetchByte (h : Frame.Reader P) : Keeps P fetchByte := by
  unfold fetchByte
  try dsimp only
  repeat' first
    | with_reducible exact keeps_pure
    | with_reducible exact keeps_look
    | with_reducible exact keeps_raiseIf
    | with_reducible exact keeps_raise
    | exact keeps_alter (fun s hs => Frame.Reader.feed h hs _ _)
    | with_reducible refine keeps_ite ?_ ?_
    | with_reducible refine keeps_bind ?_ (fun _ => ?_)

theorem keeps_ensureLoop (h : Frame.Reader P) (k n : Nat) : Keeps P (ensureLoop k n) := by
  induction k with
  | zero => exact keeps_pure
  | succ k ih =>
    unfold ensureLoop
    try dsimp only
    repeat' first
      | with_reducible exact keeps_pure
      | with_reducible exact keeps_look
      | with_reducible exact keeps_raiseIf
      | with_reducible exact keeps_raise
      | with_reducible exact keeps_fetchByte h
      | with_reducible exact ih
      | with_reducible refine keeps_ite ?_ ?_
      | with_reducible refine keeps_bind ?_ (fun _ => ?_)

theorem keeps_ensureBits (h : Frame.Reader P) (n : Nat) : Keeps P (ensureBits n) := by
  unfold ensureBits
  try dsimp only
  repeat' first
    | with_reducible exact keeps_pure
    | with_reducible exact keeps_look
    | with_reducible exact keeps_raiseIf
    | with_reducible exact keeps_raise
    | with_reducible exact keeps_ensureLoop h _ _

theorem keeps_takeBits (h : Frame.Reader P) (n : Nat) : Keeps P (takeBits n) := by
  unfold takeBits
  try dsimp only
  repeat' first
    | with_reducible exact keeps_pure
    | with_reducible exact keeps_look
    | with_reducible exact keeps_raiseIf
    | with_reducible exact keeps_raise
    | exact keeps_alter (fun s hs => h.bc s s.bcAcc _ hs)

theorem keeps_decodeBits (h : Frame.Reader P) (n : Nat) : Keeps P (decodeBits n) := by
  unfold decodeBits
  try dsimp only
  repeat' first
    | with_reducible exact keeps_pure
    | with_reducible exact keeps_look
    | with_reducible exact keeps_raiseIf
    | with_reducible exact keeps_raise
    | with_reducible exact keeps_ensureBits h _
    | with_reducible exact keeps_takeBits h _
    | with_reducible refine keeps_ite ?_ ?_
    | with_reducible refine keeps_bind ?_ (fun _ => ?_)

theorem keeps_decodeBit (h : Frame.Reader P) : Keeps P decodeBit := by
  unfold decodeBit
  try dsimp only
  repeat' first
    | with_reducible exact keeps_pure
    | with_reducible exact keeps_look
    | with_reducible exact keeps_raiseIf
    | with_reducible exact keeps_raise
    | with_reducible exact keeps_ensureBits h _
    | with_reducible exact keeps_takeBits h _
    | with_reducible refine keeps_ite ?_ ?_
    | with_reducible refine keeps_bind ?_ (fun _ => ?_)

theorem keeps_receiveExtend (h : Frame.Reader P) (t : Nat) : Keeps P (receiveExtend t) := by
  unfold receiveExtend
  try dsimp only
  repeat' first
    | with_reducible exact keeps_pure
    | with_reducible exact keeps_look
    | with_reducible exact keeps_raiseIf
    | with_reducible exact keeps_raise
    | with_reducible exact keeps_decodeBits h _
    | with_reducible refine keeps_ite ?_ ?_
    | with_reducible refine keeps_bind ?_ (fun _ => ?_)

theorem keeps_realign (h : Frame.Reader P) : Keeps P (alter State.realign) :=
  keeps_alter (fun _ hs => Frame.Reader.realign h hs)

theorem keeps_ignore (h : Frame.Reader P) (n : Nat) : Keeps P (ignore n) := by
  unfold ignore
  try dsimp only
  repeat' first
    | with_reducible exact keeps_pure
    | with_reducible exact keeps_look
    | with_reducible exact keeps_raiseIf
    | with_reducible exact keeps_raise
    | with_reducible exact keeps_realign h
    | exact keeps_alter (fun s hs => h.pos s _ hs)
    | with_reducible refine keeps_ite ?_ ?_
    | with_reducible refine keeps_bind ?_ (fun _ => ?_)

theorem keeps_readFull (h : Frame.Raw P) (n : Nat) : Keeps P (readFull n) := by
  unfold readFull
  try dsimp only
  repeat' first
    | with_reducible exact keeps_pure
    | with_reducible exact keeps_look
    | with_reducible exact keeps_raiseIf
    | with_reducible exact keeps_raise
    | with_reducible exact keeps_realign h.toReader
    | exact keeps_alter (fun s hs => h.pos _ _ (h.tmp _ _ hs))
    | with_reducible refine keeps_ite ?_ ?_
    | with_reducible refine keeps_bind ?_ (fun _ => ?_)

/-! ## Writer -/

theorem keeps_out (h : Frame.Out P) (b : Byte) : Keeps P (out b) := by
  unfold out
  try dsimp only
  repeat' first
    | with_reducible exact keeps_pure
    | with_reducible exact keeps_look
    | with_reducible exact keeps_raiseIf
    | with_reducible exact keeps_raise
    | exact keeps_alter (fun s hs => h.out s _ _ hs)
    | with_reducible refine keeps_ite ?_ ?_
    | with_reducible refine keeps_bind ?_ (fun _ => ?_)

theorem keeps_outAll (h : Frame.Out P) (bs : List Byte) : Keeps P (outAll bs) :=
  keeps_forEach (fun b => keeps_out h b) bs

theorem keeps_emitLoop (h : Frame.Writer P) (k : Nat) : Keeps P (emitLoop k) := by
  induction k with
  | zero => exact keeps_pure
  | succ k ih =>
    unfold emitLoop
    try dsimp only
    repeat' first
      | with_reducible exact keeps_pure
      | with_reducible exact keeps_look
      | with_reducible exact keeps_raiseIf
      | with_reducible exact keeps_raise
      | with_reducible exact keeps_out h.toOut _
      | exact keeps_alter (fun s hs => h.bw s s.bwAcc _ hs)
      | with_reducible exact ih
      | with_reducible refine keeps_ite ?_ ?_
      | with_reducible refine keeps_bind ?_ (fun _ => ?_)

theorem keeps_emitBits (h : Frame.Writer P) (len : Nat) (code : Word) : Keeps P (emitBits len code) := by
  unfold emitBits
  try dsimp only
  repeat' first
    | with_reducible exact keeps_pure
    | with_reducible exact keeps_look
    | with_reducible exact keeps_raiseIf
    | with_reducible exact keeps_raise
    | with_reducible exact keeps_emitLoop h _
    | exact keeps_alter (fun s hs => h.bw s _ _ hs)
    | with_reducible refine keeps_ite ?_ ?_
    | with_reducible refine keeps_bind ?_ (fun _ => ?_)

theorem keeps_flushBits (h : Frame.Writer P) : Keeps P flushBits := by
  unfold flushBits
  try dsimp only
  repeat' first
    | with_reducible exact keeps_pure
    | with_reducible exact keeps_look
    | with_reducible exact keeps_raiseIf
    | with_reducible exact keeps_raise
    | with_reducible exact keeps_emitBits h _ _
    | exact keeps_alter (fun s hs => h.bw s _ _ hs)
    | with_reducible refine keeps_ite ?_ ?_
    | with_reducible refine keeps_bind ?_ (fun _ => ?_)

/-! ## Huffman -/

theorem keeps_buildTable (h : Frame.Tables P) (c t : Nat) (sp : HuffSpec) : Keeps P (buildTable c t sp) := by
  unfold buildTable
  try dsimp only
  repeat' first
    | with_reducible exact keeps_pure
    | with_reducible exact keeps_look
    | with_reducible exact keeps_raiseIf
    | with_reducible exact keeps_raise
    | exact keeps_alter (fun s hs => h.ht s _ _ hs)
    | with_reducible refine keeps_ite ?_ ?_
    | with_reducible refine keeps_bind ?_ (fun _ => ?_)

theorem keeps_loadStd (h : Frame.Tables P) : Keeps P loadStd := by
  unfold loadStd
  try dsimp only
  repeat' first
    | with_reducible exact keeps_pure
    | with_reducible exact keeps_look
    | with_reducible exact keeps_raiseIf
    | with_reducible exact keeps_raise
    | with_reducible exact keeps_buildTable h _ _ _
    | with_reducible refine keeps_ite ?_ ?_
    | with_reducible refine keeps_bind ?_ (fun _ => ?_)

theorem keeps_slowFrom (h : Frame.Reader P) (t : HuffTable) (n l code : Nat) : Keeps P (slowFrom t n l code) := by
  induction n generalizing l code with
  | zero => exact keeps_bind keeps_look (fun _ => keeps_raise)
  | succ n ih =>
    unfold slowFrom
    try dsimp only
    repeat' first
      | with_reducible exact keeps_pure
      | with_reducible exact keeps_look
      | with_reducible exact keeps_raiseIf
      | with_reducible exact keeps_raise
      | with_reducible exact keeps_decodeBit h
      | with_reducible exact ih _ _
      | with_reducible refine keeps_ite ?_ ?_
      | with_reducible refine keeps_bind ?_ (fun _ => ?_)

theorem keeps_slowWalk (h : Frame.Reader P) (t : HuffTable) : Keeps P (slowWalk t) := keeps_slowFrom h t _ _ _

theorem keeps_tryFetch (h : Frame.Reader P) : Keeps P tryFetch := by
  intro s hs
  have hf := keeps_fetchByte h s hs
  unfold tryFetch
  cases hc : fetchByte s with
  | ok u t => rw [hc] at hf; exact hf
  | error r t => exact hs

theorem keeps_huffDecode (h : Frame.Reader P) (t : HuffTable) : Keeps P (huffDecode t) := by
  unfold huffDecode
  try dsimp only
  repeat' first
    | with_reducible exact keeps_pure
    | with_reducible exact keeps_look
    | with_reducible exact keeps_raiseIf
    | with_reducible exact keeps_raise
    | with_reducible exact keeps_tryFetch h
    | with_reducible exact keeps_slowWalk h _
    | exact keeps_alter (fun s hs => h.bc s s.bcAcc _ hs)
    | with_reducible refine keeps_ite ?_ ?_
    | with_reducible refine keeps_bind ?_ (fun _ => ?_)

theorem keeps_huffEncode (h : Frame.Writer P) (t : HuffTable) (v : Byte) : Keeps P (huffEncode t v) := by
  unfold huffEncode
  try dsimp only
  repeat' first
    | with_reducible exact keeps_pure
    | with_reducible exact keeps_look
    | with_reducible exact keeps_raiseIf
    | with_reducible exact keeps_raise
    | with_reducible exact keeps_emitBits h _ _
    | with_reducible refine keeps_ite ?_ ?_
    | with_reducible refine keeps_bind ?_ (fun _ => ?_)

theorem keeps_emitValue (h : Frame.Writer P) (t : HuffTable) (run : Nat) (v : Int) : Keeps P (emitValue t run v) := by
  unfold emitValue
  try dsimp only
  repeat' first
    | with_reducible exact keeps_pure
    | with_reducible exact keeps_look
    | with_reducible exact keeps_raiseIf
    | with_reducible exact keeps_raise
    | with_reducible exact keeps_huffEncode h _ _
    | with_reducible exact keeps_emitBits h _ _
    | with_reducible refine keeps_ite ?_ ?_
    | with_reducible refine keeps_bind ?_ (fun _ => ?_)

/-! ## Quantisation -/

theorem keeps_scaleTables (h : Frame.Blocks P) (q : Nat) : Keeps P (scaleTables q) := by
  unfold scaleTables
  try dsimp only
  repeat' first
    | with_reducible exact keeps_pure
    | with_reducible exact keeps_look
    | with_reducible exact keeps_raiseIf
    | with_reducible exact keeps_raise
    | exact keeps_alter (fun s hs => h.qt _ _ _ (h.qt _ _ _ hs))
    | with_reducible refine keeps_ite ?_ ?_
    | with_reducible refine keeps_bind ?_ (fun _ => ?_)

theorem keeps_quant (h : Frame.Blocks P) (q : Nat) : Keeps P (quant q) := by
  unfold quant
  try dsimp only
  repeat' first
    | with_reducible exact keeps_pure
    | with_reducible exact keeps_look
    | with_reducible exact keeps_raiseIf
    | with_reducible exact keeps_raise
    | exact keeps_alter (fun s hs => h.zz s _ hs)
    | with_reducible refine keeps_ite ?_ ?_
    | with_reducible refine keeps_bind ?_ (fun _ => ?_)

/-! ## JPEG decode -/

theorem keeps_skipFill (h : Frame.Raw P) (k : Nat) (m : Byte) : Keeps P (skipFill k m) := by
  induction k generalizing m with
  | zero => exact keeps_pure
  | succ k ih =>
    unfold skipFill
    try dsimp only
    repeat' first
      | with_reducible exact keeps_pure
      | with_reducible exact keeps_look
      | with_reducible exact keeps_raiseIf
      | with_reducible exact keeps_raise
      | with_reducible exact keeps_readFull h _
      | with_reducible exact ih _
      | with_reducible refine keeps_ite ?_ ?_
      | with_reducible refine keeps_bind ?_ (fun _ => ?_)

theorem keeps_nextMarker (h : Frame.Raw P) : Keeps P nextMarker := by
  unfold nextMarker
  try dsimp only
  repeat' first
    | with_reducible exact keeps_pure
    | with_reducible exact keeps_look
    | with_reducible exact keeps_raiseIf
    | with_reducible exact keeps_raise
    | with_reducible exact keeps_readFull h _
    | with_reducible exact keeps_skipFill h _ _
    | with_reducible refine keeps_ite ?_ ?_
    | with_reducible refine keeps_bind ?_ (fun _ => ?_)

theorem keeps_segmentLength (h : Frame.Raw P) : Keeps P segmentLength := by
  unfold segmentLength
  try dsimp only
  repeat' first
    | with_reducible exact keeps_pure
    | with_reducible exact keeps_look
    | with_reducible exact keeps_raiseIf
    | with_reducible exact keeps_raise
    | with_reducible exact keeps_readFull h _
    | with_reducible refine keeps_ite ?_ ?_
    | with_reducible refine keeps_bind ?_ (fun _ => ?_)

theorem keeps_app14 (h : Frame.Jpeg P) (n : Nat) : Keeps P (app14 n) := by
  unfold app14
  try dsimp only
  repeat' first
    | with_reducible exact keeps_pure
    | with_reducible exact keeps_look
    | with_reducible exact keeps_raiseIf
    | with_reducible exact keeps_raise
    | with_reducible exact keeps_readFull h.toRaw _
    | exact keeps_alter (fun s hs => h.jpg s _ hs)
    | with_reducible refine keeps_ite ?_ ?_
    | with_reducible refine keeps_bind ?_ (fun _ => ?_)

theorem keeps_sofCheck (p : List Byte) (i : Nat) : Keeps P (sofCheck p i) := by
  unfold sofCheck
  try dsimp only
  repeat' first
    | with_reducible exact keeps_pure
    | with_reducible exact keeps_look
    | with_reducible exact keeps_raiseIf
    | with_reducible exact keeps_raise
    | with_reducible refine keeps_ite ?_ ?_
    | with_reducible refine keeps_bind ?_ (fun _ => ?_)

theorem keeps_frameFits (f : Frame) (c : Comp) : Keeps P (frameFits f c) := by
  unfold frameFits
  repeat' first
    | with_reducible exact keeps_pure
    | with_reducible exact keeps_look
    | with_reducible exact keeps_raiseIf
    | with_reducible exact keeps_raise
    | with_reducible refine keeps_ite ?_ ?_
    | with_reducible refine keeps_bind ?_ (fun _ => ?_)

theorem Frame.Jpeg.putFrame (h : Frame.Jpeg P) {s : State} (hs : P s) (f : Frame) : P (s.putFrame f) := by
  have h1 := h.coef s (s.mem.clearFrame f).coef hs
  have h2 := h.plane _ (s.mem.clearFrame f).plane h1
  exact h.jpg _ (s.putFrame f).jpg h2

theorem Frame.Jpeg.onJpg (h : Frame.Jpeg P) {s : State} (hs : P s) (f : JpegCtx → JpegCtx) : P (s.onJpg f) :=
  h.jpg s (f s.jpg) hs

theorem Frame.Jpeg.resetEntropy (h : Frame.Jpeg P) {s : State} (hs : P s) : P s.resetEntropy :=
  Frame.Jpeg.onJpg h (Frame.Reader.bcReset h.toReader hs) _

theorem Frame.Jpeg.startScan (h : Frame.Jpeg P) {s : State} (hs : P s) (q : ScanPar) (cs : List ScanComp) :
    P (s.startScan q cs) := by
  unfold State.startScan
  exact h.scan _ true (Frame.Jpeg.onJpg h (Frame.Jpeg.resetEntropy h hs) _)

theorem Frame.Jpeg.endScan (h : Frame.Jpeg P) {s : State} (hs : P s) : P s.endScan :=
  h.scan s.realign false (Frame.Reader.realign h.toReader hs)

theorem Frame.Jpeg.reconstructed (h : Frame.Jpeg P) {s : State} (hs : P s) (i bx by_ : Nat) :
    P (s.reconstructed i bx by_) := by
  have h1 := h.blk s (s.dequant (s.comp i).tq.toNat).mem.blk hs
  have h2 := h.blk _ (s.dequant (s.comp i).tq.toNat).idct.mem.blk h1
  have h3 := h.blk _ (s.dequant (s.comp i).tq.toNat).idct.level.mem.blk h2
  exact h.plane (s.dequant (s.comp i).tq.toNat).idct.level _ h3

theorem keeps_sof (h : Frame.Jpeg P) (m : Byte) (n : Nat) : Keeps P (sof m n) := by
  unfold sof
  try dsimp only
  repeat' first
    | with_reducible exact keeps_pure
    | with_reducible exact keeps_look
    | with_reducible exact keeps_raiseIf
    | with_reducible exact keeps_raise
    | with_reducible exact keeps_readFull h.toRaw _
    | with_reducible exact keeps_forUpTo (fun _ => keeps_sofCheck _ _) _
    | with_reducible exact keeps_forEach (fun _ => keeps_frameFits _ _) _
    | exact keeps_alter (fun s hs => Frame.Jpeg.putFrame h hs _)
    | with_reducible refine keeps_ite ?_ ?_
    | with_reducible refine keeps_bind ?_ (fun _ => ?_)

theorem keeps_dqtLoop (h : Frame.Jpeg P) (p : List Byte) (n k o : Nat) : Keeps P (dqtLoop p n k o) := by
  induction k generalizing o with
  | zero => exact keeps_pure
  | succ k ih =>
    unfold dqtLoop
    try dsimp only
    repeat' first
      | with_reducible exact keeps_pure
      | with_reducible exact keeps_look
      | with_reducible exact keeps_raiseIf
      | with_reducible exact keeps_raise
      | exact keeps_alter (fun s hs => h.qt s _ _ hs)
      | with_reducible exact ih _
      | with_reducible refine keeps_ite ?_ ?_
      | with_reducible refine keeps_bind ?_ (fun _ => ?_)

theorem keeps_dqt (h : Frame.Jpeg P) (n : Nat) : Keeps P (dqt n) := by
  unfold dqt
  try dsimp only
  repeat' first
    | with_reducible exact keeps_pure
    | with_reducible exact keeps_look
    | with_reducible exact keeps_raiseIf
    | with_reducible exact keeps_raise
    | with_reducible exact keeps_readFull h.toRaw _
    | with_reducible exact keeps_dqtLoop h _ _ _ _
    | with_reducible refine keeps_ite ?_ ?_
    | with_reducible refine keeps_bind ?_ (fun _ => ?_)

theorem keeps_dhtLoop (h : Frame.Jpeg P) (p : List Byte) (n k o : Nat) : Keeps P (dhtLoop p n k o) := by
  induction k generalizing o with
  | zero => exact keeps_pure
  | succ k ih =>
    unfold dhtLoop
    try dsimp only
    repeat' first
      | with_reducible exact keeps_pure
      | with_reducible exact keeps_look
      | with_reducible exact keeps_raiseIf
      | with_reducible exact keeps_raise
      | with_reducible exact keeps_buildTable h.toTables _ _ _
      | with_reducible exact ih _
      | with_reducible refine keeps_ite ?_ ?_
      | with_reducible refine keeps_bind ?_ (fun _ => ?_)

theorem keeps_dht (h : Frame.Jpeg P) (n : Nat) : Keeps P (dht n) := by
  unfold dht
  try dsimp only
  repeat' first
    | with_reducible exact keeps_pure
    | with_reducible exact keeps_look
    | with_reducible exact keeps_raiseIf
    | with_reducible exact keeps_raise
    | with_reducible exact keeps_readFull h.toRaw _
    | with_reducible exact keeps_dhtLoop h _ _ _ _
    | with_reducible refine keeps_ite ?_ ?_
    | with_reducible refine keeps_bind ?_ (fun _ => ?_)

theorem keeps_dri (h : Frame.Jpeg P) (n : Nat) : Keeps P (dri n) := by
  unfold dri
  try dsimp only
  repeat' first
    | with_reducible exact keeps_pure
    | with_reducible exact keeps_look
    | with_reducible exact keeps_raiseIf
    | with_reducible exact keeps_raise
    | with_reducible exact keeps_readFull h.toRaw _
    | exact keeps_alter (fun s hs => h.jpg s _ hs)
    | with_reducible refine keeps_ite ?_ ?_
    | with_reducible refine keeps_bind ?_ (fun _ => ?_)

theorem keeps_restartMarker (h : Frame.Jpeg P) (n : BitVec 3) : Keeps P (restartMarker n) := by
  unfold restartMarker
  try dsimp only
  repeat' first
    | with_reducible exact keeps_pure
    | with_reducible exact keeps_look
    | with_reducible exact keeps_raiseIf
    | with_reducible exact keeps_raise
    | exact keeps_alter (fun s hs => Frame.Jpeg.onJpg h (Frame.Jpeg.resetEntropy h hs) _)
    | with_reducible refine keeps_ite ?_ ?_
    | with_reducible refine keeps_bind ?_ (fun _ => ?_)

theorem keeps_restart (h : Frame.Jpeg P) : Keeps P restart := by
  unfold restart
  try dsimp only
  repeat' first
    | with_reducible exact keeps_pure
    | with_reducible exact keeps_look
    | with_reducible exact keeps_raiseIf
    | with_reducible exact keeps_raise
    | with_reducible exact keeps_readFull h.toRaw _
    | with_reducible exact keeps_restartMarker h _
    | with_reducible refine keeps_ite ?_ ?_
    | with_reducible refine keeps_bind ?_ (fun _ => ?_)
    | split

theorem keeps_readEobrun (h : Frame.Jpeg P) (r : Nat) : Keeps P (readEobrun r) := by
  unfold readEobrun
  try dsimp only
  repeat' first
    | with_reducible exact keeps_pure
    | with_reducible exact keeps_look
    | with_reducible exact keeps_raiseIf
    | with_reducible exact keeps_raise
    | with_reducible exact keeps_decodeBits h.toReader _
    | exact keeps_alter (fun s hs => h.jpg s _ hs)
    | with_reducible refine keeps_ite ?_ ?_
    | with_reducible refine keeps_bind ?_ (fun _ => ?_)

theorem keeps_acLoop (h : Frame.Jpeg P) (t : HuffTable) (se al k zig : Nat) : Keeps P (acLoop t se al k zig) := by
  induction k generalizing zig with
  | zero => exact keeps_pure
  | succ k ih =>
    unfold acLoop
    try dsimp only
    repeat' first
      | with_reducible exact keeps_pure
      | with_reducible exact keeps_look
      | with_reducible exact keeps_raiseIf
      | with_reducible exact keeps_raise
      | with_reducible exact keeps_huffDecode h.toReader _
      | with_reducible exact keeps_receiveExtend h.toReader _
      | exact keeps_alter (fun s hs => h.zz s _ hs)
      | with_reducible exact keeps_readEobrun h _
      | exact keeps_alter (fun s hs => h.jpg s _ hs)
      | with_reducible exact ih _
      | with_reducible refine keeps_ite ?_ ?_
      | with_reducible refine keeps_bind ?_ (fun _ => ?_)

theorem keeps_firstPassAc (h : Frame.Jpeg P) (ta zig : Nat) : Keeps P (firstPassAc ta zig) := by
  unfold firstPassAc
  try dsimp only
  repeat' first
    | with_reducible exact keeps_pure
    | with_reducible exact keeps_look
    | with_reducible exact keeps_raiseIf
    | with_reducible exact keeps_raise
    | with_reducible exact keeps_acLoop h _ _ _ _ _
    | exact keeps_alter (fun s hs => h.jpg s _ hs)
    | with_reducible refine keeps_ite ?_ ?_
    | with_reducible refine keeps_bind ?_ (fun _ => ?_)

theorem keeps_firstPassDc (h : Frame.Jpeg P) (ci td : Nat) : Keeps P (firstPassDc ci td) := by
  unfold firstPassDc
  try dsimp only
  repeat' first
    | with_reducible exact keeps_pure
    | with_reducible exact keeps_look
    | with_reducible exact keeps_raiseIf
    | with_reducible exact keeps_raise
    | with_reducible exact keeps_huffDecode h.toReader _
    | with_reducible exact keeps_receiveExtend h.toReader _
    | exact keeps_alter (fun s hs => h.jpg s _ hs)
    | exact keeps_alter (fun s hs => h.zz s _ hs)
    | with_reducible refine keeps_ite ?_ ?_
    | with_reducible refine keeps_bind ?_ (fun _ => ?_)

theorem keeps_firstPass (h : Frame.Jpeg P) (ci : Nat) : Keeps P (firstPass ci) := by
  unfold firstPass
  try dsimp only
  repeat' first
    | with_reducible exact keeps_pure
    | with_reducible exact keeps_look
    | with_reducible exact keeps_raiseIf
    | with_reducible exact keeps_raise
    | with_reducible exact keeps_firstPassDc h _ _
    | with_reducible exact keeps_firstPassAc h _ _
    | with_reducible refine keeps_ite ?_ ?_
    | with_reducible refine keeps_bind ?_ (fun _ => ?_)

theorem keeps_refineNonZeroes (h : Frame.Jpeg P) (se : Nat) (delta : Word) (k zig : Nat) (nz : Int) :
    Keeps P (refineNonZeroes se delta k zig nz) := by
  induction k generalizing zig nz with
  | zero => exact keeps_pure
  | succ k ih =>
    unfold refineNonZeroes
    try dsimp only
    repeat' first
      | with_reducible exact keeps_pure
      | with_reducible exact keeps_look
      | with_reducible exact keeps_raiseIf
      | with_reducible exact keeps_raise
      | with_reducible exact keeps_decodeBit h.toReader
      | exact keeps_alter (fun s hs => h.zz s _ hs)
      | with_reducible exact ih _ _
      | with_reducible refine keeps_ite ?_ ?_
      | with_reducible refine keeps_bind ?_ (fun _ => ?_)

theorem keeps_refineValue (h : Frame.Reader P) (rs : Byte) (delta : Word) : Keeps P (refineValue rs delta) := by
  unfold refineValue
  try dsimp only
  repeat' first
    | with_reducible exact keeps_pure
    | with_reducible exact keeps_look
    | with_reducible exact keeps_raiseIf
    | with_reducible exact keeps_raise
    | with_reducible exact keeps_decodeBit h
    | with_reducible refine keeps_ite ?_ ?_
    | with_reducible refine keeps_bind ?_ (fun _ => ?_)

theorem keeps_refineLoop (h : Frame.Jpeg P) (t : HuffTable) (se : Nat) (delta : Word) (k zig : Nat) : Keeps P (refineLoop t se delta k zig) := by
  induction k generalizing zig with
  | zero => exact keeps_pure
  | succ k ih =>
    unfold refineLoop
    try dsimp only
    repeat' first
      | with_reducible exact keeps_pure
      | with_reducible exact keeps_look
      | with_reducible exact keeps_raiseIf
      | with_reducible exact keeps_raise
      | with_reducible exact keeps_huffDecode h.toReader _
      | with_reducible exact keeps_readEobrun h _
      | with_reducible exact keeps_refineValue h.toReader _ _
      | with_reducible exact keeps_refineNonZeroes h _ _ _ _ _
      | exact keeps_alter (fun s hs => h.zz s _ hs)
      | with_reducible exact ih _
      | with_reducible refine keeps_ite ?_ ?_
      | with_reducible refine keeps_bind ?_ (fun _ => ?_)

theorem keeps_refineAc (h : Frame.Jpeg P) (ta : Nat) (delta : Word) : Keeps P (refineAc ta delta) := by
  unfold refineAc
  try dsimp only
  repeat' first
    | with_reducible exact keeps_pure
    | with_reducible exact keeps_look
    | with_reducible exact keeps_raiseIf
    | with_reducible exact keeps_raise
    | with_reducible exact keeps_refineLoop h _ _ _ _ _
    | with_reducible exact keeps_refineNonZeroes h _ _ _ _ _
    | exact keeps_alter (fun s hs => h.jpg s _ hs)
    | with_reducible refine keeps_ite ?_ ?_
    | with_reducible refine keeps_bind ?_ (fun _ => ?_)

theorem keeps_refineBlock (h : Frame.Jpeg P) (ci : Nat) : Keeps P (refineBlock ci) := by
  unfold refineBlock
  try dsimp only
  repeat' first
    | with_reducible exact keeps_pure
    | with_reducible exact keeps_look
    | with_reducible exact keeps_raiseIf
    | with_reducible exact keeps_raise
    | with_reducible exact keeps_decodeBit h.toReader
    | exact keeps_alter (fun s hs => h.zz s _ hs)
    | with_reducible exact keeps_refineAc h _ _
    | with_reducible refine keeps_ite ?_ ?_
    | with_reducible refine keeps_bind ?_ (fun _ => ?_)

theorem keeps_reconstruct (h : Frame.Jpeg P) (i bx by_ : Nat) : Keeps P (reconstruct i bx by_) := by
  unfold reconstruct
  try dsimp only
  repeat' first
    | with_reducible exact keeps_pure
    | with_reducible exact keeps_look
    | with_reducible exact keeps_raiseIf
    | with_reducible exact keeps_raise
    | exact keeps_alter (fun s hs => Frame.Jpeg.reconstructed h hs _ _ _)
    | with_reducible refine keeps_ite ?_ ?_
    | with_reducible refine keeps_bind ?_ (fun _ => ?_)

theorem keeps_decodeBlock (h : Frame.Jpeg P) (i bx by_ : Nat) : Keeps P (decodeBlock i bx by_) := by
  unfold decodeBlock
  try dsimp only
  repeat' first
    | with_reducible exact keeps_pure
    | with_reducible exact keeps_look
    | with_reducible exact keeps_raiseIf
    | with_reducible exact keeps_raise
    | exact keeps_alter (fun s hs => h.zz s _ hs)
    | exact keeps_alter (fun s hs => h.coef s _ hs)
    | with_reducible exact keeps_refineBlock h _
    | with_reducible exact keeps_firstPass h _
    | with_reducible exact keeps_reconstruct h _ _ _
    | with_reducible refine keeps_ite ?_ ?_
    | with_reducible refine keeps_bind ?_ (fun _ => ?_)

theorem keeps_reconstructAll (h : Frame.Jpeg P) : Keeps P reconstructAll := by
  unfold reconstructAll
  try dsimp only
  repeat' first
    | with_reducible exact keeps_pure
    | with_reducible exact keeps_look
    | with_reducible exact keeps_raiseIf
    | with_reducible exact keeps_raise
    | refine keeps_forUpTo (fun _ => ?_) _
    | exact keeps_alter (fun s hs => h.zz s _ hs)
    | with_reducible exact keeps_reconstruct h _ _ _
    | with_reducible refine keeps_ite ?_ ?_
    | with_reducible refine keeps_bind ?_ (fun _ => ?_)

theorem keeps_eoi (h : Frame.Jpeg P) : Keeps P eoi := by
  unfold eoi
  try dsimp only
  repeat' first
    | with_reducible exact keeps_pure
    | with_reducible exact keeps_look
    | with_reducible exact keeps_raiseIf
    | with_reducible exact keeps_raise
    | with_reducible exact keeps_reconstructAll h
    | exact keeps_alter (fun s hs => h.jpg s _ hs)
    | with_reducible refine keeps_ite ?_ ?_
    | with_reducible refine keeps_bind ?_ (fun _ => ?_)

theorem keeps_selectors (p : List Byte) (n j : Nat) (acc : List ScanComp) : Keeps P (selectors p n j acc) := by
  induction n generalizing j acc with
  | zero => exact keeps_pure
  | succ n ih =>
    unfold selectors
    try dsimp only
    repeat' first
      | with_reducible exact keeps_pure
      | with_reducible exact keeps_look
      | with_reducible exact keeps_raiseIf
      | with_reducible exact keeps_raise
      | with_reducible exact ih _ _
      | with_reducible refine keeps_ite ?_ ?_
      | with_reducible refine keeps_bind ?_ (fun _ => ?_)

theorem keeps_checkProgressive (q : ScanPar) (ns : Nat) : Keeps P (checkProgressive q ns) := by
  unfold checkProgressive
  repeat' first
    | with_reducible exact keeps_pure
    | with_reducible exact keeps_look
    | with_reducible exact keeps_raiseIf
    | with_reducible exact keeps_raise
    | with_reducible refine keeps_ite ?_ ?_
    | with_reducible refine keeps_bind ?_ (fun _ => ?_)

theorem keeps_checkTables (q : ScanPar) (c : ScanComp) : Keeps P (checkTables q c) := by
  unfold checkTables
  repeat' first
    | with_reducible exact keeps_pure
    | with_reducible exact keeps_look
    | with_reducible exact keeps_raiseIf
    | with_reducible exact keeps_raise
    | with_reducible refine keeps_ite ?_ ?_
    | with_reducible refine keeps_bind ?_ (fun _ => ?_)

theorem keeps_mcuBlocks (h : Frame.Jpeg P) (ux uy : Nat) (sc : ScanComp) : Keeps P (mcuBlocks ux uy sc) := by
  unfold mcuBlocks
  try dsimp only
  repeat' first
    | with_reducible exact keeps_pure
    | with_reducible exact keeps_look
    | with_reducible exact keeps_raiseIf
    | with_reducible exact keeps_raise
    | refine keeps_forUpTo (fun _ => ?_) _
    | with_reducible exact keeps_decodeBlock h _ _ _
    | with_reducible refine keeps_ite ?_ ?_
    | with_reducible refine keeps_bind ?_ (fun _ => ?_)

theorem keeps_scanUnit (h : Frame.Jpeg P) (cs : List ScanComp) (ux uy : Nat) : Keeps P (scanUnit cs ux uy) := by
  unfold scanUnit
  try dsimp only
  repeat' first
    | with_reducible exact keeps_pure
    | with_reducible exact keeps_look
    | with_reducible exact keeps_raiseIf
    | with_reducible exact keeps_raise
    | with_reducible exact keeps_decodeBlock h _ _ _
    | with_reducible exact keeps_forEach (fun _ => keeps_mcuBlocks h _ _ _) _
    | with_reducible refine keeps_ite ?_ ?_
    | with_reducible refine keeps_bind ?_ (fun _ => ?_)
    | split

theorem keeps_mcuLoop (h : Frame.Jpeg P) (cs : List ScanComp) : Keeps P (mcuLoop cs) := by
  unfold mcuLoop
  try dsimp only
  repeat' first
    | with_reducible exact keeps_pure
    | with_reducible exact keeps_look
    | with_reducible exact keeps_raiseIf
    | with_reducible exact keeps_raise
    | refine keeps_forUpTo (fun _ => ?_) _
    | with_reducible exact keeps_scanUnit h _ _ _
    | with_reducible exact keeps_restart h
    | with_reducible refine keeps_ite ?_ ?_
    | with_reducible refine keeps_bind ?_ (fun _ => ?_)

theorem keeps_sos (h : Frame.Jpeg P) (n : Nat) : Keeps P (sos n) := by
  unfold sos
  try dsimp only
  repeat' first
    | with_reducible exact keeps_pure
    | with_reducible exact keeps_look
    | with_reducible exact keeps_raiseIf
    | with_reducible exact keeps_raise
    | with_reducible exact keeps_readFull h.toRaw _
    | with_reducible exact keeps_selectors _ _ _ _
    | with_reducible exact keeps_checkProgressive _ _
    | with_reducible exact keeps_forEach (fun _ => keeps_checkTables _ _) _
    | with_reducible exact keeps_mcuLoop h _
    | exact keeps_alter (fun s hs => Frame.Jpeg.startScan h hs _ _)
    | exact keeps_alter (fun s hs => Frame.Jpeg.endScan h hs)
    | with_reducible refine keeps_ite ?_ ?_
    | with_reducible refine keeps_bind ?_ (fun _ => ?_)

theorem keeps_segment (h : Frame.Jpeg P) {f : Nat → Exec Unit} (hf : ∀ n, Keeps P (f n)) : Keeps P (segment f) :=
  keeps_bind (keeps_segmentLength h.toRaw) hf

theorem keeps_rst (h : Frame.Jpeg P) (n : BitVec 3) : Keeps P (rst n) := by
  unfold rst
  repeat' first
    | with_reducible exact keeps_pure
    | with_reducible exact keeps_look
    | with_reducible exact keeps_raiseIf
    | with_reducible exact keeps_raise
    | with_reducible exact keeps_restartMarker h _
    | with_reducible refine keeps_ite ?_ ?_
    | with_reducible refine keeps_bind ?_ (fun _ => ?_)

theorem keeps_runMarker (h : Frame.Jpeg P) (k : Marker) : Keeps P (runMarker k) := by
  cases k <;> unfold runMarker
  case soi => exact keeps_bind keeps_look (fun _ => keeps_raise)
  case eoi => exact keeps_eoi h
  case rst n => exact keeps_rst h n
  case sof0 => exact keeps_segment h (keeps_sof h _)
  case sof1 => exact keeps_segment h (keeps_sof h _)
  case sof2 => exact keeps_segment h (keeps_sof h _)
  case dht => exact keeps_segment h (keeps_dht h)
  case dqt => exact keeps_segment h (keeps_dqt h)
  case dri => exact keeps_segment h (keeps_dri h)
  case sos => exact keeps_segment h (keeps_sos h)
  case app n => exact keeps_ite (keeps_segment h (keeps_app14 h)) (keeps_segment h (keeps_ignore h.toReader))
  case com => exact keeps_segment h (keeps_ignore h.toReader)

theorem keeps_runElement (h : Frame.Jpeg P) (k : Marker) : Keeps P (runElement k) := by
  unfold runElement
  try dsimp only
  repeat' first
    | with_reducible exact keeps_pure
    | with_reducible exact keeps_look
    | with_reducible exact keeps_raiseIf
    | with_reducible exact keeps_raise
    | with_reducible exact keeps_runMarker h _
    | exact keeps_alter (fun s hs => h.jpg s _ hs)
    | with_reducible refine keeps_ite ?_ ?_
    | with_reducible refine keeps_bind ?_ (fun _ => ?_)

theorem keeps_firstElement (h : Frame.Jpeg P) : Keeps P firstElement := by
  unfold firstElement
  try dsimp only
  repeat' first
    | with_reducible exact keeps_pure
    | with_reducible exact keeps_look
    | with_reducible exact keeps_raiseIf
    | with_reducible exact keeps_raise
    | with_reducible exact keeps_readFull h.toRaw _
    | exact keeps_alter (fun s hs => h.jpg s _ hs)
    | with_reducible refine keeps_ite ?_ ?_
    | with_reducible refine keeps_bind ?_ (fun _ => ?_)

theorem keeps_jpegStep (h : Frame.Jpeg P) : Keeps P jpegStep := by
  unfold jpegStep
  try dsimp only
  repeat' first
    | with_reducible exact keeps_pure
    | with_reducible exact keeps_look
    | with_reducible exact keeps_raiseIf
    | with_reducible exact keeps_raise
    | with_reducible exact keeps_nextMarker h.toRaw
    | with_reducible exact keeps_runMarker h _
    | with_reducible exact keeps_firstElement h
    | with_reducible refine keeps_ite ?_ ?_
    | with_reducible refine keeps_bind ?_ (fun _ => ?_)
    | split

theorem keeps_jpegLoop (h : Frame.Jpeg P) (k : Nat) : Keeps P (jpegLoop k) := by
  induction k with
  | zero => exact keeps_pure
  | succ k ih =>
    unfold jpegLoop
    try dsimp only
    repeat' first
      | with_reducible exact keeps_pure
      | with_reducible exact keeps_look
      | with_reducible exact keeps_raiseIf
      | with_reducible exact keeps_raise
      | with_reducible exact keeps_jpegStep h
      | with_reducible exact ih
      | with_reducible refine keeps_ite ?_ ?_
      | with_reducible refine keeps_bind ?_ (fun _ => ?_)

theorem keeps_failingJpeg (h : Frame.Jpeg P) {m : Exec α} (hm : Keeps P m) : Keeps P (failingJpeg m) :=
  keeps_onRaise hm (fun _ hs => h.jpg _ _ hs)

theorem keeps_requireDecoding : Keeps P requireDecoding := keeps_bind keeps_look (fun _ => keeps_raiseIf)

/-! ## JPEG encode -/

theorem keeps_encodeAc (h : Frame.Writer P) (t : HuffTable) (zs : List Word) (run : Nat) :
    Keeps P (encodeAc t zs run) := by
  induction zs generalizing run with
  | nil => exact keeps_ite (keeps_huffEncode h _ _) keeps_pure
  | cons z zs ih =>
    unfold encodeAc
    repeat' first
      | with_reducible exact keeps_pure
      | with_reducible exact keeps_look
      | with_reducible exact keeps_raiseIf
      | with_reducible exact keeps_raise
      | with_reducible exact ih _
      | with_reducible exact keeps_forUpTo (fun _ => keeps_huffEncode h _ _) _
      | with_reducible exact keeps_emitValue h _ _ _
      | with_reducible refine keeps_ite ?_ ?_
      | with_reducible refine keeps_bind ?_ (fun _ => ?_)

theorem keeps_encodeBlock (h : Frame.Writer P) (t : Nat) (pred : Word) : Keeps P (encodeBlock t pred) := by
  unfold encodeBlock
  try dsimp only
  repeat' first
    | with_reducible exact keeps_pure
    | with_reducible exact keeps_look
    | with_reducible exact keeps_raiseIf
    | with_reducible exact keeps_raise
    | with_reducible exact keeps_emitValue h _ _ _
    | with_reducible exact keeps_encodeAc h _ _ _
    | with_reducible refine keeps_ite ?_ ?_
    | with_reducible refine keeps_bind ?_ (fun _ => ?_)

theorem keeps_encodeComponent (h : Frame.Writer P) (hb : Frame.Blocks P) (c t tx ty : Nat) (pred : Word) :
    Keeps P (encodeComponent c t tx ty pred) := by
  unfold encodeComponent
  repeat' first
    | with_reducible exact keeps_pure
    | with_reducible exact keeps_look
    | with_reducible exact keeps_raiseIf
    | with_reducible exact keeps_raise
    | with_reducible exact keeps_quant hb _
    | with_reducible exact keeps_encodeBlock h _ _
    | exact keeps_alter (fun s hs => hb.blk _ _ (hb.blk _ _ hs))
    | with_reducible refine keeps_ite ?_ ?_
    | with_reducible refine keeps_bind ?_ (fun _ => ?_)

theorem keeps_encodeTile (h : Frame.Writer P) (hb : Frame.Blocks P) (tx ty : Nat) (p : Preds) :
    Keeps P (encodeTile tx ty p) := by
  unfold encodeTile
  repeat' first
    | with_reducible exact keeps_pure
    | with_reducible exact keeps_look
    | with_reducible exact keeps_raiseIf
    | with_reducible exact keeps_raise
    | with_reducible exact keeps_encodeComponent h hb _ _ _ _ _
    | with_reducible refine keeps_ite ?_ ?_
    | with_reducible refine keeps_bind ?_ (fun _ => ?_)

theorem keeps_encodeTiles (h : Frame.Writer P) (hb : Frame.Blocks P) (ts : List (Nat × Nat)) (p : Preds) :
    Keeps P (encodeTiles ts p) := by
  induction ts generalizing p with
  | nil => exact keeps_pure
  | cons t ts ih => exact keeps_bind (keeps_encodeTile h hb _ _ _) (fun _ => ih _)

/-! ## LZW -/

theorem keeps_rawByte (h : Frame.LzwDec P) : Keeps P rawByte := by
  unfold rawByte
  try dsimp only
  repeat' first
    | with_reducible exact keeps_pure
    | with_reducible exact keeps_look
    | with_reducible exact keeps_raiseIf
    | with_reducible exact keeps_raise
    | exact keeps_alter (fun s hs => h.pos s _ hs)
    | with_reducible refine keeps_ite ?_ ?_
    | with_reducible refine keeps_bind ?_ (fun _ => ?_)

theorem keeps_sbByte (h : Frame.LzwDec P) : Keeps P sbByte := by
  unfold sbByte
  try dsimp only
  repeat' first
    | with_reducible exact keeps_pure
    | with_reducible exact keeps_look
    | with_reducible exact keeps_raiseIf
    | with_reducible exact keeps_raise
    | with_reducible exact keeps_rawByte h
    | exact keeps_alter (fun s hs => h.sub s _ hs)
    | with_reducible refine keeps_ite ?_ ?_
    | with_reducible refine keeps_bind ?_ (fun _ => ?_)

theorem keeps_skipToTerminator (h : Frame.LzwDec P) : Keeps P skipToTerminator := by
  unfold skipToTerminator
  try dsimp only
  repeat' first
    | with_reducible exact keeps_pure
    | with_reducible exact keeps_look
    | with_reducible exact keeps_raiseIf
    | with_reducible exact keeps_raise
    | with_reducible exact keeps_sbByte h
    | refine keeps_loopFuel ?_ _
    | with_reducible refine keeps_ite ?_ ?_
    | with_reducible refine keeps_bind ?_ (fun _ => ?_)

theorem keeps_fillCode (h : Frame.LzwDec P) (k w : Nat) : Keeps P (fillCode k w) := by
  induction k with
  | zero => exact keeps_pure
  | succ k ih =>
    unfold fillCode
    repeat' first
      | with_reducible exact keeps_pure
      | with_reducible exact keeps_look
      | with_reducible exact keeps_raiseIf
      | with_reducible exact keeps_raise
      | with_reducible exact keeps_sbByte h
      | exact keeps_alter (fun s hs => h.lzd s _ hs)
      | with_reducible exact ih
      | with_reducible refine keeps_ite ?_ ?_
      | with_reducible refine keeps_bind ?_ (fun _ => ?_)
      | split

theorem keeps_readCode (h : Frame.LzwDec P) (w : Nat) : Keeps P (readCode w) := by
  unfold readCode
  try dsimp only
  repeat' first
    | with_reducible exact keeps_pure
    | with_reducible exact keeps_look
    | with_reducible exact keeps_raiseIf
    | with_reducible exact keeps_raise
    | with_reducible exact keeps_fillCode h _ _
    | exact keeps_alter (fun s hs => h.lzd s _ hs)
    | with_reducible refine keeps_ite ?_ ?_
    | with_reducible refine keeps_bind ?_ (fun _ => ?_)

theorem Frame.LzwDec.lzdAdd (h : Frame.LzwDec P) {s : State} (hs : P s) (p : BitVec 12) (v : Byte) :
    P (s.lzdAdd p v) := by
  unfold State.lzdAdd
  split
  · exact h.lzd _ _ hs
  · exact hs

theorem keeps_dataCode (h : Frame.LzwDec P) (cc npix cnt code : Nat) : Keeps P (dataCode cc npix cnt code) := by
  unfold dataCode
  try dsimp only
  repeat' first
    | with_reducible exact keeps_pure
    | with_reducible exact keeps_look
    | with_reducible exact keeps_raiseIf
    | with_reducible exact keeps_raise
    | exact keeps_alter (fun s hs => h.lzd _ _ (h.idx _ _ hs))
    | exact keeps_alter (fun s hs => h.lzd _ _ (Frame.LzwDec.lzdAdd h (h.idx _ _ hs) _ _))
    | with_reducible refine keeps_ite ?_ ?_
    | with_reducible refine keeps_bind ?_ (fun _ => ?_)
    | split

theorem keeps_codeLoop (h : Frame.LzwDec P) (bitDepth npix k cnt : Nat) : Keeps P (codeLoop bitDepth npix k cnt) := by
  induction k generalizing cnt with
  | zero => exact keeps_pure
  | succ k ih =>
    unfold codeLoop
    try dsimp only
    repeat' first
      | with_reducible exact keeps_pure
      | with_reducible exact keeps_look
      | with_reducible exact keeps_raiseIf
      | with_reducible exact keeps_raise
      | with_reducible exact keeps_readCode h _
      | with_reducible exact keeps_dataCode h _ _ _ _
      | exact keeps_alter (fun s hs => h.lzd s _ hs)
      | with_reducible exact ih _
      | with_reducible refine keeps_ite ?_ ?_
      | with_reducible refine keeps_bind ?_ (fun _ => ?_)
      | split

theorem Frame.LzwDec.lzdStart (h : Frame.LzwDec P) {s : State} (hs : P s) (n : Nat) : P (s.lzdStart n) := by
  have h1 := h.lzd s (s.lzdStart n).lzd hs
  exact h.sub _ SubBlocks.fresh h1

theorem keeps_lzwDecode (h : Frame.LzwDec P) (bitDepth npix : Nat) : Keeps P (lzwDecode bitDepth npix) := by
  unfold lzwDecode
  try dsimp only
  repeat' first
    | with_reducible exact keeps_pure
    | with_reducible exact keeps_look
    | with_reducible exact keeps_raiseIf
    | with_reducible exact keeps_raise
    | with_reducible exact keeps_codeLoop h _ _ _ _
    | with_reducible exact keeps_skipToTerminator h
    | exact keeps_alter (fun s hs => Frame.LzwDec.lzdStart h hs _)
    | exact keeps_alter (fun s hs => h.idx s _ hs)
    | with_reducible refine keeps_ite ?_ ?_
    | with_reducible refine keeps_bind ?_ (fun _ => ?_)

theorem keeps_putByte (h : Frame.LzwEnc P) (b : Byte) : Keeps P (putByte b) := by
  unfold putByte
  try dsimp only
  repeat' first
    | with_reducible exact keeps_pure
    | with_reducible exact keeps_look
    | with_reducible exact keeps_raiseIf
    | with_reducible exact keeps_raise
    | with_reducible exact keeps_out h.toOut _
    | with_reducible exact keeps_outAll h.toOut _
    | exact keeps_alter (fun s hs => h.lze s _ hs)
    | with_reducible refine keeps_ite ?_ ?_
    | with_reducible refine keeps_bind ?_ (fun _ => ?_)

theorem keeps_packLoop (h : Frame.LzwEnc P) (k : Nat) : Keeps P (packLoop k) := by
  induction k with
  | zero => exact keeps_pure
  | succ k ih =>
    unfold packLoop
    try dsimp only
    repeat' first
      | with_reducible exact keeps_pure
      | with_reducible exact keeps_look
      | with_reducible exact keeps_raiseIf
      | with_reducible exact keeps_raise
      | with_reducible exact keeps_putByte h _
      | exact keeps_alter (fun s hs => h.lze s _ hs)
      | with_reducible exact ih
      | with_reducible refine keeps_ite ?_ ?_
      | with_reducible refine keeps_bind ?_ (fun _ => ?_)

theorem keeps_emitCode (h : Frame.LzwEnc P) (code : Nat) : Keeps P (emitCode code) := by
  unfold emitCode
  try dsimp only
  repeat' first
    | with_reducible exact keeps_pure
    | with_reducible exact keeps_look
    | with_reducible exact keeps_raiseIf
    | with_reducible exact keeps_raise
    | with_reducible exact keeps_packLoop h _
    | exact keeps_alter (fun s hs => h.lze s _ hs)
    | with_reducible refine keeps_ite ?_ ?_
    | with_reducible refine keeps_bind ?_ (fun _ => ?_)

theorem keeps_encodeLoop (h : Frame.LzwEnc P) (bitDepth : Nat) (vs : List Byte) (p : BitVec 12) (c : Nat) :
    Keeps P (encodeLoop bitDepth vs p c) := by
  induction vs generalizing p c with
  | nil => exact keeps_pure
  | cons v vs ih =>
    unfold encodeLoop
    repeat' first
      | with_reducible exact keeps_pure
      | with_reducible exact keeps_look
      | with_reducible exact keeps_raiseIf
      | with_reducible exact keeps_raise
      | with_reducible exact keeps_emitCode h _
      | exact keeps_alter (fun s hs => h.lze s _ hs)
      | with_reducible exact ih _ _
      | with_reducible refine keeps_ite ?_ ?_
      | with_reducible refine keeps_bind ?_ (fun _ => ?_)
      | split

theorem keeps_encodeFinish (h : Frame.LzwEnc P) : Keeps P encodeFinish := by
  unfold encodeFinish
  try dsimp only
  repeat' first
    | with_reducible exact keeps_pure
    | with_reducible exact keeps_look
    | with_reducible exact keeps_raiseIf
    | with_reducible exact keeps_raise
    | with_reducible exact keeps_putByte h _
    | with_reducible exact keeps_out h.toOut _
    | with_reducible exact keeps_outAll h.toOut _
    | exact keeps_alter (fun s hs => h.lze s _ hs)
    | with_reducible refine keeps_ite ?_ ?_
    | with_reducible refine keeps_bind ?_ (fun _ => ?_)

theorem keeps_encodeData (h : Frame.LzwEnc P) (bitDepth : Nat) (vs : List Byte) : Keeps P (encodeData bitDepth vs) := by
  unfold encodeData
  try dsimp only
  repeat' first
    | with_reducible exact keeps_pure
    | with_reducible exact keeps_look
    | with_reducible exact keeps_raiseIf
    | with_reducible exact keeps_raise
    | with_reducible exact keeps_encodeLoop h _ _ _ _
    | with_reducible exact keeps_emitCode h _
    | exact keeps_alter (fun s hs => h.lze s _ hs)
    | with_reducible refine keeps_ite ?_ ?_
    | with_reducible refine keeps_bind ?_ (fun _ => ?_)
    | split

theorem keeps_lzwEncode (h : Frame.LzwEnc P) (bitDepth n : Nat) : Keeps P (lzwEncode bitDepth n) := by
  unfold lzwEncode
  try dsimp only
  repeat' first
    | with_reducible exact keeps_pure
    | with_reducible exact keeps_look
    | with_reducible exact keeps_raiseIf
    | with_reducible exact keeps_raise
    | with_reducible exact keeps_encodeData h _ _
    | with_reducible exact keeps_emitCode h _
    | with_reducible exact keeps_encodeFinish h
    | exact keeps_alter (fun s hs => h.lze s _ hs)
    | with_reducible refine keeps_ite ?_ ?_
    | with_reducible refine keeps_bind ?_ (fun _ => ?_)

/-! ## Octree -/

theorem keeps_octAdd (h : Frame.Octree P) (p : Word) : Keeps P (octAdd p) := by
  unfold octAdd
  try dsimp only
  repeat' first
    | with_reducible exact keeps_pure
    | with_reducible exact keeps_look
    | with_reducible exact keeps_raiseIf
    | with_reducible exact keeps_raise
    | exact keeps_alter (fun s hs => h.oct s _ hs)
    | with_reducible refine keeps_ite ?_ ?_
    | with_reducible refine keeps_bind ?_ (fun _ => ?_)

theorem Frame.Octree.putPalette (h : Frame.Octree P) {s : State} (hs : P s) : P s.putPalette := by
  have h1 := h.oct s s.putPalette.oct hs
  exact h.pal _ s.putPalette.palLen s.putPalette.transpIdx s.putPalette.mem.pal h1

theorem keeps_octPalette (h : Frame.Octree P) : Keeps P octPalette := by
  unfold octPalette
  try dsimp only
  repeat' first
    | with_reducible exact keeps_pure
    | with_reducible exact keeps_look
    | with_reducible exact keeps_raiseIf
    | with_reducible exact keeps_raise
    | exact keeps_alter (fun s hs => Frame.Octree.putPalette h hs)
    | with_reducible refine keeps_ite ?_ ?_
    | with_reducible refine keeps_bind ?_ (fun _ => ?_)

theorem keeps_octIndex (p : Word) : Keeps P (octIndex p) := by
  unfold octIndex
  try dsimp only
  repeat' first
    | with_reducible exact keeps_pure
    | with_reducible exact keeps_look
    | with_reducible exact keeps_raiseIf
    | with_reducible exact keeps_raise
    | with_reducible refine keeps_ite ?_ ?_
    | with_reducible refine keeps_bind ?_ (fun _ => ?_)

theorem keeps_addPixels (h : Frame.Octree P) (n : Nat) : Keeps P (addPixels n) := by
  unfold addPixels
  try dsimp only
  repeat' first
    | with_reducible exact keeps_pure
    | with_reducible exact keeps_look
    | with_reducible exact keeps_raiseIf
    | with_reducible exact keeps_raise
    | with_reducible exact keeps_forEach (fun _ => keeps_octAdd h _) _
    | with_reducible refine keeps_ite ?_ ?_
    | with_reducible refine keeps_bind ?_ (fun _ => ?_)

theorem keeps_indexPixel (h : Frame.Octree P) (i : Nat) : Keeps P (indexPixel i) := by
  unfold indexPixel
  try dsimp only
  repeat' first
    | with_reducible exact keeps_pure
    | with_reducible exact keeps_look
    | with_reducible exact keeps_raiseIf
    | with_reducible exact keeps_raise
    | with_reducible exact keeps_octIndex _
    | exact keeps_alter (fun s hs => h.idx s _ hs)
    | with_reducible refine keeps_ite ?_ ?_
    | with_reducible refine keeps_bind ?_ (fun _ => ?_)

theorem keeps_octQuantize (h : Frame.Octree P) (req : Nat) : Keeps P (octQuantize req) := by
  unfold octQuantize
  try dsimp only
  repeat' first
    | with_reducible exact keeps_pure
    | with_reducible exact keeps_look
    | with_reducible exact keeps_raiseIf
    | with_reducible exact keeps_raise
    | with_reducible exact keeps_addPixels h _
    | with_reducible exact keeps_octPalette h
    | with_reducible exact keeps_forUpTo (fun _ => keeps_indexPixel h _) _
    | exact keeps_alter (fun s hs => h.oct s _ hs)
    | with_reducible refine keeps_ite ?_ ?_
    | with_reducible refine keeps_bind ?_ (fun _ => ?_)

/-! ## GIF -/

theorem keeps_gRead (h : ∀ s v, P s → P { s with inPos := v }) (n : Nat) : Keeps P (gRead n) := by
  unfold gRead
  repeat' first
    | with_reducible exact keeps_pure
    | with_reducible exact keeps_look
    | with_reducible exact keeps_raiseIf
    | with_reducible exact keeps_raise
    | exact keeps_alter (fun s hs => h _ _ hs)
    | with_reducible refine keeps_ite ?_ ?_
    | with_reducible refine keeps_bind ?_ (fun _ => ?_)

theorem keeps_readColours (h : Frame.Gif P) (n : Nat) : Keeps P (readColours n) := by
  unfold readColours
  try dsimp only
  repeat' first
    | with_reducible exact keeps_pure
    | with_reducible exact keeps_look
    | with_reducible exact keeps_raiseIf
    | with_reducible exact keeps_raise
    | with_reducible exact keeps_gRead h.pos _
    | with_reducible refine keeps_ite ?_ ?_
    | with_reducible refine keeps_bind ?_ (fun _ => ?_)

theorem keeps_gifScreen (h : Frame.Gif P) : Keeps P gifScreen := by
  unfold gifScreen
  try dsimp only
  repeat' first
    | with_reducible exact keeps_pure
    | with_reducible exact keeps_look
    | with_reducible exact keeps_raiseIf
    | with_reducible exact keeps_raise
    | with_reducible exact keeps_gRead h.pos _
    | with_reducible exact keeps_readColours h _
    | exact keeps_alter (fun s hs => h.gct (s.putScreen _) _ (h.gif s _ hs))
    | exact keeps_alter (fun s hs => h.gct s _ hs)
    | exact keeps_alter (fun s hs => h.canvas s _ hs)
    | exact keeps_alter (fun s hs => h.gif s _ hs)
    | with_reducible refine keeps_ite ?_ ?_
    | with_reducible refine keeps_bind ?_ (fun _ => ?_)

theorem keeps_gifHeader (h : Frame.Gif P) : Keeps P gifHeader := by
  unfold gifHeader
  try dsimp only
  repeat' first
    | with_reducible exact keeps_pure
    | with_reducible exact keeps_look
    | with_reducible exact keeps_raiseIf
    | with_reducible exact keeps_raise
    | with_reducible exact keeps_gRead h.pos _
    | with_reducible exact keeps_gifScreen h
    | with_reducible refine keeps_ite ?_ ?_
    | with_reducible refine keeps_bind ?_ (fun _ => ?_)

theorem keeps_graphicControl (h : Frame.Gif P) : Keeps P graphicControl := by
  unfold graphicControl
  try dsimp only
  repeat' first
    | with_reducible exact keeps_pure
    | with_reducible exact keeps_look
    | with_reducible exact keeps_raiseIf
    | with_reducible exact keeps_raise
    | with_reducible exact keeps_gRead h.pos _
    | exact keeps_alter (fun s hs => h.gif s _ hs)
    | with_reducible refine keeps_ite ?_ ?_
    | with_reducible refine keeps_bind ?_ (fun _ => ?_)

theorem keeps_skipExtension (h : Frame.Gif P) : Keeps P skipExtension := by
  unfold skipExtension
  try dsimp only
  repeat' first
    | with_reducible exact keeps_pure
    | with_reducible exact keeps_look
    | with_reducible exact keeps_raiseIf
    | with_reducible exact keeps_raise
    | with_reducible exact keeps_skipToTerminator h.toLzwDec
    | exact keeps_alter (fun s hs => h.sub s _ hs)
    | with_reducible refine keeps_ite ?_ ?_
    | with_reducible refine keeps_bind ?_ (fun _ => ?_)

theorem keeps_compositePixel (h : Frame.Gif P) (d : ImageDesc) (gc : GraphicControl) (r y x : Nat) : Keeps P (compositePixel d gc r y x) := by
  unfold compositePixel
  try dsimp only
  repeat' first
    | with_reducible exact keeps_pure
    | with_reducible exact keeps_look
    | with_reducible exact keeps_raiseIf
    | with_reducible exact keeps_raise
    | exact keeps_alter (fun s hs => h.canvas s _ hs)
    | with_reducible refine keeps_ite ?_ ?_
    | with_reducible refine keeps_bind ?_ (fun _ => ?_)

theorem keeps_composite (h : Frame.Gif P) (d : ImageDesc) (gc : GraphicControl) : Keeps P (composite d gc) := by
  unfold composite
  try dsimp only
  repeat' first
    | with_reducible exact keeps_pure
    | with_reducible exact keeps_look
    | with_reducible exact keeps_raiseIf
    | with_reducible exact keeps_raise
    | with_reducible exact keeps_forEach (fun _ => keeps_forUpTo (fun _ => keeps_compositePixel h _ _ _ _ _) _) _

theorem keeps_imageTable (h : Frame.Gif P) (d : ImageDesc) : Keeps P (imageTable d) := by
  unfold imageTable
  try dsimp only
  repeat' first
    | with_reducible exact keeps_pure
    | with_reducible exact keeps_look
    | with_reducible exact keeps_raiseIf
    | with_reducible exact keeps_raise
    | with_reducible exact keeps_readColours h _
    | exact keeps_alter (fun s hs => h.lct s _ hs)
    | with_reducible refine keeps_ite ?_ ?_
    | with_reducible refine keeps_bind ?_ (fun _ => ?_)

theorem Frame.Gif.disposePrevious (h : Frame.Gif P) {s : State} (hs : P s) : P s.disposePrevious := by
  unfold State.disposePrevious
  split
  · exact h.canvas _ _ hs
  · split
    · exact h.canvas _ _ hs
    · exact hs

theorem keeps_imageSection (h : Frame.Gif P) : Keeps P imageSection := by
  unfold imageSection
  try dsimp only
  repeat' first
    | with_reducible exact keeps_pure
    | with_reducible exact keeps_look
    | with_reducible exact keeps_raiseIf
    | with_reducible exact keeps_raise
    | with_reducible exact keeps_gRead h.pos _
    | with_reducible exact keeps_imageTable h _
    | with_reducible exact keeps_lzwDecode h.toLzwDec _ _
    | with_reducible exact keeps_composite h _ _
    | exact keeps_alter (fun s hs => h.trunc s _ hs)
    | exact keeps_alter (fun s hs => Frame.Gif.disposePrevious h hs)
    | exact keeps_alter (fun s hs => h.snap s _ hs)
    | exact keeps_alter (fun s hs => h.gif _ _ (h.frame _ _ hs))
    | with_reducible refine keeps_ite ?_ ?_
    | with_reducible refine keeps_bind ?_ (fun _ => ?_)

theorem keeps_runSection (h : Frame.Gif P) (sec : Sect) : Keeps P (runSection sec) := by
  cases sec <;> unfold runSection
  case image => exact keeps_imageSection h
  case graphicControl => exact keeps_graphicControl h
  case trailer => exact keeps_alter (fun _ hs => h.gif _ _ hs)
  all_goals exact keeps_skipExtension h

theorem keeps_fetchSection (h : Frame.Gif P) : Keeps P fetchSection := by
  unfold fetchSection
  try dsimp only
  repeat' first
    | with_reducible exact keeps_pure
    | with_reducible exact keeps_look
    | with_reducible exact keeps_raiseIf
    | with_reducible exact keeps_raise
    | with_reducible exact keeps_gRead h.pos _
    | with_reducible refine keeps_ite ?_ ?_
    | with_reducible refine keeps_bind ?_ (fun _ => ?_)

theorem keeps_gifStep (h : Frame.Gif P) : Keeps P gifStep := by
  unfold gifStep
  try dsimp only
  repeat' first
    | with_reducible exact keeps_pure
    | with_reducible exact keeps_look
    | with_reducible exact keeps_raiseIf
    | with_reducible exact keeps_raise
    | with_reducible exact keeps_fetchSection h
    | with_reducible exact keeps_runSection h _
    | with_reducible refine keeps_ite ?_ ?_
    | with_reducible refine keeps_bind ?_ (fun _ => ?_)

theorem keeps_failingGif (h : Frame.Gif P) {m : Exec α} (hm : Keeps P m) : Keeps P (failingGif m) :=
  keeps_onRaise hm (fun _ hs => h.gif _ _ hs)

theorem keeps_gifLoop (h : Frame.Gif P) (k : Nat) (f : Bool) : Keeps P (gifLoop k f) := by
  induction k generalizing f with
  | zero => exact keeps_pure
  | succ k ih =>
    unfold gifLoop
    repeat' first
      | with_reducible exact keeps_pure
      | with_reducible exact keeps_look
      | with_reducible exact keeps_raiseIf
      | with_reducible exact keeps_raise
      | with_reducible exact keeps_failingGif h (keeps_gifStep h)
      | with_reducible exact ih _
      | with_reducible refine keeps_ite ?_ ?_
      | with_reducible refine keeps_bind ?_ (fun _ => ?_)

theorem keeps_requireGif (st : GifState) : Keeps P (requireGif st) := keeps_bind keeps_look (fun _ => keeps_raiseIf)

theorem keeps_requireDims : Keeps P requireDims := keeps_bind keeps_look (fun _ => keeps_raiseIf)

theorem keeps_netscape (h : Frame.Out P) (hg : ∀ s g, P s → P { s with genc := g }) : Keeps P netscape := by
  unfold netscape
  repeat' first
    | with_reducible exact keeps_pure
    | with_reducible exact keeps_look
    | with_reducible exact keeps_raiseIf
    | with_reducible exact keeps_raise
    | with_reducible exact keeps_outAll h _
    | exact keeps_alter (fun s hs => hg _ _ hs)
    | with_reducible refine keeps_ite ?_ ?_
    | with_reducible refine keeps_bind ?_ (fun _ => ?_)

end Exec

end Sys2Proof.Machine
end

