-- ==== Sys2Proof/Laws/Memory.lean ====
section
/-! SUPPORT. The laws of a memory space: what a read gives after each write, that every write keeps the canonical form,
and that two spaces in canonical form with the same content are equal. -/

namespace Sys2Proof.Machine

open Sys2Proof

namespace Cells

variable {w : Nat}

/-- Every index of the list is at least `k`. -/
abbrev From (k : Nat) (c : Cells w) : Prop := ∀ p ∈ c, k ≤ p.1

@[simp] theorem get_nil (a : Nat) : get ([] : Cells w) a = 0 := rfl

theorem get_cons (k : Nat) (v : BitVec w) (c : Cells w) (a : Nat) :
    get ((k, v) :: c) a = if k = a then v else get c a := rfl

/-- An index below every listed one reads 0. -/
theorem get_of_from {c : Cells w} {k a : Nat} (h : From k c) (ha : a < k) : get c a = 0 := by
  induction c with
  | nil => rfl
  | cons p c ih =>
    obtain ⟨j, v⟩ := p
    have hj : k ≤ j := h (j, v) (by simp)
    rw [get_cons, if_neg (by omega)]
    exact ih (fun q hq => h q (by simp [hq]))

/-- Two concatenated lists: the first one that lists the index decides. -/
theorem get_append (c d : Cells w) (a : Nat) :
    get (c ++ d) a = if a ∈ c.map Prod.fst then get c a else get d a := by
  induction c with
  | nil => simp
  | cons p c ih =>
    obtain ⟨j, v⟩ := p
    by_cases h : j = a
    · subst h; simp [get_cons]
    · simp [get_cons, h, ih, Ne.symm h, eq_comm]

theorem get_eq_zero_of_not_mem {c : Cells w} {a : Nat} (h : a ∉ c.map Prod.fst) : get c a = 0 := by
  induction c with
  | nil => rfl
  | cons p c ih =>
    obtain ⟨j, v⟩ := p
    simp only [List.map_cons, List.mem_cons, not_or] at h
    rw [get_cons, if_neg (Ne.symm h.1)]
    exact ih h.2

/-! ## Canonical form -/

theorem wf_nil : Cells.wf ([] : Cells w) := by simp [Cells.wf]

theorem wf_cons {k : Nat} {v : BitVec w} {c : Cells w} :
    Cells.wf ((k, v) :: c) ↔ From (k + 1) c ∧ v ≠ 0 ∧ Cells.wf c := by
  simp only [Cells.wf, List.pairwise_cons, List.mem_cons, forall_eq_or_imp, From, Nat.succ_le_iff]
  tauto

theorem from_mono {c : Cells w} {j k : Nat} (h : From k c) (hj : j ≤ k) : From j c :=
  fun p hp => hj.trans (h p hp)

/-- A single write: the index it writes reads the value, every other reads as before. -/
theorem get_set (c : Cells w) (a : Nat) (v : BitVec w) (b : Nat) (h : c.wf) :
    get (set c a v) b = if b = a then v else get c b := by
  induction c with
  | nil =>
    unfold set
    by_cases hv : v = 0
    · rw [if_pos hv, get_nil]; split <;> simp [hv]
    · rw [if_neg hv, get_cons, get_nil]
      by_cases hb : b = a
      · rw [if_pos hb, if_pos hb.symm]
      · rw [if_neg hb, if_neg (Ne.symm hb)]
  | cons p c ih =>
    obtain ⟨k, u⟩ := p
    obtain ⟨hk, hu, hc⟩ := wf_cons.1 h
    have h0 : ∀ x, x ≤ k → get c x = 0 := fun x hx => get_of_from hk (by omega)
    unfold set
    split
    · by_cases hv : v = 0
      · by_cases hb : b = a
        · simp [hv, hb, get_cons, h0 a (by omega), show ¬ k = a by omega]
        · simp [hv, hb]
      · rw [if_neg hv]
        by_cases hb : b = a
        · rw [if_pos hb, get_cons, if_pos hb.symm]
        · rw [if_neg hb, get_cons, if_neg (Ne.symm hb)]
    · split
      · subst k
        by_cases hv : v = 0
        · by_cases hb : b = a
          · simp [hv, hb, h0]
          · simp [hv, hb, get_cons, Ne.symm hb]
        · rw [if_neg hv]
          by_cases hb : b = a
          · rw [if_pos hb, get_cons, if_pos hb.symm]
          · rw [if_neg hb, get_cons, get_cons, if_neg (Ne.symm hb), if_neg (Ne.symm hb)]
      · by_cases hb : b = k
        · have : ¬ b = a := by omega
          simp [get_cons, hb, show ¬ k = a by omega]
        · simp [get_cons, Ne.symm hb, ih hc]

theorem from_set {c : Cells w} {k a : Nat} {v : BitVec w} (h : From k c) (ha : k ≤ a) : From k (set c a v) := by
  induction c with
  | nil => intro p hp; unfold set at hp; split at hp <;> simp_all
  | cons q c ih =>
    obtain ⟨j, u⟩ := q
    have hj : k ≤ j := h (j, u) (by simp)
    have hc : From k c := fun p hp => h p (by simp [hp])
    intro p hp
    unfold set at hp
    split at hp
    · split at hp
      · exact h p hp
      · rcases List.mem_cons.1 hp with rfl | hp
        · exact ha
        · exact h p hp
    · split at hp
      · split at hp
        · exact hc p hp
        · rcases List.mem_cons.1 hp with rfl | hp
          · exact ha
          · exact hc p hp
      · rcases List.mem_cons.1 hp with rfl | hp
        · exact hj
        · exact ih hc p hp

theorem wf_set {c : Cells w} (h : c.wf) (a : Nat) (v : BitVec w) : (set c a v).wf := by
  induction c with
  | nil =>
    unfold set
    split
    · exact wf_nil
    · exact wf_cons.2 ⟨by simp, ‹_›, wf_nil⟩
  | cons p c ih =>
    obtain ⟨k, u⟩ := p
    obtain ⟨hk, hu, hc⟩ := wf_cons.1 h
    unfold set
    split
    · split
      · exact h
      · refine wf_cons.2 ⟨?_, ‹_›, h⟩
        intro p hp
        rcases List.mem_cons.1 hp with rfl | hp
        · simp; omega
        · have := hk p hp; omega
    · split
      · split
        · exact hc
        · subst k; exact wf_cons.2 ⟨hk, ‹_›, hc⟩
      · exact wf_cons.2 ⟨from_set hk (by omega), hu, ih hc⟩

theorem mem_below {c : Cells w} {a : Nat} {p : Nat × BitVec w} : p ∈ below c a ↔ p ∈ c ∧ p.1 < a := by
  simp [below]

theorem mem_above {c : Cells w} {a : Nat} {p : Nat × BitVec w} : p ∈ above c a ↔ p ∈ c ∧ a ≤ p.1 := by
  simp [above]

theorem wf_filter {c : Cells w} (h : c.wf) (f : Nat × BitVec w → Bool) : Cells.wf (c.filter f) :=
  ⟨h.1.filter f, fun p hp => h.2 p (List.mem_of_mem_filter hp)⟩

theorem wf_append {c d : Cells w} (hc : c.wf) (hd : d.wf) (h : ∀ p ∈ c, ∀ q ∈ d, p.1 < q.1) : Cells.wf (c ++ d) :=
  ⟨List.pairwise_append.2 ⟨hc.1, hd.1, h⟩, fun p hp => (List.mem_append.1 hp).elim (hc.2 p) (hd.2 p)⟩

theorem mem_entriesFrom {vs : List (BitVec w)} {a : Nat} {p : Nat × BitVec w} (h : p ∈ entriesFrom a vs) :
    a ≤ p.1 ∧ p.1 < a + vs.length ∧ p.2 ≠ 0 := by
  induction vs generalizing a with
  | nil => simp [entriesFrom] at h
  | cons v vs ih =>
    unfold entriesFrom at h
    split at h
    · obtain ⟨h1, h2, h3⟩ := ih h
      exact ⟨by omega, by simp; omega, h3⟩
    · rcases List.mem_cons.1 h with rfl | h
      · exact ⟨le_refl _, by simp, ‹_›⟩
      · obtain ⟨h1, h2, h3⟩ := ih h
        exact ⟨by omega, by simp; omega, h3⟩

theorem wf_entriesFrom (vs : List (BitVec w)) (a : Nat) : (entriesFrom a vs).wf := by
  induction vs generalizing a with
  | nil => exact wf_nil
  | cons v vs ih =>
    unfold entriesFrom
    split
    · exact ih _
    · exact wf_cons.2 ⟨fun p hp => (mem_entriesFrom hp).1, ‹_›, ih _⟩

theorem wf_setRange {c : Cells w} (h : c.wf) (a : Nat) (vs : List (BitVec w)) : (setRange c a vs).wf := by
  refine wf_append (wf_filter h _) (wf_append (wf_entriesFrom vs a) (wf_filter h _) ?_) ?_
  · intro p hp q hq
    have := mem_entriesFrom hp
    have := (mem_above.1 hq).2
    omega
  · intro p hp q hq
    have hp := (mem_below.1 hp).2
    rcases List.mem_append.1 hq with hq | hq
    · have := mem_entriesFrom hq
      omega
    · have := (mem_above.1 hq).2
      omega

theorem wf_clearRange {c : Cells w} (h : c.wf) (a n : Nat) : (clearRange c a n).wf := by
  refine wf_append (wf_filter h _) (wf_filter h _) ?_
  intro p hp q hq
  have := (mem_below.1 hp).2
  have := (mem_above.1 hq).2
  omega

theorem wf_copyFront {c d : Cells w} (hc : c.wf) (hd : d.wf) (n : Nat) : (copyFront c d n).wf := by
  refine wf_append (wf_filter hd _) (wf_filter hc _) ?_
  intro p hp q hq
  have := (mem_below.1 hp).2
  have := (mem_above.1 hq).2
  omega

/-! ## Reads after range writes -/

theorem get_below (c : Cells w) (a b : Nat) : get (below c a) b = if b < a then get c b else 0 := by
  induction c with
  | nil => simp [below]
  | cons p c ih =>
    obtain ⟨k, v⟩ := p
    simp only [below, List.filter_cons] at ih ⊢
    by_cases hk : k < a
    · simp only [hk, decide_true, ↓reduceIte, get_cons, ih]
      by_cases hb : k = b
      · subst hb; simp [hk]
      · simp [hb]
    · simp only [hk, decide_false, Bool.false_eq_true, ↓reduceIte, ih, get_cons]
      by_cases hb : k = b
      · subst hb; simp [hk]
      · simp [hb]

theorem get_above (c : Cells w) (a b : Nat) : get (above c a) b = if a ≤ b then get c b else 0 := by
  induction c with
  | nil => simp [above]
  | cons p c ih =>
    obtain ⟨k, v⟩ := p
    simp only [above, List.filter_cons] at ih ⊢
    by_cases hk : a ≤ k
    · simp only [hk, decide_true, ↓reduceIte, get_cons, ih]
      by_cases hb : k = b
      · subst hb; simp [hk]
      · simp [hb]
    · simp only [hk, decide_false, Bool.false_eq_true, ↓reduceIte, ih, get_cons]
      by_cases hb : k = b
      · subst hb; simp [hk]
      · simp [hb]

theorem get_entriesFrom (vs : List (BitVec w)) (a b : Nat) :
    get (entriesFrom a vs) b = if a ≤ b then vs.getD (b - a) 0 else 0 := by
  induction vs generalizing a with
  | nil => simp [entriesFrom]
  | cons v vs ih =>
    unfold entriesFrom
    by_cases hb : a = b
    · subst hb
      by_cases hv : v = 0
      · simp [hv, ih]
      · rw [if_neg hv]; simp [get_cons]
    · by_cases hv : v = 0
      · rw [if_pos hv, ih]
        by_cases h : a + 1 ≤ b
        · rw [if_pos h, if_pos (by omega), show b - a = (b - (a + 1)) + 1 by omega, List.getD_cons_succ]
        · rw [if_neg h, if_neg (by omega)]
      · rw [if_neg hv, get_cons, if_neg hb, ih]
        by_cases h : a + 1 ≤ b
        · rw [if_pos h, if_pos (by omega), show b - a = (b - (a + 1)) + 1 by omega, List.getD_cons_succ]
        · rw [if_neg h, if_neg (by omega)]

/-- A write of consecutive elements: each of them reads its value, every other element reads as before. -/
theorem get_setRange (c : Cells w) (a : Nat) (vs : List (BitVec w)) (b : Nat) :
    get (setRange c a vs) b = if a ≤ b ∧ b < a + vs.length then vs.getD (b - a) 0 else get c b := by
  unfold setRange
  rw [get_append, get_append]
  by_cases h1 : b ∈ (below c a).map Prod.fst
  · obtain ⟨p, hp, rfl⟩ := List.mem_map.1 h1
    have := (mem_below.1 hp).2
    rw [if_pos h1, get_below, if_pos this, if_neg (by omega)]
  · rw [if_neg h1]
    by_cases h2 : b ∈ (entriesFrom a vs).map Prod.fst
    · obtain ⟨p, hp, rfl⟩ := List.mem_map.1 h2
      obtain ⟨h3, h4, -⟩ := mem_entriesFrom hp
      rw [if_pos h2, get_entriesFrom, if_pos h3, if_pos ⟨h3, h4⟩]
    · rw [if_neg h2, get_above]
      have e := get_eq_zero_of_not_mem h2
      rw [get_entriesFrom] at e
      have f := get_eq_zero_of_not_mem h1
      rw [get_below] at f
      by_cases h3 : a ≤ b
      · by_cases h4 : b < a + vs.length
        · rw [if_pos h3] at e
          rw [if_neg (by omega), if_pos ⟨h3, h4⟩, e]
        · rw [if_pos (by omega), if_neg (by omega)]
      · rw [if_neg (by omega), if_neg (by omega)]
        rw [if_pos (by omega)] at f
        exact f.symm

/-- Cleared elements read 0, every other element reads as before. -/
theorem get_clearRange (c : Cells w) (a n b : Nat) :
    get (clearRange c a n) b = if a ≤ b ∧ b < a + n then 0 else get c b := by
  unfold clearRange
  rw [get_append, get_below, get_above]
  by_cases h1 : b ∈ (below c a).map Prod.fst
  · obtain ⟨p, hp, rfl⟩ := List.mem_map.1 h1
    have := (mem_below.1 hp).2
    rw [if_pos h1, if_pos this, if_neg (by omega)]
  · have f := get_eq_zero_of_not_mem h1
    rw [get_below] at f
    rw [if_neg h1]
    by_cases h2 : a + n ≤ b
    · rw [if_pos h2, if_neg (by omega)]
    · rw [if_neg h2]
      by_cases h3 : a ≤ b
      · rw [if_pos ⟨h3, by omega⟩]
      · rw [if_neg (by omega)]
        rw [if_pos (by omega)] at f
        exact f.symm

/-- The first `n` elements read as the source's, every other element reads as before. -/
theorem get_copyFront (dst src : Cells w) (n b : Nat) :
    get (copyFront dst src n) b = if b < n then get src b else get dst b := by
  unfold copyFront
  rw [get_append, get_below, get_above]
  by_cases h1 : b ∈ (below src n).map Prod.fst
  · obtain ⟨p, hp, rfl⟩ := List.mem_map.1 h1
    have := (mem_below.1 hp).2
    rw [if_pos h1, if_pos this, if_pos this]
  · have f := get_eq_zero_of_not_mem h1
    rw [get_below] at f
    rw [if_neg h1]
    by_cases h2 : b < n
    · rw [if_pos h2] at f
      rw [if_neg (by omega), if_pos h2, f]
    · rw [if_pos (by omega), if_neg h2]

@[simp] theorem length_getRange (c : Cells w) (a n : Nat) : (getRange c a n).length = n := by simp [getRange]

theorem getElem_getRange (c : Cells w) (a n i : Nat) (h : i < (getRange c a n).length) :
    (getRange c a n)[i] = get c (a + i) := by simp [getRange]

theorem getD_getRange (c : Cells w) (a n i : Nat) (v : BitVec w) :
    (getRange c a n).getD i v = if i < n then get c (a + i) else v := by
  by_cases h : i < n
  · simp [getRange, h]
  · simp [getRange, h]

/-! ## Equality -/

/-- Equal content is equal data. -/
theorem ext_of_wf {c d : Cells w} (hc : c.wf) (hd : d.wf) (h : ∀ a, get c a = get d a) : c = d := by
  induction c generalizing d with
  | nil =>
    cases d with
    | nil => rfl
    | cons q d =>
      obtain ⟨j, u⟩ := q
      have := h j
      simp only [get_nil, get_cons, ↓reduceIte] at this
      exact absurd this.symm (wf_cons.1 hd).2.1
  | cons p c ih =>
    obtain ⟨k, v⟩ := p
    obtain ⟨hk, hv, hc'⟩ := wf_cons.1 hc
    cases d with
    | nil =>
      have := h k
      simp only [get_nil, get_cons, ↓reduceIte] at this
      exact absurd this hv
    | cons q d =>
      obtain ⟨j, u⟩ := q
      obtain ⟨hj, hu, hd'⟩ := wf_cons.1 hd
      have hkj : k = j := by
        rcases Nat.lt_trichotomy k j with hlt | rfl | hlt
        · have := h k
          rw [get_cons, get_cons, if_pos rfl, if_neg (by omega), get_of_from hj (by omega)] at this
          exact absurd this hv
        · rfl
        · have := h j
          rw [get_cons, get_cons, if_neg (by omega), if_pos rfl, get_of_from hk (by omega)] at this
          exact absurd this.symm hu
      subst hkj
      have hvu : v = u := by
        have := h k
        simpa only [get_cons, ↓reduceIte] using this
      subst hvu
      rw [ih hc' hd' (fun a => ?_)]
      have := h a
      rw [get_cons, get_cons] at this
      by_cases ha : k = a
      · subst ha; rw [get_of_from hk (by omega), get_of_from hj (by omega)]
      · rwa [if_neg ha, if_neg ha] at this

end Cells

/-- The empty memory is in its canonical form. -/
theorem Memory.wf_empty : Memory.empty.wf := by
  refine ⟨?_, ?_, ?_, ?_, ?_, ?_, ?_, ?_, ?_, ?_, ?_, ?_, ?_, ?_, ?_, ?_⟩ <;>
    first
    | exact Cells.wf_nil
    | (intro i; simp [Memory.empty, Cells.wf])

end Sys2Proof.Machine
end

