-- ==== Sys2Proof/Laws/Ops.lean ====
section
/-! SUPPORT. What the shared stream operations come to, exactly: one law per operation for the case where it completes
and one for the case where it raises, which proofs cite instead of unfolding the operation. -/

namespace Sys2Proof.Machine

open Sys2Proof

/-- A value read from the state goes to what follows. -/
theorem exec_look_bind {α β : Type} (f : State → α) (m : α → Exec β) (s : State) : (look f >>= m) s = m (f s) s := rfl

/-- What follows a change of the state starts from the changed state. -/
theorem exec_alter_bind {β : Type} (f : State → State) (m : Unit → Exec β) (s : State) :
    (alter f >>= m) s = m () (f s) := rfl

/-- A check, and what follows it. -/
theorem exec_check {α : Type} (c : Prop) [Decidable c] (f : HwFault) (i : Word) (m : Unit → Exec α) (s : State) :
    (raiseIf c f i >>= m) s = if c then .error ⟨f, i⟩ s else m () s := by
  rw [exec_bind, exec_raiseIf]
  by_cases h : c
  · rw [if_pos h, if_pos h]
  · rw [if_neg h, if_neg h]

section
variable {s : State}

/-! ## The output stream -/

/-- `out` appends its byte, or raises with nothing written. -/
theorem out_eq (b : Byte) (s : State) :
    out b s = if s.outLen.toNat = s.caps.outCap then .error ⟨.capacityExceeded, 1⟩ s else .ok () (s.appendOut b) := by
  unfold out
  rw [exec_look_bind, exec_check]
  rfl

@[simp] theorem appended_nil : s.appended [] = s := rfl

@[simp] theorem appended_cons (b : Byte) (bs : List Byte) :
    s.appended (b :: bs) = (s.appendOut b).appended bs := rfl

theorem appended_append (bs cs : List Byte) : s.appended (bs ++ cs) = (s.appended bs).appended cs := by
  unfold State.appended
  rw [List.foldl_append]

@[simp] theorem appendOut_caps (b : Byte) : (s.appendOut b).caps = s.caps := rfl

@[simp] theorem appendOut_outLen (b : Byte) : (s.appendOut b).outLen = s.outLen + 1 := rfl

@[simp] theorem appended_caps (bs : List Byte) : (s.appended bs).caps = s.caps := by
  induction bs generalizing s with
  | nil => rfl
  | cons b bs ih => rw [appended_cons, ih, appendOut_caps]

theorem appended_outLen (bs : List Byte) : (s.appended bs).outLen = s.outLen + wordN bs.length := by
  induction bs generalizing s with
  | nil => simp [wordN]
  | cons b bs ih =>
    rw [appended_cons, ih, appendOut_outLen, List.length_cons, wordN, wordN, BitVec.ofNat_add, BitVec.add_assoc]
    exact congrArg (s.outLen + ·) (BitVec.add_comm _ _)

/-- Only OUT and OUT_LEN differ. -/
theorem appended_frame (bs : List Byte) :
    s.appended bs = { s with
      outLen := (s.appended bs).outLen, mem := { s.mem with out := (s.appended bs).mem.out } } := by
  induction bs generalizing s with
  | nil => rfl
  | cons b bs ih => rw [appended_cons, ih]; rfl

/-- With room for its bytes `outAll` completes, and only appends them. -/
theorem outAll_ok (bs : List Byte) (h : s.RoomFor bs) (hcap : s.caps.outCap < 2 ^ 32) :
    outAll bs s = .ok () (s.appended bs) := by
  induction bs generalizing s with
  | nil => rfl
  | cons b bs ih =>
    unfold State.RoomFor at h
    rw [List.length_cons] at h
    have hl : (s.outLen + 1).toNat = s.outLen.toNat + 1 := by
      rw [BitVec.toNat_add]
      exact Nat.mod_eq_of_lt (by show _ + 1 < _; omega)
    have hr : (s.appendOut b).RoomFor bs := by
      unfold State.RoomFor
      rw [appendOut_outLen, appendOut_caps, hl]
      omega
    unfold outAll at ih ⊢
    rw [forEach_cons, exec_bind, out_eq, if_neg (by omega)]
    exact ih hr hcap

/-! ## The raw stream -/

/-- `gRead` takes all its bytes, or raises with nothing taken (48_gif.md R432). -/
theorem gRead_eq (n : Nat) (s : State) :
    gRead n s = if s.inPos.toNat + n > s.inLen.toNat then .error ⟨.endOfStream, s.inPos⟩ s
      else .ok (s.inBytes s.inPos.toNat n) (s.advance n) := by
  unfold gRead
  rw [exec_look_bind, exec_check]
  rfl

/-- `ignore` moves IN_POS from the realigned position, or raises there (40_bitcursor.md R167). -/
theorem ignore_eq (n : Nat) (s : State) :
    ignore n s = if s.realign.inPos.toNat + n > s.inLen.toNat then
        .error ⟨.endOfStream, s.realign.inPos⟩ s.realign
      else .ok () (s.realign.advance n) := by
  unfold ignore
  rw [exec_alter_bind, exec_look_bind, exec_check]
  rfl

/-- `readFull` stores the raw bytes to TMP and moves IN_POS, or raises at the realigned position (R168). -/
theorem readFull_eq (n : Nat) (s : State) :
    readFull n s = if s.realign.inPos.toNat + n > s.inLen.toNat then
        .error ⟨.endOfStream, s.realign.inPos⟩ s.realign
      else .ok (s.inBytes s.realign.inPos.toNat n)
        ((s.realign.storeTmp (s.inBytes s.realign.inPos.toNat n)).advance n) := by
  unfold readFull
  rw [exec_alter_bind, exec_look_bind, exec_check]
  rfl

/-! ## The reader -/

/-- `fetchByte` buffers one data byte, or raises with nothing fetched (R162). -/
theorem fetchByte_eq (s : State) :
    fetchByte s =
      let c := Cells.get s.mem.inp s.inPos.toNat
      if s.inLen.toNat ≤ s.inPos.toNat then .error ⟨.endOfStream, s.inPos⟩ s
      else if c = 0xFF then
        if s.inLen.toNat ≤ s.inPos.toNat + 1 then .error ⟨.endOfStream, s.inPos⟩ s
        else if Cells.get s.mem.inp (s.inPos.toNat + 1) ≠ 0 then .error ⟨.missingStuffingByte, s.inPos⟩ s
        else .ok () (s.feed c 2)
      else .ok () (s.feed c 1) := by
  unfold fetchByte
  rw [exec_look_bind, exec_check, exec_ite, exec_check, exec_check]
  rfl

/-- Bits that are buffered are taken without a fetch (R164). -/
theorem takeBits_eq (n : Nat) (s : State) : takeBits n s = .ok (s.peekBits n) (s.dropBits n) := rfl

/-- `ensureBits` does nothing where the bits are buffered (R161). -/
theorem ensureBits_buffered (n : Nat) (h : n ≤ s.bcNbits) : ensureBits n s = .ok () s := by
  unfold ensureBits ensureLoop
  simp [Nat.not_lt.mpr h]

/-! ## The writer -/

/-- `flushBits` on an empty writer only clears it (R172). -/
theorem flushBits_empty (h : s.bwNbits = 0) : flushBits s = .ok () s.bwClear := by
  unfold flushBits
  simp [h]

/-! ## Huffman tables -/

/-- `buildTable` stores the table built from its specification, or raises with nothing changed (41_huffman.md R195,
R196). -/
theorem buildTable_eq (c t : Nat) (sp : HuffSpec) (s : State) :
    buildTable c t sp s =
      if sp.total > 256 then .error ⟨.badHuffmanTable, wordN sp.total⟩ s
      else if sp.oversubscribed ≠ none then .error ⟨.huffOversubscribed, wordN (sp.oversubscribed.getD 0)⟩ s
      else .ok () (s.putTable c t sp.build) := by
  unfold buildTable
  rw [exec_check, exec_check]
  rfl

end

end Sys2Proof.Machine
end

