-- ==== Sys2Proof/Laws/PerInstr.lean ====
section
/-! SUPPORT. The shape of an encoding, instruction by instruction: a command word carries an opcode of 30_encoding.md
R114 in its top byte, a stream element starts with FF, with the signature or with a section introducer (R120, R140,
R142). -/

namespace Sys2Proof.Laws.Shape

open Sys2Proof

/-- The top byte of a command word is its opcode. -/
theorem opcOf_cmdWord (opc : Byte) (imm : BitVec 24) : opcOf (cmdWord opc imm) = opc := by
  unfold opcOf cmdWord
  apply BitVec.eq_of_getLsbD_eq
  intro i hi
  simp only [BitVec.getLsbD_extractLsb', BitVec.getLsbD_append]
  simp [hi]

/-- The opcode byte of a command word is at most 8A; a stream element has 1 to 6 bytes, of which the first is FF, 47, 2C,
21 or 3B. -/
def Statement (i : Instr) : Prop :=
  match encode i with
  | .command w => (opcOf w).toNat ≤ 0x8A
  | .stream bs => 1 ≤ bs.length ∧ bs.length ≤ 6 ∧ bs.headD 0 ∈ [0xFF#8, 0x47#8, 0x2C#8, 0x21#8, 0x3B#8]

/-- A command word. -/
theorem of_command {i : Instr} {opc : Byte} {imm : BitVec 24} (h : encode i = .command (cmdWord opc imm))
    (ho : opc.toNat ≤ 0x8A) : Statement i := by
  unfold Statement
  rw [h]
  show (opcOf (cmdWord opc imm)).toNat ≤ 0x8A
  rw [opcOf_cmdWord]
  exact ho

/-- A stream element. -/
theorem of_stream {i : Instr} {bs : List Byte} (h : encode i = .stream bs)
    (hb : 1 ≤ bs.length ∧ bs.length ≤ 6 ∧ bs.headD 0 ∈ [0xFF#8, 0x47#8, 0x2C#8, 0x21#8, 0x3B#8]) : Statement i := by
  unfold Statement
  rw [h]
  exact hb

theorem sysNop : Statement .sysNop := of_command rfl (by decide)
theorem sysSreset : Statement .sysSreset := of_command rfl (by decide)
theorem sysOutclr : Statement .sysOutclr := of_command rfl (by decide)
theorem bcReset : Statement .bcReset := of_command rfl (by decide)
theorem bcEnsure (v : BitVec 5) : Statement (.bcEnsure v) := of_command rfl (by decide)
theorem bcBit : Statement .bcBit := of_command rfl (by decide)
theorem bcBits (v : BitVec 5) : Statement (.bcBits v) := of_command rfl (by decide)
theorem bcRecvext (v : Byte) : Statement (.bcRecvext v) := of_command rfl (by decide)
theorem bcIgnore : Statement .bcIgnore := of_command rfl (by decide)
theorem bcReadfull : Statement .bcReadfull := of_command rfl (by decide)
theorem bcRealign : Statement .bcRealign := of_command rfl (by decide)
theorem bwEmit (v : BitVec 5) : Statement (.bwEmit v) := of_command rfl (by decide)
theorem bwFlush : Statement .bwFlush := of_command rfl (by decide)
theorem hufBuild (tc : BitVec 4) (th : BitVec 4) : Statement (.hufBuild tc th) := of_command rfl (by decide)
theorem hufDec (tc : BitVec 4) (th : BitVec 4) : Statement (.hufDec tc th) := of_command rfl (by decide)
theorem hufEnc (tc : BitVec 4) (th : BitVec 4) : Statement (.hufEnc tc th) := of_command rfl (by decide)
theorem hufEncval (tc : BitVec 4) (th : BitVec 4) : Statement (.hufEncval tc th) := of_command rfl (by decide)
theorem hufLoadstd : Statement .hufLoadstd := of_command rfl (by decide)
theorem dctInv : Statement .dctInv := of_command rfl (by decide)
theorem dctFwd : Statement .dctFwd := of_command rfl (by decide)
theorem blkLevel : Statement .blkLevel := of_command rfl (by decide)
theorem blkClear (v : BitVec 2) : Statement (.blkClear v) := of_command rfl (by decide)
theorem qtScale : Statement .qtScale := of_command rfl (by decide)
theorem qtDeq (v : BitVec 2) : Statement (.qtDeq v) := of_command rfl (by decide)
theorem qtQuant (v : BitVec 2) : Statement (.qtQuant v) := of_command rfl (by decide)
theorem jpgInit : Statement .jpgInit := of_command rfl (by decide)
theorem jpgStep : Statement .jpgStep := of_command rfl (by decide)
theorem jpgDecode : Statement .jpgDecode := of_command rfl (by decide)
theorem jpgAssemble : Statement .jpgAssemble := of_command rfl (by decide)
theorem jpgEncode : Statement .jpgEncode := of_command rfl (by decide)
theorem lzwDec : Statement .lzwDec := of_command rfl (by decide)
theorem lzwEnc : Statement .lzwEnc := of_command rfl (by decide)
theorem octReset : Statement .octReset := of_command rfl (by decide)
theorem octAdd : Statement .octAdd := of_command rfl (by decide)
theorem octBuild : Statement .octBuild := of_command rfl (by decide)
theorem octReduce : Statement .octReduce := of_command rfl (by decide)
theorem octPalette : Statement .octPalette := of_command rfl (by decide)
theorem octIndex : Statement .octIndex := of_command rfl (by decide)
theorem octQuantize : Statement .octQuantize := of_command rfl (by decide)
theorem gifInit : Statement .gifInit := of_command rfl (by decide)
theorem gifHeader : Statement .gifHeader := of_command rfl (by decide)
theorem gifStep : Statement .gifStep := of_command rfl (by decide)
theorem gifDecode : Statement .gifDecode := of_command rfl (by decide)
theorem gifEbegin : Statement .gifEbegin := of_command rfl (by decide)
theorem gifEframe : Statement .gifEframe := of_command rfl (by decide)
theorem gifEend : Statement .gifEend := of_command rfl (by decide)
theorem jpegSoi : Statement .jpegSoi := of_stream rfl (by decide)
theorem jpegEoi : Statement .jpegEoi := of_stream rfl (by decide)
theorem jpegRst (n : BitVec 3) : Statement (.jpegRst n) := of_stream rfl ⟨by simp, by simp, by simp⟩
theorem jpegSof0 : Statement .jpegSof0 := of_stream rfl (by decide)
theorem jpegSof1 : Statement .jpegSof1 := of_stream rfl (by decide)
theorem jpegSof2 : Statement .jpegSof2 := of_stream rfl (by decide)
theorem jpegDht : Statement .jpegDht := of_stream rfl (by decide)
theorem jpegDqt : Statement .jpegDqt := of_stream rfl (by decide)
theorem jpegDri : Statement .jpegDri := of_stream rfl (by decide)
theorem jpegSos : Statement .jpegSos := of_stream rfl (by decide)
theorem jpegApp0 : Statement .jpegApp0 := of_stream rfl (by decide)
theorem jpegApp1 : Statement .jpegApp1 := of_stream rfl (by decide)
theorem jpegApp2 : Statement .jpegApp2 := of_stream rfl (by decide)
theorem jpegApp3 : Statement .jpegApp3 := of_stream rfl (by decide)
theorem jpegApp4 : Statement .jpegApp4 := of_stream rfl (by decide)
theorem jpegApp5 : Statement .jpegApp5 := of_stream rfl (by decide)
theorem jpegApp6 : Statement .jpegApp6 := of_stream rfl (by decide)
theorem jpegApp7 : Statement .jpegApp7 := of_stream rfl (by decide)
theorem jpegApp8 : Statement .jpegApp8 := of_stream rfl (by decide)
theorem jpegApp9 : Statement .jpegApp9 := of_stream rfl (by decide)
theorem jpegApp10 : Statement .jpegApp10 := of_stream rfl (by decide)
theorem jpegApp11 : Statement .jpegApp11 := of_stream rfl (by decide)
theorem jpegApp12 : Statement .jpegApp12 := of_stream rfl (by decide)
theorem jpegApp13 : Statement .jpegApp13 := of_stream rfl (by decide)
theorem jpegApp14 : Statement .jpegApp14 := of_stream rfl (by decide)
theorem jpegApp15 : Statement .jpegApp15 := of_stream rfl (by decide)
theorem jpegCom : Statement .jpegCom := of_stream rfl (by decide)
theorem gifSignature : Statement .gifSignature := of_stream rfl (by decide)
theorem gifImage : Statement .gifImage := of_stream rfl (by decide)
theorem gifExtGraphicControl : Statement .gifExtGraphicControl := of_stream rfl (by decide)
theorem gifExtComment : Statement .gifExtComment := of_stream rfl (by decide)
theorem gifExtApplication : Statement .gifExtApplication := of_stream rfl (by decide)
theorem gifExtPlainText : Statement .gifExtPlainText := of_stream rfl (by decide)
theorem gifExtOther (l : Byte) : Statement (.gifExtOther l) := of_stream rfl ⟨by simp, by simp, by simp⟩
theorem gifTrailer : Statement .gifTrailer := of_stream rfl (by decide)

end Sys2Proof.Laws.Shape
end

