-- ==== Sys2Proof/Laws/State.lean ====
section
/-! SUPPORT. What each update of the state does to each field, one lemma per field per update, so that a proof never
unfolds a record update. -/

namespace Sys2Proof.Machine

open Sys2Proof

section
variable (s : State)
@[simp] theorem State.complete_status : s.complete.status = { s.status with done := true } := rfl
@[simp] theorem State.complete_err : s.complete.err = s.err := rfl
@[simp] theorem State.complete_errInfo : s.complete.errInfo = s.errInfo := rfl
@[simp] theorem State.complete_arg0 : s.complete.arg0 = s.arg0 := rfl
@[simp] theorem State.complete_arg1 : s.complete.arg1 = s.arg1 := rfl
@[simp] theorem State.complete_arg2 : s.complete.arg2 = s.arg2 := rfl
@[simp] theorem State.complete_arg3 : s.complete.arg3 = s.arg3 := rfl
@[simp] theorem State.complete_res0 : s.complete.res0 = s.res0 := rfl
@[simp] theorem State.complete_res1 : s.complete.res1 = s.res1 := rfl
@[simp] theorem State.complete_inPos : s.complete.inPos = s.inPos := rfl
@[simp] theorem State.complete_inLen : s.complete.inLen = s.inLen := rfl
@[simp] theorem State.complete_outLen : s.complete.outLen = s.outLen := rfl
@[simp] theorem State.complete_memSel : s.complete.memSel = s.memSel := rfl
@[simp] theorem State.complete_memAddr : s.complete.memAddr = s.memAddr := rfl
@[simp] theorem State.complete_bcAcc : s.complete.bcAcc = s.bcAcc := rfl
@[simp] theorem State.complete_bcNbits : s.complete.bcNbits = s.bcNbits := rfl
@[simp] theorem State.complete_bwAcc : s.complete.bwAcc = s.bwAcc := rfl
@[simp] theorem State.complete_bwNbits : s.complete.bwNbits = s.bwNbits := rfl
@[simp] theorem State.complete_jpg : s.complete.jpg = s.jpg := rfl
@[simp] theorem State.complete_inScan : s.complete.inScan = s.inScan := rfl
@[simp] theorem State.complete_octAthresh : s.complete.octAthresh = s.octAthresh := rfl
@[simp] theorem State.complete_oct : s.complete.oct = s.oct := rfl
@[simp] theorem State.complete_palLen : s.complete.palLen = s.palLen := rfl
@[simp] theorem State.complete_transpIdx : s.complete.transpIdx = s.transpIdx := rfl
@[simp] theorem State.complete_pixDim : s.complete.pixDim = s.pixDim := rfl
@[simp] theorem State.complete_gif : s.complete.gif = s.gif := rfl
@[simp] theorem State.complete_genc : s.complete.genc = s.genc := rfl
@[simp] theorem State.complete_qtValid : s.complete.qtValid = s.qtValid := rfl
@[simp] theorem State.complete_htValid : s.complete.htValid = s.htValid := rfl
@[simp] theorem State.complete_ht : s.complete.ht = s.ht := rfl
@[simp] theorem State.complete_mem : s.complete.mem = s.mem := rfl
@[simp] theorem State.complete_sub : s.complete.sub = s.sub := rfl
@[simp] theorem State.complete_lzd : s.complete.lzd = s.lzd := rfl
@[simp] theorem State.complete_lze : s.complete.lze = s.lze := rfl
@[simp] theorem State.complete_caps : s.complete.caps = s.caps := rfl
@[simp] theorem State.complete_inputs : s.complete.inputs = s.inputs := rfl
@[simp] theorem State.complete_rdata : s.complete.rdata = s.rdata := rfl
end

section
variable (s : State)
@[simp] theorem State.accept_status : s.accept.status = { s.status with refused := false } := rfl
@[simp] theorem State.accept_err : s.accept.err = s.err := rfl
@[simp] theorem State.accept_errInfo : s.accept.errInfo = s.errInfo := rfl
@[simp] theorem State.accept_arg0 : s.accept.arg0 = s.arg0 := rfl
@[simp] theorem State.accept_arg1 : s.accept.arg1 = s.arg1 := rfl
@[simp] theorem State.accept_arg2 : s.accept.arg2 = s.arg2 := rfl
@[simp] theorem State.accept_arg3 : s.accept.arg3 = s.arg3 := rfl
@[simp] theorem State.accept_res0 : s.accept.res0 = s.res0 := rfl
@[simp] theorem State.accept_res1 : s.accept.res1 = s.res1 := rfl
@[simp] theorem State.accept_inPos : s.accept.inPos = s.inPos := rfl
@[simp] theorem State.accept_inLen : s.accept.inLen = s.inLen := rfl
@[simp] theorem State.accept_outLen : s.accept.outLen = s.outLen := rfl
@[simp] theorem State.accept_memSel : s.accept.memSel = s.memSel := rfl
@[simp] theorem State.accept_memAddr : s.accept.memAddr = s.memAddr := rfl
@[simp] theorem State.accept_bcAcc : s.accept.bcAcc = s.bcAcc := rfl
@[simp] theorem State.accept_bcNbits : s.accept.bcNbits = s.bcNbits := rfl
@[simp] theorem State.accept_bwAcc : s.accept.bwAcc = s.bwAcc := rfl
@[simp] theorem State.accept_bwNbits : s.accept.bwNbits = s.bwNbits := rfl
@[simp] theorem State.accept_jpg : s.accept.jpg = s.jpg := rfl
@[simp] theorem State.accept_inScan : s.accept.inScan = s.inScan := rfl
@[simp] theorem State.accept_octAthresh : s.accept.octAthresh = s.octAthresh := rfl
@[simp] theorem State.accept_oct : s.accept.oct = s.oct := rfl
@[simp] theorem State.accept_palLen : s.accept.palLen = s.palLen := rfl
@[simp] theorem State.accept_transpIdx : s.accept.transpIdx = s.transpIdx := rfl
@[simp] theorem State.accept_pixDim : s.accept.pixDim = s.pixDim := rfl
@[simp] theorem State.accept_gif : s.accept.gif = s.gif := rfl
@[simp] theorem State.accept_genc : s.accept.genc = s.genc := rfl
@[simp] theorem State.accept_qtValid : s.accept.qtValid = s.qtValid := rfl
@[simp] theorem State.accept_htValid : s.accept.htValid = s.htValid := rfl
@[simp] theorem State.accept_ht : s.accept.ht = s.ht := rfl
@[simp] theorem State.accept_mem : s.accept.mem = s.mem := rfl
@[simp] theorem State.accept_sub : s.accept.sub = s.sub := rfl
@[simp] theorem State.accept_lzd : s.accept.lzd = s.lzd := rfl
@[simp] theorem State.accept_lze : s.accept.lze = s.lze := rfl
@[simp] theorem State.accept_caps : s.accept.caps = s.caps := rfl
@[simp] theorem State.accept_inputs : s.accept.inputs = s.inputs := rfl
@[simp] theorem State.accept_rdata : s.accept.rdata = s.rdata := rfl
end

section
variable (s : State)
@[simp] theorem State.refuse_status : s.refuse.status = { s.status with refused := true, done := false } := rfl
@[simp] theorem State.refuse_err : s.refuse.err = s.err := rfl
@[simp] theorem State.refuse_errInfo : s.refuse.errInfo = s.errInfo := rfl
@[simp] theorem State.refuse_arg0 : s.refuse.arg0 = s.arg0 := rfl
@[simp] theorem State.refuse_arg1 : s.refuse.arg1 = s.arg1 := rfl
@[simp] theorem State.refuse_arg2 : s.refuse.arg2 = s.arg2 := rfl
@[simp] theorem State.refuse_arg3 : s.refuse.arg3 = s.arg3 := rfl
@[simp] theorem State.refuse_res0 : s.refuse.res0 = s.res0 := rfl
@[simp] theorem State.refuse_res1 : s.refuse.res1 = s.res1 := rfl
@[simp] theorem State.refuse_inPos : s.refuse.inPos = s.inPos := rfl
@[simp] theorem State.refuse_inLen : s.refuse.inLen = s.inLen := rfl
@[simp] theorem State.refuse_outLen : s.refuse.outLen = s.outLen := rfl
@[simp] theorem State.refuse_memSel : s.refuse.memSel = s.memSel := rfl
@[simp] theorem State.refuse_memAddr : s.refuse.memAddr = s.memAddr := rfl
@[simp] theorem State.refuse_bcAcc : s.refuse.bcAcc = s.bcAcc := rfl
@[simp] theorem State.refuse_bcNbits : s.refuse.bcNbits = s.bcNbits := rfl
@[simp] theorem State.refuse_bwAcc : s.refuse.bwAcc = s.bwAcc := rfl
@[simp] theorem State.refuse_bwNbits : s.refuse.bwNbits = s.bwNbits := rfl
@[simp] theorem State.refuse_jpg : s.refuse.jpg = s.jpg := rfl
@[simp] theorem State.refuse_inScan : s.refuse.inScan = s.inScan := rfl
@[simp] theorem State.refuse_octAthresh : s.refuse.octAthresh = s.octAthresh := rfl
@[simp] theorem State.refuse_oct : s.refuse.oct = s.oct := rfl
@[simp] theorem State.refuse_palLen : s.refuse.palLen = s.palLen := rfl
@[simp] theorem State.refuse_transpIdx : s.refuse.transpIdx = s.transpIdx := rfl
@[simp] theorem State.refuse_pixDim : s.refuse.pixDim = s.pixDim := rfl
@[simp] theorem State.refuse_gif : s.refuse.gif = s.gif := rfl
@[simp] theorem State.refuse_genc : s.refuse.genc = s.genc := rfl
@[simp] theorem State.refuse_qtValid : s.refuse.qtValid = s.qtValid := rfl
@[simp] theorem State.refuse_htValid : s.refuse.htValid = s.htValid := rfl
@[simp] theorem State.refuse_ht : s.refuse.ht = s.ht := rfl
@[simp] theorem State.refuse_mem : s.refuse.mem = s.mem := rfl
@[simp] theorem State.refuse_sub : s.refuse.sub = s.sub := rfl
@[simp] theorem State.refuse_lzd : s.refuse.lzd = s.lzd := rfl
@[simp] theorem State.refuse_lze : s.refuse.lze = s.lze := rfl
@[simp] theorem State.refuse_caps : s.refuse.caps = s.caps := rfl
@[simp] theorem State.refuse_inputs : s.refuse.inputs = s.inputs := rfl
@[simp] theorem State.refuse_rdata : s.refuse.rdata = s.rdata := rfl
end

section
variable (s : State) (b : Bool)
@[simp] theorem State.setFrame_status : (s.setFrame b).status = { s.status with frame := b } := rfl
@[simp] theorem State.setFrame_err : (s.setFrame b).err = s.err := rfl
@[simp] theorem State.setFrame_errInfo : (s.setFrame b).errInfo = s.errInfo := rfl
@[simp] theorem State.setFrame_arg0 : (s.setFrame b).arg0 = s.arg0 := rfl
@[simp] theorem State.setFrame_arg1 : (s.setFrame b).arg1 = s.arg1 := rfl
@[simp] theorem State.setFrame_arg2 : (s.setFrame b).arg2 = s.arg2 := rfl
@[simp] theorem State.setFrame_arg3 : (s.setFrame b).arg3 = s.arg3 := rfl
@[simp] theorem State.setFrame_res0 : (s.setFrame b).res0 = s.res0 := rfl
@[simp] theorem State.setFrame_res1 : (s.setFrame b).res1 = s.res1 := rfl
@[simp] theorem State.setFrame_inPos : (s.setFrame b).inPos = s.inPos := rfl
@[simp] theorem State.setFrame_inLen : (s.setFrame b).inLen = s.inLen := rfl
@[simp] theorem State.setFrame_outLen : (s.setFrame b).outLen = s.outLen := rfl
@[simp] theorem State.setFrame_memSel : (s.setFrame b).memSel = s.memSel := rfl
@[simp] theorem State.setFrame_memAddr : (s.setFrame b).memAddr = s.memAddr := rfl
@[simp] theorem State.setFrame_bcAcc : (s.setFrame b).bcAcc = s.bcAcc := rfl
@[simp] theorem State.setFrame_bcNbits : (s.setFrame b).bcNbits = s.bcNbits := rfl
@[simp] theorem State.setFrame_bwAcc : (s.setFrame b).bwAcc = s.bwAcc := rfl
@[simp] theorem State.setFrame_bwNbits : (s.setFrame b).bwNbits = s.bwNbits := rfl
@[simp] theorem State.setFrame_jpg : (s.setFrame b).jpg = s.jpg := rfl
@[simp] theorem State.setFrame_inScan : (s.setFrame b).inScan = s.inScan := rfl
@[simp] theorem State.setFrame_octAthresh : (s.setFrame b).octAthresh = s.octAthresh := rfl
@[simp] theorem State.setFrame_oct : (s.setFrame b).oct = s.oct := rfl
@[simp] theorem State.setFrame_palLen : (s.setFrame b).palLen = s.palLen := rfl
@[simp] theorem State.setFrame_transpIdx : (s.setFrame b).transpIdx = s.transpIdx := rfl
@[simp] theorem State.setFrame_pixDim : (s.setFrame b).pixDim = s.pixDim := rfl
@[simp] theorem State.setFrame_gif : (s.setFrame b).gif = s.gif := rfl
@[simp] theorem State.setFrame_genc : (s.setFrame b).genc = s.genc := rfl
@[simp] theorem State.setFrame_qtValid : (s.setFrame b).qtValid = s.qtValid := rfl
@[simp] theorem State.setFrame_htValid : (s.setFrame b).htValid = s.htValid := rfl
@[simp] theorem State.setFrame_ht : (s.setFrame b).ht = s.ht := rfl
@[simp] theorem State.setFrame_mem : (s.setFrame b).mem = s.mem := rfl
@[simp] theorem State.setFrame_sub : (s.setFrame b).sub = s.sub := rfl
@[simp] theorem State.setFrame_lzd : (s.setFrame b).lzd = s.lzd := rfl
@[simp] theorem State.setFrame_lze : (s.setFrame b).lze = s.lze := rfl
@[simp] theorem State.setFrame_caps : (s.setFrame b).caps = s.caps := rfl
@[simp] theorem State.setFrame_inputs : (s.setFrame b).inputs = s.inputs := rfl
@[simp] theorem State.setFrame_rdata : (s.setFrame b).rdata = s.rdata := rfl
end

section
variable (s : State) (b : Bool)
@[simp] theorem State.setTrunc_status : (s.setTrunc b).status = { s.status with trunc := b } := rfl
@[simp] theorem State.setTrunc_err : (s.setTrunc b).err = s.err := rfl
@[simp] theorem State.setTrunc_errInfo : (s.setTrunc b).errInfo = s.errInfo := rfl
@[simp] theorem State.setTrunc_arg0 : (s.setTrunc b).arg0 = s.arg0 := rfl
@[simp] theorem State.setTrunc_arg1 : (s.setTrunc b).arg1 = s.arg1 := rfl
@[simp] theorem State.setTrunc_arg2 : (s.setTrunc b).arg2 = s.arg2 := rfl
@[simp] theorem State.setTrunc_arg3 : (s.setTrunc b).arg3 = s.arg3 := rfl
@[simp] theorem State.setTrunc_res0 : (s.setTrunc b).res0 = s.res0 := rfl
@[simp] theorem State.setTrunc_res1 : (s.setTrunc b).res1 = s.res1 := rfl
@[simp] theorem State.setTrunc_inPos : (s.setTrunc b).inPos = s.inPos := rfl
@[simp] theorem State.setTrunc_inLen : (s.setTrunc b).inLen = s.inLen := rfl
@[simp] theorem State.setTrunc_outLen : (s.setTrunc b).outLen = s.outLen := rfl
@[simp] theorem State.setTrunc_memSel : (s.setTrunc b).memSel = s.memSel := rfl
@[simp] theorem State.setTrunc_memAddr : (s.setTrunc b).memAddr = s.memAddr := rfl
@[simp] theorem State.setTrunc_bcAcc : (s.setTrunc b).bcAcc = s.bcAcc := rfl
@[simp] theorem State.setTrunc_bcNbits : (s.setTrunc b).bcNbits = s.bcNbits := rfl
@[simp] theorem State.setTrunc_bwAcc : (s.setTrunc b).bwAcc = s.bwAcc := rfl
@[simp] theorem State.setTrunc_bwNbits : (s.setTrunc b).bwNbits = s.bwNbits := rfl
@[simp] theorem State.setTrunc_jpg : (s.setTrunc b).jpg = s.jpg := rfl
@[simp] theorem State.setTrunc_inScan : (s.setTrunc b).inScan = s.inScan := rfl
@[simp] theorem State.setTrunc_octAthresh : (s.setTrunc b).octAthresh = s.octAthresh := rfl
@[simp] theorem State.setTrunc_oct : (s.setTrunc b).oct = s.oct := rfl
@[simp] theorem State.setTrunc_palLen : (s.setTrunc b).palLen = s.palLen := rfl
@[simp] theorem State.setTrunc_transpIdx : (s.setTrunc b).transpIdx = s.transpIdx := rfl
@[simp] theorem State.setTrunc_pixDim : (s.setTrunc b).pixDim = s.pixDim := rfl
@[simp] theorem State.setTrunc_gif : (s.setTrunc b).gif = s.gif := rfl
@[simp] theorem State.setTrunc_genc : (s.setTrunc b).genc = s.genc := rfl
@[simp] theorem State.setTrunc_qtValid : (s.setTrunc b).qtValid = s.qtValid := rfl
@[simp] theorem State.setTrunc_htValid : (s.setTrunc b).htValid = s.htValid := rfl
@[simp] theorem State.setTrunc_ht : (s.setTrunc b).ht = s.ht := rfl
@[simp] theorem State.setTrunc_mem : (s.setTrunc b).mem = s.mem := rfl
@[simp] theorem State.setTrunc_sub : (s.setTrunc b).sub = s.sub := rfl
@[simp] theorem State.setTrunc_lzd : (s.setTrunc b).lzd = s.lzd := rfl
@[simp] theorem State.setTrunc_lze : (s.setTrunc b).lze = s.lze := rfl
@[simp] theorem State.setTrunc_caps : (s.setTrunc b).caps = s.caps := rfl
@[simp] theorem State.setTrunc_inputs : (s.setTrunc b).inputs = s.inputs := rfl
@[simp] theorem State.setTrunc_rdata : (s.setTrunc b).rdata = s.rdata := rfl
end

section
variable (s : State) (b : Byte)
@[simp] theorem State.appendOut_status : (s.appendOut b).status = s.status := rfl
@[simp] theorem State.appendOut_err : (s.appendOut b).err = s.err := rfl
@[simp] theorem State.appendOut_errInfo : (s.appendOut b).errInfo = s.errInfo := rfl
@[simp] theorem State.appendOut_arg0 : (s.appendOut b).arg0 = s.arg0 := rfl
@[simp] theorem State.appendOut_arg1 : (s.appendOut b).arg1 = s.arg1 := rfl
@[simp] theorem State.appendOut_arg2 : (s.appendOut b).arg2 = s.arg2 := rfl
@[simp] theorem State.appendOut_arg3 : (s.appendOut b).arg3 = s.arg3 := rfl
@[simp] theorem State.appendOut_res0 : (s.appendOut b).res0 = s.res0 := rfl
@[simp] theorem State.appendOut_res1 : (s.appendOut b).res1 = s.res1 := rfl
@[simp] theorem State.appendOut_inPos : (s.appendOut b).inPos = s.inPos := rfl
@[simp] theorem State.appendOut_inLen : (s.appendOut b).inLen = s.inLen := rfl
@[simp] theorem State.appendOut_outLen : (s.appendOut b).outLen = s.outLen + 1 := rfl
@[simp] theorem State.appendOut_memSel : (s.appendOut b).memSel = s.memSel := rfl
@[simp] theorem State.appendOut_memAddr : (s.appendOut b).memAddr = s.memAddr := rfl
@[simp] theorem State.appendOut_bcAcc : (s.appendOut b).bcAcc = s.bcAcc := rfl
@[simp] theorem State.appendOut_bcNbits : (s.appendOut b).bcNbits = s.bcNbits := rfl
@[simp] theorem State.appendOut_bwAcc : (s.appendOut b).bwAcc = s.bwAcc := rfl
@[simp] theorem State.appendOut_bwNbits : (s.appendOut b).bwNbits = s.bwNbits := rfl
@[simp] theorem State.appendOut_jpg : (s.appendOut b).jpg = s.jpg := rfl
@[simp] theorem State.appendOut_inScan : (s.appendOut b).inScan = s.inScan := rfl
@[simp] theorem State.appendOut_octAthresh : (s.appendOut b).octAthresh = s.octAthresh := rfl
@[simp] theorem State.appendOut_oct : (s.appendOut b).oct = s.oct := rfl
@[simp] theorem State.appendOut_palLen : (s.appendOut b).palLen = s.palLen := rfl
@[simp] theorem State.appendOut_transpIdx : (s.appendOut b).transpIdx = s.transpIdx := rfl
@[simp] theorem State.appendOut_pixDim : (s.appendOut b).pixDim = s.pixDim := rfl
@[simp] theorem State.appendOut_gif : (s.appendOut b).gif = s.gif := rfl
@[simp] theorem State.appendOut_genc : (s.appendOut b).genc = s.genc := rfl
@[simp] theorem State.appendOut_qtValid : (s.appendOut b).qtValid = s.qtValid := rfl
@[simp] theorem State.appendOut_htValid : (s.appendOut b).htValid = s.htValid := rfl
@[simp] theorem State.appendOut_ht : (s.appendOut b).ht = s.ht := rfl
@[simp] theorem State.appendOut_mem : (s.appendOut b).mem = { s.mem with out := Cells.set s.mem.out s.outLen.toNat b } := rfl
@[simp] theorem State.appendOut_sub : (s.appendOut b).sub = s.sub := rfl
@[simp] theorem State.appendOut_lzd : (s.appendOut b).lzd = s.lzd := rfl
@[simp] theorem State.appendOut_lze : (s.appendOut b).lze = s.lze := rfl
@[simp] theorem State.appendOut_caps : (s.appendOut b).caps = s.caps := rfl
@[simp] theorem State.appendOut_inputs : (s.appendOut b).inputs = s.inputs := rfl
@[simp] theorem State.appendOut_rdata : (s.appendOut b).rdata = s.rdata := rfl
end

section
variable (s : State) (n : Nat)
@[simp] theorem State.advance_status : (s.advance n).status = s.status := rfl
@[simp] theorem State.advance_err : (s.advance n).err = s.err := rfl
@[simp] theorem State.advance_errInfo : (s.advance n).errInfo = s.errInfo := rfl
@[simp] theorem State.advance_arg0 : (s.advance n).arg0 = s.arg0 := rfl
@[simp] theorem State.advance_arg1 : (s.advance n).arg1 = s.arg1 := rfl
@[simp] theorem State.advance_arg2 : (s.advance n).arg2 = s.arg2 := rfl
@[simp] theorem State.advance_arg3 : (s.advance n).arg3 = s.arg3 := rfl
@[simp] theorem State.advance_res0 : (s.advance n).res0 = s.res0 := rfl
@[simp] theorem State.advance_res1 : (s.advance n).res1 = s.res1 := rfl
@[simp] theorem State.advance_inPos : (s.advance n).inPos = s.inPos + wordN n := rfl
@[simp] theorem State.advance_inLen : (s.advance n).inLen = s.inLen := rfl
@[simp] theorem State.advance_outLen : (s.advance n).outLen = s.outLen := rfl
@[simp] theorem State.advance_memSel : (s.advance n).memSel = s.memSel := rfl
@[simp] theorem State.advance_memAddr : (s.advance n).memAddr = s.memAddr := rfl
@[simp] theorem State.advance_bcAcc : (s.advance n).bcAcc = s.bcAcc := rfl
@[simp] theorem State.advance_bcNbits : (s.advance n).bcNbits = s.bcNbits := rfl
@[simp] theorem State.advance_bwAcc : (s.advance n).bwAcc = s.bwAcc := rfl
@[simp] theorem State.advance_bwNbits : (s.advance n).bwNbits = s.bwNbits := rfl
@[simp] theorem State.advance_jpg : (s.advance n).jpg = s.jpg := rfl
@[simp] theorem State.advance_inScan : (s.advance n).inScan = s.inScan := rfl
@[simp] theorem State.advance_octAthresh : (s.advance n).octAthresh = s.octAthresh := rfl
@[simp] theorem State.advance_oct : (s.advance n).oct = s.oct := rfl
@[simp] theorem State.advance_palLen : (s.advance n).palLen = s.palLen := rfl
@[simp] theorem State.advance_transpIdx : (s.advance n).transpIdx = s.transpIdx := rfl
@[simp] theorem State.advance_pixDim : (s.advance n).pixDim = s.pixDim := rfl
@[simp] theorem State.advance_gif : (s.advance n).gif = s.gif := rfl
@[simp] theorem State.advance_genc : (s.advance n).genc = s.genc := rfl
@[simp] theorem State.advance_qtValid : (s.advance n).qtValid = s.qtValid := rfl
@[simp] theorem State.advance_htValid : (s.advance n).htValid = s.htValid := rfl
@[simp] theorem State.advance_ht : (s.advance n).ht = s.ht := rfl
@[simp] theorem State.advance_mem : (s.advance n).mem = s.mem := rfl
@[simp] theorem State.advance_sub : (s.advance n).sub = s.sub := rfl
@[simp] theorem State.advance_lzd : (s.advance n).lzd = s.lzd := rfl
@[simp] theorem State.advance_lze : (s.advance n).lze = s.lze := rfl
@[simp] theorem State.advance_caps : (s.advance n).caps = s.caps := rfl
@[simp] theorem State.advance_inputs : (s.advance n).inputs = s.inputs := rfl
@[simp] theorem State.advance_rdata : (s.advance n).rdata = s.rdata := rfl
end

section
variable (s : State) (c : Byte) (k : Nat)
@[simp] theorem State.feed_status : (s.feed c k).status = s.status := rfl
@[simp] theorem State.feed_err : (s.feed c k).err = s.err := rfl
@[simp] theorem State.feed_errInfo : (s.feed c k).errInfo = s.errInfo := rfl
@[simp] theorem State.feed_arg0 : (s.feed c k).arg0 = s.arg0 := rfl
@[simp] theorem State.feed_arg1 : (s.feed c k).arg1 = s.arg1 := rfl
@[simp] theorem State.feed_arg2 : (s.feed c k).arg2 = s.arg2 := rfl
@[simp] theorem State.feed_arg3 : (s.feed c k).arg3 = s.arg3 := rfl
@[simp] theorem State.feed_res0 : (s.feed c k).res0 = s.res0 := rfl
@[simp] theorem State.feed_res1 : (s.feed c k).res1 = s.res1 := rfl
@[simp] theorem State.feed_inPos : (s.feed c k).inPos = s.inPos + wordN k := rfl
@[simp] theorem State.feed_inLen : (s.feed c k).inLen = s.inLen := rfl
@[simp] theorem State.feed_outLen : (s.feed c k).outLen = s.outLen := rfl
@[simp] theorem State.feed_memSel : (s.feed c k).memSel = s.memSel := rfl
@[simp] theorem State.feed_memAddr : (s.feed c k).memAddr = s.memAddr := rfl
@[simp] theorem State.feed_bcAcc : (s.feed c k).bcAcc = (s.bcAcc <<< 8) ||| c.setWidth 32 := rfl
@[simp] theorem State.feed_bcNbits : (s.feed c k).bcNbits = s.bcNbits + 8 := rfl
@[simp] theorem State.feed_bwAcc : (s.feed c k).bwAcc = s.bwAcc := rfl
@[simp] theorem State.feed_bwNbits : (s.feed c k).bwNbits = s.bwNbits := rfl
@[simp] theorem State.feed_jpg : (s.feed c k).jpg = s.jpg := rfl
@[simp] theorem State.feed_inScan : (s.feed c k).inScan = s.inScan := rfl
@[simp] theorem State.feed_octAthresh : (s.feed c k).octAthresh = s.octAthresh := rfl
@[simp] theorem State.feed_oct : (s.feed c k).oct = s.oct := rfl
@[simp] theorem State.feed_palLen : (s.feed c k).palLen = s.palLen := rfl
@[simp] theorem State.feed_transpIdx : (s.feed c k).transpIdx = s.transpIdx := rfl
@[simp] theorem State.feed_pixDim : (s.feed c k).pixDim = s.pixDim := rfl
@[simp] theorem State.feed_gif : (s.feed c k).gif = s.gif := rfl
@[simp] theorem State.feed_genc : (s.feed c k).genc = s.genc := rfl
@[simp] theorem State.feed_qtValid : (s.feed c k).qtValid = s.qtValid := rfl
@[simp] theorem State.feed_htValid : (s.feed c k).htValid = s.htValid := rfl
@[simp] theorem State.feed_ht : (s.feed c k).ht = s.ht := rfl
@[simp] theorem State.feed_mem : (s.feed c k).mem = s.mem := rfl
@[simp] theorem State.feed_sub : (s.feed c k).sub = s.sub := rfl
@[simp] theorem State.feed_lzd : (s.feed c k).lzd = s.lzd := rfl
@[simp] theorem State.feed_lze : (s.feed c k).lze = s.lze := rfl
@[simp] theorem State.feed_caps : (s.feed c k).caps = s.caps := rfl
@[simp] theorem State.feed_inputs : (s.feed c k).inputs = s.inputs := rfl
@[simp] theorem State.feed_rdata : (s.feed c k).rdata = s.rdata := rfl
end

section
variable (s : State) (n : Nat)
@[simp] theorem State.dropBits_status : (s.dropBits n).status = s.status := rfl
@[simp] theorem State.dropBits_err : (s.dropBits n).err = s.err := rfl
@[simp] theorem State.dropBits_errInfo : (s.dropBits n).errInfo = s.errInfo := rfl
@[simp] theorem State.dropBits_arg0 : (s.dropBits n).arg0 = s.arg0 := rfl
@[simp] theorem State.dropBits_arg1 : (s.dropBits n).arg1 = s.arg1 := rfl
@[simp] theorem State.dropBits_arg2 : (s.dropBits n).arg2 = s.arg2 := rfl
@[simp] theorem State.dropBits_arg3 : (s.dropBits n).arg3 = s.arg3 := rfl
@[simp] theorem State.dropBits_res0 : (s.dropBits n).res0 = s.res0 := rfl
@[simp] theorem State.dropBits_res1 : (s.dropBits n).res1 = s.res1 := rfl
@[simp] theorem State.dropBits_inPos : (s.dropBits n).inPos = s.inPos := rfl
@[simp] theorem State.dropBits_inLen : (s.dropBits n).inLen = s.inLen := rfl
@[simp] theorem State.dropBits_outLen : (s.dropBits n).outLen = s.outLen := rfl
@[simp] theorem State.dropBits_memSel : (s.dropBits n).memSel = s.memSel := rfl
@[simp] theorem State.dropBits_memAddr : (s.dropBits n).memAddr = s.memAddr := rfl
@[simp] theorem State.dropBits_bcAcc : (s.dropBits n).bcAcc = s.bcAcc := rfl
@[simp] theorem State.dropBits_bcNbits : (s.dropBits n).bcNbits = s.bcNbits - n := rfl
@[simp] theorem State.dropBits_bwAcc : (s.dropBits n).bwAcc = s.bwAcc := rfl
@[simp] theorem State.dropBits_bwNbits : (s.dropBits n).bwNbits = s.bwNbits := rfl
@[simp] theorem State.dropBits_jpg : (s.dropBits n).jpg = s.jpg := rfl
@[simp] theorem State.dropBits_inScan : (s.dropBits n).inScan = s.inScan := rfl
@[simp] theorem State.dropBits_octAthresh : (s.dropBits n).octAthresh = s.octAthresh := rfl
@[simp] theorem State.dropBits_oct : (s.dropBits n).oct = s.oct := rfl
@[simp] theorem State.dropBits_palLen : (s.dropBits n).palLen = s.palLen := rfl
@[simp] theorem State.dropBits_transpIdx : (s.dropBits n).transpIdx = s.transpIdx := rfl
@[simp] theorem State.dropBits_pixDim : (s.dropBits n).pixDim = s.pixDim := rfl
@[simp] theorem State.dropBits_gif : (s.dropBits n).gif = s.gif := rfl
@[simp] theorem State.dropBits_genc : (s.dropBits n).genc = s.genc := rfl
@[simp] theorem State.dropBits_qtValid : (s.dropBits n).qtValid = s.qtValid := rfl
@[simp] theorem State.dropBits_htValid : (s.dropBits n).htValid = s.htValid := rfl
@[simp] theorem State.dropBits_ht : (s.dropBits n).ht = s.ht := rfl
@[simp] theorem State.dropBits_mem : (s.dropBits n).mem = s.mem := rfl
@[simp] theorem State.dropBits_sub : (s.dropBits n).sub = s.sub := rfl
@[simp] theorem State.dropBits_lzd : (s.dropBits n).lzd = s.lzd := rfl
@[simp] theorem State.dropBits_lze : (s.dropBits n).lze = s.lze := rfl
@[simp] theorem State.dropBits_caps : (s.dropBits n).caps = s.caps := rfl
@[simp] theorem State.dropBits_inputs : (s.dropBits n).inputs = s.inputs := rfl
@[simp] theorem State.dropBits_rdata : (s.dropBits n).rdata = s.rdata := rfl
end

section
variable (s : State)
@[simp] theorem State.bcReset_status : s.bcReset.status = s.status := rfl
@[simp] theorem State.bcReset_err : s.bcReset.err = s.err := rfl
@[simp] theorem State.bcReset_errInfo : s.bcReset.errInfo = s.errInfo := rfl
@[simp] theorem State.bcReset_arg0 : s.bcReset.arg0 = s.arg0 := rfl
@[simp] theorem State.bcReset_arg1 : s.bcReset.arg1 = s.arg1 := rfl
@[simp] theorem State.bcReset_arg2 : s.bcReset.arg2 = s.arg2 := rfl
@[simp] theorem State.bcReset_arg3 : s.bcReset.arg3 = s.arg3 := rfl
@[simp] theorem State.bcReset_res0 : s.bcReset.res0 = s.res0 := rfl
@[simp] theorem State.bcReset_res1 : s.bcReset.res1 = s.res1 := rfl
@[simp] theorem State.bcReset_inPos : s.bcReset.inPos = s.inPos := rfl
@[simp] theorem State.bcReset_inLen : s.bcReset.inLen = s.inLen := rfl
@[simp] theorem State.bcReset_outLen : s.bcReset.outLen = s.outLen := rfl
@[simp] theorem State.bcReset_memSel : s.bcReset.memSel = s.memSel := rfl
@[simp] theorem State.bcReset_memAddr : s.bcReset.memAddr = s.memAddr := rfl
@[simp] theorem State.bcReset_bcAcc : s.bcReset.bcAcc = 0 := rfl
@[simp] theorem State.bcReset_bcNbits : s.bcReset.bcNbits = 0 := rfl
@[simp] theorem State.bcReset_bwAcc : s.bcReset.bwAcc = s.bwAcc := rfl
@[simp] theorem State.bcReset_bwNbits : s.bcReset.bwNbits = s.bwNbits := rfl
@[simp] theorem State.bcReset_jpg : s.bcReset.jpg = s.jpg := rfl
@[simp] theorem State.bcReset_inScan : s.bcReset.inScan = s.inScan := rfl
@[simp] theorem State.bcReset_octAthresh : s.bcReset.octAthresh = s.octAthresh := rfl
@[simp] theorem State.bcReset_oct : s.bcReset.oct = s.oct := rfl
@[simp] theorem State.bcReset_palLen : s.bcReset.palLen = s.palLen := rfl
@[simp] theorem State.bcReset_transpIdx : s.bcReset.transpIdx = s.transpIdx := rfl
@[simp] theorem State.bcReset_pixDim : s.bcReset.pixDim = s.pixDim := rfl
@[simp] theorem State.bcReset_gif : s.bcReset.gif = s.gif := rfl
@[simp] theorem State.bcReset_genc : s.bcReset.genc = s.genc := rfl
@[simp] theorem State.bcReset_qtValid : s.bcReset.qtValid = s.qtValid := rfl
@[simp] theorem State.bcReset_htValid : s.bcReset.htValid = s.htValid := rfl
@[simp] theorem State.bcReset_ht : s.bcReset.ht = s.ht := rfl
@[simp] theorem State.bcReset_mem : s.bcReset.mem = s.mem := rfl
@[simp] theorem State.bcReset_sub : s.bcReset.sub = s.sub := rfl
@[simp] theorem State.bcReset_lzd : s.bcReset.lzd = s.lzd := rfl
@[simp] theorem State.bcReset_lze : s.bcReset.lze = s.lze := rfl
@[simp] theorem State.bcReset_caps : s.bcReset.caps = s.caps := rfl
@[simp] theorem State.bcReset_inputs : s.bcReset.inputs = s.inputs := rfl
@[simp] theorem State.bcReset_rdata : s.bcReset.rdata = s.rdata := rfl
end

section
variable (s : State)
@[simp] theorem State.realign_status : s.realign.status = s.status := rfl
@[simp] theorem State.realign_err : s.realign.err = s.err := rfl
@[simp] theorem State.realign_errInfo : s.realign.errInfo = s.errInfo := rfl
@[simp] theorem State.realign_arg0 : s.realign.arg0 = s.arg0 := rfl
@[simp] theorem State.realign_arg1 : s.realign.arg1 = s.arg1 := rfl
@[simp] theorem State.realign_arg2 : s.realign.arg2 = s.arg2 := rfl
@[simp] theorem State.realign_arg3 : s.realign.arg3 = s.arg3 := rfl
@[simp] theorem State.realign_res0 : s.realign.res0 = s.res0 := rfl
@[simp] theorem State.realign_res1 : s.realign.res1 = s.res1 := rfl
@[simp] theorem State.realign_inPos : s.realign.inPos = s.inPos - wordN (bufferedSize s.bcAcc (s.bcNbits / 8)) := rfl
@[simp] theorem State.realign_inLen : s.realign.inLen = s.inLen := rfl
@[simp] theorem State.realign_outLen : s.realign.outLen = s.outLen := rfl
@[simp] theorem State.realign_memSel : s.realign.memSel = s.memSel := rfl
@[simp] theorem State.realign_memAddr : s.realign.memAddr = s.memAddr := rfl
@[simp] theorem State.realign_bcAcc : s.realign.bcAcc = 0 := rfl
@[simp] theorem State.realign_bcNbits : s.realign.bcNbits = 0 := rfl
@[simp] theorem State.realign_bwAcc : s.realign.bwAcc = s.bwAcc := rfl
@[simp] theorem State.realign_bwNbits : s.realign.bwNbits = s.bwNbits := rfl
@[simp] theorem State.realign_jpg : s.realign.jpg = s.jpg := rfl
@[simp] theorem State.realign_inScan : s.realign.inScan = s.inScan := rfl
@[simp] theorem State.realign_octAthresh : s.realign.octAthresh = s.octAthresh := rfl
@[simp] theorem State.realign_oct : s.realign.oct = s.oct := rfl
@[simp] theorem State.realign_palLen : s.realign.palLen = s.palLen := rfl
@[simp] theorem State.realign_transpIdx : s.realign.transpIdx = s.transpIdx := rfl
@[simp] theorem State.realign_pixDim : s.realign.pixDim = s.pixDim := rfl
@[simp] theorem State.realign_gif : s.realign.gif = s.gif := rfl
@[simp] theorem State.realign_genc : s.realign.genc = s.genc := rfl
@[simp] theorem State.realign_qtValid : s.realign.qtValid = s.qtValid := rfl
@[simp] theorem State.realign_htValid : s.realign.htValid = s.htValid := rfl
@[simp] theorem State.realign_ht : s.realign.ht = s.ht := rfl
@[simp] theorem State.realign_mem : s.realign.mem = s.mem := rfl
@[simp] theorem State.realign_sub : s.realign.sub = s.sub := rfl
@[simp] theorem State.realign_lzd : s.realign.lzd = s.lzd := rfl
@[simp] theorem State.realign_lze : s.realign.lze = s.lze := rfl
@[simp] theorem State.realign_caps : s.realign.caps = s.caps := rfl
@[simp] theorem State.realign_inputs : s.realign.inputs = s.inputs := rfl
@[simp] theorem State.realign_rdata : s.realign.rdata = s.rdata := rfl
end

section
variable (s : State) (bs : List Byte)
@[simp] theorem State.storeTmp_status : (s.storeTmp bs).status = s.status := rfl
@[simp] theorem State.storeTmp_err : (s.storeTmp bs).err = s.err := rfl
@[simp] theorem State.storeTmp_errInfo : (s.storeTmp bs).errInfo = s.errInfo := rfl
@[simp] theorem State.storeTmp_arg0 : (s.storeTmp bs).arg0 = s.arg0 := rfl
@[simp] theorem State.storeTmp_arg1 : (s.storeTmp bs).arg1 = s.arg1 := rfl
@[simp] theorem State.storeTmp_arg2 : (s.storeTmp bs).arg2 = s.arg2 := rfl
@[simp] theorem State.storeTmp_arg3 : (s.storeTmp bs).arg3 = s.arg3 := rfl
@[simp] theorem State.storeTmp_res0 : (s.storeTmp bs).res0 = s.res0 := rfl
@[simp] theorem State.storeTmp_res1 : (s.storeTmp bs).res1 = s.res1 := rfl
@[simp] theorem State.storeTmp_inPos : (s.storeTmp bs).inPos = s.inPos := rfl
@[simp] theorem State.storeTmp_inLen : (s.storeTmp bs).inLen = s.inLen := rfl
@[simp] theorem State.storeTmp_outLen : (s.storeTmp bs).outLen = s.outLen := rfl
@[simp] theorem State.storeTmp_memSel : (s.storeTmp bs).memSel = s.memSel := rfl
@[simp] theorem State.storeTmp_memAddr : (s.storeTmp bs).memAddr = s.memAddr := rfl
@[simp] theorem State.storeTmp_bcAcc : (s.storeTmp bs).bcAcc = s.bcAcc := rfl
@[simp] theorem State.storeTmp_bcNbits : (s.storeTmp bs).bcNbits = s.bcNbits := rfl
@[simp] theorem State.storeTmp_bwAcc : (s.storeTmp bs).bwAcc = s.bwAcc := rfl
@[simp] theorem State.storeTmp_bwNbits : (s.storeTmp bs).bwNbits = s.bwNbits := rfl
@[simp] theorem State.storeTmp_jpg : (s.storeTmp bs).jpg = s.jpg := rfl
@[simp] theorem State.storeTmp_inScan : (s.storeTmp bs).inScan = s.inScan := rfl
@[simp] theorem State.storeTmp_octAthresh : (s.storeTmp bs).octAthresh = s.octAthresh := rfl
@[simp] theorem State.storeTmp_oct : (s.storeTmp bs).oct = s.oct := rfl
@[simp] theorem State.storeTmp_palLen : (s.storeTmp bs).palLen = s.palLen := rfl
@[simp] theorem State.storeTmp_transpIdx : (s.storeTmp bs).transpIdx = s.transpIdx := rfl
@[simp] theorem State.storeTmp_pixDim : (s.storeTmp bs).pixDim = s.pixDim := rfl
@[simp] theorem State.storeTmp_gif : (s.storeTmp bs).gif = s.gif := rfl
@[simp] theorem State.storeTmp_genc : (s.storeTmp bs).genc = s.genc := rfl
@[simp] theorem State.storeTmp_qtValid : (s.storeTmp bs).qtValid = s.qtValid := rfl
@[simp] theorem State.storeTmp_htValid : (s.storeTmp bs).htValid = s.htValid := rfl
@[simp] theorem State.storeTmp_ht : (s.storeTmp bs).ht = s.ht := rfl
@[simp] theorem State.storeTmp_mem : (s.storeTmp bs).mem = { s.mem with tmp := Cells.setRange s.mem.tmp 0 bs } := rfl
@[simp] theorem State.storeTmp_sub : (s.storeTmp bs).sub = s.sub := rfl
@[simp] theorem State.storeTmp_lzd : (s.storeTmp bs).lzd = s.lzd := rfl
@[simp] theorem State.storeTmp_lze : (s.storeTmp bs).lze = s.lze := rfl
@[simp] theorem State.storeTmp_caps : (s.storeTmp bs).caps = s.caps := rfl
@[simp] theorem State.storeTmp_inputs : (s.storeTmp bs).inputs = s.inputs := rfl
@[simp] theorem State.storeTmp_rdata : (s.storeTmp bs).rdata = s.rdata := rfl
end

section
variable (s : State) (len : Nat) (code : Word)
@[simp] theorem State.pushBits_status : (s.pushBits len code).status = s.status := rfl
@[simp] theorem State.pushBits_err : (s.pushBits len code).err = s.err := rfl
@[simp] theorem State.pushBits_errInfo : (s.pushBits len code).errInfo = s.errInfo := rfl
@[simp] theorem State.pushBits_arg0 : (s.pushBits len code).arg0 = s.arg0 := rfl
@[simp] theorem State.pushBits_arg1 : (s.pushBits len code).arg1 = s.arg1 := rfl
@[simp] theorem State.pushBits_arg2 : (s.pushBits len code).arg2 = s.arg2 := rfl
@[simp] theorem State.pushBits_arg3 : (s.pushBits len code).arg3 = s.arg3 := rfl
@[simp] theorem State.pushBits_res0 : (s.pushBits len code).res0 = s.res0 := rfl
@[simp] theorem State.pushBits_res1 : (s.pushBits len code).res1 = s.res1 := rfl
@[simp] theorem State.pushBits_inPos : (s.pushBits len code).inPos = s.inPos := rfl
@[simp] theorem State.pushBits_inLen : (s.pushBits len code).inLen = s.inLen := rfl
@[simp] theorem State.pushBits_outLen : (s.pushBits len code).outLen = s.outLen := rfl
@[simp] theorem State.pushBits_memSel : (s.pushBits len code).memSel = s.memSel := rfl
@[simp] theorem State.pushBits_memAddr : (s.pushBits len code).memAddr = s.memAddr := rfl
@[simp] theorem State.pushBits_bcAcc : (s.pushBits len code).bcAcc = s.bcAcc := rfl
@[simp] theorem State.pushBits_bcNbits : (s.pushBits len code).bcNbits = s.bcNbits := rfl
@[simp] theorem State.pushBits_bwAcc : (s.pushBits len code).bwAcc = (s.bwAcc <<< len) ||| code := rfl
@[simp] theorem State.pushBits_bwNbits : (s.pushBits len code).bwNbits = s.bwNbits + len := rfl
@[simp] theorem State.pushBits_jpg : (s.pushBits len code).jpg = s.jpg := rfl
@[simp] theorem State.pushBits_inScan : (s.pushBits len code).inScan = s.inScan := rfl
@[simp] theorem State.pushBits_octAthresh : (s.pushBits len code).octAthresh = s.octAthresh := rfl
@[simp] theorem State.pushBits_oct : (s.pushBits len code).oct = s.oct := rfl
@[simp] theorem State.pushBits_palLen : (s.pushBits len code).palLen = s.palLen := rfl
@[simp] theorem State.pushBits_transpIdx : (s.pushBits len code).transpIdx = s.transpIdx := rfl
@[simp] theorem State.pushBits_pixDim : (s.pushBits len code).pixDim = s.pixDim := rfl
@[simp] theorem State.pushBits_gif : (s.pushBits len code).gif = s.gif := rfl
@[simp] theorem State.pushBits_genc : (s.pushBits len code).genc = s.genc := rfl
@[simp] theorem State.pushBits_qtValid : (s.pushBits len code).qtValid = s.qtValid := rfl
@[simp] theorem State.pushBits_htValid : (s.pushBits len code).htValid = s.htValid := rfl
@[simp] theorem State.pushBits_ht : (s.pushBits len code).ht = s.ht := rfl
@[simp] theorem State.pushBits_mem : (s.pushBits len code).mem = s.mem := rfl
@[simp] theorem State.pushBits_sub : (s.pushBits len code).sub = s.sub := rfl
@[simp] theorem State.pushBits_lzd : (s.pushBits len code).lzd = s.lzd := rfl
@[simp] theorem State.pushBits_lze : (s.pushBits len code).lze = s.lze := rfl
@[simp] theorem State.pushBits_caps : (s.pushBits len code).caps = s.caps := rfl
@[simp] theorem State.pushBits_inputs : (s.pushBits len code).inputs = s.inputs := rfl
@[simp] theorem State.pushBits_rdata : (s.pushBits len code).rdata = s.rdata := rfl
end

section
variable (s : State)
@[simp] theorem State.bwClear_status : s.bwClear.status = s.status := rfl
@[simp] theorem State.bwClear_err : s.bwClear.err = s.err := rfl
@[simp] theorem State.bwClear_errInfo : s.bwClear.errInfo = s.errInfo := rfl
@[simp] theorem State.bwClear_arg0 : s.bwClear.arg0 = s.arg0 := rfl
@[simp] theorem State.bwClear_arg1 : s.bwClear.arg1 = s.arg1 := rfl
@[simp] theorem State.bwClear_arg2 : s.bwClear.arg2 = s.arg2 := rfl
@[simp] theorem State.bwClear_arg3 : s.bwClear.arg3 = s.arg3 := rfl
@[simp] theorem State.bwClear_res0 : s.bwClear.res0 = s.res0 := rfl
@[simp] theorem State.bwClear_res1 : s.bwClear.res1 = s.res1 := rfl
@[simp] theorem State.bwClear_inPos : s.bwClear.inPos = s.inPos := rfl
@[simp] theorem State.bwClear_inLen : s.bwClear.inLen = s.inLen := rfl
@[simp] theorem State.bwClear_outLen : s.bwClear.outLen = s.outLen := rfl
@[simp] theorem State.bwClear_memSel : s.bwClear.memSel = s.memSel := rfl
@[simp] theorem State.bwClear_memAddr : s.bwClear.memAddr = s.memAddr := rfl
@[simp] theorem State.bwClear_bcAcc : s.bwClear.bcAcc = s.bcAcc := rfl
@[simp] theorem State.bwClear_bcNbits : s.bwClear.bcNbits = s.bcNbits := rfl
@[simp] theorem State.bwClear_bwAcc : s.bwClear.bwAcc = 0 := rfl
@[simp] theorem State.bwClear_bwNbits : s.bwClear.bwNbits = 0 := rfl
@[simp] theorem State.bwClear_jpg : s.bwClear.jpg = s.jpg := rfl
@[simp] theorem State.bwClear_inScan : s.bwClear.inScan = s.inScan := rfl
@[simp] theorem State.bwClear_octAthresh : s.bwClear.octAthresh = s.octAthresh := rfl
@[simp] theorem State.bwClear_oct : s.bwClear.oct = s.oct := rfl
@[simp] theorem State.bwClear_palLen : s.bwClear.palLen = s.palLen := rfl
@[simp] theorem State.bwClear_transpIdx : s.bwClear.transpIdx = s.transpIdx := rfl
@[simp] theorem State.bwClear_pixDim : s.bwClear.pixDim = s.pixDim := rfl
@[simp] theorem State.bwClear_gif : s.bwClear.gif = s.gif := rfl
@[simp] theorem State.bwClear_genc : s.bwClear.genc = s.genc := rfl
@[simp] theorem State.bwClear_qtValid : s.bwClear.qtValid = s.qtValid := rfl
@[simp] theorem State.bwClear_htValid : s.bwClear.htValid = s.htValid := rfl
@[simp] theorem State.bwClear_ht : s.bwClear.ht = s.ht := rfl
@[simp] theorem State.bwClear_mem : s.bwClear.mem = s.mem := rfl
@[simp] theorem State.bwClear_sub : s.bwClear.sub = s.sub := rfl
@[simp] theorem State.bwClear_lzd : s.bwClear.lzd = s.lzd := rfl
@[simp] theorem State.bwClear_lze : s.bwClear.lze = s.lze := rfl
@[simp] theorem State.bwClear_caps : s.bwClear.caps = s.caps := rfl
@[simp] theorem State.bwClear_inputs : s.bwClear.inputs = s.inputs := rfl
@[simp] theorem State.bwClear_rdata : s.bwClear.rdata = s.rdata := rfl
end

section
variable (s : State) (v : Word)
@[simp] theorem State.setRes0_status : (s.setRes0 v).status = s.status := rfl
@[simp] theorem State.setRes0_err : (s.setRes0 v).err = s.err := rfl
@[simp] theorem State.setRes0_errInfo : (s.setRes0 v).errInfo = s.errInfo := rfl
@[simp] theorem State.setRes0_arg0 : (s.setRes0 v).arg0 = s.arg0 := rfl
@[simp] theorem State.setRes0_arg1 : (s.setRes0 v).arg1 = s.arg1 := rfl
@[simp] theorem State.setRes0_arg2 : (s.setRes0 v).arg2 = s.arg2 := rfl
@[simp] theorem State.setRes0_arg3 : (s.setRes0 v).arg3 = s.arg3 := rfl
@[simp] theorem State.setRes0_res0 : (s.setRes0 v).res0 = v := rfl
@[simp] theorem State.setRes0_res1 : (s.setRes0 v).res1 = s.res1 := rfl
@[simp] theorem State.setRes0_inPos : (s.setRes0 v).inPos = s.inPos := rfl
@[simp] theorem State.setRes0_inLen : (s.setRes0 v).inLen = s.inLen := rfl
@[simp] theorem State.setRes0_outLen : (s.setRes0 v).outLen = s.outLen := rfl
@[simp] theorem State.setRes0_memSel : (s.setRes0 v).memSel = s.memSel := rfl
@[simp] theorem State.setRes0_memAddr : (s.setRes0 v).memAddr = s.memAddr := rfl
@[simp] theorem State.setRes0_bcAcc : (s.setRes0 v).bcAcc = s.bcAcc := rfl
@[simp] theorem State.setRes0_bcNbits : (s.setRes0 v).bcNbits = s.bcNbits := rfl
@[simp] theorem State.setRes0_bwAcc : (s.setRes0 v).bwAcc = s.bwAcc := rfl
@[simp] theorem State.setRes0_bwNbits : (s.setRes0 v).bwNbits = s.bwNbits := rfl
@[simp] theorem State.setRes0_jpg : (s.setRes0 v).jpg = s.jpg := rfl
@[simp] theorem State.setRes0_inScan : (s.setRes0 v).inScan = s.inScan := rfl
@[simp] theorem State.setRes0_octAthresh : (s.setRes0 v).octAthresh = s.octAthresh := rfl
@[simp] theorem State.setRes0_oct : (s.setRes0 v).oct = s.oct := rfl
@[simp] theorem State.setRes0_palLen : (s.setRes0 v).palLen = s.palLen := rfl
@[simp] theorem State.setRes0_transpIdx : (s.setRes0 v).transpIdx = s.transpIdx := rfl
@[simp] theorem State.setRes0_pixDim : (s.setRes0 v).pixDim = s.pixDim := rfl
@[simp] theorem State.setRes0_gif : (s.setRes0 v).gif = s.gif := rfl
@[simp] theorem State.setRes0_genc : (s.setRes0 v).genc = s.genc := rfl
@[simp] theorem State.setRes0_qtValid : (s.setRes0 v).qtValid = s.qtValid := rfl
@[simp] theorem State.setRes0_htValid : (s.setRes0 v).htValid = s.htValid := rfl
@[simp] theorem State.setRes0_ht : (s.setRes0 v).ht = s.ht := rfl
@[simp] theorem State.setRes0_mem : (s.setRes0 v).mem = s.mem := rfl
@[simp] theorem State.setRes0_sub : (s.setRes0 v).sub = s.sub := rfl
@[simp] theorem State.setRes0_lzd : (s.setRes0 v).lzd = s.lzd := rfl
@[simp] theorem State.setRes0_lze : (s.setRes0 v).lze = s.lze := rfl
@[simp] theorem State.setRes0_caps : (s.setRes0 v).caps = s.caps := rfl
@[simp] theorem State.setRes0_inputs : (s.setRes0 v).inputs = s.inputs := rfl
@[simp] theorem State.setRes0_rdata : (s.setRes0 v).rdata = s.rdata := rfl
end

section
variable (s : State) (b : List Word)
@[simp] theorem State.setBlk_status : (s.setBlk b).status = s.status := rfl
@[simp] theorem State.setBlk_err : (s.setBlk b).err = s.err := rfl
@[simp] theorem State.setBlk_errInfo : (s.setBlk b).errInfo = s.errInfo := rfl
@[simp] theorem State.setBlk_arg0 : (s.setBlk b).arg0 = s.arg0 := rfl
@[simp] theorem State.setBlk_arg1 : (s.setBlk b).arg1 = s.arg1 := rfl
@[simp] theorem State.setBlk_arg2 : (s.setBlk b).arg2 = s.arg2 := rfl
@[simp] theorem State.setBlk_arg3 : (s.setBlk b).arg3 = s.arg3 := rfl
@[simp] theorem State.setBlk_res0 : (s.setBlk b).res0 = s.res0 := rfl
@[simp] theorem State.setBlk_res1 : (s.setBlk b).res1 = s.res1 := rfl
@[simp] theorem State.setBlk_inPos : (s.setBlk b).inPos = s.inPos := rfl
@[simp] theorem State.setBlk_inLen : (s.setBlk b).inLen = s.inLen := rfl
@[simp] theorem State.setBlk_outLen : (s.setBlk b).outLen = s.outLen := rfl
@[simp] theorem State.setBlk_memSel : (s.setBlk b).memSel = s.memSel := rfl
@[simp] theorem State.setBlk_memAddr : (s.setBlk b).memAddr = s.memAddr := rfl
@[simp] theorem State.setBlk_bcAcc : (s.setBlk b).bcAcc = s.bcAcc := rfl
@[simp] theorem State.setBlk_bcNbits : (s.setBlk b).bcNbits = s.bcNbits := rfl
@[simp] theorem State.setBlk_bwAcc : (s.setBlk b).bwAcc = s.bwAcc := rfl
@[simp] theorem State.setBlk_bwNbits : (s.setBlk b).bwNbits = s.bwNbits := rfl
@[simp] theorem State.setBlk_jpg : (s.setBlk b).jpg = s.jpg := rfl
@[simp] theorem State.setBlk_inScan : (s.setBlk b).inScan = s.inScan := rfl
@[simp] theorem State.setBlk_octAthresh : (s.setBlk b).octAthresh = s.octAthresh := rfl
@[simp] theorem State.setBlk_oct : (s.setBlk b).oct = s.oct := rfl
@[simp] theorem State.setBlk_palLen : (s.setBlk b).palLen = s.palLen := rfl
@[simp] theorem State.setBlk_transpIdx : (s.setBlk b).transpIdx = s.transpIdx := rfl
@[simp] theorem State.setBlk_pixDim : (s.setBlk b).pixDim = s.pixDim := rfl
@[simp] theorem State.setBlk_gif : (s.setBlk b).gif = s.gif := rfl
@[simp] theorem State.setBlk_genc : (s.setBlk b).genc = s.genc := rfl
@[simp] theorem State.setBlk_qtValid : (s.setBlk b).qtValid = s.qtValid := rfl
@[simp] theorem State.setBlk_htValid : (s.setBlk b).htValid = s.htValid := rfl
@[simp] theorem State.setBlk_ht : (s.setBlk b).ht = s.ht := rfl
@[simp] theorem State.setBlk_mem : (s.setBlk b).mem = { s.mem with blk := Cells.setRange s.mem.blk 0 b } := rfl
@[simp] theorem State.setBlk_sub : (s.setBlk b).sub = s.sub := rfl
@[simp] theorem State.setBlk_lzd : (s.setBlk b).lzd = s.lzd := rfl
@[simp] theorem State.setBlk_lze : (s.setBlk b).lze = s.lze := rfl
@[simp] theorem State.setBlk_caps : (s.setBlk b).caps = s.caps := rfl
@[simp] theorem State.setBlk_inputs : (s.setBlk b).inputs = s.inputs := rfl
@[simp] theorem State.setBlk_rdata : (s.setBlk b).rdata = s.rdata := rfl
end

section
variable (s : State) (b : List Word)
@[simp] theorem State.setZz_status : (s.setZz b).status = s.status := rfl
@[simp] theorem State.setZz_err : (s.setZz b).err = s.err := rfl
@[simp] theorem State.setZz_errInfo : (s.setZz b).errInfo = s.errInfo := rfl
@[simp] theorem State.setZz_arg0 : (s.setZz b).arg0 = s.arg0 := rfl
@[simp] theorem State.setZz_arg1 : (s.setZz b).arg1 = s.arg1 := rfl
@[simp] theorem State.setZz_arg2 : (s.setZz b).arg2 = s.arg2 := rfl
@[simp] theorem State.setZz_arg3 : (s.setZz b).arg3 = s.arg3 := rfl
@[simp] theorem State.setZz_res0 : (s.setZz b).res0 = s.res0 := rfl
@[simp] theorem State.setZz_res1 : (s.setZz b).res1 = s.res1 := rfl
@[simp] theorem State.setZz_inPos : (s.setZz b).inPos = s.inPos := rfl
@[simp] theorem State.setZz_inLen : (s.setZz b).inLen = s.inLen := rfl
@[simp] theorem State.setZz_outLen : (s.setZz b).outLen = s.outLen := rfl
@[simp] theorem State.setZz_memSel : (s.setZz b).memSel = s.memSel := rfl
@[simp] theorem State.setZz_memAddr : (s.setZz b).memAddr = s.memAddr := rfl
@[simp] theorem State.setZz_bcAcc : (s.setZz b).bcAcc = s.bcAcc := rfl
@[simp] theorem State.setZz_bcNbits : (s.setZz b).bcNbits = s.bcNbits := rfl
@[simp] theorem State.setZz_bwAcc : (s.setZz b).bwAcc = s.bwAcc := rfl
@[simp] theorem State.setZz_bwNbits : (s.setZz b).bwNbits = s.bwNbits := rfl
@[simp] theorem State.setZz_jpg : (s.setZz b).jpg = s.jpg := rfl
@[simp] theorem State.setZz_inScan : (s.setZz b).inScan = s.inScan := rfl
@[simp] theorem State.setZz_octAthresh : (s.setZz b).octAthresh = s.octAthresh := rfl
@[simp] theorem State.setZz_oct : (s.setZz b).oct = s.oct := rfl
@[simp] theorem State.setZz_palLen : (s.setZz b).palLen = s.palLen := rfl
@[simp] theorem State.setZz_transpIdx : (s.setZz b).transpIdx = s.transpIdx := rfl
@[simp] theorem State.setZz_pixDim : (s.setZz b).pixDim = s.pixDim := rfl
@[simp] theorem State.setZz_gif : (s.setZz b).gif = s.gif := rfl
@[simp] theorem State.setZz_genc : (s.setZz b).genc = s.genc := rfl
@[simp] theorem State.setZz_qtValid : (s.setZz b).qtValid = s.qtValid := rfl
@[simp] theorem State.setZz_htValid : (s.setZz b).htValid = s.htValid := rfl
@[simp] theorem State.setZz_ht : (s.setZz b).ht = s.ht := rfl
@[simp] theorem State.setZz_mem : (s.setZz b).mem = { s.mem with zz := Cells.setRange s.mem.zz 0 b } := rfl
@[simp] theorem State.setZz_sub : (s.setZz b).sub = s.sub := rfl
@[simp] theorem State.setZz_lzd : (s.setZz b).lzd = s.lzd := rfl
@[simp] theorem State.setZz_lze : (s.setZz b).lze = s.lze := rfl
@[simp] theorem State.setZz_caps : (s.setZz b).caps = s.caps := rfl
@[simp] theorem State.setZz_inputs : (s.setZz b).inputs = s.inputs := rfl
@[simp] theorem State.setZz_rdata : (s.setZz b).rdata = s.rdata := rfl
end

section
variable (s : State) (k : Nat) (v : Word)
@[simp] theorem State.setZzAt_status : (s.setZzAt k v).status = s.status := rfl
@[simp] theorem State.setZzAt_err : (s.setZzAt k v).err = s.err := rfl
@[simp] theorem State.setZzAt_errInfo : (s.setZzAt k v).errInfo = s.errInfo := rfl
@[simp] theorem State.setZzAt_arg0 : (s.setZzAt k v).arg0 = s.arg0 := rfl
@[simp] theorem State.setZzAt_arg1 : (s.setZzAt k v).arg1 = s.arg1 := rfl
@[simp] theorem State.setZzAt_arg2 : (s.setZzAt k v).arg2 = s.arg2 := rfl
@[simp] theorem State.setZzAt_arg3 : (s.setZzAt k v).arg3 = s.arg3 := rfl
@[simp] theorem State.setZzAt_res0 : (s.setZzAt k v).res0 = s.res0 := rfl
@[simp] theorem State.setZzAt_res1 : (s.setZzAt k v).res1 = s.res1 := rfl
@[simp] theorem State.setZzAt_inPos : (s.setZzAt k v).inPos = s.inPos := rfl
@[simp] theorem State.setZzAt_inLen : (s.setZzAt k v).inLen = s.inLen := rfl
@[simp] theorem State.setZzAt_outLen : (s.setZzAt k v).outLen = s.outLen := rfl
@[simp] theorem State.setZzAt_memSel : (s.setZzAt k v).memSel = s.memSel := rfl
@[simp] theorem State.setZzAt_memAddr : (s.setZzAt k v).memAddr = s.memAddr := rfl
@[simp] theorem State.setZzAt_bcAcc : (s.setZzAt k v).bcAcc = s.bcAcc := rfl
@[simp] theorem State.setZzAt_bcNbits : (s.setZzAt k v).bcNbits = s.bcNbits := rfl
@[simp] theorem State.setZzAt_bwAcc : (s.setZzAt k v).bwAcc = s.bwAcc := rfl
@[simp] theorem State.setZzAt_bwNbits : (s.setZzAt k v).bwNbits = s.bwNbits := rfl
@[simp] theorem State.setZzAt_jpg : (s.setZzAt k v).jpg = s.jpg := rfl
@[simp] theorem State.setZzAt_inScan : (s.setZzAt k v).inScan = s.inScan := rfl
@[simp] theorem State.setZzAt_octAthresh : (s.setZzAt k v).octAthresh = s.octAthresh := rfl
@[simp] theorem State.setZzAt_oct : (s.setZzAt k v).oct = s.oct := rfl
@[simp] theorem State.setZzAt_palLen : (s.setZzAt k v).palLen = s.palLen := rfl
@[simp] theorem State.setZzAt_transpIdx : (s.setZzAt k v).transpIdx = s.transpIdx := rfl
@[simp] theorem State.setZzAt_pixDim : (s.setZzAt k v).pixDim = s.pixDim := rfl
@[simp] theorem State.setZzAt_gif : (s.setZzAt k v).gif = s.gif := rfl
@[simp] theorem State.setZzAt_genc : (s.setZzAt k v).genc = s.genc := rfl
@[simp] theorem State.setZzAt_qtValid : (s.setZzAt k v).qtValid = s.qtValid := rfl
@[simp] theorem State.setZzAt_htValid : (s.setZzAt k v).htValid = s.htValid := rfl
@[simp] theorem State.setZzAt_ht : (s.setZzAt k v).ht = s.ht := rfl
@[simp] theorem State.setZzAt_mem : (s.setZzAt k v).mem = { s.mem with zz := Cells.set s.mem.zz k v } := rfl
@[simp] theorem State.setZzAt_sub : (s.setZzAt k v).sub = s.sub := rfl
@[simp] theorem State.setZzAt_lzd : (s.setZzAt k v).lzd = s.lzd := rfl
@[simp] theorem State.setZzAt_lze : (s.setZzAt k v).lze = s.lze := rfl
@[simp] theorem State.setZzAt_caps : (s.setZzAt k v).caps = s.caps := rfl
@[simp] theorem State.setZzAt_inputs : (s.setZzAt k v).inputs = s.inputs := rfl
@[simp] theorem State.setZzAt_rdata : (s.setZzAt k v).rdata = s.rdata := rfl
end

section
variable (s : State) (c t : Nat) (h : HuffTable)
@[simp] theorem State.putTable_status : (s.putTable c t h).status = s.status := rfl
@[simp] theorem State.putTable_err : (s.putTable c t h).err = s.err := rfl
@[simp] theorem State.putTable_errInfo : (s.putTable c t h).errInfo = s.errInfo := rfl
@[simp] theorem State.putTable_arg0 : (s.putTable c t h).arg0 = s.arg0 := rfl
@[simp] theorem State.putTable_arg1 : (s.putTable c t h).arg1 = s.arg1 := rfl
@[simp] theorem State.putTable_arg2 : (s.putTable c t h).arg2 = s.arg2 := rfl
@[simp] theorem State.putTable_arg3 : (s.putTable c t h).arg3 = s.arg3 := rfl
@[simp] theorem State.putTable_res0 : (s.putTable c t h).res0 = s.res0 := rfl
@[simp] theorem State.putTable_res1 : (s.putTable c t h).res1 = s.res1 := rfl
@[simp] theorem State.putTable_inPos : (s.putTable c t h).inPos = s.inPos := rfl
@[simp] theorem State.putTable_inLen : (s.putTable c t h).inLen = s.inLen := rfl
@[simp] theorem State.putTable_outLen : (s.putTable c t h).outLen = s.outLen := rfl
@[simp] theorem State.putTable_memSel : (s.putTable c t h).memSel = s.memSel := rfl
@[simp] theorem State.putTable_memAddr : (s.putTable c t h).memAddr = s.memAddr := rfl
@[simp] theorem State.putTable_bcAcc : (s.putTable c t h).bcAcc = s.bcAcc := rfl
@[simp] theorem State.putTable_bcNbits : (s.putTable c t h).bcNbits = s.bcNbits := rfl
@[simp] theorem State.putTable_bwAcc : (s.putTable c t h).bwAcc = s.bwAcc := rfl
@[simp] theorem State.putTable_bwNbits : (s.putTable c t h).bwNbits = s.bwNbits := rfl
@[simp] theorem State.putTable_jpg : (s.putTable c t h).jpg = s.jpg := rfl
@[simp] theorem State.putTable_inScan : (s.putTable c t h).inScan = s.inScan := rfl
@[simp] theorem State.putTable_octAthresh : (s.putTable c t h).octAthresh = s.octAthresh := rfl
@[simp] theorem State.putTable_oct : (s.putTable c t h).oct = s.oct := rfl
@[simp] theorem State.putTable_palLen : (s.putTable c t h).palLen = s.palLen := rfl
@[simp] theorem State.putTable_transpIdx : (s.putTable c t h).transpIdx = s.transpIdx := rfl
@[simp] theorem State.putTable_pixDim : (s.putTable c t h).pixDim = s.pixDim := rfl
@[simp] theorem State.putTable_gif : (s.putTable c t h).gif = s.gif := rfl
@[simp] theorem State.putTable_genc : (s.putTable c t h).genc = s.genc := rfl
@[simp] theorem State.putTable_qtValid : (s.putTable c t h).qtValid = s.qtValid := rfl
@[simp] theorem State.putTable_htValid : (s.putTable c t h).htValid = s.htValid ||| (1#8 <<< (4 * c + t)) := rfl
@[simp] theorem State.putTable_ht : (s.putTable c t h).ht = s.ht.set (tableNo c t).val h (tableNo c t).isLt := rfl
@[simp] theorem State.putTable_mem : (s.putTable c t h).mem = s.mem := rfl
@[simp] theorem State.putTable_sub : (s.putTable c t h).sub = s.sub := rfl
@[simp] theorem State.putTable_lzd : (s.putTable c t h).lzd = s.lzd := rfl
@[simp] theorem State.putTable_lze : (s.putTable c t h).lze = s.lze := rfl
@[simp] theorem State.putTable_caps : (s.putTable c t h).caps = s.caps := rfl
@[simp] theorem State.putTable_inputs : (s.putTable c t h).inputs = s.inputs := rfl
@[simp] theorem State.putTable_rdata : (s.putTable c t h).rdata = s.rdata := rfl
end

section
variable (s : State) (q : Nat) (vs : List (BitVec 16))
@[simp] theorem State.putQt_status : (s.putQt q vs).status = s.status := rfl
@[simp] theorem State.putQt_err : (s.putQt q vs).err = s.err := rfl
@[simp] theorem State.putQt_errInfo : (s.putQt q vs).errInfo = s.errInfo := rfl
@[simp] theorem State.putQt_arg0 : (s.putQt q vs).arg0 = s.arg0 := rfl
@[simp] theorem State.putQt_arg1 : (s.putQt q vs).arg1 = s.arg1 := rfl
@[simp] theorem State.putQt_arg2 : (s.putQt q vs).arg2 = s.arg2 := rfl
@[simp] theorem State.putQt_arg3 : (s.putQt q vs).arg3 = s.arg3 := rfl
@[simp] theorem State.putQt_res0 : (s.putQt q vs).res0 = s.res0 := rfl
@[simp] theorem State.putQt_res1 : (s.putQt q vs).res1 = s.res1 := rfl
@[simp] theorem State.putQt_inPos : (s.putQt q vs).inPos = s.inPos := rfl
@[simp] theorem State.putQt_inLen : (s.putQt q vs).inLen = s.inLen := rfl
@[simp] theorem State.putQt_outLen : (s.putQt q vs).outLen = s.outLen := rfl
@[simp] theorem State.putQt_memSel : (s.putQt q vs).memSel = s.memSel := rfl
@[simp] theorem State.putQt_memAddr : (s.putQt q vs).memAddr = s.memAddr := rfl
@[simp] theorem State.putQt_bcAcc : (s.putQt q vs).bcAcc = s.bcAcc := rfl
@[simp] theorem State.putQt_bcNbits : (s.putQt q vs).bcNbits = s.bcNbits := rfl
@[simp] theorem State.putQt_bwAcc : (s.putQt q vs).bwAcc = s.bwAcc := rfl
@[simp] theorem State.putQt_bwNbits : (s.putQt q vs).bwNbits = s.bwNbits := rfl
@[simp] theorem State.putQt_jpg : (s.putQt q vs).jpg = s.jpg := rfl
@[simp] theorem State.putQt_inScan : (s.putQt q vs).inScan = s.inScan := rfl
@[simp] theorem State.putQt_octAthresh : (s.putQt q vs).octAthresh = s.octAthresh := rfl
@[simp] theorem State.putQt_oct : (s.putQt q vs).oct = s.oct := rfl
@[simp] theorem State.putQt_palLen : (s.putQt q vs).palLen = s.palLen := rfl
@[simp] theorem State.putQt_transpIdx : (s.putQt q vs).transpIdx = s.transpIdx := rfl
@[simp] theorem State.putQt_pixDim : (s.putQt q vs).pixDim = s.pixDim := rfl
@[simp] theorem State.putQt_gif : (s.putQt q vs).gif = s.gif := rfl
@[simp] theorem State.putQt_genc : (s.putQt q vs).genc = s.genc := rfl
@[simp] theorem State.putQt_qtValid : (s.putQt q vs).qtValid = s.qtValid ||| (1#4 <<< q) := rfl
@[simp] theorem State.putQt_htValid : (s.putQt q vs).htValid = s.htValid := rfl
@[simp] theorem State.putQt_ht : (s.putQt q vs).ht = s.ht := rfl
@[simp] theorem State.putQt_mem : (s.putQt q vs).mem = { s.mem with qt := Cells.setRange s.mem.qt (64 * q) vs } := rfl
@[simp] theorem State.putQt_sub : (s.putQt q vs).sub = s.sub := rfl
@[simp] theorem State.putQt_lzd : (s.putQt q vs).lzd = s.lzd := rfl
@[simp] theorem State.putQt_lze : (s.putQt q vs).lze = s.lze := rfl
@[simp] theorem State.putQt_caps : (s.putQt q vs).caps = s.caps := rfl
@[simp] theorem State.putQt_inputs : (s.putQt q vs).inputs = s.inputs := rfl
@[simp] theorem State.putQt_rdata : (s.putQt q vs).rdata = s.rdata := rfl
end

section
variable (s : State) (f : JpegCtx → JpegCtx)
@[simp] theorem State.onJpg_status : (s.onJpg f).status = s.status := rfl
@[simp] theorem State.onJpg_err : (s.onJpg f).err = s.err := rfl
@[simp] theorem State.onJpg_errInfo : (s.onJpg f).errInfo = s.errInfo := rfl
@[simp] theorem State.onJpg_arg0 : (s.onJpg f).arg0 = s.arg0 := rfl
@[simp] theorem State.onJpg_arg1 : (s.onJpg f).arg1 = s.arg1 := rfl
@[simp] theorem State.onJpg_arg2 : (s.onJpg f).arg2 = s.arg2 := rfl
@[simp] theorem State.onJpg_arg3 : (s.onJpg f).arg3 = s.arg3 := rfl
@[simp] theorem State.onJpg_res0 : (s.onJpg f).res0 = s.res0 := rfl
@[simp] theorem State.onJpg_res1 : (s.onJpg f).res1 = s.res1 := rfl
@[simp] theorem State.onJpg_inPos : (s.onJpg f).inPos = s.inPos := rfl
@[simp] theorem State.onJpg_inLen : (s.onJpg f).inLen = s.inLen := rfl
@[simp] theorem State.onJpg_outLen : (s.onJpg f).outLen = s.outLen := rfl
@[simp] theorem State.onJpg_memSel : (s.onJpg f).memSel = s.memSel := rfl
@[simp] theorem State.onJpg_memAddr : (s.onJpg f).memAddr = s.memAddr := rfl
@[simp] theorem State.onJpg_bcAcc : (s.onJpg f).bcAcc = s.bcAcc := rfl
@[simp] theorem State.onJpg_bcNbits : (s.onJpg f).bcNbits = s.bcNbits := rfl
@[simp] theorem State.onJpg_bwAcc : (s.onJpg f).bwAcc = s.bwAcc := rfl
@[simp] theorem State.onJpg_bwNbits : (s.onJpg f).bwNbits = s.bwNbits := rfl
@[simp] theorem State.onJpg_jpg : (s.onJpg f).jpg = f s.jpg := rfl
@[simp] theorem State.onJpg_inScan : (s.onJpg f).inScan = s.inScan := rfl
@[simp] theorem State.onJpg_octAthresh : (s.onJpg f).octAthresh = s.octAthresh := rfl
@[simp] theorem State.onJpg_oct : (s.onJpg f).oct = s.oct := rfl
@[simp] theorem State.onJpg_palLen : (s.onJpg f).palLen = s.palLen := rfl
@[simp] theorem State.onJpg_transpIdx : (s.onJpg f).transpIdx = s.transpIdx := rfl
@[simp] theorem State.onJpg_pixDim : (s.onJpg f).pixDim = s.pixDim := rfl
@[simp] theorem State.onJpg_gif : (s.onJpg f).gif = s.gif := rfl
@[simp] theorem State.onJpg_genc : (s.onJpg f).genc = s.genc := rfl
@[simp] theorem State.onJpg_qtValid : (s.onJpg f).qtValid = s.qtValid := rfl
@[simp] theorem State.onJpg_htValid : (s.onJpg f).htValid = s.htValid := rfl
@[simp] theorem State.onJpg_ht : (s.onJpg f).ht = s.ht := rfl
@[simp] theorem State.onJpg_mem : (s.onJpg f).mem = s.mem := rfl
@[simp] theorem State.onJpg_sub : (s.onJpg f).sub = s.sub := rfl
@[simp] theorem State.onJpg_lzd : (s.onJpg f).lzd = s.lzd := rfl
@[simp] theorem State.onJpg_lze : (s.onJpg f).lze = s.lze := rfl
@[simp] theorem State.onJpg_caps : (s.onJpg f).caps = s.caps := rfl
@[simp] theorem State.onJpg_inputs : (s.onJpg f).inputs = s.inputs := rfl
@[simp] theorem State.onJpg_rdata : (s.onJpg f).rdata = s.rdata := rfl
end

section
variable (s : State) (st : JpgState)
@[simp] theorem State.setJpgState_status : (s.setJpgState st).status = s.status := rfl
@[simp] theorem State.setJpgState_err : (s.setJpgState st).err = s.err := rfl
@[simp] theorem State.setJpgState_errInfo : (s.setJpgState st).errInfo = s.errInfo := rfl
@[simp] theorem State.setJpgState_arg0 : (s.setJpgState st).arg0 = s.arg0 := rfl
@[simp] theorem State.setJpgState_arg1 : (s.setJpgState st).arg1 = s.arg1 := rfl
@[simp] theorem State.setJpgState_arg2 : (s.setJpgState st).arg2 = s.arg2 := rfl
@[simp] theorem State.setJpgState_arg3 : (s.setJpgState st).arg3 = s.arg3 := rfl
@[simp] theorem State.setJpgState_res0 : (s.setJpgState st).res0 = s.res0 := rfl
@[simp] theorem State.setJpgState_res1 : (s.setJpgState st).res1 = s.res1 := rfl
@[simp] theorem State.setJpgState_inPos : (s.setJpgState st).inPos = s.inPos := rfl
@[simp] theorem State.setJpgState_inLen : (s.setJpgState st).inLen = s.inLen := rfl
@[simp] theorem State.setJpgState_outLen : (s.setJpgState st).outLen = s.outLen := rfl
@[simp] theorem State.setJpgState_memSel : (s.setJpgState st).memSel = s.memSel := rfl
@[simp] theorem State.setJpgState_memAddr : (s.setJpgState st).memAddr = s.memAddr := rfl
@[simp] theorem State.setJpgState_bcAcc : (s.setJpgState st).bcAcc = s.bcAcc := rfl
@[simp] theorem State.setJpgState_bcNbits : (s.setJpgState st).bcNbits = s.bcNbits := rfl
@[simp] theorem State.setJpgState_bwAcc : (s.setJpgState st).bwAcc = s.bwAcc := rfl
@[simp] theorem State.setJpgState_bwNbits : (s.setJpgState st).bwNbits = s.bwNbits := rfl
@[simp] theorem State.setJpgState_jpg : (s.setJpgState st).jpg = { s.jpg with state := st } := rfl
@[simp] theorem State.setJpgState_inScan : (s.setJpgState st).inScan = s.inScan := rfl
@[simp] theorem State.setJpgState_octAthresh : (s.setJpgState st).octAthresh = s.octAthresh := rfl
@[simp] theorem State.setJpgState_oct : (s.setJpgState st).oct = s.oct := rfl
@[simp] theorem State.setJpgState_palLen : (s.setJpgState st).palLen = s.palLen := rfl
@[simp] theorem State.setJpgState_transpIdx : (s.setJpgState st).transpIdx = s.transpIdx := rfl
@[simp] theorem State.setJpgState_pixDim : (s.setJpgState st).pixDim = s.pixDim := rfl
@[simp] theorem State.setJpgState_gif : (s.setJpgState st).gif = s.gif := rfl
@[simp] theorem State.setJpgState_genc : (s.setJpgState st).genc = s.genc := rfl
@[simp] theorem State.setJpgState_qtValid : (s.setJpgState st).qtValid = s.qtValid := rfl
@[simp] theorem State.setJpgState_htValid : (s.setJpgState st).htValid = s.htValid := rfl
@[simp] theorem State.setJpgState_ht : (s.setJpgState st).ht = s.ht := rfl
@[simp] theorem State.setJpgState_mem : (s.setJpgState st).mem = s.mem := rfl
@[simp] theorem State.setJpgState_sub : (s.setJpgState st).sub = s.sub := rfl
@[simp] theorem State.setJpgState_lzd : (s.setJpgState st).lzd = s.lzd := rfl
@[simp] theorem State.setJpgState_lze : (s.setJpgState st).lze = s.lze := rfl
@[simp] theorem State.setJpgState_caps : (s.setJpgState st).caps = s.caps := rfl
@[simp] theorem State.setJpgState_inputs : (s.setJpgState st).inputs = s.inputs := rfl
@[simp] theorem State.setJpgState_rdata : (s.setJpgState st).rdata = s.rdata := rfl
end

section
variable (s : State) (i : Nat) (c : Cells 8)
@[simp] theorem State.setPlane_status : (s.setPlane i c).status = s.status := rfl
@[simp] theorem State.setPlane_err : (s.setPlane i c).err = s.err := rfl
@[simp] theorem State.setPlane_errInfo : (s.setPlane i c).errInfo = s.errInfo := rfl
@[simp] theorem State.setPlane_arg0 : (s.setPlane i c).arg0 = s.arg0 := rfl
@[simp] theorem State.setPlane_arg1 : (s.setPlane i c).arg1 = s.arg1 := rfl
@[simp] theorem State.setPlane_arg2 : (s.setPlane i c).arg2 = s.arg2 := rfl
@[simp] theorem State.setPlane_arg3 : (s.setPlane i c).arg3 = s.arg3 := rfl
@[simp] theorem State.setPlane_res0 : (s.setPlane i c).res0 = s.res0 := rfl
@[simp] theorem State.setPlane_res1 : (s.setPlane i c).res1 = s.res1 := rfl
@[simp] theorem State.setPlane_inPos : (s.setPlane i c).inPos = s.inPos := rfl
@[simp] theorem State.setPlane_inLen : (s.setPlane i c).inLen = s.inLen := rfl
@[simp] theorem State.setPlane_outLen : (s.setPlane i c).outLen = s.outLen := rfl
@[simp] theorem State.setPlane_memSel : (s.setPlane i c).memSel = s.memSel := rfl
@[simp] theorem State.setPlane_memAddr : (s.setPlane i c).memAddr = s.memAddr := rfl
@[simp] theorem State.setPlane_bcAcc : (s.setPlane i c).bcAcc = s.bcAcc := rfl
@[simp] theorem State.setPlane_bcNbits : (s.setPlane i c).bcNbits = s.bcNbits := rfl
@[simp] theorem State.setPlane_bwAcc : (s.setPlane i c).bwAcc = s.bwAcc := rfl
@[simp] theorem State.setPlane_bwNbits : (s.setPlane i c).bwNbits = s.bwNbits := rfl
@[simp] theorem State.setPlane_jpg : (s.setPlane i c).jpg = s.jpg := rfl
@[simp] theorem State.setPlane_inScan : (s.setPlane i c).inScan = s.inScan := rfl
@[simp] theorem State.setPlane_octAthresh : (s.setPlane i c).octAthresh = s.octAthresh := rfl
@[simp] theorem State.setPlane_oct : (s.setPlane i c).oct = s.oct := rfl
@[simp] theorem State.setPlane_palLen : (s.setPlane i c).palLen = s.palLen := rfl
@[simp] theorem State.setPlane_transpIdx : (s.setPlane i c).transpIdx = s.transpIdx := rfl
@[simp] theorem State.setPlane_pixDim : (s.setPlane i c).pixDim = s.pixDim := rfl
@[simp] theorem State.setPlane_gif : (s.setPlane i c).gif = s.gif := rfl
@[simp] theorem State.setPlane_genc : (s.setPlane i c).genc = s.genc := rfl
@[simp] theorem State.setPlane_qtValid : (s.setPlane i c).qtValid = s.qtValid := rfl
@[simp] theorem State.setPlane_htValid : (s.setPlane i c).htValid = s.htValid := rfl
@[simp] theorem State.setPlane_ht : (s.setPlane i c).ht = s.ht := rfl
@[simp] theorem State.setPlane_mem : (s.setPlane i c).mem = { s.mem with plane := s.mem.plane.set (Fin.ofNat 4 i).val c (Fin.ofNat 4 i).isLt } := rfl
@[simp] theorem State.setPlane_sub : (s.setPlane i c).sub = s.sub := rfl
@[simp] theorem State.setPlane_lzd : (s.setPlane i c).lzd = s.lzd := rfl
@[simp] theorem State.setPlane_lze : (s.setPlane i c).lze = s.lze := rfl
@[simp] theorem State.setPlane_caps : (s.setPlane i c).caps = s.caps := rfl
@[simp] theorem State.setPlane_inputs : (s.setPlane i c).inputs = s.inputs := rfl
@[simp] theorem State.setPlane_rdata : (s.setPlane i c).rdata = s.rdata := rfl
end

section
variable (s : State) (i : Nat) (c : Cells 32)
@[simp] theorem State.setCoef_status : (s.setCoef i c).status = s.status := rfl
@[simp] theorem State.setCoef_err : (s.setCoef i c).err = s.err := rfl
@[simp] theorem State.setCoef_errInfo : (s.setCoef i c).errInfo = s.errInfo := rfl
@[simp] theorem State.setCoef_arg0 : (s.setCoef i c).arg0 = s.arg0 := rfl
@[simp] theorem State.setCoef_arg1 : (s.setCoef i c).arg1 = s.arg1 := rfl
@[simp] theorem State.setCoef_arg2 : (s.setCoef i c).arg2 = s.arg2 := rfl
@[simp] theorem State.setCoef_arg3 : (s.setCoef i c).arg3 = s.arg3 := rfl
@[simp] theorem State.setCoef_res0 : (s.setCoef i c).res0 = s.res0 := rfl
@[simp] theorem State.setCoef_res1 : (s.setCoef i c).res1 = s.res1 := rfl
@[simp] theorem State.setCoef_inPos : (s.setCoef i c).inPos = s.inPos := rfl
@[simp] theorem State.setCoef_inLen : (s.setCoef i c).inLen = s.inLen := rfl
@[simp] theorem State.setCoef_outLen : (s.setCoef i c).outLen = s.outLen := rfl
@[simp] theorem State.setCoef_memSel : (s.setCoef i c).memSel = s.memSel := rfl
@[simp] theorem State.setCoef_memAddr : (s.setCoef i c).memAddr = s.memAddr := rfl
@[simp] theorem State.setCoef_bcAcc : (s.setCoef i c).bcAcc = s.bcAcc := rfl
@[simp] theorem State.setCoef_bcNbits : (s.setCoef i c).bcNbits = s.bcNbits := rfl
@[simp] theorem State.setCoef_bwAcc : (s.setCoef i c).bwAcc = s.bwAcc := rfl
@[simp] theorem State.setCoef_bwNbits : (s.setCoef i c).bwNbits = s.bwNbits := rfl
@[simp] theorem State.setCoef_jpg : (s.setCoef i c).jpg = s.jpg := rfl
@[simp] theorem State.setCoef_inScan : (s.setCoef i c).inScan = s.inScan := rfl
@[simp] theorem State.setCoef_octAthresh : (s.setCoef i c).octAthresh = s.octAthresh := rfl
@[simp] theorem State.setCoef_oct : (s.setCoef i c).oct = s.oct := rfl
@[simp] theorem State.setCoef_palLen : (s.setCoef i c).palLen = s.palLen := rfl
@[simp] theorem State.setCoef_transpIdx : (s.setCoef i c).transpIdx = s.transpIdx := rfl
@[simp] theorem State.setCoef_pixDim : (s.setCoef i c).pixDim = s.pixDim := rfl
@[simp] theorem State.setCoef_gif : (s.setCoef i c).gif = s.gif := rfl
@[simp] theorem State.setCoef_genc : (s.setCoef i c).genc = s.genc := rfl
@[simp] theorem State.setCoef_qtValid : (s.setCoef i c).qtValid = s.qtValid := rfl
@[simp] theorem State.setCoef_htValid : (s.setCoef i c).htValid = s.htValid := rfl
@[simp] theorem State.setCoef_ht : (s.setCoef i c).ht = s.ht := rfl
@[simp] theorem State.setCoef_mem : (s.setCoef i c).mem = { s.mem with coef := s.mem.coef.set (Fin.ofNat 4 i).val c (Fin.ofNat 4 i).isLt } := rfl
@[simp] theorem State.setCoef_sub : (s.setCoef i c).sub = s.sub := rfl
@[simp] theorem State.setCoef_lzd : (s.setCoef i c).lzd = s.lzd := rfl
@[simp] theorem State.setCoef_lze : (s.setCoef i c).lze = s.lze := rfl
@[simp] theorem State.setCoef_caps : (s.setCoef i c).caps = s.caps := rfl
@[simp] theorem State.setCoef_inputs : (s.setCoef i c).inputs = s.inputs := rfl
@[simp] theorem State.setCoef_rdata : (s.setCoef i c).rdata = s.rdata := rfl
end

section
variable (s : State) (r : Byte) (t : Bool)
@[simp] theorem State.setSub_status : (s.setSub r t).status = s.status := rfl
@[simp] theorem State.setSub_err : (s.setSub r t).err = s.err := rfl
@[simp] theorem State.setSub_errInfo : (s.setSub r t).errInfo = s.errInfo := rfl
@[simp] theorem State.setSub_arg0 : (s.setSub r t).arg0 = s.arg0 := rfl
@[simp] theorem State.setSub_arg1 : (s.setSub r t).arg1 = s.arg1 := rfl
@[simp] theorem State.setSub_arg2 : (s.setSub r t).arg2 = s.arg2 := rfl
@[simp] theorem State.setSub_arg3 : (s.setSub r t).arg3 = s.arg3 := rfl
@[simp] theorem State.setSub_res0 : (s.setSub r t).res0 = s.res0 := rfl
@[simp] theorem State.setSub_res1 : (s.setSub r t).res1 = s.res1 := rfl
@[simp] theorem State.setSub_inPos : (s.setSub r t).inPos = s.inPos := rfl
@[simp] theorem State.setSub_inLen : (s.setSub r t).inLen = s.inLen := rfl
@[simp] theorem State.setSub_outLen : (s.setSub r t).outLen = s.outLen := rfl
@[simp] theorem State.setSub_memSel : (s.setSub r t).memSel = s.memSel := rfl
@[simp] theorem State.setSub_memAddr : (s.setSub r t).memAddr = s.memAddr := rfl
@[simp] theorem State.setSub_bcAcc : (s.setSub r t).bcAcc = s.bcAcc := rfl
@[simp] theorem State.setSub_bcNbits : (s.setSub r t).bcNbits = s.bcNbits := rfl
@[simp] theorem State.setSub_bwAcc : (s.setSub r t).bwAcc = s.bwAcc := rfl
@[simp] theorem State.setSub_bwNbits : (s.setSub r t).bwNbits = s.bwNbits := rfl
@[simp] theorem State.setSub_jpg : (s.setSub r t).jpg = s.jpg := rfl
@[simp] theorem State.setSub_inScan : (s.setSub r t).inScan = s.inScan := rfl
@[simp] theorem State.setSub_octAthresh : (s.setSub r t).octAthresh = s.octAthresh := rfl
@[simp] theorem State.setSub_oct : (s.setSub r t).oct = s.oct := rfl
@[simp] theorem State.setSub_palLen : (s.setSub r t).palLen = s.palLen := rfl
@[simp] theorem State.setSub_transpIdx : (s.setSub r t).transpIdx = s.transpIdx := rfl
@[simp] theorem State.setSub_pixDim : (s.setSub r t).pixDim = s.pixDim := rfl
@[simp] theorem State.setSub_gif : (s.setSub r t).gif = s.gif := rfl
@[simp] theorem State.setSub_genc : (s.setSub r t).genc = s.genc := rfl
@[simp] theorem State.setSub_qtValid : (s.setSub r t).qtValid = s.qtValid := rfl
@[simp] theorem State.setSub_htValid : (s.setSub r t).htValid = s.htValid := rfl
@[simp] theorem State.setSub_ht : (s.setSub r t).ht = s.ht := rfl
@[simp] theorem State.setSub_mem : (s.setSub r t).mem = s.mem := rfl
@[simp] theorem State.setSub_sub : (s.setSub r t).sub = ⟨r, t⟩ := rfl
@[simp] theorem State.setSub_lzd : (s.setSub r t).lzd = s.lzd := rfl
@[simp] theorem State.setSub_lze : (s.setSub r t).lze = s.lze := rfl
@[simp] theorem State.setSub_caps : (s.setSub r t).caps = s.caps := rfl
@[simp] theorem State.setSub_inputs : (s.setSub r t).inputs = s.inputs := rfl
@[simp] theorem State.setSub_rdata : (s.setSub r t).rdata = s.rdata := rfl
end

section
variable (s : State) (a : Nat) (bs : List Byte)
@[simp] theorem State.storeIdx_status : (s.storeIdx a bs).status = s.status := rfl
@[simp] theorem State.storeIdx_err : (s.storeIdx a bs).err = s.err := rfl
@[simp] theorem State.storeIdx_errInfo : (s.storeIdx a bs).errInfo = s.errInfo := rfl
@[simp] theorem State.storeIdx_arg0 : (s.storeIdx a bs).arg0 = s.arg0 := rfl
@[simp] theorem State.storeIdx_arg1 : (s.storeIdx a bs).arg1 = s.arg1 := rfl
@[simp] theorem State.storeIdx_arg2 : (s.storeIdx a bs).arg2 = s.arg2 := rfl
@[simp] theorem State.storeIdx_arg3 : (s.storeIdx a bs).arg3 = s.arg3 := rfl
@[simp] theorem State.storeIdx_res0 : (s.storeIdx a bs).res0 = s.res0 := rfl
@[simp] theorem State.storeIdx_res1 : (s.storeIdx a bs).res1 = s.res1 := rfl
@[simp] theorem State.storeIdx_inPos : (s.storeIdx a bs).inPos = s.inPos := rfl
@[simp] theorem State.storeIdx_inLen : (s.storeIdx a bs).inLen = s.inLen := rfl
@[simp] theorem State.storeIdx_outLen : (s.storeIdx a bs).outLen = s.outLen := rfl
@[simp] theorem State.storeIdx_memSel : (s.storeIdx a bs).memSel = s.memSel := rfl
@[simp] theorem State.storeIdx_memAddr : (s.storeIdx a bs).memAddr = s.memAddr := rfl
@[simp] theorem State.storeIdx_bcAcc : (s.storeIdx a bs).bcAcc = s.bcAcc := rfl
@[simp] theorem State.storeIdx_bcNbits : (s.storeIdx a bs).bcNbits = s.bcNbits := rfl
@[simp] theorem State.storeIdx_bwAcc : (s.storeIdx a bs).bwAcc = s.bwAcc := rfl
@[simp] theorem State.storeIdx_bwNbits : (s.storeIdx a bs).bwNbits = s.bwNbits := rfl
@[simp] theorem State.storeIdx_jpg : (s.storeIdx a bs).jpg = s.jpg := rfl
@[simp] theorem State.storeIdx_inScan : (s.storeIdx a bs).inScan = s.inScan := rfl
@[simp] theorem State.storeIdx_octAthresh : (s.storeIdx a bs).octAthresh = s.octAthresh := rfl
@[simp] theorem State.storeIdx_oct : (s.storeIdx a bs).oct = s.oct := rfl
@[simp] theorem State.storeIdx_palLen : (s.storeIdx a bs).palLen = s.palLen := rfl
@[simp] theorem State.storeIdx_transpIdx : (s.storeIdx a bs).transpIdx = s.transpIdx := rfl
@[simp] theorem State.storeIdx_pixDim : (s.storeIdx a bs).pixDim = s.pixDim := rfl
@[simp] theorem State.storeIdx_gif : (s.storeIdx a bs).gif = s.gif := rfl
@[simp] theorem State.storeIdx_genc : (s.storeIdx a bs).genc = s.genc := rfl
@[simp] theorem State.storeIdx_qtValid : (s.storeIdx a bs).qtValid = s.qtValid := rfl
@[simp] theorem State.storeIdx_htValid : (s.storeIdx a bs).htValid = s.htValid := rfl
@[simp] theorem State.storeIdx_ht : (s.storeIdx a bs).ht = s.ht := rfl
@[simp] theorem State.storeIdx_mem : (s.storeIdx a bs).mem = { s.mem with idx := Cells.setRange s.mem.idx a bs } := rfl
@[simp] theorem State.storeIdx_sub : (s.storeIdx a bs).sub = s.sub := rfl
@[simp] theorem State.storeIdx_lzd : (s.storeIdx a bs).lzd = s.lzd := rfl
@[simp] theorem State.storeIdx_lze : (s.storeIdx a bs).lze = s.lze := rfl
@[simp] theorem State.storeIdx_caps : (s.storeIdx a bs).caps = s.caps := rfl
@[simp] theorem State.storeIdx_inputs : (s.storeIdx a bs).inputs = s.inputs := rfl
@[simp] theorem State.storeIdx_rdata : (s.storeIdx a bs).rdata = s.rdata := rfl
end

section
variable (s : State) (f : LzwEnc → LzwEnc)
@[simp] theorem State.onLze_status : (s.onLze f).status = s.status := rfl
@[simp] theorem State.onLze_err : (s.onLze f).err = s.err := rfl
@[simp] theorem State.onLze_errInfo : (s.onLze f).errInfo = s.errInfo := rfl
@[simp] theorem State.onLze_arg0 : (s.onLze f).arg0 = s.arg0 := rfl
@[simp] theorem State.onLze_arg1 : (s.onLze f).arg1 = s.arg1 := rfl
@[simp] theorem State.onLze_arg2 : (s.onLze f).arg2 = s.arg2 := rfl
@[simp] theorem State.onLze_arg3 : (s.onLze f).arg3 = s.arg3 := rfl
@[simp] theorem State.onLze_res0 : (s.onLze f).res0 = s.res0 := rfl
@[simp] theorem State.onLze_res1 : (s.onLze f).res1 = s.res1 := rfl
@[simp] theorem State.onLze_inPos : (s.onLze f).inPos = s.inPos := rfl
@[simp] theorem State.onLze_inLen : (s.onLze f).inLen = s.inLen := rfl
@[simp] theorem State.onLze_outLen : (s.onLze f).outLen = s.outLen := rfl
@[simp] theorem State.onLze_memSel : (s.onLze f).memSel = s.memSel := rfl
@[simp] theorem State.onLze_memAddr : (s.onLze f).memAddr = s.memAddr := rfl
@[simp] theorem State.onLze_bcAcc : (s.onLze f).bcAcc = s.bcAcc := rfl
@[simp] theorem State.onLze_bcNbits : (s.onLze f).bcNbits = s.bcNbits := rfl
@[simp] theorem State.onLze_bwAcc : (s.onLze f).bwAcc = s.bwAcc := rfl
@[simp] theorem State.onLze_bwNbits : (s.onLze f).bwNbits = s.bwNbits := rfl
@[simp] theorem State.onLze_jpg : (s.onLze f).jpg = s.jpg := rfl
@[simp] theorem State.onLze_inScan : (s.onLze f).inScan = s.inScan := rfl
@[simp] theorem State.onLze_octAthresh : (s.onLze f).octAthresh = s.octAthresh := rfl
@[simp] theorem State.onLze_oct : (s.onLze f).oct = s.oct := rfl
@[simp] theorem State.onLze_palLen : (s.onLze f).palLen = s.palLen := rfl
@[simp] theorem State.onLze_transpIdx : (s.onLze f).transpIdx = s.transpIdx := rfl
@[simp] theorem State.onLze_pixDim : (s.onLze f).pixDim = s.pixDim := rfl
@[simp] theorem State.onLze_gif : (s.onLze f).gif = s.gif := rfl
@[simp] theorem State.onLze_genc : (s.onLze f).genc = s.genc := rfl
@[simp] theorem State.onLze_qtValid : (s.onLze f).qtValid = s.qtValid := rfl
@[simp] theorem State.onLze_htValid : (s.onLze f).htValid = s.htValid := rfl
@[simp] theorem State.onLze_ht : (s.onLze f).ht = s.ht := rfl
@[simp] theorem State.onLze_mem : (s.onLze f).mem = s.mem := rfl
@[simp] theorem State.onLze_sub : (s.onLze f).sub = s.sub := rfl
@[simp] theorem State.onLze_lzd : (s.onLze f).lzd = s.lzd := rfl
@[simp] theorem State.onLze_lze : (s.onLze f).lze = f s.lze := rfl
@[simp] theorem State.onLze_caps : (s.onLze f).caps = s.caps := rfl
@[simp] theorem State.onLze_inputs : (s.onLze f).inputs = s.inputs := rfl
@[simp] theorem State.onLze_rdata : (s.onLze f).rdata = s.rdata := rfl
end

section
variable (s : State) (bs : List Byte)
@[simp] theorem State.lzeBlk_status : (s.lzeBlk bs).status = s.status := rfl
@[simp] theorem State.lzeBlk_err : (s.lzeBlk bs).err = s.err := rfl
@[simp] theorem State.lzeBlk_errInfo : (s.lzeBlk bs).errInfo = s.errInfo := rfl
@[simp] theorem State.lzeBlk_arg0 : (s.lzeBlk bs).arg0 = s.arg0 := rfl
@[simp] theorem State.lzeBlk_arg1 : (s.lzeBlk bs).arg1 = s.arg1 := rfl
@[simp] theorem State.lzeBlk_arg2 : (s.lzeBlk bs).arg2 = s.arg2 := rfl
@[simp] theorem State.lzeBlk_arg3 : (s.lzeBlk bs).arg3 = s.arg3 := rfl
@[simp] theorem State.lzeBlk_res0 : (s.lzeBlk bs).res0 = s.res0 := rfl
@[simp] theorem State.lzeBlk_res1 : (s.lzeBlk bs).res1 = s.res1 := rfl
@[simp] theorem State.lzeBlk_inPos : (s.lzeBlk bs).inPos = s.inPos := rfl
@[simp] theorem State.lzeBlk_inLen : (s.lzeBlk bs).inLen = s.inLen := rfl
@[simp] theorem State.lzeBlk_outLen : (s.lzeBlk bs).outLen = s.outLen := rfl
@[simp] theorem State.lzeBlk_memSel : (s.lzeBlk bs).memSel = s.memSel := rfl
@[simp] theorem State.lzeBlk_memAddr : (s.lzeBlk bs).memAddr = s.memAddr := rfl
@[simp] theorem State.lzeBlk_bcAcc : (s.lzeBlk bs).bcAcc = s.bcAcc := rfl
@[simp] theorem State.lzeBlk_bcNbits : (s.lzeBlk bs).bcNbits = s.bcNbits := rfl
@[simp] theorem State.lzeBlk_bwAcc : (s.lzeBlk bs).bwAcc = s.bwAcc := rfl
@[simp] theorem State.lzeBlk_bwNbits : (s.lzeBlk bs).bwNbits = s.bwNbits := rfl
@[simp] theorem State.lzeBlk_jpg : (s.lzeBlk bs).jpg = s.jpg := rfl
@[simp] theorem State.lzeBlk_inScan : (s.lzeBlk bs).inScan = s.inScan := rfl
@[simp] theorem State.lzeBlk_octAthresh : (s.lzeBlk bs).octAthresh = s.octAthresh := rfl
@[simp] theorem State.lzeBlk_oct : (s.lzeBlk bs).oct = s.oct := rfl
@[simp] theorem State.lzeBlk_palLen : (s.lzeBlk bs).palLen = s.palLen := rfl
@[simp] theorem State.lzeBlk_transpIdx : (s.lzeBlk bs).transpIdx = s.transpIdx := rfl
@[simp] theorem State.lzeBlk_pixDim : (s.lzeBlk bs).pixDim = s.pixDim := rfl
@[simp] theorem State.lzeBlk_gif : (s.lzeBlk bs).gif = s.gif := rfl
@[simp] theorem State.lzeBlk_genc : (s.lzeBlk bs).genc = s.genc := rfl
@[simp] theorem State.lzeBlk_qtValid : (s.lzeBlk bs).qtValid = s.qtValid := rfl
@[simp] theorem State.lzeBlk_htValid : (s.lzeBlk bs).htValid = s.htValid := rfl
@[simp] theorem State.lzeBlk_ht : (s.lzeBlk bs).ht = s.ht := rfl
@[simp] theorem State.lzeBlk_mem : (s.lzeBlk bs).mem = s.mem := rfl
@[simp] theorem State.lzeBlk_sub : (s.lzeBlk bs).sub = s.sub := rfl
@[simp] theorem State.lzeBlk_lzd : (s.lzeBlk bs).lzd = s.lzd := rfl
@[simp] theorem State.lzeBlk_lze : (s.lzeBlk bs).lze = { s.lze with blk := bs } := rfl
@[simp] theorem State.lzeBlk_caps : (s.lzeBlk bs).caps = s.caps := rfl
@[simp] theorem State.lzeBlk_inputs : (s.lzeBlk bs).inputs = s.inputs := rfl
@[simp] theorem State.lzeBlk_rdata : (s.lzeBlk bs).rdata = s.rdata := rfl
end

section
variable (s : State)
@[simp] theorem State.octReset_status : s.octReset.status = s.status := rfl
@[simp] theorem State.octReset_err : s.octReset.err = s.err := rfl
@[simp] theorem State.octReset_errInfo : s.octReset.errInfo = s.errInfo := rfl
@[simp] theorem State.octReset_arg0 : s.octReset.arg0 = s.arg0 := rfl
@[simp] theorem State.octReset_arg1 : s.octReset.arg1 = s.arg1 := rfl
@[simp] theorem State.octReset_arg2 : s.octReset.arg2 = s.arg2 := rfl
@[simp] theorem State.octReset_arg3 : s.octReset.arg3 = s.arg3 := rfl
@[simp] theorem State.octReset_res0 : s.octReset.res0 = s.res0 := rfl
@[simp] theorem State.octReset_res1 : s.octReset.res1 = s.res1 := rfl
@[simp] theorem State.octReset_inPos : s.octReset.inPos = s.inPos := rfl
@[simp] theorem State.octReset_inLen : s.octReset.inLen = s.inLen := rfl
@[simp] theorem State.octReset_outLen : s.octReset.outLen = s.outLen := rfl
@[simp] theorem State.octReset_memSel : s.octReset.memSel = s.memSel := rfl
@[simp] theorem State.octReset_memAddr : s.octReset.memAddr = s.memAddr := rfl
@[simp] theorem State.octReset_bcAcc : s.octReset.bcAcc = s.bcAcc := rfl
@[simp] theorem State.octReset_bcNbits : s.octReset.bcNbits = s.bcNbits := rfl
@[simp] theorem State.octReset_bwAcc : s.octReset.bwAcc = s.bwAcc := rfl
@[simp] theorem State.octReset_bwNbits : s.octReset.bwNbits = s.bwNbits := rfl
@[simp] theorem State.octReset_jpg : s.octReset.jpg = s.jpg := rfl
@[simp] theorem State.octReset_inScan : s.octReset.inScan = s.inScan := rfl
@[simp] theorem State.octReset_octAthresh : s.octReset.octAthresh = s.octAthresh := rfl
@[simp] theorem State.octReset_oct : s.octReset.oct = Octree.empty := rfl
@[simp] theorem State.octReset_palLen : s.octReset.palLen = s.palLen := rfl
@[simp] theorem State.octReset_transpIdx : s.octReset.transpIdx = s.transpIdx := rfl
@[simp] theorem State.octReset_pixDim : s.octReset.pixDim = s.pixDim := rfl
@[simp] theorem State.octReset_gif : s.octReset.gif = s.gif := rfl
@[simp] theorem State.octReset_genc : s.octReset.genc = s.genc := rfl
@[simp] theorem State.octReset_qtValid : s.octReset.qtValid = s.qtValid := rfl
@[simp] theorem State.octReset_htValid : s.octReset.htValid = s.htValid := rfl
@[simp] theorem State.octReset_ht : s.octReset.ht = s.ht := rfl
@[simp] theorem State.octReset_mem : s.octReset.mem = s.mem := rfl
@[simp] theorem State.octReset_sub : s.octReset.sub = s.sub := rfl
@[simp] theorem State.octReset_lzd : s.octReset.lzd = s.lzd := rfl
@[simp] theorem State.octReset_lze : s.octReset.lze = s.lze := rfl
@[simp] theorem State.octReset_caps : s.octReset.caps = s.caps := rfl
@[simp] theorem State.octReset_inputs : s.octReset.inputs = s.inputs := rfl
@[simp] theorem State.octReset_rdata : s.octReset.rdata = s.rdata := rfl
end

section
variable (s : State)
@[simp] theorem State.palStale_status : s.palStale.status = s.status := rfl
@[simp] theorem State.palStale_err : s.palStale.err = s.err := rfl
@[simp] theorem State.palStale_errInfo : s.palStale.errInfo = s.errInfo := rfl
@[simp] theorem State.palStale_arg0 : s.palStale.arg0 = s.arg0 := rfl
@[simp] theorem State.palStale_arg1 : s.palStale.arg1 = s.arg1 := rfl
@[simp] theorem State.palStale_arg2 : s.palStale.arg2 = s.arg2 := rfl
@[simp] theorem State.palStale_arg3 : s.palStale.arg3 = s.arg3 := rfl
@[simp] theorem State.palStale_res0 : s.palStale.res0 = s.res0 := rfl
@[simp] theorem State.palStale_res1 : s.palStale.res1 = s.res1 := rfl
@[simp] theorem State.palStale_inPos : s.palStale.inPos = s.inPos := rfl
@[simp] theorem State.palStale_inLen : s.palStale.inLen = s.inLen := rfl
@[simp] theorem State.palStale_outLen : s.palStale.outLen = s.outLen := rfl
@[simp] theorem State.palStale_memSel : s.palStale.memSel = s.memSel := rfl
@[simp] theorem State.palStale_memAddr : s.palStale.memAddr = s.memAddr := rfl
@[simp] theorem State.palStale_bcAcc : s.palStale.bcAcc = s.bcAcc := rfl
@[simp] theorem State.palStale_bcNbits : s.palStale.bcNbits = s.bcNbits := rfl
@[simp] theorem State.palStale_bwAcc : s.palStale.bwAcc = s.bwAcc := rfl
@[simp] theorem State.palStale_bwNbits : s.palStale.bwNbits = s.bwNbits := rfl
@[simp] theorem State.palStale_jpg : s.palStale.jpg = s.jpg := rfl
@[simp] theorem State.palStale_inScan : s.palStale.inScan = s.inScan := rfl
@[simp] theorem State.palStale_octAthresh : s.palStale.octAthresh = s.octAthresh := rfl
@[simp] theorem State.palStale_oct : s.palStale.oct = { s.oct with palOk := false } := rfl
@[simp] theorem State.palStale_palLen : s.palStale.palLen = s.palLen := rfl
@[simp] theorem State.palStale_transpIdx : s.palStale.transpIdx = s.transpIdx := rfl
@[simp] theorem State.palStale_pixDim : s.palStale.pixDim = s.pixDim := rfl
@[simp] theorem State.palStale_gif : s.palStale.gif = s.gif := rfl
@[simp] theorem State.palStale_genc : s.palStale.genc = s.genc := rfl
@[simp] theorem State.palStale_qtValid : s.palStale.qtValid = s.qtValid := rfl
@[simp] theorem State.palStale_htValid : s.palStale.htValid = s.htValid := rfl
@[simp] theorem State.palStale_ht : s.palStale.ht = s.ht := rfl
@[simp] theorem State.palStale_mem : s.palStale.mem = s.mem := rfl
@[simp] theorem State.palStale_sub : s.palStale.sub = s.sub := rfl
@[simp] theorem State.palStale_lzd : s.palStale.lzd = s.lzd := rfl
@[simp] theorem State.palStale_lze : s.palStale.lze = s.lze := rfl
@[simp] theorem State.palStale_caps : s.palStale.caps = s.caps := rfl
@[simp] theorem State.palStale_inputs : s.palStale.inputs = s.inputs := rfl
@[simp] theorem State.palStale_rdata : s.palStale.rdata = s.rdata := rfl
end

section
variable (s : State) (g : Growth)
@[simp] theorem State.putGrowth_status : (s.putGrowth g).status = s.status := rfl
@[simp] theorem State.putGrowth_err : (s.putGrowth g).err = s.err := rfl
@[simp] theorem State.putGrowth_errInfo : (s.putGrowth g).errInfo = s.errInfo := rfl
@[simp] theorem State.putGrowth_arg0 : (s.putGrowth g).arg0 = s.arg0 := rfl
@[simp] theorem State.putGrowth_arg1 : (s.putGrowth g).arg1 = s.arg1 := rfl
@[simp] theorem State.putGrowth_arg2 : (s.putGrowth g).arg2 = s.arg2 := rfl
@[simp] theorem State.putGrowth_arg3 : (s.putGrowth g).arg3 = s.arg3 := rfl
@[simp] theorem State.putGrowth_res0 : (s.putGrowth g).res0 = s.res0 := rfl
@[simp] theorem State.putGrowth_res1 : (s.putGrowth g).res1 = s.res1 := rfl
@[simp] theorem State.putGrowth_inPos : (s.putGrowth g).inPos = s.inPos := rfl
@[simp] theorem State.putGrowth_inLen : (s.putGrowth g).inLen = s.inLen := rfl
@[simp] theorem State.putGrowth_outLen : (s.putGrowth g).outLen = s.outLen := rfl
@[simp] theorem State.putGrowth_memSel : (s.putGrowth g).memSel = s.memSel := rfl
@[simp] theorem State.putGrowth_memAddr : (s.putGrowth g).memAddr = s.memAddr := rfl
@[simp] theorem State.putGrowth_bcAcc : (s.putGrowth g).bcAcc = s.bcAcc := rfl
@[simp] theorem State.putGrowth_bcNbits : (s.putGrowth g).bcNbits = s.bcNbits := rfl
@[simp] theorem State.putGrowth_bwAcc : (s.putGrowth g).bwAcc = s.bwAcc := rfl
@[simp] theorem State.putGrowth_bwNbits : (s.putGrowth g).bwNbits = s.bwNbits := rfl
@[simp] theorem State.putGrowth_jpg : (s.putGrowth g).jpg = s.jpg := rfl
@[simp] theorem State.putGrowth_inScan : (s.putGrowth g).inScan = s.inScan := rfl
@[simp] theorem State.putGrowth_octAthresh : (s.putGrowth g).octAthresh = s.octAthresh := rfl
@[simp] theorem State.putGrowth_oct : (s.putGrowth g).oct = { s.oct with root := g.tree, nodes := g.nodes, leaves := g.leaves } := rfl
@[simp] theorem State.putGrowth_palLen : (s.putGrowth g).palLen = s.palLen := rfl
@[simp] theorem State.putGrowth_transpIdx : (s.putGrowth g).transpIdx = s.transpIdx := rfl
@[simp] theorem State.putGrowth_pixDim : (s.putGrowth g).pixDim = s.pixDim := rfl
@[simp] theorem State.putGrowth_gif : (s.putGrowth g).gif = s.gif := rfl
@[simp] theorem State.putGrowth_genc : (s.putGrowth g).genc = s.genc := rfl
@[simp] theorem State.putGrowth_qtValid : (s.putGrowth g).qtValid = s.qtValid := rfl
@[simp] theorem State.putGrowth_htValid : (s.putGrowth g).htValid = s.htValid := rfl
@[simp] theorem State.putGrowth_ht : (s.putGrowth g).ht = s.ht := rfl
@[simp] theorem State.putGrowth_mem : (s.putGrowth g).mem = s.mem := rfl
@[simp] theorem State.putGrowth_sub : (s.putGrowth g).sub = s.sub := rfl
@[simp] theorem State.putGrowth_lzd : (s.putGrowth g).lzd = s.lzd := rfl
@[simp] theorem State.putGrowth_lze : (s.putGrowth g).lze = s.lze := rfl
@[simp] theorem State.putGrowth_caps : (s.putGrowth g).caps = s.caps := rfl
@[simp] theorem State.putGrowth_inputs : (s.putGrowth g).inputs = s.inputs := rfl
@[simp] theorem State.putGrowth_rdata : (s.putGrowth g).rdata = s.rdata := rfl
end

section
variable (s : State) (i : Nat) (v : Byte)
@[simp] theorem State.setIdx_status : (s.setIdx i v).status = s.status := rfl
@[simp] theorem State.setIdx_err : (s.setIdx i v).err = s.err := rfl
@[simp] theorem State.setIdx_errInfo : (s.setIdx i v).errInfo = s.errInfo := rfl
@[simp] theorem State.setIdx_arg0 : (s.setIdx i v).arg0 = s.arg0 := rfl
@[simp] theorem State.setIdx_arg1 : (s.setIdx i v).arg1 = s.arg1 := rfl
@[simp] theorem State.setIdx_arg2 : (s.setIdx i v).arg2 = s.arg2 := rfl
@[simp] theorem State.setIdx_arg3 : (s.setIdx i v).arg3 = s.arg3 := rfl
@[simp] theorem State.setIdx_res0 : (s.setIdx i v).res0 = s.res0 := rfl
@[simp] theorem State.setIdx_res1 : (s.setIdx i v).res1 = s.res1 := rfl
@[simp] theorem State.setIdx_inPos : (s.setIdx i v).inPos = s.inPos := rfl
@[simp] theorem State.setIdx_inLen : (s.setIdx i v).inLen = s.inLen := rfl
@[simp] theorem State.setIdx_outLen : (s.setIdx i v).outLen = s.outLen := rfl
@[simp] theorem State.setIdx_memSel : (s.setIdx i v).memSel = s.memSel := rfl
@[simp] theorem State.setIdx_memAddr : (s.setIdx i v).memAddr = s.memAddr := rfl
@[simp] theorem State.setIdx_bcAcc : (s.setIdx i v).bcAcc = s.bcAcc := rfl
@[simp] theorem State.setIdx_bcNbits : (s.setIdx i v).bcNbits = s.bcNbits := rfl
@[simp] theorem State.setIdx_bwAcc : (s.setIdx i v).bwAcc = s.bwAcc := rfl
@[simp] theorem State.setIdx_bwNbits : (s.setIdx i v).bwNbits = s.bwNbits := rfl
@[simp] theorem State.setIdx_jpg : (s.setIdx i v).jpg = s.jpg := rfl
@[simp] theorem State.setIdx_inScan : (s.setIdx i v).inScan = s.inScan := rfl
@[simp] theorem State.setIdx_octAthresh : (s.setIdx i v).octAthresh = s.octAthresh := rfl
@[simp] theorem State.setIdx_oct : (s.setIdx i v).oct = s.oct := rfl
@[simp] theorem State.setIdx_palLen : (s.setIdx i v).palLen = s.palLen := rfl
@[simp] theorem State.setIdx_transpIdx : (s.setIdx i v).transpIdx = s.transpIdx := rfl
@[simp] theorem State.setIdx_pixDim : (s.setIdx i v).pixDim = s.pixDim := rfl
@[simp] theorem State.setIdx_gif : (s.setIdx i v).gif = s.gif := rfl
@[simp] theorem State.setIdx_genc : (s.setIdx i v).genc = s.genc := rfl
@[simp] theorem State.setIdx_qtValid : (s.setIdx i v).qtValid = s.qtValid := rfl
@[simp] theorem State.setIdx_htValid : (s.setIdx i v).htValid = s.htValid := rfl
@[simp] theorem State.setIdx_ht : (s.setIdx i v).ht = s.ht := rfl
@[simp] theorem State.setIdx_mem : (s.setIdx i v).mem = { s.mem with idx := Cells.set s.mem.idx i v } := rfl
@[simp] theorem State.setIdx_sub : (s.setIdx i v).sub = s.sub := rfl
@[simp] theorem State.setIdx_lzd : (s.setIdx i v).lzd = s.lzd := rfl
@[simp] theorem State.setIdx_lze : (s.setIdx i v).lze = s.lze := rfl
@[simp] theorem State.setIdx_caps : (s.setIdx i v).caps = s.caps := rfl
@[simp] theorem State.setIdx_inputs : (s.setIdx i v).inputs = s.inputs := rfl
@[simp] theorem State.setIdx_rdata : (s.setIdx i v).rdata = s.rdata := rfl
end

section
variable (s : State) (st : GifState)
@[simp] theorem State.setGifState_status : (s.setGifState st).status = s.status := rfl
@[simp] theorem State.setGifState_err : (s.setGifState st).err = s.err := rfl
@[simp] theorem State.setGifState_errInfo : (s.setGifState st).errInfo = s.errInfo := rfl
@[simp] theorem State.setGifState_arg0 : (s.setGifState st).arg0 = s.arg0 := rfl
@[simp] theorem State.setGifState_arg1 : (s.setGifState st).arg1 = s.arg1 := rfl
@[simp] theorem State.setGifState_arg2 : (s.setGifState st).arg2 = s.arg2 := rfl
@[simp] theorem State.setGifState_arg3 : (s.setGifState st).arg3 = s.arg3 := rfl
@[simp] theorem State.setGifState_res0 : (s.setGifState st).res0 = s.res0 := rfl
@[simp] theorem State.setGifState_res1 : (s.setGifState st).res1 = s.res1 := rfl
@[simp] theorem State.setGifState_inPos : (s.setGifState st).inPos = s.inPos := rfl
@[simp] theorem State.setGifState_inLen : (s.setGifState st).inLen = s.inLen := rfl
@[simp] theorem State.setGifState_outLen : (s.setGifState st).outLen = s.outLen := rfl
@[simp] theorem State.setGifState_memSel : (s.setGifState st).memSel = s.memSel := rfl
@[simp] theorem State.setGifState_memAddr : (s.setGifState st).memAddr = s.memAddr := rfl
@[simp] theorem State.setGifState_bcAcc : (s.setGifState st).bcAcc = s.bcAcc := rfl
@[simp] theorem State.setGifState_bcNbits : (s.setGifState st).bcNbits = s.bcNbits := rfl
@[simp] theorem State.setGifState_bwAcc : (s.setGifState st).bwAcc = s.bwAcc := rfl
@[simp] theorem State.setGifState_bwNbits : (s.setGifState st).bwNbits = s.bwNbits := rfl
@[simp] theorem State.setGifState_jpg : (s.setGifState st).jpg = s.jpg := rfl
@[simp] theorem State.setGifState_inScan : (s.setGifState st).inScan = s.inScan := rfl
@[simp] theorem State.setGifState_octAthresh : (s.setGifState st).octAthresh = s.octAthresh := rfl
@[simp] theorem State.setGifState_oct : (s.setGifState st).oct = s.oct := rfl
@[simp] theorem State.setGifState_palLen : (s.setGifState st).palLen = s.palLen := rfl
@[simp] theorem State.setGifState_transpIdx : (s.setGifState st).transpIdx = s.transpIdx := rfl
@[simp] theorem State.setGifState_pixDim : (s.setGifState st).pixDim = s.pixDim := rfl
@[simp] theorem State.setGifState_gif : (s.setGifState st).gif = { s.gif with state := st } := rfl
@[simp] theorem State.setGifState_genc : (s.setGifState st).genc = s.genc := rfl
@[simp] theorem State.setGifState_qtValid : (s.setGifState st).qtValid = s.qtValid := rfl
@[simp] theorem State.setGifState_htValid : (s.setGifState st).htValid = s.htValid := rfl
@[simp] theorem State.setGifState_ht : (s.setGifState st).ht = s.ht := rfl
@[simp] theorem State.setGifState_mem : (s.setGifState st).mem = s.mem := rfl
@[simp] theorem State.setGifState_sub : (s.setGifState st).sub = s.sub := rfl
@[simp] theorem State.setGifState_lzd : (s.setGifState st).lzd = s.lzd := rfl
@[simp] theorem State.setGifState_lze : (s.setGifState st).lze = s.lze := rfl
@[simp] theorem State.setGifState_caps : (s.setGifState st).caps = s.caps := rfl
@[simp] theorem State.setGifState_inputs : (s.setGifState st).inputs = s.inputs := rfl
@[simp] theorem State.setGifState_rdata : (s.setGifState st).rdata = s.rdata := rfl
end

section
variable (s : State) (i : Nat) (v : Word)
@[simp] theorem State.setCanvas_status : (s.setCanvas i v).status = s.status := rfl
@[simp] theorem State.setCanvas_err : (s.setCanvas i v).err = s.err := rfl
@[simp] theorem State.setCanvas_errInfo : (s.setCanvas i v).errInfo = s.errInfo := rfl
@[simp] theorem State.setCanvas_arg0 : (s.setCanvas i v).arg0 = s.arg0 := rfl
@[simp] theorem State.setCanvas_arg1 : (s.setCanvas i v).arg1 = s.arg1 := rfl
@[simp] theorem State.setCanvas_arg2 : (s.setCanvas i v).arg2 = s.arg2 := rfl
@[simp] theorem State.setCanvas_arg3 : (s.setCanvas i v).arg3 = s.arg3 := rfl
@[simp] theorem State.setCanvas_res0 : (s.setCanvas i v).res0 = s.res0 := rfl
@[simp] theorem State.setCanvas_res1 : (s.setCanvas i v).res1 = s.res1 := rfl
@[simp] theorem State.setCanvas_inPos : (s.setCanvas i v).inPos = s.inPos := rfl
@[simp] theorem State.setCanvas_inLen : (s.setCanvas i v).inLen = s.inLen := rfl
@[simp] theorem State.setCanvas_outLen : (s.setCanvas i v).outLen = s.outLen := rfl
@[simp] theorem State.setCanvas_memSel : (s.setCanvas i v).memSel = s.memSel := rfl
@[simp] theorem State.setCanvas_memAddr : (s.setCanvas i v).memAddr = s.memAddr := rfl
@[simp] theorem State.setCanvas_bcAcc : (s.setCanvas i v).bcAcc = s.bcAcc := rfl
@[simp] theorem State.setCanvas_bcNbits : (s.setCanvas i v).bcNbits = s.bcNbits := rfl
@[simp] theorem State.setCanvas_bwAcc : (s.setCanvas i v).bwAcc = s.bwAcc := rfl
@[simp] theorem State.setCanvas_bwNbits : (s.setCanvas i v).bwNbits = s.bwNbits := rfl
@[simp] theorem State.setCanvas_jpg : (s.setCanvas i v).jpg = s.jpg := rfl
@[simp] theorem State.setCanvas_inScan : (s.setCanvas i v).inScan = s.inScan := rfl
@[simp] theorem State.setCanvas_octAthresh : (s.setCanvas i v).octAthresh = s.octAthresh := rfl
@[simp] theorem State.setCanvas_oct : (s.setCanvas i v).oct = s.oct := rfl
@[simp] theorem State.setCanvas_palLen : (s.setCanvas i v).palLen = s.palLen := rfl
@[simp] theorem State.setCanvas_transpIdx : (s.setCanvas i v).transpIdx = s.transpIdx := rfl
@[simp] theorem State.setCanvas_pixDim : (s.setCanvas i v).pixDim = s.pixDim := rfl
@[simp] theorem State.setCanvas_gif : (s.setCanvas i v).gif = s.gif := rfl
@[simp] theorem State.setCanvas_genc : (s.setCanvas i v).genc = s.genc := rfl
@[simp] theorem State.setCanvas_qtValid : (s.setCanvas i v).qtValid = s.qtValid := rfl
@[simp] theorem State.setCanvas_htValid : (s.setCanvas i v).htValid = s.htValid := rfl
@[simp] theorem State.setCanvas_ht : (s.setCanvas i v).ht = s.ht := rfl
@[simp] theorem State.setCanvas_mem : (s.setCanvas i v).mem = { s.mem with canvas := Cells.set s.mem.canvas i v } := rfl
@[simp] theorem State.setCanvas_sub : (s.setCanvas i v).sub = s.sub := rfl
@[simp] theorem State.setCanvas_lzd : (s.setCanvas i v).lzd = s.lzd := rfl
@[simp] theorem State.setCanvas_lze : (s.setCanvas i v).lze = s.lze := rfl
@[simp] theorem State.setCanvas_caps : (s.setCanvas i v).caps = s.caps := rfl
@[simp] theorem State.setCanvas_inputs : (s.setCanvas i v).inputs = s.inputs := rfl
@[simp] theorem State.setCanvas_rdata : (s.setCanvas i v).rdata = s.rdata := rfl
end

section
variable (s : State)
@[simp] theorem State.bumpAddr_status : s.bumpAddr.status = s.status := rfl
@[simp] theorem State.bumpAddr_err : s.bumpAddr.err = s.err := rfl
@[simp] theorem State.bumpAddr_errInfo : s.bumpAddr.errInfo = s.errInfo := rfl
@[simp] theorem State.bumpAddr_arg0 : s.bumpAddr.arg0 = s.arg0 := rfl
@[simp] theorem State.bumpAddr_arg1 : s.bumpAddr.arg1 = s.arg1 := rfl
@[simp] theorem State.bumpAddr_arg2 : s.bumpAddr.arg2 = s.arg2 := rfl
@[simp] theorem State.bumpAddr_arg3 : s.bumpAddr.arg3 = s.arg3 := rfl
@[simp] theorem State.bumpAddr_res0 : s.bumpAddr.res0 = s.res0 := rfl
@[simp] theorem State.bumpAddr_res1 : s.bumpAddr.res1 = s.res1 := rfl
@[simp] theorem State.bumpAddr_inPos : s.bumpAddr.inPos = s.inPos := rfl
@[simp] theorem State.bumpAddr_inLen : s.bumpAddr.inLen = s.inLen := rfl
@[simp] theorem State.bumpAddr_outLen : s.bumpAddr.outLen = s.outLen := rfl
@[simp] theorem State.bumpAddr_memSel : s.bumpAddr.memSel = s.memSel := rfl
@[simp] theorem State.bumpAddr_memAddr : s.bumpAddr.memAddr = s.memAddr + 1 := rfl
@[simp] theorem State.bumpAddr_bcAcc : s.bumpAddr.bcAcc = s.bcAcc := rfl
@[simp] theorem State.bumpAddr_bcNbits : s.bumpAddr.bcNbits = s.bcNbits := rfl
@[simp] theorem State.bumpAddr_bwAcc : s.bumpAddr.bwAcc = s.bwAcc := rfl
@[simp] theorem State.bumpAddr_bwNbits : s.bumpAddr.bwNbits = s.bwNbits := rfl
@[simp] theorem State.bumpAddr_jpg : s.bumpAddr.jpg = s.jpg := rfl
@[simp] theorem State.bumpAddr_inScan : s.bumpAddr.inScan = s.inScan := rfl
@[simp] theorem State.bumpAddr_octAthresh : s.bumpAddr.octAthresh = s.octAthresh := rfl
@[simp] theorem State.bumpAddr_oct : s.bumpAddr.oct = s.oct := rfl
@[simp] theorem State.bumpAddr_palLen : s.bumpAddr.palLen = s.palLen := rfl
@[simp] theorem State.bumpAddr_transpIdx : s.bumpAddr.transpIdx = s.transpIdx := rfl
@[simp] theorem State.bumpAddr_pixDim : s.bumpAddr.pixDim = s.pixDim := rfl
@[simp] theorem State.bumpAddr_gif : s.bumpAddr.gif = s.gif := rfl
@[simp] theorem State.bumpAddr_genc : s.bumpAddr.genc = s.genc := rfl
@[simp] theorem State.bumpAddr_qtValid : s.bumpAddr.qtValid = s.qtValid := rfl
@[simp] theorem State.bumpAddr_htValid : s.bumpAddr.htValid = s.htValid := rfl
@[simp] theorem State.bumpAddr_ht : s.bumpAddr.ht = s.ht := rfl
@[simp] theorem State.bumpAddr_mem : s.bumpAddr.mem = s.mem := rfl
@[simp] theorem State.bumpAddr_sub : s.bumpAddr.sub = s.sub := rfl
@[simp] theorem State.bumpAddr_lzd : s.bumpAddr.lzd = s.lzd := rfl
@[simp] theorem State.bumpAddr_lze : s.bumpAddr.lze = s.lze := rfl
@[simp] theorem State.bumpAddr_caps : s.bumpAddr.caps = s.caps := rfl
@[simp] theorem State.bumpAddr_inputs : s.bumpAddr.inputs = s.inputs := rfl
@[simp] theorem State.bumpAddr_rdata : s.bumpAddr.rdata = s.rdata := rfl
end

section
variable (opc : Byte) (r : Raise) (s : State)
@[simp] theorem enterFault_status : (enterFault opc r s).status = { s.status with fault := true, done := false } := rfl
@[simp] theorem enterFault_err : (enterFault opc r s).err = (if s.status.fault then s.err else errWord opc r.fault) := rfl
@[simp] theorem enterFault_errInfo : (enterFault opc r s).errInfo = (if s.status.fault then s.errInfo else r.info) := rfl
@[simp] theorem enterFault_arg0 : (enterFault opc r s).arg0 = s.arg0 := rfl
@[simp] theorem enterFault_arg1 : (enterFault opc r s).arg1 = s.arg1 := rfl
@[simp] theorem enterFault_arg2 : (enterFault opc r s).arg2 = s.arg2 := rfl
@[simp] theorem enterFault_arg3 : (enterFault opc r s).arg3 = s.arg3 := rfl
@[simp] theorem enterFault_res0 : (enterFault opc r s).res0 = s.res0 := rfl
@[simp] theorem enterFault_res1 : (enterFault opc r s).res1 = s.res1 := rfl
@[simp] theorem enterFault_inPos : (enterFault opc r s).inPos = s.inPos := rfl
@[simp] theorem enterFault_inLen : (enterFault opc r s).inLen = s.inLen := rfl
@[simp] theorem enterFault_outLen : (enterFault opc r s).outLen = s.outLen := rfl
@[simp] theorem enterFault_memSel : (enterFault opc r s).memSel = s.memSel := rfl
@[simp] theorem enterFault_memAddr : (enterFault opc r s).memAddr = s.memAddr := rfl
@[simp] theorem enterFault_bcAcc : (enterFault opc r s).bcAcc = s.bcAcc := rfl
@[simp] theorem enterFault_bcNbits : (enterFault opc r s).bcNbits = s.bcNbits := rfl
@[simp] theorem enterFault_bwAcc : (enterFault opc r s).bwAcc = s.bwAcc := rfl
@[simp] theorem enterFault_bwNbits : (enterFault opc r s).bwNbits = s.bwNbits := rfl
@[simp] theorem enterFault_jpg : (enterFault opc r s).jpg = s.jpg := rfl
@[simp] theorem enterFault_inScan : (enterFault opc r s).inScan = false := rfl
@[simp] theorem enterFault_octAthresh : (enterFault opc r s).octAthresh = s.octAthresh := rfl
@[simp] theorem enterFault_oct : (enterFault opc r s).oct = s.oct := rfl
@[simp] theorem enterFault_palLen : (enterFault opc r s).palLen = s.palLen := rfl
@[simp] theorem enterFault_transpIdx : (enterFault opc r s).transpIdx = s.transpIdx := rfl
@[simp] theorem enterFault_pixDim : (enterFault opc r s).pixDim = s.pixDim := rfl
@[simp] theorem enterFault_gif : (enterFault opc r s).gif = s.gif := rfl
@[simp] theorem enterFault_genc : (enterFault opc r s).genc = s.genc := rfl
@[simp] theorem enterFault_qtValid : (enterFault opc r s).qtValid = s.qtValid := rfl
@[simp] theorem enterFault_htValid : (enterFault opc r s).htValid = s.htValid := rfl
@[simp] theorem enterFault_ht : (enterFault opc r s).ht = s.ht := rfl
@[simp] theorem enterFault_mem : (enterFault opc r s).mem = s.mem := rfl
@[simp] theorem enterFault_sub : (enterFault opc r s).sub = s.sub := rfl
@[simp] theorem enterFault_lzd : (enterFault opc r s).lzd = s.lzd := rfl
@[simp] theorem enterFault_lze : (enterFault opc r s).lze = s.lze := rfl
@[simp] theorem enterFault_caps : (enterFault opc r s).caps = s.caps := rfl
@[simp] theorem enterFault_inputs : (enterFault opc r s).inputs = s.inputs := rfl
@[simp] theorem enterFault_rdata : (enterFault opc r s).rdata = s.rdata := rfl
end

section
variable (s : State)
@[simp] theorem State.resetCore_status : s.resetCore.status = State.reset.status := rfl
@[simp] theorem State.resetCore_err : s.resetCore.err = State.reset.err := rfl
@[simp] theorem State.resetCore_errInfo : s.resetCore.errInfo = State.reset.errInfo := rfl
@[simp] theorem State.resetCore_arg0 : s.resetCore.arg0 = State.reset.arg0 := rfl
@[simp] theorem State.resetCore_arg1 : s.resetCore.arg1 = State.reset.arg1 := rfl
@[simp] theorem State.resetCore_arg2 : s.resetCore.arg2 = State.reset.arg2 := rfl
@[simp] theorem State.resetCore_arg3 : s.resetCore.arg3 = State.reset.arg3 := rfl
@[simp] theorem State.resetCore_res0 : s.resetCore.res0 = State.reset.res0 := rfl
@[simp] theorem State.resetCore_res1 : s.resetCore.res1 = State.reset.res1 := rfl
@[simp] theorem State.resetCore_inPos : s.resetCore.inPos = State.reset.inPos := rfl
@[simp] theorem State.resetCore_inLen : s.resetCore.inLen = State.reset.inLen := rfl
@[simp] theorem State.resetCore_outLen : s.resetCore.outLen = State.reset.outLen := rfl
@[simp] theorem State.resetCore_memSel : s.resetCore.memSel = State.reset.memSel := rfl
@[simp] theorem State.resetCore_memAddr : s.resetCore.memAddr = State.reset.memAddr := rfl
@[simp] theorem State.resetCore_bcAcc : s.resetCore.bcAcc = State.reset.bcAcc := rfl
@[simp] theorem State.resetCore_bcNbits : s.resetCore.bcNbits = State.reset.bcNbits := rfl
@[simp] theorem State.resetCore_bwAcc : s.resetCore.bwAcc = State.reset.bwAcc := rfl
@[simp] theorem State.resetCore_bwNbits : s.resetCore.bwNbits = State.reset.bwNbits := rfl
@[simp] theorem State.resetCore_jpg : s.resetCore.jpg = State.reset.jpg := rfl
@[simp] theorem State.resetCore_inScan : s.resetCore.inScan = State.reset.inScan := rfl
@[simp] theorem State.resetCore_octAthresh : s.resetCore.octAthresh = State.reset.octAthresh := rfl
@[simp] theorem State.resetCore_oct : s.resetCore.oct = State.reset.oct := rfl
@[simp] theorem State.resetCore_palLen : s.resetCore.palLen = State.reset.palLen := rfl
@[simp] theorem State.resetCore_transpIdx : s.resetCore.transpIdx = State.reset.transpIdx := rfl
@[simp] theorem State.resetCore_pixDim : s.resetCore.pixDim = State.reset.pixDim := rfl
@[simp] theorem State.resetCore_gif : s.resetCore.gif = State.reset.gif := rfl
@[simp] theorem State.resetCore_genc : s.resetCore.genc = State.reset.genc := rfl
@[simp] theorem State.resetCore_qtValid : s.resetCore.qtValid = State.reset.qtValid := rfl
@[simp] theorem State.resetCore_htValid : s.resetCore.htValid = State.reset.htValid := rfl
@[simp] theorem State.resetCore_ht : s.resetCore.ht = State.reset.ht := rfl
@[simp] theorem State.resetCore_mem : s.resetCore.mem = State.reset.mem := rfl
@[simp] theorem State.resetCore_sub : s.resetCore.sub = State.reset.sub := rfl
@[simp] theorem State.resetCore_lzd : s.resetCore.lzd = State.reset.lzd := rfl
@[simp] theorem State.resetCore_lze : s.resetCore.lze = State.reset.lze := rfl
@[simp] theorem State.resetCore_caps : s.resetCore.caps = s.caps := rfl
@[simp] theorem State.resetCore_inputs : s.resetCore.inputs = s.inputs := rfl
@[simp] theorem State.resetCore_rdata : s.resetCore.rdata = s.rdata := rfl
end

end Sys2Proof.Machine
end

