-- ==== Sys2Proof/Tests/Slice0.lean ====
section
/-! SUPPORT. The model's own tests: ill-formed terms that the check refuses, the decoding of every row from words
written out from 30_encoding.md, one step of each instruction on a small state with results taken from the examples of
the rules and from 95_test_vectors.md, and a witness for the hypotheses of every statement, clause by clause. -/

set_option Elab.async false

namespace Sys2Proof.Tests

open Sys2Proof Sys2Proof.Machine

/-! ## Well-formedness: R142 gives these labels to other rows -/

theorem test_wf_other_not_F9 : Instr.wellFormed (.gifExtOther 0xF9) = false := by decide
theorem test_wf_other_not_FE : Instr.wellFormed (.gifExtOther 0xFE) = false := by decide
theorem test_wf_other_not_FF : Instr.wellFormed (.gifExtOther 0xFF) = false := by decide
theorem test_wf_other_not_01 : Instr.wellFormed (.gifExtOther 0x01) = false := by decide
theorem test_wf_other : Instr.wellFormed (.gifExtOther 0x02) = true := by decide

/-! ## Decoding: the words of R110 to R114, bit by bit -/

theorem test_decode_system :
    decodeCommand 0b00000000000000000000000000000000 = .ok .sysNop ∧
    decodeCommand 0b00000001000000000000000000000000 = .ok .sysSreset ∧
    decodeCommand 0b00000010000000000000000000000000 = .ok .sysOutclr := by decide

theorem test_decode_reader :
    decodeCommand 0b00010000000000000000000000000000 = .ok .bcReset ∧
    decodeCommand 0b00010001000000000000000000010000 = .ok (.bcEnsure 16) ∧
    decodeCommand 0b00010010000000000000000000000000 = .ok .bcBit ∧
    decodeCommand 0b00010011000000000000000000011111 = .ok (.bcBits 31) ∧
    decodeCommand 0b00010100000000000000000011111111 = .ok (.bcRecvext 255) ∧
    decodeCommand 0b00010101000000000000000000000000 = .ok .bcIgnore ∧
    decodeCommand 0b00010110000000000000000000000000 = .ok .bcReadfull ∧
    decodeCommand 0b00010111000000000000000000000000 = .ok .bcRealign := by decide

theorem test_decode_writer_huffman :
    decodeCommand 0b00011000000000000000000000000101 = .ok (.bwEmit 5) ∧
    decodeCommand 0b00011001000000000000000000000000 = .ok .bwFlush ∧
    decodeCommand 0b00100000000000000000000000010011 = .ok (.hufBuild 1 3) ∧
    decodeCommand 0b00100001000000000000000000010001 = .ok (.hufDec 1 1) ∧
    decodeCommand 0b00100010000000000000000000000010 = .ok (.hufEnc 0 2) ∧
    decodeCommand 0b00100011000000000000000011110000 = .ok (.hufEncval 15 0) ∧
    decodeCommand 0b00100100000000000000000000000000 = .ok .hufLoadstd := by decide

theorem test_decode_blocks :
    decodeCommand 0b00110000000000000000000000000000 = .ok .dctInv ∧
    decodeCommand 0b00110001000000000000000000000000 = .ok .dctFwd ∧
    decodeCommand 0b00110010000000000000000000000000 = .ok .blkLevel ∧
    decodeCommand 0b00110011000000000000000000000010 = .ok (.blkClear 2) ∧
    decodeCommand 0b01000000000000000000000000000000 = .ok .qtScale ∧
    decodeCommand 0b01000001000000000000000000000011 = .ok (.qtDeq 3) ∧
    decodeCommand 0b01000010000000000000000000000001 = .ok (.qtQuant 1) := by decide

theorem test_decode_codecs :
    decodeCommand 0b01010000000000000000000000000000 = .ok .jpgInit ∧
    decodeCommand 0b01010001000000000000000000000000 = .ok .jpgStep ∧
    decodeCommand 0b01010010000000000000000000000000 = .ok .jpgDecode ∧
    decodeCommand 0b01010011000000000000000000000000 = .ok .jpgAssemble ∧
    decodeCommand 0b01011000000000000000000000000000 = .ok .jpgEncode ∧
    decodeCommand 0b01100000000000000000000000000000 = .ok .lzwDec ∧
    decodeCommand 0b01100001000000000000000000000000 = .ok .lzwEnc := by decide

theorem test_decode_octree :
    decodeCommand 0b01110000000000000000000000000000 = .ok .octReset ∧
    decodeCommand 0b01110001000000000000000000000000 = .ok .octAdd ∧
    decodeCommand 0b01110010000000000000000000000000 = .ok .octBuild ∧
    decodeCommand 0b01110011000000000000000000000000 = .ok .octReduce ∧
    decodeCommand 0b01110100000000000000000000000000 = .ok .octPalette ∧
    decodeCommand 0b01110101000000000000000000000000 = .ok .octIndex ∧
    decodeCommand 0b01110110000000000000000000000000 = .ok .octQuantize := by decide

theorem test_decode_gif_commands :
    decodeCommand 0b10000000000000000000000000000000 = .ok .gifInit ∧
    decodeCommand 0b10000001000000000000000000000000 = .ok .gifHeader ∧
    decodeCommand 0b10000010000000000000000000000000 = .ok .gifStep ∧
    decodeCommand 0b10000011000000000000000000000000 = .ok .gifDecode ∧
    decodeCommand 0b10001000000000000000000000000000 = .ok .gifEbegin ∧
    decodeCommand 0b10001001000000000000000000000000 = .ok .gifEframe ∧
    decodeCommand 0b10001010000000000000000000000000 = .ok .gifEend := by decide

theorem test_decode_illegal :
    decodeCommand 0x1A000000 = .error (.reservedOpcode 0x1A) ∧
    decodeCommand 0xFF000000 = .error (.reservedOpcode 0xFF) ∧
    decodeCommand 0x00000001 = .error (.immediateNotZero 1) ∧
    decodeCommand 0x14000100 = .error (.immediateNotZero 0x100) ∧
    decodeCommand 0x33000004 = .error (.immediateNotZero 4) := by decide

/-! ## Decoding: markers (R120) and GIF elements (R140, R142) -/

theorem test_decode_markers :
    decode (.stream [0xFF, 0xD8]) = .ok .jpegSoi ∧ decode (.stream [0xFF, 0xD9]) = .ok .jpegEoi ∧
    decode (.stream [0xFF, 0xD0]) = .ok (.jpegRst 0) ∧ decode (.stream [0xFF, 0xD7]) = .ok (.jpegRst 7) ∧
    decode (.stream [0xFF, 0xC0]) = .ok .jpegSof0 ∧ decode (.stream [0xFF, 0xC1]) = .ok .jpegSof1 ∧
    decode (.stream [0xFF, 0xC2]) = .ok .jpegSof2 ∧ decode (.stream [0xFF, 0xC4]) = .ok .jpegDht ∧
    decode (.stream [0xFF, 0xDB]) = .ok .jpegDqt ∧ decode (.stream [0xFF, 0xDD]) = .ok .jpegDri ∧
    decode (.stream [0xFF, 0xDA]) = .ok .jpegSos ∧ decode (.stream [0xFF, 0xFE]) = .ok .jpegCom := by decide

theorem test_decode_app :
    decode (.stream [0xFF, 0xE0]) = .ok .jpegApp0 ∧ decode (.stream [0xFF, 0xE1]) = .ok .jpegApp1 ∧
    decode (.stream [0xFF, 0xE2]) = .ok .jpegApp2 ∧ decode (.stream [0xFF, 0xE3]) = .ok .jpegApp3 ∧
    decode (.stream [0xFF, 0xE4]) = .ok .jpegApp4 ∧ decode (.stream [0xFF, 0xE5]) = .ok .jpegApp5 ∧
    decode (.stream [0xFF, 0xE6]) = .ok .jpegApp6 ∧ decode (.stream [0xFF, 0xE7]) = .ok .jpegApp7 ∧
    decode (.stream [0xFF, 0xE8]) = .ok .jpegApp8 ∧ decode (.stream [0xFF, 0xE9]) = .ok .jpegApp9 ∧
    decode (.stream [0xFF, 0xEA]) = .ok .jpegApp10 ∧ decode (.stream [0xFF, 0xEB]) = .ok .jpegApp11 ∧
    decode (.stream [0xFF, 0xEC]) = .ok .jpegApp12 ∧ decode (.stream [0xFF, 0xED]) = .ok .jpegApp13 ∧
    decode (.stream [0xFF, 0xEE]) = .ok .jpegApp14 ∧ decode (.stream [0xFF, 0xEF]) = .ok .jpegApp15 := by decide

theorem test_decode_gif_elements :
    decode (.stream [0x47, 0x49, 0x46, 0x38, 0x39, 0x61]) = .ok .gifSignature ∧
    decode (.stream [0x2C]) = .ok .gifImage ∧
    decode (.stream [0x21, 0xF9]) = .ok .gifExtGraphicControl ∧
    decode (.stream [0x21, 0xFE]) = .ok .gifExtComment ∧
    decode (.stream [0x21, 0xFF]) = .ok .gifExtApplication ∧
    decode (.stream [0x21, 0x01]) = .ok .gifExtPlainText ∧
    decode (.stream [0x21, 0x00]) = .ok (.gifExtOther 0) ∧
    decode (.stream [0x3B]) = .ok .gifTrailer := by decide

theorem test_decode_bad_elements :
    decode (.stream [0xFF, 0x00]) = .error .stuffedByte ∧ decode (.stream [0xFF, 0xFF]) = .error .fillByte ∧
    decode (.stream [0xFF, 0xC3]) = .error (.unknownMarker 0xC3) ∧ decode (.stream [0x99]) = .error (.badIntroducer 0x99) ∧
    decode (.stream [0x47, 0x49, 0x46, 0x38, 0x37, 0x61]) = .error .badSignature := by decide

/-- The table numbers a row's bits with its first byte least significant or, for a word, as the word. -/
theorem test_decodeTableWord :
    decodeTableWord 32 0x13000003 = some (.bcBits 3) ∧ decodeTableWord 32 0x03000000 = none := by decide

/-! ## Small states -/

/-- The stream `bs` at IN from 0 on. -/
def feed (bs : List Byte) : State :=
  { State.reset with inLen := wordN bs.length, mem := { Memory.empty with inp := Cells.entriesFrom 0 bs } }

/-- The state after an instruction, read from the outcome. -/
def after (i : Instr) (s : State) : State :=
  match exec i s with
  | .next t => t
  | _ => s

/-- The state after a step. -/
def stepped (s : State) : State :=
  match step s with
  | .next t => t
  | _ => s

/-- The state where pseudocode ends. -/
def ran {α : Type} (m : Exec α) (s : State) : State :=
  match m s with
  | .ok _ t => t
  | .error _ t => t

/-- STATUS, ERR and ERRINFO. -/
def report (s : State) : Word × Word × Word := (s.status.toWord, s.err, s.errInfo)

/-- What was appended to OUT. -/
def written (s : State) : List Byte := Cells.getRange s.mem.out 0 s.outLen.toNat

/-- `s` with ARG0 and ARG1. -/
def withArgs (a b : Word) (s : State) : State := { s with arg0 := a, arg1 := b }

/-- `s` with the builtin tables (R203). -/
def withStd (s : State) : State :=
  { s with
    ht := (((s.ht.set 0 stdDcLum.build).set 4 stdAcLum.build).set 1 stdDcChr.build).set 5 stdAcChr.build
    htValid := 0x33 }

/-- A pixel word from R, G, B and A (10_state.md R55). -/
def px (r g b a : Byte) : Word := a ++ b ++ g ++ r

/-- An image of one row in PIX. -/
def image (ps : List Word) : State :=
  { State.reset with
    pixDim := 0x00010000 + wordN ps.length, mem := { Memory.empty with pix := Cells.entriesFrom 0 ps } }

/-! ## Reset, host access -/

/-- 49_system.md V-SYS-1: the two registers with a reset value. -/
theorem test_reset : readReg State.reset 0x90 = 128 ∧ readReg State.reset 0x9C = 0xFFFFFFFF := by decide +kernel

/-- R531 (a): a command is refused while FAULT = 1. -/
theorem test_refused :
    report (stepped { State.reset with
      inputs := [.write 0 0x50000000], status := { Status.zero with fault := true }, err := 0x0051021D }) =
      (0x24, 0x0051021D, 0) := by decide +kernel

/-- 30_encoding.md R115: a reserved opcode. -/
theorem test_illegal :
    report (stepped { State.reset with inputs := [.write 0 0x54000000] }) = (4, 0x00540450, 0x54000000) := by decide +kernel

/-- 20_memory.md R84, R85: the window at the edge of BLK. -/
theorem test_window :
    let s := { State.reset with memSel := 2, memAddr := 63 }
    let t := hostWrite 0x3C 0xFFFFFFFF s
    readElem t 2 63 = 0xFFFFFFFF ∧ t.memAddr = 64 ∧ report (hostWrite 0x3C 0 t) = (4, 0x00FF0456, 0x02000040) := by
  decide +kernel

/-! ## System -/

theorem test_sysNop : (after .sysNop State.reset).status.toWord = 2 := by decide +kernel
theorem test_sysSreset :
    report (after .sysSreset { State.reset with status := { Status.zero with fault := true }, err := 5, outLen := 7 }) =
      (2, 0, 0) := by decide +kernel
/-- R482: after JPG.ENCODE produced 596 bytes. -/
theorem test_sysOutclr : (after .sysOutclr { State.reset with outLen := 596 }).outLen = 0 := by decide +kernel

/-! ## Bit cursor: the examples of R161 to R172 -/

theorem test_bcReset :
    let s := after .bcReset { State.reset with inPos := 3, bcAcc := 0x12FF, bcNbits := 16 }
    s.inPos = 3 ∧ s.bcAcc = 0 ∧ s.bcNbits = 0 := by decide +kernel
theorem test_bcEnsure :
    let s := after (.bcEnsure 16) (feed [0x12, 0xFF, 0x00, 0x34, 0x56])
    s.bcAcc = 0x12FF ∧ s.bcNbits = 16 ∧ s.inPos = 3 := by decide +kernel
theorem test_bcBit :
    let s := after .bcBit (feed [0xA5])
    s.res0 = 1 ∧ s.bcNbits = 7 := by decide +kernel
theorem test_bcBit_end : report (after .bcBit { feed [0xA5] with inPos := 1 }) = (4, 0x00120101, 1) := by decide +kernel
theorem test_bcBits :
    let s := after (.bcBits 3) (feed [0xA5, 0xFF, 0x00, 0x3C])
    s.res0 = 5 ∧ s.bcNbits = 5 ∧ s.inPos = 1 := by decide +kernel
theorem test_bcRecvext_negative : (after (.bcRecvext 3) (feed [0x40])).res0.toInt = -5 := by decide +kernel
theorem test_bcRecvext_wide : (after (.bcRecvext 16) (feed [0xFF, 0x00, 0xFF, 0x00])).res0 = 65535 := by decide +kernel
theorem test_bcIgnore : (after .bcIgnore { feed (List.replicate 10 0) with inPos := 4, arg0 := 6 }).inPos = 10 := by decide +kernel
theorem test_bcIgnore_short :
    report (after .bcIgnore { feed (List.replicate 10 0) with inPos := 4, arg0 := 7 }) = (4, 0x00150101, 4) := by decide +kernel
theorem test_bcReadfull :
    let s := after .bcReadfull { feed [0x12, 0xFF, 0x00, 0x34, 0x56] with inPos := 1, arg0 := 2 }
    s.res0 = 2 ∧ s.inPos = 3 ∧ Cells.getRange s.mem.tmp 0 2 = [0xFF, 0x00] := by decide +kernel
theorem test_bcRealign :
    let s := after .bcRealign { feed [0x12, 0xFF, 0x00, 0x34, 0x56] with inPos := 4, bcAcc := 0x12FF34, bcNbits := 23 }
    s.inPos = 1 ∧ s.bcNbits = 0 := by decide +kernel
theorem test_bwEmit :
    written (after (.bwEmit 5) { State.reset with bwAcc := 5, bwNbits := 3, arg0 := 31 }) = [0xBF] := by decide +kernel
theorem test_bwEmit_stuffed : written (after (.bwEmit 8) { State.reset with arg0 := 0xFF }) = [0xFF, 0x00] := by decide +kernel
theorem test_bwFlush : written (after .bwFlush { State.reset with bwAcc := 1, bwNbits := 2 }) = [0x7F] := by decide +kernel

/-! ## Huffman: the examples of R196 to R203 -/

/-- The specification of R196's example. -/
def spec196 : HuffSpec := ⟨[0, 1, 2] ++ List.replicate 13 0, [5, 9, 7]⟩

theorem test_hufBuild :
    let s := after (.hufBuild 1 2) { State.reset with mem := { Memory.empty with
      hspec := Cells.entriesFrom 0 (spec196.counts ++ spec196.values) } }
    s.htValid = 0x40 ∧ (s.table 1 2).lutAt 0x3F = 0x0502 ∧ (s.table 1 2).lutAt 0x40 = 0x0903 ∧
      (s.table 1 2).lutAt 0x80 = 0 ∧ (s.table 1 2).minAt 4 = 8 := by decide +kernel
theorem test_hufBuild_oversubscribed :
    report (after (.hufBuild 0 0) { State.reset with mem := { Memory.empty with hspec := [(0, 2), (1, 1)] } }) =
      (4, 0x00200223, 2) := by decide +kernel
theorem test_hufDec_fast :
    let s := after (.hufDec 0 0) (withStd (feed [0xF6, 0x4A]))
    s.res0 = 7 ∧ s.bcNbits = 3 := by decide +kernel
/-- R198: the stream ends inside the look-ahead; the last code of R196's example is `00`. -/
theorem test_hufDec_slow :
    let s := after (.hufDec 0 0) { feed [0x13] with
      inPos := 1, bcAcc := 0x3, bcNbits := 3, ht := State.reset.ht.set 0 spec196.build, htValid := 1 }
    s.res0 = 7 ∧ s.bcNbits = 0 := by decide +kernel
/-- Builtin AC luminance: 0xFA is `1111111111111110`. -/
theorem test_hufEnc : written (after (.hufEnc 1 0) (withStd { State.reset with arg0 := 0xFA })) = [0xFF, 0x00, 0xFE] := by
  decide +kernel
/-- R201: `v = −100` is `11110` and `0011011`; 12 bits, of which `11110001` is whole. -/
theorem test_hufEncval :
    let s := after (.hufEncval 0 0) (withStd { State.reset with arg1 := word (-100) })
    written s = [0xF1] ∧ s.bwNbits = 4 ∧ s.bwAcc &&& 0xF = 0xB := by decide +kernel
theorem test_hufLoadstd :
    let s := after .hufLoadstd State.reset
    s.htValid = 0x33 ∧ (s.table 0 0).lutAt 0xF6 = 0x0705 ∧ (s.table 0 0).lutAt 0xFF = 0 ∧ (s.table 0 1).minAt 2 = 0 := by
  decide +kernel

/-! ## Transform and quantisation: the examples of R226 to R256 -/

/-- BLK from its entries in order. -/
def block (vs : List Int) : State :=
  { State.reset with mem := { Memory.empty with blk := Cells.entriesFrom 0 (vs.map word) } }

/-- R226 (d). -/
theorem test_dctInv :
    let s := after .dctInv (block [240, -100, 0, 0, 0, 0, 0, 0, 60])
    (Cells.getRange s.mem.blk 0 8).map BitVec.toInt = [23, 26, 31, 37, 44, 50, 55, 58] ∧
    (Cells.getRange s.mem.blk 56 8).map BitVec.toInt = [2, 5, 10, 16, 23, 29, 34, 37] := by decide +kernel
/-- R233 (c). -/
theorem test_dctFwd :
    let s := after .dctFwd (block ((List.range 64).map (fun i => ((16 * (i % 8) + 2 * (i / 8) + 10 : Nat) : Int))))
    (Cells.getRange s.mem.blk 0 9).map BitVec.toInt = [-3520, -2332, 0, -244, 0, -72, 0, -18, -292] := by decide +kernel
theorem test_blkLevel :
    (Cells.getRange (after .blkLevel (block [-129, -128, -1, 0, 127, 128])).mem.blk 0 6).map BitVec.toInt =
      [0, 0, 127, 128, 255, 255] := by decide +kernel
theorem test_blkClear :
    let s := { State.reset with mem := { Memory.empty with blk := [(0, 5), (63, 6)], zz := [(0, 7)] } }
    (after (.blkClear 1) s).mem.blk = [] ∧ (after (.blkClear 1) s).mem.zz = [(0, 7)] := by decide +kernel
/-- R252, q = 50 and q = 10. -/
theorem test_qtScale :
    Cells.getRange (after .qtScale { State.reset with arg0 := 50 }).mem.qt 0 8 = [16, 11, 12, 14, 12, 10, 16, 14] ∧
    Cells.getRange (after .qtScale { State.reset with arg0 := 10 }).mem.qt 64 8 = [85, 90, 90, 120, 105, 120, 235, 130] := by
  decide +kernel
/-- R254. -/
theorem test_qtDeq :
    let s := after (.qtDeq 1) { State.reset with mem := { Memory.empty with
      zz := Cells.entriesFrom 0 [100, word (-3), 2], qt := Cells.entriesFrom 64 [2, 5, 7] } }
    (Cells.getRange s.mem.blk 0 9).map BitVec.toInt = [200, -15, 0, 0, 0, 0, 0, 0, 14] := by decide +kernel
/-- R255: ties away from zero. -/
theorem test_qtQuant :
    let s := after (.qtQuant 0) { block [4, -4, 3, 0, 0, 0, 0, 0, -12] with mem := { (block [4, -4, 3, 0, 0, 0, 0, 0, -12]).mem with
      qt := Cells.entriesFrom 0 (List.replicate 64 1) } }
    (Cells.getRange s.mem.zz 0 6).map BitVec.toInt = [1, -1, -2, 0, 0, 0] := by decide +kernel
theorem test_qtQuant_zero :
    report (after (.qtQuant 1) { State.reset with mem := { Memory.empty with qt := Cells.entriesFrom 64 [1, 1, 1, 1, 1] } }) =
      (4, 0x00420451, 5) := by decide +kernel

/-! ## JPEG decode: R270 to R310 -/

/-- A decoder that has seen SOI. -/
def started (s : State) : State := { s with jpg := { s.jpg with soiSeen := true } }

/-- The frame of Scenario B (R310) after its header. -/
def scenarioB (s : State) : State :=
  { withStd s with
    qtValid := 1
    jpg := { JpegCtx.init with
      state := .haveFrameHeader, soiSeen := true, width := 8, height := 8, ncomp := 1, hmax := 1, vmax := 1, mxx := 1
      myy := 1, comp := (Vector.replicate 4 Comp.zero).set 0 ⟨1, 1, 1, 0, 0, 0⟩ }
    mem := { s.mem with qt := Cells.entriesFrom 0 (2 :: List.replicate 63 1) } }

theorem test_jpgInit :
    let s := after .jpgInit { State.reset with htValid := 0x11, jpg := { JpegCtx.init with state := .done, ri := 5 } }
    s.htValid = 0 ∧ s.jpg = JpegCtx.init := by decide +kernel
/-- R271: the first step of `FF D8 FF D9`. -/
theorem test_jpgStep_soi :
    let s := after .jpgStep (feed [0xFF, 0xD8, 0xFF, 0xD9])
    readReg s 0x50 = 0x10 ∧ s.inPos = 2 := by decide +kernel
theorem test_jpgStep_missingScan :
    let s := after .jpgStep (started { feed [0xFF, 0xD8, 0xFF, 0xD9] with inPos := 2 })
    report s = (4, 0x0051021D, 0) ∧ readReg s 0x50 = 0x14 := by decide +kernel
/-- R310, steps 6 and 7, from the frame header on. -/
theorem test_jpgDecode :
    let s := after .jpgDecode (scenarioB (feed
      [0xFF, 0xDA, 0x00, 0x08, 0x01, 0x01, 0x00, 0x00, 0x3F, 0x00, 0xF6, 0x4A, 0xFF, 0xD9]))
    readReg s 0x50 = 0x13 ∧ s.inPos = 14 ∧ Cells.getRange s.mem.plane[(0 : Fin 4)] 0 64 = List.replicate 64 153 := by
  decide +kernel
/-- 95_test_vectors.md V-JPG-5: samples 124, 86, 181 give 0xFF3265C6. -/
theorem test_jpgAssemble :
    let s := after .jpgAssemble { State.reset with
      jpg := { JpegCtx.init with
        state := .done, width := 1, height := 1, ncomp := 3, hmax := 1, vmax := 1, mxx := 1, myy := 1
        comp := Vector.replicate 4 ⟨1, 1, 1, 0, 0, 0⟩ }
      mem := { Memory.empty with plane := #v[[(0, 124)], [(0, 86)], [(0, 181)], []] } }
    Cells.get s.mem.pix 0 = 0xFF3265C6 ∧ s.pixDim = 0x00010001 := by decide +kernel
/-- V-JPG-5: the entropy-coded data of a flat 8 by 8 image at quality 50. -/
theorem test_jpgEncode_data :
    let s := withStd { after .qtScale { State.reset with arg0 := 50 } with pixDim := 0x00080008 }
    written (ran (encodeTiles s.tiles ⟨0, 0, 0⟩ >>= fun _ => flushBits)
      { s with mem := { s.mem with pix := Cells.entriesFrom 0 (List.replicate 64 0xFF3264C8) } }) =
      [0x6D, 0x79, 0x67, 0xB2, 0x7F] := by decide +kernel
theorem test_jpgEncode_dimensions :
    report (after .jpgEncode { State.reset with arg0 := 75, pixDim := 0x00080000 }) = (4, 0x00580221, 0x00080000) := by
  decide +kernel

theorem test_jpegSoi_second : report (after .jpegSoi (started (feed []))) = (4, 0x00510211, 0xFFFFFFFF) := by decide +kernel
theorem test_jpegEoi : (after .jpegEoi { scenarioB (feed []) with jpg := { (scenarioB (feed [])).jpg with state := .scanning } }).jpg.state
    = .done := by decide +kernel
/-- R274: RST0 outside a scan. -/
theorem test_jpegRst : report (after (.jpegRst 0) (started (feed []))) = (4, 0x0051021E, 0xD0) := by decide +kernel
/-- R299: the expected marker inside a scan. -/
theorem test_jpegRst_inside :
    let s := after (.jpegRst 7) { started (feed []) with
      inScan := true, jpg := { (started (feed [])).jpg with rstn := 7, eobrun := 3 } }
    s.jpg.rstn = 0 ∧ s.jpg.eobrun = 0 := by decide +kernel
/-- R310, step 3: the frame registers. -/
theorem test_jpegSof0 :
    let s := after .jpegSof0 (started (feed [0x00, 0x0B, 0x08, 0x00, 0x08, 0x00, 0x08, 0x01, 0x01, 0x11, 0x00]))
    readReg s 0x54 = 0x00080008 ∧ readReg s 0x58 = 0x111 ∧ readReg s 0x5C = 0x00010001 ∧ readReg s 0x70 = 0x1101 := by
  decide +kernel
/-- R277: a factor of 3 is refused. -/
theorem test_jpegSof1 :
    report (after .jpegSof1 (started (feed [0x00, 0x11, 0x08, 0x00, 0x08, 0x00, 0x08, 0x03, 0x01, 0x31, 0x00, 0x02, 0x11,
      0x00, 0x03, 0x11, 0x00]))) = (4, 0x00510218, 0x31) := by decide +kernel
theorem test_jpegSof2 :
    readReg (after .jpegSof2 (started (feed [0x00, 0x0B, 0x08, 0x00, 0x08, 0x00, 0x08, 0x01, 0x01, 0x11, 0x00]))) 0x58 =
      0x1111 := by decide +kernel
/-- The table of R196 as a DHT segment. -/
theorem test_jpegDht :
    let s := after .jpegDht (started (feed ([0x00, 0x16, 0x12] ++ spec196.counts ++ spec196.values)))
    s.htValid = 0x40 ∧ (s.table 1 2).lutAt 0x40 = 0x0903 ∧ s.inPos = 22 := by decide +kernel
theorem test_jpegDqt :
    let s := after .jpegDqt (started (feed ([0x00, 0x43, 0x03, 0x02] ++ List.replicate 63 1)))
    s.qtValid = 8 ∧ Cells.getRange s.mem.qt 192 2 = [2, 1] ∧ s.inPos = 67 := by decide +kernel
theorem test_jpegDri : (after .jpegDri (started (feed [0x00, 0x04, 0x00, 0x01]))).jpg.ri = 1 := by decide +kernel
/-- R310, step 6. -/
theorem test_jpegSos :
    let s := after .jpegSos (scenarioB (feed [0x00, 0x08, 0x01, 0x01, 0x00, 0x00, 0x3F, 0x00, 0xF6, 0x4A]))
    Cells.getRange s.mem.plane[(0 : Fin 4)] 0 64 = List.replicate 64 153 ∧ s.jpg.dcpred[(0 : Fin 4)] = 100 ∧
      s.inPos = 10 ∧ s.jpg.state = .scanning := by decide +kernel
/-- R275: a skipped segment moves IN_POS over length and payload and leaves TMP's payload alone. -/
theorem test_jpegSkipped :
    ∀ i ∈ [Instr.jpegApp0, .jpegApp1, .jpegApp2, .jpegApp3, .jpegApp4, .jpegApp5, .jpegApp6, .jpegApp7, .jpegApp8,
      .jpegApp9, .jpegApp10, .jpegApp11, .jpegApp12, .jpegApp13, .jpegApp15, .jpegCom],
      (after i (started (feed [0x00, 0x04, 0xAA, 0xBB]))).inPos = 4 := by decide +kernel
/-- R275's example. -/
theorem test_jpegApp14 :
    let s := after .jpegApp14 (started (feed
      [0x00, 0x0E, 0x41, 0x64, 0x6F, 0x62, 0x65, 0x00, 0x64, 0x00, 0x00, 0x00, 0x00, 0x00]))
    s.jpg.adobeValid = true ∧ s.jpg.adobeTransform = 0 ∧ s.inPos = 14 := by decide +kernel

/-! ## LZW: 95_test_vectors.md V-LZW-1, V-LZW-3 -/

theorem test_lzwEnc :
    written (after .lzwEnc { State.reset with
      arg0 := 2, arg1 := 4, mem := { Memory.empty with idx := Cells.entriesFrom 0 [0, 1, 2, 3] } }) =
      [0x03, 0x44, 0x34, 0x05, 0x00] := by decide +kernel
theorem test_lzwEnc_run :
    written (after .lzwEnc { State.reset with
      arg0 := 2, arg1 := 8, mem := { Memory.empty with idx := Cells.entriesFrom 0 (List.replicate 8 1) } }) =
      [0x03, 0x8C, 0x6F, 0x05, 0x00] := by decide +kernel
theorem test_lzwDec :
    let s := after .lzwDec (withArgs 2 8 (feed [0x03, 0x8C, 0x6F, 0x05, 0x00]))
    Cells.getRange s.mem.idx 0 8 = List.replicate 8 1 ∧ s.res0 = 8 ∧ s.inPos = 5 ∧ s.status.trunc = false := by
  decide +kernel
theorem test_lzwDec_truncated :
    let s := after .lzwDec (withArgs 2 4 (feed [0x01, 0x0C, 0x00]))
    Cells.getRange s.mem.idx 0 4 = [1, 0, 0, 0] ∧ s.res0 = 1 ∧ s.status.toWord = 0x12 := by decide +kernel

/-! ## Octree: V-OCT-1, V-OCT-4, V-OCT-7 -/

theorem test_octReset : (after .octReset { State.reset with oct := { Octree.empty with anyT := true } }).oct = Octree.empty := by
  decide +kernel
theorem test_octAdd :
    let s := after .octAdd { State.reset with arg0 := px 255 0 0 255 }
    s.oct.leaves = 1 ∧ s.oct.nodes = 9 ∧ s.oct.anyT = false := by decide +kernel
theorem test_octAdd_transparent : (after .octAdd { State.reset with arg0 := 0x00FFFFFF }).oct.anyT = true := by decide +kernel
theorem test_octBuild :
    let s := after .octBuild (image [px 255 0 0 255, px 0 255 0 255, px 0 0 255 255, px 255 0 0 255])
    s.oct.leaves = 3 ∧ s.oct.root.count = 4 := by decide +kernel
/-- R405's example: merging to two leaves ends at the root. -/
theorem test_octReduce :
    let s := (after .octBuild (image [px 255 0 0 255, px 0 255 0 255, px 0 0 255 255, px 255 255 255 255, px 255 0 0 255]))
    (after .octReduce { s with arg0 := 2 }).oct.leaves = 1 := by decide +kernel
theorem test_octPalette :
    let s := after .octPalette { State.reset with oct := { (after .octAdd { State.reset with arg0 := 0xFF0000FF }).oct with anyT := true } }
    Cells.getRange s.mem.pal 0 3 = [0xFFFF0000, 0, 0] ∧ s.palLen = 2 ∧ s.transpIdx = 1 := by decide +kernel
theorem test_octIndex :
    let s := after .octPalette { State.reset with oct := (after .octAdd { State.reset with arg0 := 0xFF0000FF }).oct }
    (after .octIndex { s with arg0 := 0xFF0000FF }).res0 = 0 ∧
    report (after .octIndex { s with arg0 := 0xFF00FF00 }) = (4, 0x00750454, 0xFF00FF00) := by decide +kernel
/-- V-OCT-4: two transparent pixels of four. -/
theorem test_octQuantize :
    let s := after .octQuantize { image [px 1 2 3 0, px 1 2 3 127, px 1 2 3 128, px 9 9 9 255] with arg0 := 256 }
    Cells.getRange s.mem.pal 0 4 = [0xFF010203, 0xFF090909, 0, 0] ∧ s.palLen = 3 ∧ s.transpIdx = 2 ∧
      Cells.getRange s.mem.idx 0 4 = [2, 2, 0, 1] := by decide +kernel

/-! ## GIF: V-GIF-1, V-GIF-3, V-GIF-5 -/

/-- A decoder in its section loop on a 2 by 2 screen with a global table of red, green, blue and white. -/
def sections (s : State) : State :=
  { s with
    gif := { GifCtx.init with state := .sections, screenW := 2, screenH := 2, packed := 0x91 }
    mem := { s.mem with gct := Cells.entriesFrom 0 [0x0000FF, 0x00FF00, 0xFF0000, 0xFFFFFF] } }

theorem test_gifInit :
    (after .gifInit { State.reset with gif := { GifCtx.init with state := .done, nframes := 3 } }).gif = GifCtx.init := by
  decide +kernel
/-- Scenario A (R451): signature, screen and global table. -/
theorem test_gifHeader :
    let s := after .gifHeader (feed [0x47, 0x49, 0x46, 0x38, 0x39, 0x61, 0x02, 0x00, 0x02, 0x00, 0x91, 0x00, 0x00,
      0xFF, 0x00, 0x00, 0x00, 0xFF, 0x00, 0x00, 0x00, 0xFF, 0xFF, 0xFF, 0xFF])
    s.inPos = 25 ∧ readReg s 0xAC = 0x03000091 ∧ Cells.getRange s.mem.gct 0 4 = [0xFF, 0xFF00, 0xFF0000, 0xFFFFFF] := by
  decide +kernel
theorem test_gifHeader_signature :
    report (after .gifHeader (feed [0x47, 0x49, 0x46, 0x38, 0x37, 0x61])) = (4, 0x00810230, 0) := by decide +kernel
theorem test_gifSignature :
    let s := after .gifSignature (feed [0x02, 0x00, 0x02, 0x00, 0x70, 0x00, 0x00])
    s.gif.state = .sections ∧ s.gif.screenW = 2 ∧ s.inPos = 7 := by decide +kernel
theorem test_gifStep :
    report (after .gifStep (sections (feed [0x99]))) = (4, 0x00820231, 0x99) := by decide +kernel
/-- Scenario A from the image section on. -/
theorem test_gifDecode :
    let s := after .gifDecode (sections (feed [0x2C, 0x00, 0x00, 0x00, 0x00, 0x02, 0x00, 0x02, 0x00, 0x00, 0x02, 0x03,
      0x44, 0x34, 0x05, 0x00, 0x3B]))
    Cells.getRange s.mem.canvas 0 4 = [0xFF0000FF, 0xFF00FF00, 0xFFFF0000, 0xFFFFFFFF] ∧ s.inPos = 17 ∧
      s.status.toWord = 0xA ∧ s.gif.nframes = 1 := by decide +kernel
theorem test_gifImage :
    let s := after .gifImage (sections (feed [0x00, 0x00, 0x00, 0x00, 0x02, 0x00, 0x02, 0x00, 0x00, 0x02, 0x03, 0x44,
      0x34, 0x05, 0x00]))
    Cells.getRange s.mem.canvas 0 4 = [0xFF0000FF, 0xFF00FF00, 0xFFFF0000, 0xFFFFFFFF] ∧ s.status.frame = true := by
  decide +kernel
theorem test_gifImage_outside :
    report (after .gifImage (sections (feed [0x01, 0x00, 0x00, 0x00, 0x02, 0x00, 0x02, 0x00, 0x00, 0x02, 0x00]))) =
      (4, 0x00820234, 0) := by decide +kernel
theorem test_gifExtGraphicControl :
    let s := after .gifExtGraphicControl (sections (feed [0x04, 0x0D, 0x14, 0x00, 0x05, 0x00]))
    s.gif.gc = ⟨true, true, 3, 5, 20⟩ ∧ s.inPos = 6 := by decide +kernel
theorem test_gifExtGraphicControl_size :
    report (after .gifExtGraphicControl (sections (feed [0x05, 0x00, 0x00, 0x00, 0x00, 0x00]))) = (4, 0x00820232, 5) := by
  decide +kernel
theorem test_gifExtSkipped :
    ∀ i ∈ [Instr.gifExtComment, .gifExtApplication, .gifExtPlainText, .gifExtOther 7],
      (after i (sections (feed [0x02, 0x68, 0x69, 0x00, 0x3B]))).inPos = 4 := by decide +kernel
theorem test_gifTrailer : (after .gifTrailer (sections (feed []))).gif.state = .done := by decide +kernel
/-- R460's example. -/
theorem test_gifEbegin :
    let s := after .gifEbegin { State.reset with pixDim := 0x00020002 }
    written s = [0x47, 0x49, 0x46, 0x38, 0x39, 0x61, 0x02, 0x00, 0x02, 0x00, 0x70, 0x00, 0x00] ∧ readReg s 0xC4 = 1 := by
  decide +kernel
theorem test_gifEbegin_animation :
    Cells.getRange (after .gifEbegin { State.reset with pixDim := 0x00010002, arg0 := 1, arg1 := 3 }).mem.out 13 19 =
      [0x21, 0xFF, 0x0B, 0x4E, 0x45, 0x54, 0x53, 0x43, 0x41, 0x50, 0x45, 0x32, 0x2E, 0x30, 0x03, 0x01, 0x03, 0x00, 0x00] := by
  decide +kernel
/-- V-GIF-5: the frame of Scenario A, quantised. -/
theorem test_gifEframe :
    let s := after .gifEframe { image [0xFF0000FF, 0xFF00FF00, 0xFFFF0000, 0xFFFFFFFF] with
      pixDim := 0x00020002, arg0 := 256, genc := { GifEnc.zero with opened := true } }
    written s = [0x21, 0xF9, 0x04, 0x00, 0x00, 0x00, 0x00, 0x00, 0x2C, 0x00, 0x00, 0x00, 0x00, 0x02, 0x00, 0x02, 0x00,
      0x81, 0x00, 0x00, 0xFF, 0x00, 0xFF, 0x00, 0xFF, 0x00, 0x00, 0xFF, 0xFF, 0xFF, 0x02, 0x03, 0x54, 0x30, 0x05, 0x00] ∧
      s.genc.frames = 1 := by decide +kernel
theorem test_gifEend :
    let s := after .gifEend { State.reset with genc := { GifEnc.zero with opened := true, frames := 1 } }
    written s = [0x3B] ∧ readReg s 0xC4 = 0 ∧ readReg s 0xC8 = 1 := by decide +kernel

/-! ## Witnesses: for each statement a state and operands that meet its hypotheses, clause by clause -/

/-- Whether an outcome is a next state. -/
def isNext (o : Host.Outcome State Machine.Fault Refusal) : Bool :=
  match o with
  | .next _ => true
  | _ => false

theorem exec_after {i : Instr} {s : State} (h : isNext (exec i s) = true) : exec i s = .next (after i s) := by
  unfold after
  cases hx : exec i s <;> simp_all [isNext]

theorem step_after {s : State} (h : isNext (step s) = true) : step s = .next (stepped s) := by
  unfold stepped
  cases hx : step s <;> simp_all [isNext]

theorem reads_of {s : State} {bs : List Byte}
    (h : s.inPos.toNat + bs.length ≤ s.inLen.toNat ∧ ∀ i : Nat, i < bs.length → s.byteIn i = byteAt bs i) :
    s.Reads bs := h

theorem noInstr {w : Word} {e : DecodeError} (h : decodeCommand w = .error e) (i : Instr) : decodeCommand w ≠ .ok i := by
  rw [h]
  intro hx
  cases hx

/-- A fault is pending. -/
def faulted (s : State) : State := { s with status := { s.status with fault := true } }

/-- `s` with the host about to make these accesses. -/
def facing (es : List HostEvent) (s : State) : State := { s with inputs := es }

theorem witness_ResetState :
    17 < spaceSize State.reset.caps 6 ∧ 8191 < spaceSize State.reset.caps 6 ∧ 65535 < spaceSize State.reset.caps 22 := by
  decide +kernel

theorem witness_DecodeEncode : (Instr.gifExtOther 0xFA).wellFormed = true ∧ (Instr.hufDec 15 15).wellFormed = true := by
  decide

theorem witness_LegalCommandWords : decodeCommand 0x21000011 = .ok (.hufDec 1 1) := by decide

theorem witness_StepRunsCommand :
    (let s := facing [.write 0 0x12000000] (feed [0xA5]);
      s.inputs = .write 0 0x12000000 :: [] ∧ decodeCommand 0x12000000 = .ok .bcBit ∧ s.status.fault = false) ∧
    (let s := faulted (facing [.write 0 0x01000000] (feed []));
      s.inputs = .write 0 0x01000000 :: [] ∧ decodeCommand 0x01000000 = .ok .sysSreset ∧
        (0x01000000#32).extractLsb' 24 8 = 0x01) := by decide +kernel

theorem witness_StepOtherAccess :
    State.reset.inputs = [] ∧ (facing [.reset] State.reset).inputs = .reset :: [] ∧
    (facing [.read 4] State.reset).inputs = .read 4 :: [] ∧ (4 : Nat) ≠ 0x3C ∧
    (facing [.write 0x10 7] State.reset).inputs = .write 0x10 7 :: [] := by decide +kernel

theorem witness_SystemAndRefusedWords :
    (let s := faulted (facing [.write 0 0] State.reset);
      s.inputs = .write 0 0 :: [] ∧ s.status.fault = true ∧ (0#32).extractLsb' 24 8 ≠ 0x01) ∧
    (let s := facing [.write 0 0x03000000] State.reset;
      s.inputs = .write 0 0x03000000 :: [] ∧ s.inScan = false ∧ (∀ i, decodeCommand 0x03000000 ≠ .ok i) ∧
        s.status.fault = false) ∧
    (let s := faulted (facing [.write 0 0x01000001] State.reset);
      s.inputs = .write 0 0x01000001 :: [] ∧ s.inScan = false ∧ (0x01000001#32).extractLsb' 24 8 = 0x01 ∧
        (0x01000001#32).extractLsb' 0 24 ≠ 0 ∧ s.status.fault = true) ∧
    (faulted (facing [.write 0 0x01000000] State.reset)).inputs = .write 0 0x01000000 :: [] :=
  ⟨by decide +kernel, ⟨rfl, rfl, noInstr (e := .reservedOpcode 0x03) (by decide), rfl⟩, by decide +kernel, rfl⟩

theorem witness_EveryInstructionEnds : State.reset.status.fault = false := rfl

/-- The window at element `a` of a space. -/
def atWindow (space a : Word) : State := { State.reset with memSel := space, memAddr := a }

theorem empty_wf : Memory.empty.wf := by
  repeat' apply And.intro
  all_goals decide

theorem witness_MemoryWindow :
    ((let s := atWindow 2 63; s.memAddr.toNat < spaceSize s.caps s.memSel.toNat) ∧
    (let s := faulted (atWindow 2 64); spaceSize s.caps s.memSel.toNat ≤ s.memAddr.toNat ∧ s.status.fault = true) ∧
    (let s := atWindow 23 0;
      spaceSize s.caps s.memSel.toNat ≤ s.memAddr.toNat ∧ s.status.fault = false ∧ s.inScan = false)) ∧
    (atWindow 9 255).mem.wf ∧
    (let s := atWindow 9 255;
      s.status.fault = false ∧ writableWidth s.memSel.toNat = some 32 ∧
        s.memAddr.toNat < spaceSize s.caps s.memSel.toNat) ∧
    (let s := atWindow 1 0; s.status.fault = false ∧ s.inScan = false ∧ writableWidth s.memSel.toNat = none) ∧
    (let s := atWindow 9 256;
      s.status.fault = false ∧ s.inScan = false ∧ spaceSize s.caps s.memSel.toNat ≤ s.memAddr.toNat) ∧
    (faulted (atWindow 9 0)).status.fault = true :=
  ⟨by decide +kernel, empty_wf, by decide +kernel⟩

theorem witness_RegisterWrites :
    (0x2C : Nat) ≠ 0 ∧ (0x2C : Nat) ≠ 0x3C ∧ State.reset.caps.inCap < 2 ^ 32 := by decide +kernel

/-- A sound state with a command ahead. -/
def ready : State := facing [.write 0 0x12000000] (feed [0xA5])

theorem ready_sound : ready.Sound :=
  ⟨by decide +kernel, by decide +kernel, fun _ => by decide +kernel, by decide +kernel, rfl, by decide +kernel⟩

theorem witness_StepKeepsSound :
    ready.caps.outCap < 2 ^ 32 ∧ ready.Sound ∧ step ready = .next (stepped ready) :=
  ⟨by decide +kernel, ready_sound, step_after (by decide +kernel)⟩

/-- One byte of `12 FF 00 34` consumed but for four bits, and `FF 00` buffered. -/
def midStream : State := { feed [0x12, 0xFF, 0x00, 0x34] with inPos := 3, bcAcc := 0x12FF, bcNbits := 12 }

theorem witness_InPosStaysInRange :
    midStream.bcNbits ≤ 23 ∧ midStream.inPos.toNat ≤ midStream.inLen.toNat ∧ midStream.overshoot ≤ midStream.inPos.toNat ∧
      exec .bcRealign midStream = .next (after .bcRealign midStream) :=
  ⟨by decide +kernel, by decide +kernel, by decide +kernel, exec_after (by decide +kernel)⟩

theorem witness_HostStateKept :
    Instr.bcBit ≠ .sysSreset ∧ Instr.bcBit ≠ .jpgAssemble ∧
      exec .bcBit midStream = .next (after .bcBit midStream) := ⟨by decide, by decide, exec_after (by decide +kernel)⟩

theorem witness_OutIsAppendOnly :
    let s := { State.reset with outLen := 2, mem := { Memory.empty with out := [(0, 1), (1, 2)] } }
    Instr.bwFlush ≠ .sysSreset ∧ Instr.bwFlush ≠ .sysOutclr ∧ s.mem.out.wf ∧ s.outLen.toNat ≤ s.caps.outCap ∧
      s.caps.outCap < 2 ^ 32 ∧ exec .bwFlush s = .next (after .bwFlush s) :=
  ⟨by decide, by decide, by decide +kernel, by decide +kernel, by decide +kernel, exec_after (by decide +kernel)⟩

/-- An open encode with room for `cap` bytes of OUT. -/
def roomFor (cap : Nat) : State :=
  { State.reset with genc := { State.reset.genc with opened := true }, caps := { Config.unbounded with outCap := cap } }

theorem witness_FullOutputRaises :
    ((roomFor 0).outLen.toNat = (roomFor 0).caps.outCap ∧ (roomFor 1).outLen.toNat ≠ (roomFor 1).caps.outCap) ∧
    (isOutWriter .gifEend = true ∧ (roomFor 0).status.fault = false ∧ (roomFor 0).inScan = false ∧
      (roomFor 0).outLen.toNat ≤ (roomFor 0).caps.outCap ∧ (roomFor 0).caps.outCap ≤ 1 ∧ 1 < 2 ^ 32) ∧
    exec .gifEend { roomFor 0 with caps := { (roomFor 0).caps with outCap := 1 } } =
      .next (after .gifEend { roomFor 0 with caps := { (roomFor 0).caps with outCap := 1 } }) ∧
    (let t := after .gifEend { roomFor 0 with caps := { (roomFor 0).caps with outCap := 1 } };
      t.status.fault = false ∧ (roomFor 0).caps.outCap < t.outLen.toNat ∧ t.outLen.toNat ≤ (roomFor 1).caps.outCap) :=
  ⟨by decide +kernel, by decide +kernel, exec_after (by decide +kernel), by decide +kernel⟩

theorem witness_ReaderWriterIndependent :
    (isReader .bcBit = true ∧ midStream.inScan = false ∧ exec .bcBit midStream = .next (after .bcBit midStream)) ∧
    (isWriter .bwFlush = true ∧ midStream.inScan = false ∧ exec .bwFlush midStream = .next (after .bwFlush midStream)) :=
  ⟨⟨rfl, rfl, exec_after (by decide +kernel)⟩, rfl, rfl, exec_after (by decide +kernel)⟩

theorem witness_CodecsShareNothing :
    (isGifSide .octReset = true ∧ exec .octReset midStream = .next (after .octReset midStream)) ∧
    (isGifSide .bcBit = false ∧ Instr.bcBit ≠ .sysSreset ∧ exec .bcBit midStream = .next (after .bcBit midStream)) :=
  ⟨⟨rfl, exec_after (by decide +kernel)⟩, rfl, by decide, exec_after (by decide +kernel)⟩

theorem witness_FaultEntry :
    FaultRow .endOfStream 0x01 1 ∧ FaultRow .badLzwCodeSize 0x36 2 ∧ FaultRow .tooManyCoefficients 0x44 3 ∧
    FaultRow .unsupported 0x58 4 ∧ State.reset.status.fault = false ∧ (faulted State.reset).status.fault = true := by
  exact ⟨.inl ⟨by decide, rfl⟩, .inr (.inl ⟨by decide, rfl⟩), .inr (.inr (.inl ⟨by decide, rfl⟩)),
    .inr (.inr (.inr ⟨by decide, rfl⟩)), rfl, rfl⟩

theorem witness_BulkReads :
    (let s := { feed (List.replicate 10 0) with inPos := 4, arg0 := 6 };
      s.realigned.inPos.toNat + s.arg0.toNat = s.realigned.inLen.toNat) ∧
    (let s := { feed (List.replicate 10 0) with inPos := 4, arg0 := 7 };
      s.realigned.inLen.toNat < s.realigned.inPos.toNat + s.arg0.toNat) ∧
    (let s := { feed [] with inLen := 65536, arg0 := 65536 };
      s.arg0.toNat ≤ 65536 ∧ s.realigned.inPos.toNat + s.arg0.toNat ≤ s.realigned.inLen.toNat) ∧
    (let s := { feed [] with inLen := 65535, arg0 := 65536 };
      s.arg0.toNat ≤ 65536 ∧ s.realigned.inLen.toNat < s.realigned.inPos.toNat + s.arg0.toNat) ∧
    65536 < ({ feed [] with arg0 := 65537 } : State).arg0.toNat := by decide +kernel

theorem witness_ReaderDeliversStream :
    let s := feed [0xA5, 0xFF, 0x00]
    s.bcNbits ≤ 23 ∧ s.pendingBits.length = 16 ∧ (16#5).toNat ≤ 16 ∧ (16#8).toNat ≤ s.pendingBits.length ∧
      1 ≤ (16#5).toNat ∧ 1 ≤ s.pendingBits.length ∧ (0#5).toNat ≤ (feed []).pendingBits.length := by decide +kernel

theorem witness_ReaderStopsAtMarker :
    (let s := feed [0xA5, 0xFF, 0xD9];
      s.status.fault = false ∧ s.bcNbits ≤ 23 ∧ s.inPos.toNat ≤ s.inLen.toNat ∧ (9#5).toNat ≤ 16 ∧
        s.pendingBits.length < (9#5).toNat) ∧
    (let s := feed [0xFF];
      s.status.fault = false ∧ s.bcNbits ≤ 23 ∧ s.inPos.toNat ≤ s.inLen.toNat ∧ s.pendingBits.length < (1#5).toNat) ∧
    16 < (17#5).toNat ∧ (0#5).toNat = 0 ∧ 16 < (17#8).toNat := by decide +kernel

theorem witness_WriterPacksBits :
    (let s := { State.reset with bwAcc := 0x7F, bwNbits := 7, arg0 := 0xFFFF };
      s.bwNbits ≤ 7 ∧ 1 ≤ (16#5).toNat ∧ (16#5).toNat ≤ 16 ∧ s.arg0.toNat < 2 ^ (16#5).toNat ∧
        s.outLen.toNat + (s.emitted (bitsMsb 16 s.arg0.toNat)).length ≤ s.caps.outCap) ∧
    ((0#5).toNat = 0 ∧ 16 < (17#5).toNat ∧ 2 ^ (3#5).toNat ≤ (8#32).toNat) ∧
    (let s := { State.reset with bwAcc := 1, bwNbits := 1 };
      s.bwNbits ≤ 7 ∧
        s.outLen.toNat + (s.emitted (List.replicate ((8 - s.bwNbits) % 8) true)).length ≤ s.caps.outCap) := by
  decide +kernel

/-! ### Huffman -/

theorem spec196_valid : spec196.Valid :=
  ⟨by decide, by decide, by decide, by intro l h1 h2; interval_cases l <;> decide⟩

/-- The codes of R196's example. -/
theorem spec196_codes {l j : Nat} {v : Byte} (h : spec196.HasCode l j v) :
    (l = 2 ∧ j = 0 ∧ v = 5) ∨ (l = 3 ∧ j = 0 ∧ v = 9) ∨ (l = 3 ∧ j = 1 ∧ v = 7) := by
  obtain ⟨h1, h2, h3, h4⟩ := h
  have hc : ∀ l : Nat, l < 17 → spec196.count l = if l = 2 then 1 else if l = 3 then 2 else 0 := by decide +kernel
  have hl := hc l (by omega)
  by_cases e2 : l = 2
  · subst e2
    have hj : j = 0 := by simp at hl; omega
    subst hj
    exact .inl ⟨rfl, rfl, by rw [← h4]; decide +kernel⟩
  · by_cases e3 : l = 3
    · subst e3
      simp at hl
      have hj : j = 0 ∨ j = 1 := by omega
      rcases hj with rfl | rfl
      · exact .inr (.inl ⟨rfl, rfl, by rw [← h4]; decide +kernel⟩)
      · exact .inr (.inr ⟨rfl, rfl, by rw [← h4]; decide +kernel⟩)
    · simp [e2, e3] at hl
      omega

theorem spec196_first : spec196.HasCode 2 0 5 ∧
    ∀ l' j' : Nat, spec196.HasCode l' j' 5 → spec196.firstIndex 2 + 0 ≤ spec196.firstIndex l' + j' :=
  ⟨by unfold HuffSpec.HasCode; decide +kernel, fun _ _ _ => Nat.zero_le _⟩

/-- `s` with the table of R196 in class 1, slot 3. -/
def with196 (s : State) : State := { s with ht := s.ht.set 7 spec196.build, htValid := 0x80 }

/-- `s` with a specification in HSPEC. -/
def withHspec (bs : List Byte) : State := { State.reset with mem := { Memory.empty with hspec := Cells.entriesFrom 0 bs } }

theorem witness_HuffBuildAndLoadstd :
    (1 < (2#4).toNat ∧ 3 < (4#4).toNat) ∧
    256 < (withHspec (List.replicate 15 16 ++ [17])).hspecSpec.total ∧
    (let sp := (withHspec [2, 1]).hspecSpec;
      sp.total ≤ 256 ∧ 2 ^ 2 < sp.firstCode 2 + sp.count 2 ∧ ∀ k : Nat, 1 ≤ k → k < 2 → sp.firstCode k + sp.count k ≤ 2 ^ k) ∧
    (let sp := (withHspec [3]).hspecSpec;
      sp.total ≤ 256 ∧ 2 ^ 1 < sp.firstCode 1 + sp.count 1) ∧
    ((1#4).toNat ≤ 1 ∧ (3#4).toNat ≤ 3 ∧ (withHspec (spec196.counts ++ spec196.values)).hspecSpec.Valid) ∧
    255 < (256#32).toNat ∧ State.reset.htValid.getLsbD (4 * 1 + 3) = false ∧ State.reset.arg0.toNat ≤ 255 :=
  ⟨by decide, by decide +kernel,
    ⟨by decide +kernel, by decide +kernel, by intro k h1 h2; interval_cases k; decide +kernel⟩,
    by decide +kernel,
    ⟨by decide, by decide, by decide +kernel, by decide +kernel, by decide +kernel,
      by intro l h1 h2; interval_cases l <;> decide +kernel⟩,
    by decide +kernel⟩

theorem witness_HuffTableFields :
    spec196.Valid ∧ spec196.HasCode 3 1 7 ∧ (0x7F : Nat) / 2 ^ (8 - 3) = spec196.firstCode 3 + 1 ∧
    (∀ (l j : Nat) (v : Byte), spec196.HasCode l j v → l ≤ 8 → 0x80 / 2 ^ (8 - l) ≠ spec196.firstCode l + j) ∧
    (∀ l' j' : Nat, spec196.HasCode l' j' 5 → spec196.firstIndex 2 + 0 ≤ spec196.firstIndex l' + j') ∧
    ∀ l j : Nat, ¬ spec196.HasCode l j 6 := by
  refine ⟨spec196_valid, by unfold HuffSpec.HasCode; decide +kernel, by decide +kernel, ?_, spec196_first.2, ?_⟩
  · intro l j v h _
    rcases spec196_codes h with ⟨rfl, rfl, -⟩ | ⟨rfl, rfl, -⟩ | ⟨rfl, rfl, -⟩ <;> decide +kernel
  · intro l j h
    rcases spec196_codes h with ⟨-, -, h⟩ | ⟨-, -, h⟩ | ⟨-, -, h⟩ <;> exact absurd h (by decide)

theorem witness_HuffDecode :
    let s := with196 (feed [0x7F])
    (1#4).toNat ≤ 1 ∧ (3#4).toNat ≤ 3 ∧ s.htBuilt (1#4).toNat (3#4).toNat = true ∧
      s.table (1#4).toNat (3#4).toNat = spec196.build ∧ spec196.Valid ∧ spec196.HasCode 3 1 7 ∧ s.bcNbits ≤ 23 ∧
      bitsMsb 3 (spec196.firstCode 3 + 1) <+: s.pendingBits :=
  ⟨by decide, by decide, by decide +kernel, rfl, spec196_valid, by unfold HuffSpec.HasCode; decide +kernel,
    by decide +kernel, by decide +kernel⟩

theorem witness_HuffEncode :
    (let s := with196 { State.reset with arg0 := 5 };
      s.htBuilt 1 3 = true ∧ s.table 1 3 = spec196.build ∧ spec196.Valid ∧ spec196.HasCode 2 0 5 ∧
      (∀ l' j' : Nat, spec196.HasCode l' j' 5 → spec196.firstIndex 2 + 0 ≤ spec196.firstIndex l' + j') ∧
      s.bwNbits ≤ 7 ∧ s.arg0 = (5#8).setWidth 32 ∧ s.RoomFor (s.emitted (bitsMsb 2 (spec196.firstCode 2 + 0)))) ∧
    (let s := with196 { State.reset with arg1 := word (-31) };
      (0 ≤ 15 ∧ 5 ≤ 15 ∧ s.arg0 = wordN 0 ∧ (5 : Byte) = BitVec.ofNat 8 (16 * 0 + 5) ∧
      s.arg1.toInt.natAbs < 2 ^ 5 ∧ 2 ^ (5 - 1) ≤ s.arg1.toInt.natAbs ∧
      s.RoomFor (s.emitted (bitsMsb 2 (spec196.firstCode 2 + 0) ++ magnitudeBits 5 s.arg1.toInt)))) ∧
    (let s := with196 { State.reset with arg0 := 6 };
      s.arg0 = (6#8).setWidth 32 ∧ ∀ l j : Nat, ¬ spec196.HasCode l j 6) :=
  ⟨⟨by decide +kernel, rfl, spec196_valid, spec196_first.1, spec196_first.2, by decide +kernel, by decide +kernel,
      by unfold State.RoomFor; decide +kernel⟩,
    by unfold State.RoomFor; decide +kernel, by decide +kernel, witness_HuffTableFields.2.2.2.2.2⟩

theorem witness_HuffEncode_encval :
    (let s := with196 { State.reset with arg0 := 15, arg1 := word (-32768) };
      (1#4).toNat ≤ 1 ∧ (3#4).toNat ≤ 3 ∧ s.htBuilt (1#4).toNat (3#4).toNat = true ∧ 15 < 16 ∧
        s.arg1.toInt.natAbs < 2 ^ 16 ∧ 2 ^ (16 - 1) ≤ s.arg1.toInt.natAbs) ∧
    (let s := with196 { State.reset with arg0 := 16 };
      15 < s.arg0.toNat ∧ s.arg1.toInt.natAbs < 2 ^ 0) ∧
    (let s := with196 { State.reset with arg0 := 0, arg1 := 63 };
      s.htBuilt (1#4).toNat (3#4).toNat = true ∧ s.table (1#4).toNat (3#4).toNat = spec196.build ∧ spec196.Valid ∧
      s.arg0.toNat ≤ 15 ∧ 6 ≤ 15 ∧ s.arg1.toInt.natAbs < 2 ^ 6 ∧ 2 ^ (6 - 1) ≤ s.arg1.toInt.natAbs ∧
      ∀ l j : Nat, ¬ spec196.HasCode l j (BitVec.ofNat 8 (16 * s.arg0.toNat + 6))) :=
  ⟨by decide +kernel, by decide +kernel, by decide +kernel, rfl, spec196_valid, by decide +kernel, by decide,
    by decide +kernel, by decide +kernel, witness_HuffTableFields.2.2.2.2.2⟩

/-- Where only ones come, no code of R196's example comes next. -/
theorem no_code_of_ones {n : Nat} {l j : Nat} {v : Byte} (h : spec196.HasCode l j v) :
    ¬ bitsMsb l (spec196.firstCode l + j) <+: List.replicate n true := by
  intro hp
  have hf : false ∈ bitsMsb l (spec196.firstCode l + j) := by
    rcases spec196_codes h with ⟨rfl, rfl, -⟩ | ⟨rfl, rfl, -⟩ | ⟨rfl, rfl, -⟩ <;> decide +kernel
  exact absurd (List.eq_of_mem_replicate (hp.subset hf)) (by decide)

theorem witness_ReaderStopsAtMarker_hufDec :
    let s := with196 { feed [0xFF, 0xD9] with bcNbits := 2, bcAcc := 3 }
    s.status.fault = false ∧ s.bcNbits ≤ 23 ∧ s.inPos.toNat ≤ s.inLen.toNat ∧ (1#4).toNat ≤ 1 ∧ (3#4).toNat ≤ 3 ∧
      s.htBuilt (1#4).toNat (3#4).toNat = true ∧ s.table (1#4).toNat (3#4).toNat = spec196.build ∧ spec196.Valid ∧
      s.pendingBits.length < 16 ∧
      ∀ (l j : Nat) (v : Byte), spec196.HasCode l j v → ¬ bitsMsb l (spec196.firstCode l + j) <+: s.pendingBits :=
  have e : (with196 { feed [0xFF, 0xD9] with bcNbits := 2, bcAcc := 3 }).pendingBits = List.replicate 2 true := by
    decide +kernel
  ⟨rfl, by decide, by decide +kernel, by decide, by decide, by decide +kernel, rfl, spec196_valid, by rw [e]; decide,
    fun l j v h => by rw [e]; exact no_code_of_ones h⟩

theorem witness_HuffDecode_noCode :
    let s := with196 (feed [0xFF, 0x00, 0xFF, 0x00])
    (1#4).toNat ≤ 1 ∧ (3#4).toNat ≤ 3 ∧ s.htBuilt (1#4).toNat (3#4).toNat = true ∧
      s.table (1#4).toNat (3#4).toNat = spec196.build ∧ spec196.Valid ∧ s.status.fault = false ∧ s.bcNbits ≤ 23 ∧
      16 ≤ s.pendingBits.length ∧
      ∀ (l j : Nat) (v : Byte), spec196.HasCode l j v → ¬ bitsMsb l (spec196.firstCode l + j) <+: s.pendingBits :=
  have e : (with196 (feed [0xFF, 0x00, 0xFF, 0x00])).pendingBits = List.replicate 16 true := by decide +kernel
  ⟨by decide, by decide, by decide +kernel, rfl, spec196_valid, rfl, by decide, by rw [e]; decide,
    fun l j v h => by rw [e]; exact no_code_of_ones h⟩

/-- What HUF.ENC of symbol 5 and BW.FLUSH leave. -/
def roundTrip196 : State := after .bwFlush (after (.hufEnc 1 3) (with196 { State.reset with arg0 := 5 }))

theorem witness_HuffRoundTrip :
    (let s := with196 { State.reset with arg0 := 5 };
      s.htBuilt 1 3 = true ∧ s.table 1 3 = spec196.build ∧ spec196.Valid ∧ spec196.build.sizeAt 5 ≠ 0 ∧
      s.arg0 = (5#8).setWidth 32 ∧ s.bwNbits = 0 ∧ s.mem.out.wf ∧ s.outLen.toNat + 8 ≤ s.caps.outCap ∧
      s.outLen.toNat + 8 < 2 ^ 32) ∧
    (let u := roundTrip196;
      let r := with196 (feed (written u));
      r.htValid = (with196 State.reset).htValid ∧ r.bcNbits = 0 ∧ r.inPos.toNat + u.outLen.toNat = r.inLen.toNat ∧
      ∀ i : Nat, i < u.outLen.toNat → r.byteIn i = Cells.get u.mem.out i) :=
  ⟨⟨by decide +kernel, rfl, spec196_valid, by decide +kernel, by decide +kernel, by decide +kernel, by decide +kernel,
    by decide +kernel, by decide +kernel⟩, by decide +kernel⟩

/-! ### Transform and quantisation -/

theorem get_single {a i : Nat} {v : Word} (h : i ≠ a) : Cells.get [(a, v)] i = 0 := by
  simp [Cells.get, Ne.symm h]

theorem witness_TransformAndClear :
    (let s := { State.reset with mem := { Memory.empty with blk := [(0, 80)] } };
      (∀ i : Nat, 1 ≤ i → i < 64 → Cells.get s.mem.blk i = 0) ∧ (Cells.get s.mem.blk 0).toInt.natAbs < 2 ^ 19 ∧
      (∀ i : Nat, 8 ≤ i → i < 64 → Cells.get s.mem.blk i = 0) ∧
      ∀ y x : Nat, y < 8 → 1 ≤ x → x < 8 → Cells.get s.mem.blk (8 * y + x) = 0) ∧
    (let s := { State.reset with mem := { Memory.empty with blk := Cells.entriesFrom 0 (List.replicate 64 255) } };
      255 < 256 ∧ ∀ i : Nat, i < 64 → Cells.get s.mem.blk i = wordN 255) :=
  ⟨⟨fun _ h _ => get_single (by omega), by decide +kernel, fun _ h _ => get_single (by omega),
    fun _ _ _ h _ => get_single (by omega)⟩, by decide +kernel⟩

theorem witness_ScaleAndQuantise :
    ((0#32).toNat < 1 ∧ 100 < (101#32).toNat ∧ 1 ≤ (1#32).toNat ∧ (100#32).toNat ≤ 100) ∧
    (let s := { State.reset with mem := { Memory.empty with qt := Cells.entriesFrom 192 (List.replicate 64 1) } };
      ∀ k : Nat, k < 64 → Cells.get s.mem.qt (64 * (3#2).toNat + k) ≠ 0) ∧
    (let s := { State.reset with mem := { Memory.empty with qt := Cells.entriesFrom 192 (List.replicate 63 1) } };
      Cells.get s.mem.qt (64 * (3#2).toNat + 63) = 0 ∧
        ∀ j : Nat, j < 63 → Cells.get s.mem.qt (64 * (3#2).toNat + j) ≠ 0) ∧
    Cells.get State.reset.mem.qt (64 * (0#2).toNat + 0) = 0 := by decide +kernel

/-! ### JPEG -/

theorem started_decoding {s : State} (h : s.jpg.state ≠ .done ∧ s.jpg.state ≠ .failed) : (started s).Decoding :=
  ⟨rfl, h.1, h.2⟩

/-- A decoder in a state. -/
def inState (st : JpgState) (s : State) : State := { s with jpg := { s.jpg with state := st } }

theorem witness_JpegInitAndStep :
    (let s := feed [0xFF, 0xD8];
      s.jpg.soiSeen = false ∧ s.jpg.state ≠ .done ∧ s.jpg.state ≠ .failed ∧ s.realigned.Reads [0xFF, 0xD8]) ∧
    (let s := started (feed [0xFF, 0xFF, 0xD9]);
      s.Decoding ∧ decodeMarker 0xD9 = .ok .eoi ∧ s.realigned.Reads (List.replicate (1 + 1) 0xFF ++ [0xD9])) ∧
    (let s := started (feed [0xFF, 0xC3]);
      s.Decoding ∧ decodeMarker 0xC3 = .error (.unknownMarker 0xC3) ∧
        s.realigned.Reads (List.replicate (0 + 1) 0xFF ++ [0xC3])) ∧
    (let s := started (feed [0xFE]);
      s.Decoding ∧ (0xFE : Byte) ≠ 0xFF ∧ s.realigned.Reads [0xFE]) ∧
    (inState .done State.reset).jpg.state = .done ∧ (inState .failed State.reset).jpg.state = .failed :=
  ⟨⟨by decide +kernel, by decide +kernel, by decide +kernel, reads_of (by decide +kernel)⟩,
    ⟨started_decoding (by decide +kernel), by decide, reads_of (by decide +kernel)⟩,
    ⟨started_decoding (by decide +kernel), by decide, reads_of (by decide +kernel)⟩,
    ⟨started_decoding (by decide +kernel), by decide, reads_of (by decide +kernel)⟩, rfl, rfl⟩

theorem witness_JpegInitAndStep_badMarker :
    (let s := feed [0xFF, 0xD9];
      s.jpg.soiSeen = false ∧ s.jpg.state ≠ .done ∧ s.jpg.state ≠ .failed ∧ ¬ ((0xFF : Byte) = 0xFF ∧ (0xD9 : Byte) = 0xD8) ∧
        s.realigned.Reads [0xFF, 0xD9]) ∧
    (let s := started (feed [0xFF, 0xFF, 0x00]);
      s.Decoding ∧ s.realigned.Reads (List.replicate (1 + 1) 0xFF ++ [0x00])) :=
  ⟨⟨rfl, by decide +kernel, by decide +kernel, by decide, reads_of (by decide +kernel)⟩,
    started_decoding (by decide +kernel), reads_of (by decide +kernel)⟩

theorem witness_JpegInitAndStep_ended :
    (let s := feed [0xFF];
      s.jpg.soiSeen = false ∧ s.jpg.state ≠ .done ∧ s.jpg.state ≠ .failed ∧
        s.inLen.toNat < s.realigned.inPos.toNat + 2) ∧
    (let s := started (feed []); s.Decoding ∧ s.inLen.toNat ≤ s.realigned.inPos.toNat) ∧
    (let s := started (feed [0xFF, 0xFF]);
      s.Decoding ∧ s.realigned.Reads (List.replicate (1 + 1) 0xFF) ∧
        s.realigned.inPos.toNat + (1 + 1) = s.inLen.toNat) :=
  ⟨by decide +kernel, ⟨started_decoding (by decide +kernel), by decide +kernel⟩,
    started_decoding (by decide +kernel), reads_of (by decide +kernel), by decide +kernel⟩

theorem witness_JpegDecodeIteratesStep :
    (let s := feed [0xFF, 0xD8];
      s.status.fault = false ∧ s.jpg.state ≠ .done ∧ s.jpg.state ≠ .failed ∧
        exec .jpgStep s = .next (after .jpgStep s) ∧ (after .jpgStep s).status.fault = false ∧
        (after .jpgStep s).jpg.state ≠ .done) ∧
    (let s := inState .scanning (started (feed [0xFF, 0xD9]));
      s.status.fault = false ∧ s.jpg.state ≠ .done ∧ s.jpg.state ≠ .failed ∧
        exec .jpgStep s = .next (after .jpgStep s) ∧ (after .jpgStep s).status.fault = false ∧
        (after .jpgStep s).jpg.state = .done) ∧
    (let s := started (feed [0xFF, 0xD9]);
      exec .jpgStep s = .next (after .jpgStep s) ∧ (after .jpgStep s).status.fault = true) ∧
    (let s := inState .scanning (started (feed [0xFF, 0xD9]));
      s.jpg.soiSeen = true ∧ s.jpg.state = .scanning ∧ s.jpg.progressive = false ∧ s.realigned.Reads [0xFF, 0xD9]) :=
  ⟨⟨by decide +kernel, by decide +kernel, by decide +kernel, exec_after (by decide +kernel), by decide +kernel,
      by decide +kernel⟩,
    ⟨by decide +kernel, by decide +kernel, by decide +kernel, exec_after (by decide +kernel), by decide +kernel,
      by decide +kernel⟩,
    ⟨exec_after (by decide +kernel), by decide +kernel⟩, rfl, rfl, rfl, reads_of (by decide +kernel)⟩

/-- A finished image of `n` components, one pixel. -/
def finished (n : BitVec 3) : State :=
  { State.reset with jpg := { JpegCtx.init with
      state := .done, width := 1, height := 1, ncomp := n, hmax := 1, vmax := 1, mxx := 1, myy := 1 } }

theorem witness_JpegAssemble :
    ((finished 1).jpg.state = .done ∧ (finished 1).jpg.ncomp = 1 ∧ (finished 3).jpg.ncomp = 3 ∧
      (finished 3).jpg.width.toNat * (finished 3).jpg.height.toNat ≤ (finished 3).caps.pixCap ∧
      0 < (finished 3).jpg.width.toNat ∧ 0 < (finished 3).jpg.height.toNat) ∧
    State.reset.jpg.state ≠ .done ∧ (finished 4).jpg.ncomp = 4 ∧
    (let s := { finished 1 with caps := { Config.unbounded with pixCap := 0 } };
      s.jpg.state = .done ∧ s.jpg.ncomp ≠ 4 ∧ s.caps.pixCap < s.jpg.width.toNat * s.jpg.height.toNat) := by decide +kernel

theorem witness_JpegMarkersAndSegments_payload :
    (let s := started (feed (segmentBytes []));
      s.Decoding ∧ ([] : List Byte).length ≤ 65533 ∧ s.realigned.Reads (segmentBytes []) ∧ isSkipped .jpegApp15 = true) ∧
    (let p : List Byte := [0x41, 0x64, 0x6F, 0x62, 0x65, 0, 0, 0, 0, 0, 0, 1]
      let s := started (feed (segmentBytes p))
      s.Decoding ∧ s.realigned.Reads (segmentBytes p) ∧ 12 ≤ p.length ∧ p.take 5 = [0x41, 0x64, 0x6F, 0x62, 0x65]) ∧
    (let p : List Byte := [0x41, 0x64, 0x6F, 0x62, 0x65, 0, 0, 0, 0, 0, 0]
      let s := started (feed (segmentBytes p))
      s.Decoding ∧ s.realigned.Reads (segmentBytes p) ∧ p.length < 12) ∧
    (let s := started (feed (segmentBytes [0x00, 0x01]));
      s.Decoding ∧ s.realigned.Reads (segmentBytes [0x00, 0x01])) :=
  ⟨⟨started_decoding (by decide +kernel), by decide, reads_of (by decide +kernel), rfl⟩,
    ⟨started_decoding (by decide +kernel), reads_of (by decide +kernel), by decide, by decide⟩,
    ⟨started_decoding (by decide +kernel), reads_of (by decide +kernel), by decide⟩,
    started_decoding (by decide +kernel), reads_of (by decide +kernel)⟩

theorem witness_JpegMarkersAndSegments :
    (State.reset.jpg.soiSeen = false ∧ State.reset.jpg.state ≠ .done ∧ State.reset.jpg.state ≠ .failed ∧
      Marker.eoi ≠ .soi) ∧
    ((started State.reset).Decoding ∧ (started State.reset).jpg.state ≠ .scanning) ∧
    (let s := inState .scanning (started State.reset);
      s.Decoding ∧ s.jpg.state = .scanning ∧ s.jpg.progressive = false) ∧
    (started State.reset).inScan = false ∧
    (let s := { started State.reset with inScan := true };
      s.Decoding ∧ s.inScan = true ∧ (1#3) ≠ s.jpg.rstn ∧ (0#3) = s.jpg.rstn) :=
  ⟨by decide +kernel, ⟨started_decoding (by decide +kernel), by decide +kernel⟩,
    ⟨⟨rfl, by decide +kernel, by decide +kernel⟩, rfl, rfl⟩, rfl,
    ⟨rfl, by decide +kernel, by decide +kernel⟩, rfl, by decide +kernel, by decide +kernel⟩

/-- A decoder of a frame of one component before these bytes. -/
def inFrame (bs : List Byte) : State := scenarioB (feed bs)

theorem inFrame_decoding (bs : List Byte) : (inFrame bs).Decoding :=
  ⟨rfl, show JpgState.haveFrameHeader ≠ .done by decide, show JpgState.haveFrameHeader ≠ .failed by decide⟩

theorem witness_JpegMarkersAndSegments_length :
    (let s := started (feed [0x00]);
      s.Decoding ∧ isSegment .jpegSos = true ∧ isSegment .jpegApp0 = true ∧
        s.inLen.toNat < s.realigned.inPos.toNat + 2) ∧
    (let s := started (feed [0x00, 0x01]);
      s.Decoding ∧ (0x01 : Byte).toNat < 2 ∧ s.realigned.Reads [0x00, 0x01]) ∧
    (let s := started (feed (lengthField 65533));
      s.Decoding ∧ isSegment .jpegCom = true ∧ s.realigned.Reads (lengthField 65533) ∧ s.TakesPayload .jpegCom 65533 ∧
        s.inLen.toNat < s.realigned.inPos.toNat + 2 + 65533) ∧
    (let s := started (feed (lengthField 6 ++ List.replicate 5 0));
      s.Decoding ∧ s.realigned.Reads (lengthField 6) ∧ s.TakesPayload .jpegSof2 6 ∧
        s.inLen.toNat < s.realigned.inPos.toNat + 2 + 6) ∧
    (let s := started (feed (lengthField 2 ++ [0]));
      s.Decoding ∧ s.realigned.Reads (lengthField 2) ∧ s.TakesPayload .jpegDri 2 ∧
        s.inLen.toNat < s.realigned.inPos.toNat + 2 + 2) ∧
    (let s := inFrame (lengthField 6 ++ List.replicate 5 0);
      s.Decoding ∧ s.realigned.Reads (lengthField 6) ∧ s.TakesPayload .jpegSos 6 ∧
        s.inLen.toNat < s.realigned.inPos.toNat + 2 + 6) ∧
    (let s := started (feed (lengthField 3));
      s.Decoding ∧ isSegment .jpegDri = true ∧ s.realigned.Reads (lengthField 3) ∧ 3 ≠ 2) :=
  ⟨⟨started_decoding (by decide +kernel), rfl, rfl, by decide +kernel⟩,
    ⟨started_decoding (by decide +kernel), by decide, reads_of (by decide +kernel)⟩,
    ⟨started_decoding (by decide +kernel), rfl, reads_of (by decide +kernel), by unfold State.TakesPayload; decide +kernel,
      by decide +kernel⟩,
    ⟨started_decoding (by decide +kernel), reads_of (by decide +kernel), by unfold State.TakesPayload; decide +kernel,
      by decide +kernel⟩,
    ⟨started_decoding (by decide +kernel), reads_of (by decide +kernel), by unfold State.TakesPayload; decide +kernel,
      by decide +kernel⟩,
    ⟨inFrame_decoding _, reads_of (by decide +kernel), by unfold State.TakesPayload; decide +kernel, by decide +kernel⟩,
    started_decoding (by decide +kernel), rfl, reads_of (by decide +kernel), by decide⟩

/-- A progressive frame of one block after its scans. -/
def progressiveBlock : State :=
  { scenarioB State.reset with
    jpg := { (scenarioB State.reset).jpg with state := .scanning, progressive := true }
    mem := { (scenarioB State.reset).mem with coef := (Vector.replicate 4 []).set 0 [(0, 100)] } }

theorem witness_JpegProgressiveEnd :
    progressiveBlock.Decoding ∧ progressiveBlock.jpg.state = .scanning ∧ progressiveBlock.jpg.progressive = true ∧
    progressiveBlock.jpg.ncomp.toNat ≤ 4 ∧
    (∀ i : Fin 4, i.val < progressiveBlock.jpg.ncomp.toNat →
      progressiveBlock.qtValid.getLsbD progressiveBlock.jpg.comp[i].tq.toNat = true) ∧
    (progressiveBlock.jpg.ncomp = 1 ∧ progressiveBlock.jpg.comp[(0 : Fin 4)].h = 1 ∧
      progressiveBlock.jpg.comp[(0 : Fin 4)].v = 1 ∧ progressiveBlock.jpg.mxx = 1 ∧ progressiveBlock.jpg.myy = 1) ∧
    (∀ k : Nat, 1 ≤ k → k < 64 → Cells.get progressiveBlock.mem.coef[(0 : Fin 4)] k = 0) ∧
    ((Cells.get progressiveBlock.mem.coef[(0 : Fin 4)] 0).toInt *
      (Cells.get progressiveBlock.mem.qt (64 * progressiveBlock.jpg.comp[(0 : Fin 4)].tq.toNat)).toNat).natAbs < 2 ^ 19 :=
  ⟨⟨rfl, by decide +kernel, by decide +kernel⟩, rfl, rfl, by decide +kernel, by decide +kernel, by decide +kernel,
    fun k h _ => by
      show Cells.get [(0, 100)] k = 0
      simp [Cells.get]
      omega,
    by decide +kernel⟩

theorem witness_JpegProgressiveEnd_noTable :
    let s : State := { progressiveBlock with qtValid := 0xE }
    s.Decoding ∧ s.jpg.state = .scanning ∧ s.jpg.progressive = true ∧ (0 : Fin 4).val < s.jpg.ncomp.toNat ∧
      s.rowsOf 0 * s.colsOf 0 ≠ 0 ∧ s.qtValid.getLsbD s.jpg.comp[(0 : Fin 4)].tq.toNat = false :=
  ⟨⟨rfl, by decide +kernel, by decide +kernel⟩, rfl, rfl, by decide +kernel, by decide +kernel, by decide +kernel⟩

/-- A byte-wide and a word-wide table, in slots 3 and 0. -/
def dqtTables : List DqtTable := [⟨false, 3, List.replicate 64 255⟩, ⟨true, 0, List.replicate 64 0xFFFF⟩]

theorem dqtTables_ok : ∀ q ∈ dqtTables, q.Ok := by
  intro q hq
  simp only [dqtTables, List.mem_cons, List.not_mem_nil, or_false] at hq
  rcases hq with rfl | rfl
  · exact ⟨rfl, fun _ e he => by rw [List.eq_of_mem_replicate he]; decide⟩
  · exact ⟨rfl, fun h => nomatch h⟩

/-- A decoder before a segment with this payload. -/
def beforeSegment (p : List Byte) : State := started (feed (segmentBytes p))

theorem beforeSegment_decoding (p : List Byte) : (beforeSegment p).Decoding :=
  ⟨rfl, show JpgState.awaitHeader ≠ .done by decide, show JpgState.awaitHeader ≠ .failed by decide⟩

/-- Tables that R280 refuses: a slot of 4, a precision of 2, and one cut short. -/
def badDqt : List (List Byte) := [[0x04], [0x23], [0x13, 1, 1]]

/-- Tables that R281 and R195 refuse: cut short, class 2, slot 4, 257 codes, values cut short, three codes of one bit. -/
def badDht : List (List Byte) :=
  [0x00 :: List.replicate 15 0, 0x20 :: List.replicate 16 0, 0x04 :: List.replicate 16 0,
    [0x00, 0, 0, 0, 0, 0, 0, 0, 0, 0, 0, 0, 0, 0, 0, 255, 2], [0x00, 1, 0, 0, 0, 0, 0, 0, 0, 0, 0, 0, 0, 0, 0, 0, 0],
    [0x00, 3, 0, 0, 0, 0, 0, 0, 0, 0, 0, 0, 0, 0, 0, 0, 0, 7, 8, 9]]

/-- The table of R196 as a DHT segment has it. -/
def dhtTables : List DhtTable := [⟨1, 3, spec196⟩]

theorem dhtTables_ok : ∀ h ∈ dhtTables, h.Ok := by
  intro h hm
  rw [dhtTables, List.mem_singleton] at hm
  subst hm
  exact ⟨spec196_valid, rfl⟩

theorem witness_JpegTableSegments_dqt :
    (let p := dqtTables.flatMap DqtTable.bytes ++ [];
      (∀ q ∈ dqtTables, q.Ok) ∧ p.length ≤ 65533 ∧ (beforeSegment p).realigned.Reads (segmentBytes p)) ∧
    (∀ p, (beforeSegment p).Decoding) ∧
    (∀ rest ∈ badDqt, let p := (dqtTables.take 1).flatMap DqtTable.bytes ++ rest
      p.length ≤ 65533 ∧ (beforeSegment p).realigned.Reads (segmentBytes p)) ∧
    badDqt.map dqtFault = [some ⟨.badTableIndex, 4⟩, some ⟨.unsupportedPrecision, 0x23⟩, some ⟨.badSegmentLength, 3⟩] := by
  refine ⟨⟨dqtTables_ok, by decide +kernel, reads_of (by decide +kernel)⟩, beforeSegment_decoding, ?_, by decide +kernel⟩
  have h : ∀ rest ∈ badDqt, let p := (dqtTables.take 1).flatMap DqtTable.bytes ++ rest
      let s := (beforeSegment p).realigned
      p.length ≤ 65533 ∧ s.inPos.toNat + (segmentBytes p).length ≤ s.inLen.toNat ∧
        ∀ i : Nat, i < (segmentBytes p).length → s.byteIn i = byteAt (segmentBytes p) i := by decide +kernel
  exact fun rest hr => ⟨(h rest hr).1, reads_of (h rest hr).2⟩

theorem witness_JpegTableSegments_dht :
    (∀ h ∈ dhtTables, h.Ok) ∧
    (∀ rest ∈ [] :: badDht, let p := dhtTables.flatMap DhtTable.bytes ++ rest
      p.length ≤ 65533 ∧ (beforeSegment p).realigned.Reads (segmentBytes p)) ∧
    badDht.map dhtFault = [some ⟨.badSegmentLength, 16⟩, some ⟨.badTableIndex, 0x20⟩, some ⟨.badTableIndex, 4⟩,
      some ⟨.badHuffmanTable, 257⟩, some ⟨.badSegmentLength, 17⟩, some ⟨.huffOversubscribed, 1⟩] := by
  refine ⟨dhtTables_ok, ?_, by decide +kernel⟩
  have h : ∀ rest ∈ [] :: badDht, let p := dhtTables.flatMap DhtTable.bytes ++ rest
      let s := (beforeSegment p).realigned
      p.length ≤ 65533 ∧ s.inPos.toNat + (segmentBytes p).length ≤ s.inLen.toNat ∧
        ∀ i : Nat, i < (segmentBytes p).length → s.byteIn i = byteAt (segmentBytes p) i := by decide +kernel
  exact fun rest hr => ⟨(h rest hr).1, reads_of (h rest hr).2⟩

/-- Three components, the first subsampled by 4, in an image of one row. -/
def header3 : SofHeader := ⟨65535, 1, [⟨1, 4, 4, 0⟩, ⟨2, 1, 2, 1⟩, ⟨3, 1, 1, 3⟩]⟩

/-- One component. -/
def header1 : SofHeader := ⟨1, 65535, [⟨255, 2, 2, 3⟩]⟩

theorem witness_JpegFrame :
    (let s := started (feed (segmentBytes header3.bytes));
      s.Decoding ∧ s.jpg.state = .awaitHeader ∧ header3.Ok ∧ s.realigned.Reads (segmentBytes header3.bytes) ∧
        ∀ c ∈ header3.comps, 64 * header3.blocks c ≤ s.caps.planeCap ∧ 64 * header3.blocks c ≤ s.caps.coefCap) ∧
    (let s := started (feed (segmentBytes header1.bytes));
      s.Decoding ∧ s.jpg.state = .awaitHeader ∧ header1.Ok ∧ s.realigned.Reads (segmentBytes header1.bytes) ∧
        ∀ c ∈ header1.comps, 64 * header1.blocks c ≤ s.caps.planeCap ∧ 64 * header1.blocks c ≤ s.caps.coefCap) ∧
    (let s := inState .haveFrameHeader (started (feed [0xFF, 0xFF]));
      s.Decoding ∧ s.jpg.state ≠ .awaitHeader ∧ s.realigned.Reads [BitVec.ofNat 8 (65535 / 256), BitVec.ofNat 8 65535]) :=
  ⟨⟨started_decoding (by decide +kernel), by decide +kernel,
      ⟨by decide, by decide, by decide, by decide, by unfold SamplingFactor; decide⟩, reads_of (by decide +kernel),
      by decide +kernel⟩,
    ⟨started_decoding (by decide +kernel), by decide +kernel,
      ⟨by decide, by decide, by decide, by decide, by unfold SamplingFactor; decide⟩, reads_of (by decide +kernel),
      by decide +kernel⟩,
    ⟨rfl, by decide +kernel, by decide +kernel⟩, by decide +kernel, reads_of (by decide +kernel)⟩

/-- Frame headers that R277 refuses, one for each of its checks. -/
def badFrames : List (List Byte) :=
  [[12, 0, 1, 0, 1, 0], [8, 0, 1, 0, 1, 1], [8, 0, 1, 0, 1, 2, 1, 0x11, 0, 2, 0x11, 0], [8, 0, 1, 0, 0, 1, 1, 0x11, 0],
    [8, 0, 1, 0, 1, 3, 1, 0x11, 0, 2, 0x11, 0, 1, 0x31, 4], [8, 0, 1, 0, 1, 1, 1, 0x31, 4], [8, 0, 1, 0, 1, 1, 1, 0x11, 4]]

theorem witness_JpegFrame_checks :
    (let s := started (feed (lengthField 5));
      s.Decoding ∧ s.jpg.state = .awaitHeader ∧ 5 < 6 ∧ s.realigned.Reads (lengthField 5)) ∧
    (∀ p ∈ badFrames, (beforeSegment p).jpg.state = .awaitHeader ∧ 6 ≤ p.length ∧ p.length ≤ 65533 ∧
      (beforeSegment p).realigned.Reads (segmentBytes p)) ∧
    badFrames.map frameFault = [some ⟨.unsupportedPrecision, 12⟩, some ⟨.badSegmentLength, 6⟩,
      some ⟨.unsupportedComponentCount, 2⟩, some ⟨.badDimensions, 0x00010000⟩, some ⟨.duplicateComponentId, 1⟩,
      some ⟨.unsupportedSubsampling, 0x31⟩, some ⟨.badTableIndex, 4⟩] ∧
    ∀ k : Nat, k = 2 ∨ k = 3 →
      let full := 64 * header1.blocks ⟨255, 2, 2, 3⟩
      let s : State := { beforeSegment header1.bytes with
        caps := { Config.unbounded with planeCap := if k = 2 then full - 1 else full, coefCap := full - 1 } }
      header1.Ok ∧ s.realigned.Reads (segmentBytes header1.bytes) ∧
        header1.comps.findSome? (fun c => if s.caps.planeCap < 64 * header1.blocks c then some 2
          else if s.caps.coefCap < 64 * header1.blocks c then some 3 else none) = some k := by
  refine ⟨⟨started_decoding (by decide +kernel), rfl, by decide, reads_of (by decide +kernel)⟩, ?_, by decide +kernel, ?_⟩
  · have h : ∀ p ∈ badFrames, let s := (beforeSegment p).realigned
        6 ≤ p.length ∧ p.length ≤ 65533 ∧ s.inPos.toNat + (segmentBytes p).length ≤ s.inLen.toNat ∧
          ∀ i : Nat, i < (segmentBytes p).length → s.byteIn i = byteAt (segmentBytes p) i := by decide +kernel
    exact fun p hp => ⟨rfl, (h p hp).1, (h p hp).2.1, reads_of (h p hp).2.2⟩
  · rintro k (rfl | rfl)
    · exact ⟨witness_JpegFrame.2.1.2.2.1, reads_of (by decide +kernel), by decide +kernel⟩
    · exact ⟨witness_JpegFrame.2.1.2.2.1, reads_of (by decide +kernel), by decide +kernel⟩

/-- One code, `0`, for symbol `v`. -/
def oneCode (v : Byte) : HuffSpec := ⟨1 :: List.replicate 15 0, [v]⟩

theorem oneCode_valid (v : Byte) : (oneCode v).Valid :=
  ⟨rfl, by decide +revert, by decide +revert, by intro l h1 h2; interval_cases l <;> decide +revert⟩

/-- A one-block sequential frame with the tables of category 3 and end-of-block, and a scan with the difference 5. -/
def flatScan : State :=
  { scenarioB (feed (segmentBytes (scanPayload 1 0 3 0x12 0x34 0x56) ++ [0x57])) with
    ht := (State.reset.ht.set 0 (oneCode 3).build).set 7 (oneCode 0).build
    htValid := 0x81 }

theorem witness_JpegFlatScan :
    let p := scanPayload flatScan.jpg.comp[(0 : Fin 4)].id 0 3 0x12 0x34 0x56
    flatScan.Decoding ∧ flatScan.jpg.state ≠ .awaitHeader ∧ flatScan.OneBlock ∧ flatScan.jpg.progressive = false ∧
    flatScan.qtValid.getLsbD flatScan.jpg.comp[(0 : Fin 4)].tq.toNat = true ∧
    flatScan.htBuilt 0 (0#2).toNat = true ∧ flatScan.table 0 (0#2).toNat = (oneCode 3).build ∧ (oneCode 3).Valid ∧
    flatScan.htBuilt 1 (3#2).toNat = true ∧ flatScan.table 1 (3#2).toNat = (oneCode 0).build ∧ (oneCode 0).Valid ∧
    3 ≤ 11 ∧ (oneCode 3).HasCode 1 0 (BitVec.ofNat 8 3) ∧ (oneCode 0).HasCode 1 0 0x00 ∧
    (5 : Int).natAbs < 2 ^ 3 ∧ 2 ^ (3 - 1) ≤ (5 : Int).natAbs ∧ flatScan.realigned.Reads (segmentBytes p) ∧
    bitsMsb 1 ((oneCode 3).firstCode 1 + 0) ++ magnitudeBits 3 5 ++ bitsMsb 1 ((oneCode 0).firstCode 1 + 0) <+:
      (flatScan.pastSegment p).pendingBits ∧
    (5 * ((Cells.get flatScan.mem.qt (64 * flatScan.jpg.comp[(0 : Fin 4)].tq.toNat)).toNat : Int)).natAbs < 2 ^ 19 :=
  ⟨⟨rfl, by decide +kernel, by decide +kernel⟩, by decide +kernel, by unfold State.OneBlock; decide +kernel,
    by decide +kernel, by decide +kernel, by decide +kernel, rfl, oneCode_valid 3, by decide +kernel, rfl,
    oneCode_valid 0, by decide, by unfold HuffSpec.HasCode; decide +kernel, by unfold HuffSpec.HasCode; decide +kernel,
    by decide, by decide, reads_of (by decide +kernel), by decide +kernel, by decide +kernel⟩

/-- A refinement scan of the DC coefficient with Al = 14, and one data byte. -/
def refineScan : State :=
  let s := scenarioB (feed (segmentBytes (scanPayload 1 0 0 0 0 0xFE) ++ [0x80]))
  { s with jpg := { s.jpg with progressive := true } }

theorem witness_JpegRefinementScan :
    (let p := scanPayload refineScan.jpg.comp[(0 : Fin 4)].id 0 0 0 0 ((14#4 + 1) ++ 14#4);
      refineScan.Decoding ∧ refineScan.jpg.state ≠ .awaitHeader ∧ refineScan.OneBlock ∧
      refineScan.jpg.progressive = true ∧ (14#4).toNat ≤ 14 ∧ refineScan.realigned.Reads (segmentBytes p) ∧
      (refineScan.pastSegment p).pendingBits = true :: List.replicate 7 false) ∧
    (let s := started (feed [0x00, 0x08]);
      s.Decoding ∧ s.jpg.state = .awaitHeader ∧ s.realigned.Reads [BitVec.ofNat 8 (8 / 256), BitVec.ofNat 8 8]) :=
  ⟨⟨⟨rfl, by decide +kernel, by decide +kernel⟩, by decide +kernel, by unfold State.OneBlock; decide +kernel,
      by decide +kernel, by decide, reads_of (by decide +kernel), by decide +kernel⟩,
    started_decoding (by decide +kernel), by decide +kernel, reads_of (by decide +kernel)⟩

/-! Scans of one component: two sequential blocks with a restart marker between them, and each kind of progressive scan. -/

/-- Code `0` for symbol `a`, code `10` for symbol `b`. -/
def twoCodes (a b : Byte) : HuffSpec := ⟨[1, 1] ++ List.replicate 14 0, [a, b]⟩

theorem twoCodes_fits : ∀ l : Fin 17, (twoCodes 0 0).firstCode l + (twoCodes 0 0).count l ≤ 2 ^ l.val := by decide +kernel

theorem twoCodes_firstCode (a b : Byte) (l : Nat) : (twoCodes a b).firstCode l = (twoCodes 0 0).firstCode l := by
  induction l with
  | zero => rfl
  | succ l ih => exact congrArg (fun n => 2 * (n + (twoCodes 0 0).count l)) ih

theorem twoCodes_valid (a b : Byte) : (twoCodes a b).Valid :=
  ⟨rfl, by change 2 ≤ 256; decide, by change 2 ≤ 2; decide,
    fun l _ h => twoCodes_firstCode a b l ▸ twoCodes_fits ⟨l, by omega⟩⟩

theorem twoCodes_first (a b : Byte) : (twoCodes a b).CodeBits a [false] :=
  ⟨1, 0, ⟨by decide, by decide, by change 0 < 1; decide, rfl⟩, by rw [twoCodes_firstCode]; decide⟩

theorem twoCodes_second (a b : Byte) : (twoCodes a b).CodeBits b [true, false] :=
  ⟨2, 0, ⟨by decide, by decide, by change 0 < 1; decide, rfl⟩, by rw [twoCodes_firstCode]; decide⟩

/-- The frame of the scans below. -/
def frameOf (w : BitVec 16) : SofHeader := ⟨w, 8, [⟨1, 1, 1, 0⟩]⟩

/-- A scan of its only component. -/
def scanOf (w : BitVec 16) (par : ScanPar) (ri : Nat) : Scan := ⟨frameOf w, [⟨0, 0, 3⟩], par, ri⟩

/-- The tables of the scans. -/
def dcOf (_ : BitVec 2) : HuffSpec := twoCodes 3 0
def acOf (b : Byte) (_ : BitVec 2) : HuffSpec := twoCodes 0x00 b

/-- A coefficient that stands in COEF. -/
def oldCoef : Cells 32 := [(1, 4)]

/-- A decoder of that frame with the tables, before these bytes. -/
def scanState (progressive : Bool) (w : BitVec 16) (b : Byte) (ri : BitVec 16) (bs : List Byte) : State :=
  let s := scenarioB (feed bs)
  { s with
    ht := (State.reset.ht.set 0 (twoCodes 3 0).build).set 7 (twoCodes 0x00 b).build
    htValid := 0x81
    jpg := { s.jpg with
      progressive := progressive, width := w, mxx := BitVec.ofNat 16 (frameOf w).mxx, ri := ri }
    mem := { s.mem with coef := s.mem.coef.set 0 oldCoef } }

theorem scan_startable (progressive : Bool) {w : BitVec 16} (par : ScanPar) (b : Byte) (ri : BitVec 16) (bs : List Byte)
    (hw : w = 8 ∨ w = 16) :
    (scanOf w par ri.toNat).Startable (scanState progressive w b ri bs) dcOf (acOf b) where
  decoding := ⟨rfl, show JpgState.haveFrameHeader ≠ .done by decide, show JpgState.haveFrameHeader ≠ .failed by decide⟩
  frame := {
    ok := ⟨.inl rfl, show w ≠ 0 by rcases hw with rfl | rfl <;> decide, show (8#16) ≠ 0 by decide,
      show [(1 : Byte)].Nodup by decide,
      fun c hc => by rw [List.mem_singleton.1 hc]; exact ⟨.inl rfl, .inl rfl⟩⟩
    started := show JpgState.haveFrameHeader ≠ .awaitHeader by decide
    width := rfl
    height := rfl
    ncomp := rfl
    hmax := rfl
    vmax := rfl
    mxx := show (BitVec.ofNat 16 (frameOf w).mxx).toNat = (frameOf w).mxx by rcases hw with rfl | rfl <;> decide +kernel
    myy := show (1#16).toNat = (frameOf w).myy by rcases hw with rfl | rfl <;> decide +kernel
    comps := fun i c h => by
      match i with
      | 0 => cases h; exact ⟨rfl, rfl, rfl, rfl⟩
      | 1 | 2 | 3 => cases h }
  some := by simp [scanOf]
  once := show [0].Nodup by decide
  within := fun c hc => by rw [List.mem_singleton.1 hc]; exact Nat.zero_lt_one
  ri := rfl
  dcTables := fun _ _ c hc => by
    rw [List.mem_singleton.1 hc]; exact ⟨show (0x81#8).getLsbD 0 = true by decide, rfl, twoCodes_valid 3 0⟩
  acTables := fun _ c hc => by
    rw [List.mem_singleton.1 hc]; exact ⟨show (0x81#8).getLsbD 7 = true by decide, rfl, twoCodes_valid 0x00 b⟩

/-- A difference 5, after one zero the level 5, end of block; six bits of padding. -/
def codedBlock : Interval :=
  ⟨[false] ++ magnitudeBits 3 5 ++ ([true, false] ++ magnitudeBits 3 5 ++ ([false] ++ bitsMsb 0 0)),
    List.replicate 6 true, [updated (fun _ => 0) [(0, (0 + word 5) <<< 0), (1 + 1, word 5 <<< 0)]]⟩

/-- What it leaves. -/
def codedCarry : Carry := ⟨fun i => if i = 0 then 0 + word 5 else 0, 0⟩

/-- A block after `c` with the difference 5, the level 5 after one zero, and end of block. -/
theorem codedBlock_bits (c : Carry) (h : c.eob = 0) :
    BlockBits ⟨0, 63, 0, 0⟩ (twoCodes 3 0) (twoCodes 0x00 0x13) 0 (fun _ => 0) c codedBlock.bits
      ⟨fun i => if i = 0 then c.pred i + word 5 else c.pred i, 0⟩
      (updated (fun _ => 0) [(0, (c.pred 0 + word 5) <<< 0), (1 + 1, word 5 <<< 0)]) := by
  refine ⟨3, 0, 5, _, _, _, by decide, ⟨by decide, by decide⟩, twoCodes_first 3 0, ?_, rfl, rfl, rfl⟩
  rw [h]
  exact BandBits.pair (run := 1) (c := 3) (v := 5) (by decide) (by decide) (by decide) (by decide)
    ⟨by decide, by decide⟩ (twoCodes_second 0x00 0x13)
    (BandBits.eob (r := 0) (extra := 0) (by decide) (by decide) (by decide) (twoCodes_first 0x00 0x13))

theorem codedBlock_ok (b : BlockPos) (hb : b.1.ci = 0) :
    BlocksBits ⟨0, 63, 0, 0⟩ dcOf (acOf 0x13) (fun _ _ => 0) [b] ⟨fun _ => 0, 0⟩ codedBlock.bits codedCarry
      codedBlock.zs := by
  rw [← List.append_nil codedBlock.bits]
  refine BlocksBits.cons (c' := codedCarry) ?_ .nil
  rw [hb]
  exact codedBlock_bits ⟨fun _ => 0, 0⟩ rfl

/-- The bytes of the header and the data of a scan, and nothing else. -/
def scanBytes (v : Scan) (ss se ahal : Byte) (xs : List Interval) : List Byte :=
  segmentBytes (v.header ss se ahal) ++ dataBytes 0 xs

theorem witness_JpegSequentialScan :
    let v := scanOf 16 ⟨0, 63, 0, 0⟩ 1
    let xs := [codedBlock, codedBlock]
    let s := scanState false 16 0x13 1 (scanBytes v 0xFF 0xFF 0xFF xs)
    v.Startable s dcOf (acOf 0x13) ∧ s.jpg.progressive = false ∧ v.par = ⟨0, 63, 0, 0⟩ ∧
    (∀ c ∈ v.sel, s.qtLoaded (s.comp c.ci).tq.toNat = true) ∧
    v.Coded dcOf (acOf 0x13) (fun _ _ => 0) xs codedCarry ∧
    s.realigned.Reads (segmentBytes (v.header 0xFF 0xFF 0xFF) ++ dataBytes 0 xs) := by
  refine ⟨scan_startable false _ _ 1 _ (.inr rfl), rfl, rfl, by decide +kernel, ⟨by decide +kernel, ?_⟩,
    reads_of (by decide +kernel)⟩
  intro k x hx
  match k with
  | 0 => cases hx; exact ⟨by decide, by decide, codedCarry, codedBlock_ok (⟨0, 0, 3⟩, 0, 0) rfl, fun h => by cases h⟩
  | 1 => cases hx; exact ⟨by decide, by decide, codedCarry, codedBlock_ok (⟨0, 0, 3⟩, 1, 0) rfl, fun _ => rfl⟩
  | k + 2 => cases hx

/-- The hypotheses of `JpegProgressiveScan` for a scan of one restart interval. -/
def MeetsProgressive (w : BitVec 16) (par : ScanPar) (b : Byte) (x : Interval) (last : Carry) : Prop :=
  let v := scanOf w par 0
  let s := scanState true w b 0 (scanBytes v par.ss par.se (par.ah ++ par.al) [x])
  v.Startable s dcOf (acOf b) ∧ s.jpg.progressive = true ∧ v.Progression ∧
  v.Coded dcOf (acOf b) (fun b k => Cells.get (s.coef b.1.ci) (v.coefAt b k)) [x] last ∧
  s.realigned.Reads (segmentBytes (v.header par.ss par.se (par.ah ++ par.al)) ++ dataBytes 0 [x])

/-- A first pass over the DC coefficient: a difference 5, to be shifted by Al = 1. -/
theorem witness_JpegProgressiveScan_dcFirst :
    MeetsProgressive 8 ⟨0, 0, 0, 1⟩ 0x13
      ⟨[false] ++ magnitudeBits 3 5 ++ [] ++ [], List.replicate 4 true,
        [updated (fun k => Cells.get oldCoef (64 * (0 * 1 + 0) + k)) [(0, (0 + word 5) <<< 1)]]⟩ codedCarry := by
  refine ⟨scan_startable true _ _ 0 _ (.inl rfl), rfl, by unfold Scan.Progression; decide +kernel,
    ⟨by decide +kernel, ?_⟩, reads_of (by decide +kernel)⟩
  intro k x hx
  match k with
  | 0 =>
    cases hx
    refine ⟨by decide, by decide, codedCarry, BlocksBits.cons (c' := codedCarry) ?_ .nil, fun _ => rfl⟩
    exact ⟨3, 0, 5, _, _, _, by decide, ⟨by decide, by decide⟩, twoCodes_first 3 0, ⟨rfl, rfl, rfl⟩, rfl, rfl, rfl⟩
  | k + 1 => cases hx

/-- A first pass over a band: the level 5 after one zero, end of band. -/
theorem witness_JpegProgressiveScan_acFirst :
    MeetsProgressive 8 ⟨1, 3, 0, 2⟩ 0x13
      ⟨[true, false] ++ magnitudeBits 3 5 ++ ([false] ++ bitsMsb 0 0) ++ [], List.replicate 2 true,
        [updated (fun k => Cells.get oldCoef (64 * (0 * 1 + 0) + k)) [(1 + 1, word 5 <<< 2)]]⟩ ⟨fun _ => 0, 0⟩ := by
  refine ⟨scan_startable true _ _ 0 _ (.inl rfl), rfl, by unfold Scan.Progression; decide +kernel,
    ⟨by decide +kernel, ?_⟩, reads_of (by decide +kernel)⟩
  intro k x hx
  match k with
  | 0 =>
    cases hx
    refine ⟨by decide, by decide, _, BlocksBits.cons (c' := ⟨fun _ => 0, 0⟩) ?_ .nil, fun _ => rfl⟩
    exact ⟨0, _, BandBits.pair (run := 1) (c := 3) (v := 5) (by decide) (by decide) (by decide) (by decide)
      ⟨by decide, by decide⟩ (twoCodes_second 0x00 0x13)
      (BandBits.eob (r := 0) (extra := 0) (by decide) (by decide) (by decide) (twoCodes_first 0x00 0x13)), rfl, rfl⟩
  | k + 1 => cases hx

/-- A refinement of the DC coefficient by a one. -/
theorem witness_JpegProgressiveScan_dcRefine :
    MeetsProgressive 8 ⟨0, 0, 3, 2⟩ 0x13
      ⟨[true] ++ [], List.replicate 7 true,
        [updated (fun k => Cells.get oldCoef (64 * (0 * 1 + 0) + k)) [(0, Cells.get oldCoef 0 ||| (1 <<< 2))]]⟩
      ⟨fun _ => 0, 0⟩ := by
  refine ⟨scan_startable true _ _ 0 _ (.inl rfl), rfl, by unfold Scan.Progression; decide +kernel,
    ⟨by decide +kernel, ?_⟩, reads_of (by decide +kernel)⟩
  intro k x hx
  match k with
  | 0 =>
    cases hx
    refine ⟨by decide, by decide, _, BlocksBits.cons (c' := ⟨fun _ => 0, 0⟩) ?_ .nil, fun _ => rfl⟩
    exact ⟨true, rfl, rfl, rfl⟩
  | k + 1 => cases hx

/-- After one zero the coefficient 1 at 3, and the correction of the one at 1; four bits of padding. -/
def refinedBlock : Interval :=
  ⟨[true, false] ++ (true :: [true]) ++ [] ++ [], List.replicate 4 true,
    [updated (fun k => Cells.get oldCoef (64 * (0 * 1 + 0) + k)) ([(1, movedAway 4 1)] ++ [(3, 1)])]⟩

theorem refinedBlock_ok :
    RefineBits (twoCodes 0x00 0x11) 3 1 (fun k => Cells.get oldCoef (64 * (0 * 1 + 0) + k)) 1
      ([true, false] ++ (true :: [true]) ++ []) 0 ([(1, movedAway 4 1)] ++ [(3, 1)]) :=
  RefineBits.place (run := 1) (w := 3) (sign := true) (by decide) (twoCodes_second 0x00 0x11)
    (WalkBits.move (by decide) (by decide +kernel)
      (WalkBits.pass (by decide) (by decide +kernel) (by decide) (WalkBits.stop (by decide) (by decide +kernel))))
    (by decide) (RefineBits.full (by decide))

theorem witness_JpegProgressiveScan_acRefine :
    MeetsProgressive 8 ⟨1, 3, 1, 0⟩ 0x11 refinedBlock ⟨fun _ => 0, 0⟩ := by
  refine ⟨scan_startable true _ _ 0 _ (.inl rfl), rfl, by unfold Scan.Progression; decide +kernel,
    ⟨by decide +kernel, ?_⟩, reads_of (by decide +kernel)⟩
  intro k x hx
  match k with
  | 0 =>
    cases hx
    refine ⟨by decide, by decide, _, BlocksBits.cons (c' := ⟨fun _ => 0, 0⟩) ?_ .nil, fun _ => rfl⟩
    exact ⟨0, 0, _, rfl, rfl, refinedBlock_ok⟩
  | k + 1 => cases hx

/-- A refinement of two blocks that one end-of-band run of 2 covers: the coefficient of the first is corrected, the
second has none. -/
theorem witness_JpegProgressiveScan_acRun :
    MeetsProgressive 16 ⟨1, 2, 1, 0⟩ 0x10
      ⟨([true, false] ++ bitsMsb 1 0 ++ [true]) ++ ([] ++ []), List.replicate 4 true,
        [updated (fun k => Cells.get oldCoef (64 * (0 * 2 + 0) + k)) [(1, movedAway 4 1)],
          updated (fun k => Cells.get oldCoef (64 * (0 * 2 + 1) + k)) []]⟩ ⟨fun _ => 0, 0⟩ := by
  refine ⟨scan_startable true _ _ 0 _ (.inr rfl), rfl, by unfold Scan.Progression; decide +kernel,
    ⟨by decide +kernel, ?_⟩, reads_of (by decide +kernel)⟩
  intro k x hx
  match k with
  | 0 =>
    cases hx
    refine ⟨by decide, by decide, _, BlocksBits.cons (c' := ⟨fun _ => 0, 1⟩) ?_
      (BlocksBits.cons (c' := ⟨fun _ => 0, 0⟩) ?_ .nil), fun _ => rfl⟩
    · exact ⟨1, 0, _, rfl, rfl, RefineBits.eob (w := 3) (r := 1) (extra := 0) (by decide) (by decide) (by decide)
        (twoCodes_second 0x00 0x10)
        (WalkBits.move (by decide) (by decide +kernel)
          (WalkBits.pass (by decide) (by decide +kernel) (by decide) (WalkBits.past (by decide))))⟩
    · exact ⟨0, 3, _, rfl, rfl, WalkBits.pass (by decide) (by decide +kernel) (by decide)
        (WalkBits.pass (by decide) (by decide +kernel) (by decide) (WalkBits.past (by decide))), rfl⟩
  | k + 1 => cases hx

/-! Scans that raise. -/

/-- A decoder of a frame of three components, 1 to 3, before a scan header with this payload; the tables of slots 0 and 1
are built, and the quantisation table of slot 0 is loaded. -/
def beforeScan (progressive : Bool) (p : List Byte) : State :=
  let s := inFrame (segmentBytes p)
  { s with jpg := { s.jpg with
      progressive := progressive, ncomp := 3, comp := #v[⟨1, 1, 1, 0, 0, 0⟩, ⟨2, 1, 1, 0, 0, 0⟩, ⟨3, 1, 1, 1, 0, 0⟩, Comp.zero] } }

/-- Scan headers that R283, R284, R287 and R289 refuse. -/
def badScans : List (Bool × List Byte) :=
  [(false, [2, 1, 0, 0, 63, 0]), (false, [1, 9, 0, 0, 63, 0]), (false, [2, 1, 0, 1, 0, 0, 63, 0]),
    (false, [1, 1, 0x40, 0, 63, 0]), (true, [1, 1, 0, 0, 5, 0]), (true, [2, 1, 0, 2, 0, 1, 5, 0]),
    (true, [1, 1, 0, 0, 0, 0x20]), (false, [1, 1, 0x20, 0, 63, 0]), (false, [1, 1, 0x02, 0, 63, 0]),
    (false, [1, 3, 0, 0, 63, 0])]

theorem witness_JpegScanChecks :
    (∀ prog p, (beforeScan prog p).Decoding) ∧
    (∀ n ∈ [5, 7, 12, 65533], let s : State := { beforeScan false [] with
        inLen := 2, mem := { Memory.empty with inp := Cells.entriesFrom 0 (lengthField n) } }
      s.jpg.state ≠ .awaitHeader ∧ s.jpg.ncomp.toNat ≤ 4 ∧ n ≤ 65533 ∧ (n < 6 ∨ 4 + 2 * s.jpg.ncomp.toNat < n ∨ n % 2 = 1) ∧
      s.realigned.Reads (lengthField n)) ∧
    (∀ e ∈ badScans, let s := beforeScan e.1 e.2
      s.jpg.state ≠ .awaitHeader ∧ 6 ≤ e.2.length ∧ e.2.length ≤ 4 + 2 * s.jpg.ncomp.toNat ∧ e.2.length % 2 = 0 ∧
      s.realigned.Reads (segmentBytes e.2)) ∧
    badScans.map (fun e => (beforeScan e.1 e.2).scanFault e.2) = [some ⟨.badSegmentLength, 6⟩,
      some ⟨.unknownComponentId, 9⟩, some ⟨.duplicateComponentId, 1⟩, some ⟨.badTableIndex, 0x40⟩,
      some ⟨.badSpectralSelection, 0x500⟩, some ⟨.badSpectralSelection, 0x501⟩,
      some ⟨.badSuccessiveApproximation, 0x20⟩, some ⟨.tableNotDefined, 2⟩, some ⟨.tableNotDefined, 0x12⟩,
      some ⟨.tableNotDefined, 0x21⟩] := by
  refine ⟨fun _ _ => ⟨rfl, show JpgState.haveFrameHeader ≠ .done by decide,
    show JpgState.haveFrameHeader ≠ .failed by decide⟩, ?_, ?_, by decide +kernel⟩
  · have h : ∀ n ∈ [5, 7, 12, 65533], let s : State := { beforeScan false [] with
        inLen := 2, mem := { Memory.empty with inp := Cells.entriesFrom 0 (lengthField n) } }
      (s.jpg.state ≠ .awaitHeader ∧ s.jpg.ncomp.toNat ≤ 4 ∧ n ≤ 65533 ∧
        (n < 6 ∨ 4 + 2 * s.jpg.ncomp.toNat < n ∨ n % 2 = 1)) ∧
      s.realigned.inPos.toNat + (lengthField n).length ≤ s.realigned.inLen.toNat ∧
        ∀ i : Nat, i < (lengthField n).length → s.realigned.byteIn i = byteAt (lengthField n) i := by decide +kernel
    exact fun n hn => ⟨(h n hn).1.1, (h n hn).1.2.1, (h n hn).1.2.2.1, (h n hn).1.2.2.2, reads_of (h n hn).2⟩
  · have h : ∀ e ∈ badScans, let s := beforeScan e.1 e.2
      (s.jpg.state ≠ .awaitHeader ∧ 6 ≤ e.2.length ∧ e.2.length ≤ 4 + 2 * s.jpg.ncomp.toNat ∧ e.2.length % 2 = 0) ∧
      s.realigned.inPos.toNat + (segmentBytes e.2).length ≤ s.realigned.inLen.toNat ∧
        ∀ i : Nat, i < (segmentBytes e.2).length → s.realigned.byteIn i = byteAt (segmentBytes e.2) i := by decide +kernel
    exact fun e he => ⟨(h e he).1.1, (h e he).1.2.1, (h e he).1.2.2.1, (h e he).1.2.2.2, reads_of (h e he).2⟩

/-- Every code of two codes has a zero. -/
theorem twoCodes_noCode (a b : Byte) : NoCode (twoCodes a b) (List.replicate 16 true) := by
  refine ⟨rfl, ?_⟩
  rintro v code ⟨l, j, ⟨h1, h2, h3, h4⟩, rfl⟩ hp
  have hc : ∀ l : Fin 17, (twoCodes 0 0).count l = if l.val = 1 ∨ l.val = 2 then 1 else 0 := by decide +kernel
  have hl : (twoCodes a b).count l = if l = 1 ∨ l = 2 then 1 else 0 := hc ⟨l, by omega⟩
  have hf : false ∈ bitsMsb l ((twoCodes a b).firstCode l + j) := by
    rw [twoCodes_firstCode]
    split at hl
    · rename_i e
      have hj : j = 0 := by omega
      subst hj
      rcases e with rfl | rfl <;> decide
    · omega
  exact absurd (List.eq_of_mem_replicate (hp.subset hf)) (by decide)

/-- Each of the faults inside a block (R291 to R297; 41_huffman.md R198). -/
theorem witness_JpegEntropyFaults_stops :
    let ones := List.replicate 16 true
    let ac : Byte → HuffSpec := twoCodes 0x00
    let c : Carry := ⟨fun _ => 0, 0⟩
    let z : Nat → Word := fun k => Cells.get oldCoef k
    BlockStops ⟨0, 63, 0, 0⟩ (twoCodes 3 0) (ac 0x13) z c ones .badHuffmanCode none ∧
    BlockStops ⟨0, 63, 0, 0⟩ (twoCodes 3 17) (ac 0x13) z c [true, false] .badMagnitudeCategory (some 17) ∧
    BlockStops ⟨0, 63, 0, 0⟩ (twoCodes 3 0) (ac 0xF0) z c ([false] ++ magnitudeBits 3 5 ++ ([true, false] ++ ones))
      .badHuffmanCode none ∧
    BlockStops ⟨1, 3, 0, 0⟩ (twoCodes 3 0) (ac 0x13) z c ([true, false] ++ magnitudeBits 3 5 ++ [true, false])
      .tooManyCoefficients (some (3 + 1)) ∧
    BlockStops ⟨1, 3, 1, 0⟩ (twoCodes 3 0) (ac 0x13) z c ones .badHuffmanCode none ∧
    BlockStops ⟨1, 3, 1, 0⟩ (twoCodes 3 0) (ac 0x13) z c [true, false] .badRefinementCode (some (16 * 1 + 3)) ∧
    BlockStops ⟨1, 3, 1, 0⟩ (twoCodes 3 0) (ac 0x21) z c ([true, false] ++ (true :: [true])) .tooManyCoefficients
      (some 4) ∧
    BlockStops ⟨1, 3, 1, 0⟩ (twoCodes 3 0) (ac 0xF0) z c ([true, false] ++ [true]) .tooManyCoefficients (some 4) ∧
    BlockStops ⟨1, 4, 1, 0⟩ (twoCodes 3 0) (ac 0x11) z c ([true, false] ++ (true :: [true]) ++ ones) .badHuffmanCode
      none ∧
    BlockStops ⟨1, 63, 1, 0⟩ (twoCodes 3 0) (ac 0xF0) z c ([true, false] ++ [true] ++ ones) .badHuffmanCode none := by
  have hz : ∀ k : Nat, 1 < k → Cells.get oldCoef k = 0 := fun k h => get_single (by omega)
  have walk : ∀ (se n zig : Nat), 1 < zig → zig + n ≤ se →
      WalkBits se 1 (fun k => Cells.get oldCoef k) zig (some n) [] (zig + n) [] := by
    intro se n
    induction n with
    | zero => exact fun zig h1 h2 => .stop h2 (hz zig h1)
    | succ n ih =>
      intro zig h1 h2
      have e : zig + (n + 1) = zig + 1 + n := by omega
      rw [e]
      exact .pass (by omega) (hz zig h1) (by simp) (ih (zig + 1) (by omega) (by omega))
  have out : ∀ n : Nat, 2 ≤ n →
      WalkBits 3 1 (fun k => Cells.get oldCoef k) 1 (some n) [true] 4 [(1, movedAway 4 1)] := fun n hn =>
    .move (by decide) (by decide +kernel) (.pass (by decide) (hz 2 (by decide)) (by intro h; cases h; omega)
      (.pass (by decide) (hz 3 (by decide)) (by intro h; simp at h; omega) (.past (by decide))))
  refine ⟨.inl ⟨twoCodes_noCode 3 0, rfl, rfl⟩, .inr (.inl ⟨17, by decide, by decide, twoCodes_second 3 17, rfl, rfl⟩),
    .inr (.inr ⟨3, 5, _, _, by decide, ⟨by decide, by decide⟩, twoCodes_first 3 0, rfl, rfl,
      .zrl (by decide) (twoCodes_second 0x00 0xF0) (.noCode (by decide) (twoCodes_noCode 0x00 0xF0))⟩),
    ⟨rfl, .pair (run := 1) (c := 3) (v := 5) (by decide) (by decide) (by decide) (by decide) ⟨by decide, by decide⟩
      (twoCodes_second 0x00 0x13)
      (.tooMany (run := 1) (c := 3) (by decide) (by decide) (by decide) (by decide) (by decide) (twoCodes_second 0x00 0x13))⟩,
    ⟨by decide, rfl, .noCode (by decide) (twoCodes_noCode 0x00 0x13)⟩,
    ⟨by decide, rfl, .size (run := 1) (c := 3) (by decide) (by decide) (by decide) (by decide) (twoCodes_second 0x00 0x13)⟩,
    ⟨by decide, rfl, .placeOut (run := 2) (by decide) (by decide) (twoCodes_second 0x00 0x21) (out 2 (by decide)) (by decide)⟩,
    ⟨by decide, rfl, .zrlOut (by decide) (twoCodes_second 0x00 0xF0) (out 15 (by decide)) (by decide)⟩,
    ⟨by decide, rfl, .place (run := 1) (w := 3) (by decide) (twoCodes_second 0x00 0x11)
      (.move (by decide) (by decide +kernel) (walk 4 1 2 (by decide) (by decide))) (by decide)
      (.noCode (by decide) (twoCodes_noCode 0x00 0x11))⟩,
    ⟨by decide, rfl, .zrl (w := 17) (twoCodes_second 0x00 0xF0)
      (.move (by decide) (by decide +kernel) (walk 63 15 2 (by decide) (by decide))) (by decide)
      (.noCode (by decide) (twoCodes_noCode 0x00 0xF0))⟩⟩

/-- A second block with no code, and one cut short, behind a good one. -/
theorem witness_JpegEntropyFaults :
    let v := scanOf 16 ⟨0, 63, 0, 0⟩ 0
    let p := v.header 0 63 0
    let ones := List.replicate 16 true
    let pad := List.replicate 6 false
    let s := scanState false 16 0x13 0 (segmentBytes p ++ stuffed (wholeBytes (codedBlock.bits ++ ones ++ pad)))
    let u := scanState false 16 0x13 0 (segmentBytes p ++ stuffed (wholeBytes (codedBlock.bits ++ codedBlock.bits.take 6)))
    (v.Startable s dcOf (acOf 0x13) ∧ s.status.fault = false ∧ s.jpg.progressive = false ∧
      (∀ c ∈ v.sel, s.qtLoaded (s.comp c.ci).tq.toNat = true) ∧ s.realigned.Reads (segmentBytes p) ∧
      BlocksBits v.par dcOf (acOf 0x13) (fun _ _ => 0) ((v.blocks 0).take 1) ⟨fun _ => 0, 0⟩ codedBlock.bits codedCarry
        codedBlock.zs ∧
      (v.blocks 0)[1]? = some (⟨0, 0, 3⟩, 1, 0) ∧
      BlockStops v.par (dcOf 0) (acOf 0x13 3) (fun _ => 0) codedCarry ones .badHuffmanCode none ∧
      (s.pastSegment p).pendingBits = codedBlock.bits ++ ones ++ pad) ∧
    (v.Startable u dcOf (acOf 0x13) ∧ u.realigned.Reads (segmentBytes p) ∧
      BlockBits v.par (dcOf 0) (acOf 0x13 3) 0 (fun _ => 0) codedCarry
        (codedBlock.bits.take 6 ++ codedBlock.bits.drop 6)
        ⟨fun i => if i = 0 then codedCarry.pred i + word 5 else codedCarry.pred i, 0⟩
        (updated (fun _ => 0) [(0, (codedCarry.pred 0 + word 5) <<< 0), (1 + 1, word 5 <<< 0)]) ∧
      codedBlock.bits.drop 6 ≠ [] ∧ (u.pastSegment p).pendingBits = codedBlock.bits ++ codedBlock.bits.take 6) :=
  ⟨⟨scan_startable false _ _ 0 _ (.inr rfl), rfl, rfl, by decide +kernel, reads_of (by decide +kernel),
      codedBlock_ok (⟨0, 0, 3⟩, 0, 0) rfl, by decide +kernel, .inl ⟨twoCodes_noCode 3 0, rfl, rfl⟩, by decide +kernel⟩,
    scan_startable false _ _ 0 _ (.inr rfl), reads_of (by decide +kernel), codedBlock_bits codedCarry rfl, by decide,
    by decide +kernel⟩

/-- RST1 where RST0 is due, and a refinement whose first size is 3. -/
theorem witness_JpegEntropyFaults_restart :
    (let v := scanOf 16 ⟨0, 63, 0, 0⟩ 1
      let p := v.header 0 63 0
      let pad := List.replicate 6 true
      let s := scanState false 16 0x13 1
        (segmentBytes p ++ stuffed (wholeBytes (codedBlock.bits ++ pad)) ++ [0xFF, 0xD1])
      v.Startable s dcOf (acOf 0x13) ∧ v.ri ≠ 0 ∧ v.ri < v.total ∧ (v.blocks 0).length ≤ 1 ∧ pad.length < 8 ∧
      (codedBlock.bits.length + pad.length) % 8 = 0 ∧ ¬ ((0xFF : Byte) = 0xFF ∧ (0xD1 : Byte) = 0xD0) ∧
      s.realigned.Reads (segmentBytes p ++ stuffed (wholeBytes (codedBlock.bits ++ pad)) ++ [0xFF, 0xD1])) ∧
    (let v := scanOf 8 ⟨1, 3, 1, 0⟩ 0
      let p := v.header 1 3 0x10
      let s := scanState true 8 0x13 0 (segmentBytes p ++ [0xBF])
      v.Startable s dcOf (acOf 0x13) ∧ s.jpg.progressive = true ∧ v.Progression ∧ s.realigned.Reads (segmentBytes p) ∧
      (v.blocks 0)[0]? = some (⟨0, 0, 3⟩, 0, 0) ∧
      BlockStops v.par (dcOf 0) (acOf 0x13 3) (fun k => Cells.get oldCoef k) ⟨fun _ => 0, 0⟩ [true, false]
        .badRefinementCode (some (16 * 1 + 3)) ∧
      (s.pastSegment p).pendingBits = [] ++ [true, false] ++ List.replicate 6 true) :=
  ⟨⟨scan_startable false _ _ 1 _ (.inr rfl), by decide, by decide +kernel, by decide +kernel, by decide, by decide,
      by decide, reads_of (by decide +kernel)⟩,
    scan_startable true _ _ 0 _ (.inl rfl), rfl, by unfold Scan.Progression; decide +kernel, reads_of (by decide +kernel),
    by decide +kernel, witness_JpegEntropyFaults_stops.2.2.2.2.2.1, by decide +kernel⟩

/-- R354: the bits that the statement gives the tile of the worked example. -/
theorem test_tileCode :
    let s := { image (List.replicate 64 0xFF3264C8) with arg0 := 50, pixDim := 0x00080008 }
    wholeBytes (s.tileCode 0 ++ List.replicate 7 true) = [0x6D, 0x79, 0x67, 0xB2, 0x7F] ∧
      [s.tileCoef 0 0 0, s.tileCoef 0 1 0, s.tileCoef 0 2 0] = [-2, -20, 25] := by decide +kernel

theorem witness_JpegEncode :
    let s := { image [0xFF0000FF, 0xFFFFFFFF] with arg0 := 1 }
    let w := s.pixDim.extractLsb' 0 16
    let h := s.pixDim.extractLsb' 16 16
    let bits := (List.range 1).flatMap s.tileCode
    1 ≤ s.arg0.toNat ∧ s.arg0.toNat ≤ 100 ∧ w ≠ 0 ∧ h ≠ 0 ∧ w.toNat * h.toNat ≤ s.caps.pixCap ∧
      (w.toNat + 7) / 8 * ((h.toNat + 7) / 8) = 1 ∧
      s.RoomFor (encodedHeader s.arg0.toNat w h ++
        stuffed (wholeBytes (bits ++ List.replicate ((8 - bits.length % 8) % 8) true)) ++ [0xFF, 0xD9]) := by
  unfold State.RoomFor
  decide +kernel

theorem witness_JpegEncodeGrey :
    ((0#32).toNat < 1 ∧ 100 < (101#32).toNat) ∧
    (let s := { State.reset with arg0 := 100 };
      1 ≤ s.arg0.toNat ∧ s.arg0.toNat ≤ 100 ∧ s.pixDim.extractLsb' 0 16 = 0) ∧
    (let s := { image [0, 0] with arg0 := 100, caps := { Config.unbounded with pixCap := 1 } };
      1 ≤ s.arg0.toNat ∧ s.arg0.toNat ≤ 100 ∧ s.pixDim.extractLsb' 0 16 ≠ 0 ∧ s.pixDim.extractLsb' 16 16 ≠ 0 ∧
      s.caps.pixCap < (s.pixDim.extractLsb' 0 16).toNat * (s.pixDim.extractLsb' 16 16).toNat) ∧
    (let s := { image [0x01808080, 0x00808080] with arg0 := 1 };
      let w := s.pixDim.extractLsb' 0 16;
      let h := s.pixDim.extractLsb' 16 16;
      1 ≤ s.arg0.toNat ∧ s.arg0.toNat ≤ 100 ∧ w ≠ 0 ∧ h ≠ 0 ∧ w.toNat * h.toNat ≤ s.caps.pixCap ∧
      (∀ i : Nat, i < w.toNat * h.toNat → (Cells.get s.mem.pix i).extractLsb' 0 24 = 0x808080#24) ∧
      s.outLen.toNat + (encodedHeader s.arg0.toNat w h ++ wholeBytes (greyTile ++ [true, true]) ++ [0xFF, 0xD9]).length ≤
        s.caps.outCap) := by decide +kernel

/-! ### LZW, octree -/

/-- Four indices to encode. -/
def lzwInput : State :=
  { State.reset with arg0 := 2, arg1 := 4, mem := { Memory.empty with idx := Cells.entriesFrom 0 [0, 1, 2, 3] } }

theorem witness_LzwRoundTrip :
    (2 ≤ lzwInput.arg0.toNat ∧ lzwInput.arg0.toNat ≤ 8 ∧ lzwInput.arg1.toNat ≤ lzwInput.caps.pixCap ∧
      (∀ i : Nat, i < lzwInput.arg1.toNat → (Cells.get lzwInput.mem.idx i).toNat < 2 ^ lzwInput.arg0.toNat) ∧
      lzwInput.mem.out.wf ∧ lzwInput.outLen.toNat + 2 * lzwInput.arg1.toNat + 16 ≤ lzwInput.caps.outCap ∧
      lzwInput.outLen.toNat + 2 * lzwInput.arg1.toNat + 16 < 2 ^ 32) ∧
    (let t := after .lzwEnc lzwInput;
      let r := withArgs 2 4 (feed (written t));
      r.arg0 = lzwInput.arg0 ∧ r.arg1 = lzwInput.arg1 ∧ r.arg1.toNat ≤ r.caps.pixCap ∧ r.lzd.pfx.wf ∧ r.lzd.sfx.wf ∧
      r.inPos.toNat + t.outLen.toNat ≤ r.inLen.toNat ∧
      ∀ i : Nat, i < t.outLen.toNat → r.byteIn i = Cells.get t.mem.out i) := by decide +kernel

/-- Clear, index 0, and the 10 bits after them: EndCode and padding. -/
theorem lzw_start (npix : Nat) (h : 0 < npix) :
    LzwCodes 2 npix ⟨[], none, []⟩ (bitsLsb 3 4 ++ (bitsLsb 3 0 ++ [])) ⟨[], some [0], [0]⟩ :=
  .cons h (by decide) (by decide) (by decide +kernel) (.cons h (by decide) (by decide) (by decide +kernel) .nil)

theorem witness_LzwDecode :
    (let rest := bitsLsb 3 5 ++ List.replicate 7 false
      let s := withArgs 2 4 (feed (chainBytes [[0x44, 0x01]]))
      2 ≤ s.arg0.toNat ∧ s.arg0.toNat ≤ 8 ∧ s.arg1.toNat ≤ s.caps.pixCap ∧ s.lzd.pfx.wf ∧ s.lzd.sfx.wf ∧
      ChainOk [[0x44, 0x01]] ∧
      [[(0x44 : Byte), 0x01]].flatten.flatMap (fun b => bitsLsb 8 b.toNat) = (bitsLsb 3 4 ++ (bitsLsb 3 0 ++ [])) ++ rest ∧
      LzwCodes 2 4 ⟨[], none, []⟩ (bitsLsb 3 4 ++ (bitsLsb 3 0 ++ [])) ⟨[], some [0], [0]⟩ ∧
      (⟨[], some [0], [0]⟩ : LzwRun).Ends 2 4 rest false ∧ (⟨[], some [0], [0]⟩ : LzwRun).Ends 2 1 rest false ∧
      s.Reads (chainBytes [[0x44, 0x01]])) ∧
    (let s := withArgs 8 4 (feed [0x00]);
      LzwCodes 8 4 ⟨[], none, []⟩ [] ⟨[], none, []⟩ ∧ (⟨[], none, []⟩ : LzwRun).Ends 8 4 [] true ∧
      s.Reads (chainBytes [])) ∧
    (let s := withArgs 2 4 (feed [0x02, 0x44, 0x01]);
      s.status.fault = false ∧ 3 < (chainBytes [[0x44, 0x01]]).length ∧ s.Reads ((chainBytes [[0x44, 0x01]]).take 3) ∧
      s.inPos.toNat + 3 = s.inLen.toNat) :=
  ⟨⟨by decide, by decide, by decide +kernel, by decide +kernel, by decide +kernel, by unfold ChainOk; decide +kernel,
      by decide +kernel, lzw_start 4 (by decide),
      .inr (.inl ⟨by decide, by decide +kernel, rfl⟩), .inl ⟨by decide, rfl⟩, reads_of (by decide +kernel)⟩,
    ⟨.nil, .inr (.inr ⟨by decide, by decide +kernel, rfl⟩), reads_of (by decide +kernel)⟩,
    rfl, by decide +kernel, reads_of (by decide +kernel), by decide +kernel⟩

/-- A first code that is no root, and a code beyond the entry being made. -/
theorem witness_LzwDecode_badCode :
    (let bits := bitsLsb 8 0x06
      let s := withArgs 2 4 (feed (chainBytes [[0x06]]))
      s.Reads (chainBytes [[0x06]]) ∧ s.status.fault = false ∧ [[(0x06 : Byte)]].flatten.flatMap (fun b => bitsLsb 8 b.toNat) = [] ++ bits ∧
      LzwCodes 2 4 ⟨[], none, []⟩ [] ⟨[], none, []⟩ ∧ ([] : List Byte).length < 4 ∧
      bitsLsb ((⟨[], none, []⟩ : LzwRun).width 2) 6 <+: bits ∧ 6 < 2 ^ (⟨[], none, []⟩ : LzwRun).width 2 ∧
      (⟨[], none, []⟩ : LzwRun).refuses 2 6 = true) ∧
    (let rest := bitsLsb 3 7 ++ List.replicate 7 false
      let r : LzwRun := ⟨[], some [0], [0]⟩
      let s := withArgs 2 4 (feed (chainBytes [[0xC4, 0x01]]))
      s.Reads (chainBytes [[0xC4, 0x01]]) ∧
      [[(0xC4 : Byte), 0x01]].flatten.flatMap (fun b => bitsLsb 8 b.toNat) = (bitsLsb 3 4 ++ (bitsLsb 3 0 ++ [])) ++ rest ∧
      LzwCodes 2 4 ⟨[], none, []⟩ (bitsLsb 3 4 ++ (bitsLsb 3 0 ++ [])) r ∧ r.out.length < 4 ∧
      bitsLsb (r.width 2) 7 <+: rest ∧ 7 < 2 ^ r.width 2 ∧ r.refuses 2 7 = true) :=
  ⟨⟨reads_of (by decide +kernel), rfl, by decide +kernel, .nil, by decide, by decide +kernel, by decide +kernel,
      by decide +kernel⟩,
    reads_of (by decide +kernel), by decide +kernel, lzw_start 4 (by decide), by decide, by decide +kernel,
    by decide +kernel, by decide +kernel⟩

theorem witness_LzwArguments :
    (let s := { lzwInput with caps := { Config.unbounded with pixCap := 3 } }; s.caps.pixCap < s.arg1.toNat) ∧
    (lzwInput.arg1.toNat ≤ lzwInput.caps.pixCap ∧ (1#32).toNat < 2 ∧ 8 < (9#32).toNat) ∧
    (let s := { lzwInput with mem := { Memory.empty with idx := [(3, 4)] } };
      s.arg1.toNat ≤ s.caps.pixCap ∧ 2 ≤ s.arg0.toNat ∧ s.arg0.toNat ≤ 8 ∧ 3 < s.arg1.toNat ∧
      2 ^ s.arg0.toNat ≤ (Cells.get s.mem.idx 3).toNat ∧
      ∀ j : Nat, j < 3 → (Cells.get s.mem.idx j).toNat < 2 ^ s.arg0.toNat) := by decide +kernel

theorem empty_ok : Octree.empty.Ok := ⟨trivial, rfl, rfl⟩

/-- A tree of one leaf at its root, as a reduction to one colour leaves it. -/
def rootLeaf : Octree :=
  ⟨.node ⟨2, 20, 30, 40, true, 0, some 0⟩ .none .none .none .none .none .none .none .none, 1, 1, true, true⟩

theorem rootLeaf_ok : rootLeaf.Ok := ⟨by simp [rootLeaf, OctTree.Ok], rfl, rfl⟩

/-- A tree with both kinds of node: the root above one leaf of colour 0. -/
def smallTree : Octree :=
  ⟨.node ⟨2, 20, 30, 40, false, 0, none⟩
    (.node ⟨2, 20, 30, 40, true, 1, none⟩ .none .none .none .none .none .none .none .none)
    .none .none .none .none .none .none .none, 2, 1, true, false⟩

theorem smallTree_ok : smallTree.Ok := ⟨by simp [smallTree, OctTree.Ok, OctTree.count], rfl, rfl⟩

/-- A state with a tree. -/
def withTree (o : Octree) : State := { State.reset with oct := o }

theorem witness_OctreeBuild :
    State.reset.opaquePixel 0x7FFFFFFF = false ∧
    (let s := { withTree smallTree with arg0 := 0x80000000 };
      s.opaquePixel s.arg0 = true ∧ s.oct.Ok ∧ s.oct.root.count.toNat + 1 < 2 ^ 32 ∧ s.oct.nodes + 9 ≤ s.caps.octNodeCap) ∧
    (let s := { image [0xFF0000FF, 0x00000000] with oct := smallTree };
      s.imageSize ≤ s.caps.pixCap ∧ s.oct.Ok ∧ s.oct.root.count.toNat + s.imageSize < 2 ^ 32 ∧
      s.oct.nodes + 9 * s.imageSize ≤ s.caps.octNodeCap ∧ s.opaquePixel (Cells.get s.mem.pix 0) = true ∧
      s.opaquePixel (Cells.get s.mem.pix 1) = false) :=
  ⟨by decide +kernel, ⟨by decide +kernel, smallTree_ok, by decide +kernel, by decide +kernel⟩,
    by decide +kernel, smallTree_ok, by decide +kernel, by decide +kernel, by decide +kernel, by decide +kernel⟩

/-- `s` with room for `n` nodes. -/
def withNodes (n : Nat) (s : State) : State := { s with caps := { s.caps with octNodeCap := n } }

theorem witness_OctreeBuild_nodes :
    (let s := { withTree smallTree with arg0 := 0x80000000 };
      s.oct.root.missing s.arg0 = 0 ∧ s.oct.nodes + s.oct.root.missing s.arg0 ≤ s.caps.octNodeCap) ∧
    (let s := { State.reset with arg0 := 0xFF123456 };
      s.opaquePixel s.arg0 = true ∧ s.oct.Ok ∧ s.oct.root.count.toNat + 1 < 2 ^ 32 ∧ s.oct.root.missing s.arg0 = 9 ∧
        s.oct.nodes + s.oct.root.missing s.arg0 ≤ s.caps.octNodeCap) ∧
    (let s := withNodes 8 { State.reset with arg0 := 0xFF123456 };
      s.oct.nodes ≤ s.caps.octNodeCap ∧ s.caps.octNodeCap < s.oct.nodes + s.oct.root.missing s.arg0) ∧
    (let s := withNodes 4 { withTree smallTree with arg0 := 0x80FFFFFF };
      s.opaquePixel s.arg0 = true ∧ s.oct.Ok ∧ s.oct.nodes ≤ s.caps.octNodeCap ∧ s.oct.root.missing s.arg0 = 8 ∧
        s.caps.octNodeCap < s.oct.nodes + s.oct.root.missing s.arg0) :=
  ⟨by decide +kernel, ⟨by decide +kernel, empty_ok, by decide +kernel, by decide +kernel, by decide +kernel⟩,
    by decide +kernel, by decide +kernel, smallTree_ok, by decide +kernel, by decide +kernel, by decide +kernel⟩

theorem witness_OctreeBuild_faults :
    (let root := OctTree.node ⟨0xFFFFFFFF, 0, 0, 0, true, 0, none⟩ .none .none .none .none .none .none .none .none
      let s := { withTree ⟨root, 1, 1, false, true⟩ with arg0 := 0xFF000000 }
      s.opaquePixel s.arg0 = true ∧ s.oct.root.count = 0xFFFFFFFF) ∧
    (let s := { image [0, 0] with caps := { Config.unbounded with pixCap := 1 } }; s.caps.pixCap < s.imageSize) ∧
    (let s := image [0xFF0000FF, 0x00000000];
      s.imageSize ≤ s.caps.pixCap ∧ s.status.fault = false ∧
        (s.addEach (Cells.getRange s.mem.pix 0 s.imageSize)).status.fault = false) ∧
    (let s := withNodes 16 (image [0xFF0000FF, 0xFFFFFFFF]);
      s.imageSize ≤ s.caps.pixCap ∧ s.status.fault = false ∧
        (s.addEach (Cells.getRange s.mem.pix 0 s.imageSize)).status.fault = true) := by decide +kernel

theorem witness_OctreePalette :
    (let s := { withTree smallTree with arg0 := 1 };
      1 ≤ s.arg0.toNat ∧ s.arg0.toNat ≤ 256 ∧ s.oct.Ok ∧ s.oct.LeafOf 0 ⟨2, 20, 30, 40, true, 1, none⟩) ∧
    ((0#32).toNat < 1 ∧ 256 < (257#32).toNat) ∧
    (let s := withTree smallTree; s.oct.Ok ∧ s.oct.leaves + 1 ≤ 256) ∧
    (withTree smallTree).oct.palOk = false ∧
    (let s := { withTree rootLeaf with transpIdx := 1 };
      s.oct.palOk = true ∧ s.opaquePixel s.arg0 = false ∧ s.transpIdx ≠ 0xFFFFFFFF) ∧
    (let s := withTree rootLeaf; s.oct.palOk = true ∧ s.opaquePixel s.arg0 = false ∧ s.transpIdx = 0xFFFFFFFF) ∧
    (let s := { withTree rootLeaf with arg0 := 0xFF000000 };
      s.oct.palOk = true ∧ s.opaquePixel s.arg0 = true ∧ s.oct.LeafOf s.arg0 ⟨2, 20, 30, 40, true, 0, some 0⟩) ∧
    (let s := { withTree { smallTree with palOk := true } with arg0 := 0xFFFFFFFF };
      s.oct.palOk = true ∧ s.opaquePixel s.arg0 = true ∧ OctTree.walk s.arg0 8 0 s.oct.root = .none) :=
  ⟨⟨by decide, by decide, smallTree_ok, rfl, by decide +kernel⟩, by decide, ⟨smallTree_ok, by decide +kernel⟩, rfl,
    by decide +kernel, by decide +kernel, ⟨rfl, by decide +kernel, rfl, by decide +kernel⟩, by decide +kernel⟩

/-- A root above two leaves. -/
def twoLeaves : OctTree :=
  .node ⟨3, 20, 30, 40, false, 0, none⟩
    (.node ⟨2, 20, 30, 40, true, 1, none⟩ .none .none .none .none .none .none .none .none)
    (.node ⟨1, 0, 0, 0, true, 1, none⟩ .none .none .none .none .none .none .none .none)
    .none .none .none .none .none .none

theorem dataAt_none (path : List (BitVec 3)) : OctTree.none.dataAt path = none := by
  induction path with
  | nil => rfl
  | cons i path ih => exact ih

theorem twoLeaves_interior {path : List (BitVec 3)} {d : OctData} (h : twoLeaves.dataAt path = some d)
    (hd : d.leaf = false) : path = [] := by
  match path with
  | [] => rfl
  | i :: rest =>
    have hc : ∀ i j : BitVec 3, ((twoLeaves.child i).child j).isNone = true := by decide +kernel
    have hl : ∀ i : BitVec 3, (twoLeaves.child i).isNone = true ∨ (twoLeaves.child i).isLeaf = true := by decide +kernel
    exfalso
    change (twoLeaves.child i).dataAt rest = some d at h
    match rest with
    | [] =>
      have h2 := hl i
      cases e : twoLeaves.child i with
      | none => rw [e] at h; cases h
      | node d' _ _ _ _ _ _ _ _ =>
        rw [e] at h h2
        cases h
        simp [OctTree.isNone, OctTree.isLeaf, hd] at h2
    | j :: rest =>
      change ((twoLeaves.child i).child j).dataAt rest = some d at h
      have h2 := hc i j
      cases e : (twoLeaves.child i).child j with
      | none => rw [e, dataAt_none] at h; cases h
      | node _ _ _ _ _ _ _ _ _ => rw [e] at h2; cases h2

theorem witness_OctreePalette_reduce :
    let s := { withTree ⟨twoLeaves, 3, 2, false, true⟩ with arg0 := 1 }
    1 ≤ s.arg0.toNat ∧ s.arg0.toNat ≤ 256 ∧ s.oct.Ok ∧ s.arg0.toNat < s.oct.leaves ∧
      s.oct.root.NextMerge [] ⟨3, 20, 30, 40, false, 0, none⟩ :=
  ⟨by decide, by decide, ⟨by simp [withTree, twoLeaves, OctTree.Ok, OctTree.count], rfl, rfl⟩, by decide, rfl, rfl,
    fun path d h hd => by
      have e := twoLeaves_interior h hd
      subst e
      cases h
      exact ⟨Nat.le_refl _, fun _ => .inr ⟨rfl, Nat.le_refl _⟩⟩⟩

/-- Every path of `n` levels below depth `d`, one pixel each. -/
def fullTree : Nat → Nat → OctTree
  | 0, d => .node ⟨1, 0, 0, 0, true, Fin.ofNat 9 d, none⟩ .none .none .none .none .none .none .none .none
  | n + 1, d =>
    let t := fullTree n (d + 1)
    .node ⟨BitVec.ofNat 32 (8 ^ (n + 1)), 0, 0, 0, false, Fin.ofNat 9 d, none⟩ t t t t t t t t

/-- A tree of 256 leaves at depth 3, after a transparent pixel. -/
def tree256 : Octree :=
  let t := fullTree 2 1
  ⟨.node ⟨256, 0, 0, 0, false, 0, none⟩ t t t t .none .none .none .none, 293, 256, true, false⟩

theorem tree256_ok : tree256.Ok :=
  ⟨by simp [tree256, fullTree, OctTree.Ok, OctTree.count], by decide +kernel, by decide +kernel⟩

theorem witness_OctreePalette_full :
    let s := withTree tree256
    s.oct.Ok ∧ 256 < s.oct.leaves + (if s.oct.anyT = true then 1 else 0) := ⟨tree256_ok, by decide +kernel⟩

/-- An opaque and a transparent pixel. -/
def twoPixels : State := { image [0xFF0000FF, 0x00000000] with arg0 := 2 }

theorem witness_OctreeQuantize :
    (1 ≤ twoPixels.arg0.toNat ∧ twoPixels.arg0.toNat ≤ 256 ∧ twoPixels.imageSize ≤ twoPixels.caps.pixCap ∧
      9 * twoPixels.imageSize ≤ twoPixels.caps.octNodeCap ∧ twoPixels.mem.idx.wf ∧ twoPixels.arg0 ≠ 1) ∧
    (∃ i, i < twoPixels.imageSize ∧ twoPixels.opaquePixel (Cells.get twoPixels.mem.pix i) = false) ∧
    ([0x0000FF#24].length + 1 ≤ twoPixels.arg0.toNat ∧
      ∀ i : Nat, i < twoPixels.imageSize → twoPixels.opaquePixel (Cells.get twoPixels.mem.pix i) = true →
        (Cells.get twoPixels.mem.pix i).extractLsb' 0 24 ∈ [0x0000FF#24]) :=
  ⟨by decide +kernel, ⟨1, by decide +kernel⟩, by decide +kernel⟩

/-- What one black pixel makes of the empty tree: nine nodes, from depth `8 - n` on. -/
def blackTree : Nat → OctTree
  | 0 => .node ⟨1, 0, 0, 0, true, 8, none⟩ .none .none .none .none .none .none .none .none
  | n + 1 => .node ⟨1, 0, 0, 0, false, Fin.ofNat 9 (7 - n), none⟩ (blackTree n) .none .none .none .none .none .none .none

theorem blackTree_ok : (⟨blackTree 8, 9, 1, false, false⟩ : Octree).Ok :=
  ⟨by simp [blackTree, OctTree.Ok, OctTree.count], by decide +kernel, by decide +kernel⟩

theorem witness_OctreeQuantize_faults :
    ((0#32).toNat < 1 ∧ 256 < (257#32).toNat) ∧
    (let s := { twoPixels with caps := { Config.unbounded with pixCap := 1 } };
      1 ≤ s.arg0.toNat ∧ s.arg0.toNat ≤ 256 ∧ s.caps.pixCap < s.imageSize) ∧
    (let s := withNodes 8 twoPixels
      let a := after .octReset s
      1 ≤ s.arg0.toNat ∧ s.arg0.toNat ≤ 256 ∧ s.imageSize ≤ s.caps.pixCap ∧ s.status.fault = false ∧
      exec .octReset s = .next a ∧ exec .octBuild a = .next (after .octBuild a) ∧
        (after .octBuild a).status.fault = true) ∧
    (let s := { twoPixels with arg0 := 1 }
      let a := after .octReset s
      exec .octReset s = .next a ∧ exec .octBuild a = .next (after .octBuild a) ∧
        (after .octBuild a).status.fault = false ∧ (after .octBuild a).oct.anyT = true ∧
        (after .octBuild a).oct.root ≠ .none) :=
  ⟨by decide, by decide +kernel,
    ⟨by decide +kernel, by decide +kernel, by decide +kernel, rfl, exec_after (by decide +kernel),
      exec_after (by decide +kernel), by decide +kernel⟩,
    exec_after (by decide +kernel), exec_after (by decide +kernel), by decide +kernel⟩

theorem witness_OctreeQuantize_steps :
    (let s := { image [0x00000000] with arg0 := 1 }
      let a := after .octReset s
      let b := after .octBuild a
      exec .octReset s = .next a ∧ exec .octBuild a = .next b ∧ b.status.fault = false ∧
        ¬ (s.arg0 = 1 ∧ b.oct.anyT = true ∧ b.oct.root ≠ .none) ∧ b.oct.root = .none ∧ b.oct.Ok ∧ s.mem.idx.wf) ∧
    (let s := { image [0xFF000000] with arg0 := 1 }
      let a := after .octReset s
      let b := after .octBuild a
      exec .octReset s = .next a ∧ exec .octBuild a = .next b ∧ b.status.fault = false ∧
        ¬ (s.arg0 = 1 ∧ b.oct.anyT = true ∧ b.oct.root ≠ .none) ∧ b.oct.root ≠ .none ∧ b.oct.Ok ∧ s.mem.idx.wf) :=
  have e0 : (after .octBuild (after .octReset { image [0x00000000] with arg0 := 1 })).oct =
      ⟨.none, 0, 0, true, false⟩ := by decide +kernel
  have e1 : (after .octBuild (after .octReset { image [0xFF000000] with arg0 := 1 })).oct =
      ⟨blackTree 8, 9, 1, false, false⟩ := by decide +kernel
  ⟨⟨exec_after (by decide +kernel), exec_after (by decide +kernel), by decide +kernel, by decide +kernel,
      by decide +kernel, by rw [e0]; exact ⟨trivial, rfl, rfl⟩, by decide +kernel⟩,
    exec_after (by decide +kernel), exec_after (by decide +kernel), by decide +kernel, by decide +kernel,
    by decide +kernel, by rw [e1]; exact blackTree_ok, by decide +kernel⟩

theorem witness_StepKeepsOctree :
    let s := facing [.write 0 0x71000000] { withTree smallTree with arg0 := 0xFF000000 }
    s.oct.Ok ∧ step s = .next (stepped s) ∧ (stepped s).status.fault = false :=
  ⟨smallTree_ok, step_after (by decide +kernel), by decide +kernel⟩

/-! ### GIF -/

theorem witness_GifHeader :
    (let s := feed [0x47, 0x49, 0x46, 0x38, 0x39, 0x61];
      s.gif.state = .awaitHeader ∧ s.Reads [0x47, 0x49, 0x46, 0x38, 0x39, 0x61]) ∧
    (let s := feed [0x47, 0x49, 0x46, 0x38, 0x37, 0x61];
      s.gif.state = .awaitHeader ∧ s.Reads [0x47, 0x49, 0x46, 0x38, 0x37, 0x61]) ∧
    (let tbl : List Byte := [1, 2, 3, 4, 5, 6]
      let s := feed (le16 2 ++ le16 3 ++ [0x80, 0, 0] ++ tbl)
      s.gif.state = .awaitHeader ∧ (2#16) ≠ 0 ∧ (3#16) ≠ 0 ∧ (2#16).toNat * (3#16).toNat ≤ s.caps.pixCap ∧
      tbl.length = tableBytes 0x80 ∧ s.Reads (le16 2 ++ le16 3 ++ [0x80, 0, 0] ++ tbl)) :=
  ⟨⟨rfl, reads_of (by decide +kernel)⟩, ⟨rfl, reads_of (by decide +kernel)⟩,
    rfl, by decide, by decide, by decide +kernel, by decide, reads_of (by decide +kernel)⟩

theorem witness_GifSections :
    ((sections (feed [0x2C])).gif.state = .sections ∧ (sections (feed [0x2C])).Reads [0x2C] ∧
      (sections (feed [0x21, 0xF9])).Reads [0x21, 0xF9] ∧ (sections (feed [0x3B])).Reads [0x3B] ∧
      (sections (feed [0x3A])).Reads [0x3A] ∧ (0x3A : Byte) ≠ 0x3B) ∧
    (let s := sections (feed ([0x04, 0x0D] ++ le16 20 ++ [5, 0x00]));
      s.gif.state = .sections ∧ s.Reads ([0x04, 0x0D] ++ le16 20 ++ [5, 0x00])) ∧
    (let bs : List (List Byte) := [List.replicate 255 7, [8]]
      let s := sections (feed (chainBytes bs))
      s.gif.state = .sections ∧ ChainOk bs ∧ s.Reads (chainBytes bs)) :=
  ⟨⟨rfl, reads_of (by decide +kernel), reads_of (by decide +kernel), reads_of (by decide +kernel),
      reads_of (by decide +kernel), by decide⟩,
    ⟨rfl, reads_of (by decide +kernel)⟩, rfl, by unfold ChainOk; decide +kernel, reads_of (by decide +kernel)⟩

theorem witness_GifHeader_faults :
    (sections (feed [])).gif.state ≠ .awaitHeader ∧
    (let s := feed [0x47, 0x49, 0x46, 0x38, 0x39]; s.gif.state = .awaitHeader ∧ s.inLen.toNat < s.inPos.toNat + 6) ∧
    (let s := feed (List.replicate 6 0); s.gif.state = .awaitHeader ∧ s.inLen.toNat < s.inPos.toNat + 7) ∧
    (let s := feed (le16 0 ++ le16 3 ++ [0, 0, 0]);
      s.gif.state = .awaitHeader ∧ s.Reads (le16 0 ++ le16 3 ++ [0, 0, 0])) ∧
    (let s := { feed (le16 2 ++ le16 3 ++ [0x80, 0, 0]) with caps := { Config.unbounded with pixCap := 5 } };
      s.gif.state = .awaitHeader ∧ s.Reads (le16 2 ++ le16 3 ++ [0x80, 0, 0]) ∧ (2#16) ≠ 0 ∧ (3#16) ≠ 0 ∧
        s.caps.pixCap < (2#16).toNat * (3#16).toNat) ∧
    (let s := feed (le16 2 ++ le16 3 ++ [0x80, 0, 0] ++ List.replicate 5 0);
      s.gif.state = .awaitHeader ∧ s.Reads (le16 2 ++ le16 3 ++ [0x80, 0, 0]) ∧
        (2#16).toNat * (3#16).toNat ≤ s.caps.pixCap ∧ s.inLen.toNat < s.inPos.toNat + 7 + tableBytes 0x80) :=
  ⟨by decide +kernel, by decide +kernel, by decide +kernel, ⟨rfl, reads_of (by decide +kernel)⟩,
    ⟨rfl, reads_of (by decide +kernel), by decide, by decide, by decide +kernel⟩,
    rfl, reads_of (by decide +kernel), by decide +kernel, by decide +kernel⟩

theorem witness_GifSections_faults :
    (State.reset.gif.state ≠ .sections ∧ isSection .gifTrailer = true ∧ isSection (.gifExtOther 7) = true) ∧
    (let s := sections (feed []); s.gif.state = .sections ∧ s.inLen.toNat < s.inPos.toNat + 1) ∧
    (let s := sections (feed [0x21]); s.gif.state = .sections ∧ s.Reads [0x21] ∧ s.inLen.toNat < s.inPos.toNat + 2) ∧
    (let s := sections (feed [4, 0, 0, 0, 0]); s.gif.state = .sections ∧ s.inLen.toNat < s.inPos.toNat + 6) ∧
    (let s := sections (feed [3, 0, 0, 0, 0, 0]);
      s.gif.state = .sections ∧ s.Reads [3, 0, 0, 0, 0, 0] ∧ byteAt [3, 0, 0, 0, 0, 0] 0 ≠ 4) ∧
    (let s := sections (feed [4, 0, 0, 0, 0, 1]);
      s.gif.state = .sections ∧ s.Reads [4, 0, 0, 0, 0, 1] ∧ byteAt [4, 0, 0, 0, 0, 1] 0 = 4 ∧
        byteAt [4, 0, 0, 0, 0, 1] 5 ≠ 0) ∧
    (let s := sections (feed [2, 7]);
      s.gif.state = .sections ∧ ChainOk [[7, 8]] ∧ 2 < (chainBytes [[7, 8]]).length ∧
        s.Reads ((chainBytes [[7, 8]]).take 2) ∧ s.inPos.toNat + 2 = s.inLen.toNat) :=
  ⟨by decide +kernel, by decide +kernel, ⟨rfl, reads_of (by decide +kernel), by decide +kernel⟩, by decide +kernel,
    ⟨rfl, reads_of (by decide +kernel), by decide⟩, ⟨rfl, reads_of (by decide +kernel), by decide, by decide⟩,
    rfl, by unfold ChainOk; decide +kernel, by decide +kernel, reads_of (by decide +kernel), by decide +kernel⟩

theorem witness_GifSections_image :
    (let s := sections (feed (List.replicate 8 0)); s.gif.state = .sections ∧ s.inLen.toNat < s.inPos.toNat + 9) ∧
    (let d : ImageDesc := ⟨0, 0, 2, 2, 0x80⟩
      let s := sections (feed (d.bytes ++ List.replicate 5 0))
      s.gif.state = .sections ∧ s.Reads d.bytes ∧ s.inLen.toNat < s.inPos.toNat + 9 + tableBytes d.packed) ∧
    (let d : ImageDesc := ⟨0, 0, 2, 2, 0x00⟩
      let s : State := { feed d.bytes with gif := { GifCtx.init with state := .sections, screenW := 2, screenH := 2 } }
      s.gif.state = .sections ∧ s.Reads d.bytes ∧ d.packed.getLsbD 7 = false ∧ s.gif.packed.getLsbD 7 = false) ∧
    (let d : ImageDesc := ⟨1, 0, 2, 2, 0x80⟩
      let tbl : List Byte := [1, 2, 3, 4, 5, 6]
      let s := sections (feed (d.bytes ++ tbl))
      s.gif.state = .sections ∧ tbl.length = tableBytes d.packed ∧ s.Reads (d.bytes ++ tbl) ∧
        d.packed.getLsbD 7 = true ∧ s.gif.screenW.toNat < d.left.toNat + d.w.toNat) ∧
    (let d : ImageDesc := ⟨0, 0, 2, 2, 0x00⟩
      let s := sections (feed d.bytes)
      s.gif.state = .sections ∧ ([] : List Byte).length = tableBytes d.packed ∧ s.Reads (d.bytes ++ []) ∧
        s.gif.packed.getLsbD 7 = true ∧
        ¬ (d.w = 0 ∨ d.h = 0 ∨ s.gif.screenW.toNat < d.left.toNat + d.w.toNat ∨
          s.gif.screenH.toNat < d.top.toNat + d.h.toNat) ∧ s.inLen.toNat < s.inPos.toNat + 10 + 0) :=
  ⟨by decide +kernel, ⟨rfl, reads_of (by decide +kernel), by decide +kernel⟩,
    ⟨rfl, reads_of (by decide +kernel), by decide, by decide +kernel⟩,
    ⟨rfl, by decide, reads_of (by decide +kernel), by decide, by decide +kernel⟩,
    rfl, by decide, reads_of (by decide +kernel), by decide +kernel, by decide +kernel, by decide +kernel⟩

theorem witness_GifDecodeIteratesStep :
    (let s := sections (feed [0x3B]);
      s.status.fault = false ∧ s.gif.state = .sections ∧ exec .gifStep s = .next (after .gifStep s) ∧
        (after .gifStep s).status.fault = false ∧ (after .gifStep s).gif.state = .done ∧ s.Reads [0x3B]) ∧
    (let s := sections (feed [0x21, 0xFE, 0x00, 0x3B]);
      exec .gifStep s = .next (after .gifStep s) ∧ (after .gifStep s).status.fault = false ∧
        (after .gifStep s).gif.state = .sections) ∧
    (let s := sections (feed [0x99]);
      exec .gifStep s = .next (after .gifStep s) ∧ (after .gifStep s).status.fault = true) ∧
    (let s := feed ([0x47, 0x49, 0x46, 0x38, 0x39, 0x61] ++ le16 1 ++ le16 1 ++ [0, 0, 0]);
      s.status.fault = false ∧ s.gif.state = .awaitHeader ∧ exec .gifHeader s = .next (after .gifHeader s) ∧
        (after .gifHeader s).status.fault = false) ∧
    (exec .gifHeader State.reset = .next (after .gifHeader State.reset) ∧
      (after .gifHeader State.reset).status.fault = true) :=
  ⟨⟨rfl, rfl, exec_after (by decide +kernel), by decide +kernel, by decide +kernel, reads_of (by decide +kernel)⟩,
    ⟨exec_after (by decide +kernel), by decide +kernel, by decide +kernel⟩,
    ⟨exec_after (by decide +kernel), by decide +kernel⟩,
    ⟨rfl, rfl, exec_after (by decide +kernel), by decide +kernel⟩,
    exec_after (by decide +kernel), by decide +kernel⟩

/-- The image of Scenario A (R451), from its descriptor on. -/
def imageA : ImageDesc := ⟨0, 0, 2, 2, 0x00⟩

/-- Its bytes with its data. -/
def gifA : State := sections (feed (imageA.bytes ++ [0x02, 0x03, 0x44, 0x34, 0x05, 0x00]))

theorem witness_GifImage :
    (gifA.gif.state = .sections ∧ gifA.status.fault = false ∧ gifA.mem.wf ∧ ([] : List Byte).length = tableBytes imageA.packed ∧
      gifA.gif.packed.getLsbD 7 = true ∧ imageA.w ≠ 0 ∧ imageA.h ≠ 0 ∧
      imageA.left.toNat + imageA.w.toNat ≤ gifA.gif.screenW.toNat ∧
      imageA.top.toNat + imageA.h.toNat ≤ gifA.gif.screenH.toNat ∧
      gifA.gif.screenW.toNat * gifA.gif.screenH.toNat ≤ gifA.caps.pixCap) ∧
    gifA.Reads (imageA.bytes ++ [] ++ [0x02]) ∧
    (let s : State := { gifA with inPos := gifA.inPos + wordN (10 + 0), arg0 := (0x02 : Byte).setWidth 32, arg1 := wordN 4 };
      exec .lzwDec s = .next (after .lzwDec s) ∧ (after .lzwDec s).status.fault = false ∧
        ∀ k : Nat, k < 4 → (Cells.get (after .lzwDec s).mem.idx k).toNat < 2 ^ ((gifA.gif.packed.extractLsb' 0 3).toNat + 1)) ∧
    (let s := sections (feed (imageA.bytes ++ [] ++ [0x08, 0x00]));
      2 ≤ (0x08 : Byte).toNat ∧ (0x08 : Byte).toNat ≤ 8 ∧ s.Reads (imageA.bytes ++ [] ++ [0x08, 0x00])) :=
  ⟨⟨rfl, rfl, by decide +kernel, by decide +kernel⟩, reads_of (by decide +kernel),
    ⟨exec_after (by decide +kernel), by decide +kernel, by decide +kernel⟩, by decide, by decide,
    reads_of (by decide +kernel)⟩

theorem witness_GifImage_faults :
    (let s : State := { gifA with gif := { gifA.gif with packed := 0x80 } }
      let u : State := { s with inPos := s.inPos + wordN (10 + 0), arg0 := (0x02 : Byte).setWidth 32, arg1 := wordN 4 }
      let r := after .lzwDec u
      s.gif.state = .sections ∧ s.gif.packed.getLsbD 7 = true ∧ s.Reads (imageA.bytes ++ [] ++ [0x02]) ∧
      exec .lzwDec u = .next r ∧ r.status.fault = false ∧ 2 < 4 ∧ s.badIndex imageA (Cells.get r.mem.idx 2) = true ∧
      ∀ j : Nat, j < 2 → s.badIndex imageA (Cells.get r.mem.idx j) = false) ∧
    (let s := sections (feed (imageA.bytes ++ [] ++ [0x09]))
      let u : State := { s with inPos := s.inPos + wordN (10 + 0), arg0 := (0x09 : Byte).setWidth 32, arg1 := wordN 4 }
      s.gif.state = .sections ∧ s.mem.wf ∧ s.Reads (imageA.bytes ++ [] ++ [0x09]) ∧
      exec .lzwDec u = .next (after .lzwDec u) ∧ (after .lzwDec u).status.fault = true) :=
  ⟨⟨rfl, by decide, reads_of (by decide +kernel), exec_after (by decide +kernel), by decide +kernel, by decide,
      by decide +kernel, by decide +kernel⟩,
    rfl, by decide +kernel, reads_of (by decide +kernel), exec_after (by decide +kernel), by decide +kernel⟩

/-- An encode is open. -/
def opened (s : State) : State := { s with genc := { s.genc with opened := true } }

theorem witness_GifEncodeEnds :
    (let s := { State.reset with arg0 := 1, arg1 := 65535, pixDim := 0x00010001 };
      s.genc.opened = false ∧ s.arg0.toNat ≤ 3 ∧ s.arg1.toNat ≤ 65535 ∧ s.pixDim.extractLsb' 0 16 ≠ 0 ∧
      s.pixDim.extractLsb' 16 16 ≠ 0 ∧ s.outLen.toNat + 32 ≤ s.caps.outCap) ∧
    (let s := { State.reset with arg0 := 3, arg1 := 65535, pixDim := 0x00010000 };
      s.genc.opened = false ∧ s.arg0.toNat ≤ 3 ∧ s.arg1.toNat ≤ 65535 ∧ s.pixDim.extractLsb' 0 16 = 0) ∧
    ((opened State.reset).genc.opened = true ∧ 3 < (4#32).toNat ∧ 65535 < (65536#32).toNat) ∧
    (opened State.reset).RoomFor [0x3B] :=
  ⟨by decide +kernel, by decide +kernel, by decide +kernel, by unfold State.RoomFor; decide +kernel⟩

theorem witness_GifEncodeFrame :
    let s := { opened (image [0xFF0000FF, 0xFF00FF00]) with arg0 := 2, arg1 := 65535, arg2 := 7 }
    (s.genc.opened = true ∧ s.arg1.toNat ≤ 65535 ∧ s.arg2.toNat ≤ 7 ∧ s.status.fault = false ∧
      s.pixDim.extractLsb' 0 16 ≠ 0 ∧ s.pixDim.extractLsb' 16 16 ≠ 0 ∧ s.mem.wf ∧ 1 ≤ s.arg0.toNat ∧
      s.arg0.toNat ≤ 256 ∧ s.imageSize ≤ s.caps.pixCap ∧ 9 * s.imageSize ≤ s.caps.octNodeCap ∧ s.arg0 ≠ 1) ∧
    s.outLen.toNat + 2 * s.imageSize + 1000 ≤ s.caps.outCap ∧ s.outLen.toNat + 2 * s.imageSize + 1000 < 2 ^ 32 :=
  ⟨⟨rfl, by decide, by decide, rfl, by decide, by decide, by decide +kernel, by decide, by decide, by decide +kernel,
    by decide +kernel, by decide⟩, by decide +kernel⟩

theorem witness_GifEncodeFrame_faults :
    ((opened State.reset).genc.opened = true ∧ 65535 < (65536#32).toNat ∧ 7 < (8#32).toNat ∧
      (opened State.reset).pixDim.extractLsb' 0 16 = 0) ∧
    (let s := { withNodes 8 (opened (image [0xFF0000FF])) with arg0 := 2 };
      s.genc.opened = true ∧ s.arg1.toNat ≤ 65535 ∧ s.arg2.toNat ≤ 7 ∧ s.pixDim.extractLsb' 0 16 ≠ 0 ∧
      s.pixDim.extractLsb' 16 16 ≠ 0 ∧ s.status.fault = false ∧
      exec .octQuantize s = .next (after .octQuantize s) ∧ (after .octQuantize s).status.fault = true) :=
  ⟨by decide +kernel, rfl, by decide, by decide, by decide, by decide, rfl, exec_after (by decide +kernel),
    by decide +kernel⟩

end Sys2Proof.Tests
end

