-- ==== Sys2Proof/Proofs/OutCapacity.lean ====
section
/-! PROOFS. A command that only appends to OUT does with a smaller OUT what it does with a larger one as long as its
bytes fit, and otherwise fills OUT and raises (00_scope.md R8, 20_memory.md R82). `Exec.Appends` says so of a piece of
pseudocode; it has one rule per combinator, and one lemma per shared operation of the nine commands. -/

namespace Sys2Proof.Machine

open Sys2Proof

/-- A single write leaves every other element as it reads. -/
theorem Cells.get_set_of_ne {w : Nat} (c : Cells w) {a b : Nat} (v : BitVec w) (h : b ≠ a) :
    Cells.get (Cells.set c a v) b = Cells.get c b := by
  induction c with
  | nil => unfold Cells.set; split <;> simp [Cells.get, h.symm]
  | cons p c ih =>
    obtain ⟨k, u⟩ := p
    unfold Cells.set
    split_ifs with hlt hv hk hv
    · rfl
    · rw [Cells.get_cons, if_neg h.symm]
    · rw [Cells.get_cons, if_neg (hk ▸ h.symm)]
    · rw [Cells.get_cons, if_neg h.symm, Cells.get_cons, if_neg (hk ▸ h.symm)]
    · rw [Cells.get_cons, Cells.get_cons, ih]

/-! ## A state with another capacity of OUT -/

/-- `s` with `cap` bytes of OUT. -/
def State.withOutCap (s : State) (cap : Nat) : State := { s with caps := { s.caps with outCap := cap } }

section
variable (s : State) (c d : Nat)

@[simp] theorem State.withOutCap_caps : (s.withOutCap c).caps = { s.caps with outCap := c } := rfl
@[simp] theorem State.withOutCap_outLen : (s.withOutCap c).outLen = s.outLen := rfl
@[simp] theorem State.withOutCap_mem : (s.withOutCap c).mem = s.mem := rfl
@[simp] theorem State.withOutCap_status : (s.withOutCap c).status = s.status := rfl
@[simp] theorem State.withOutCap_twice : (s.withOutCap c).withOutCap d = s.withOutCap d := rfl
@[simp] theorem State.withOutCap_same : s.withOutCap s.caps.outCap = s := rfl

end

/-! ## Appending to OUT -/

/-- From `s` to `t` OUT was appended to, within its capacity; no capacity and no FAULT flag changed. -/
structure State.GrewTo (s t : State) : Prop where
  caps : t.caps = s.caps
  fault : t.status.fault = s.status.fault
  mono : s.outLen.toNat ≤ t.outLen.toNat
  fits : t.outLen.toNat ≤ t.caps.outCap
  kept : ∀ a : Nat, a < s.outLen.toNat → Cells.get t.mem.out a = Cells.get s.mem.out a

theorem State.GrewTo.trans {s t u : State} (h : s.GrewTo t) (h' : t.GrewTo u) : s.GrewTo u where
  caps := h'.caps.trans h.caps
  fault := h'.fault.trans h.fault
  mono := h.mono.trans h'.mono
  fits := h'.fits
  kept a ha := (h'.kept a (ha.trans_le h.mono)).trans (h.kept a ha)

/-- `u` is a state whose OUT is full of exactly the first bytes of the OUT of `t`, no fault entered since `s`. -/
structure State.FullOf (s t u : State) : Prop where
  fault : u.status.fault = s.status.fault
  full : u.outLen.toNat = s.caps.outCap
  bytes : ∀ a : Nat, a < s.caps.outCap → Cells.get u.mem.out a = Cells.get t.mem.out a

namespace Exec

/-- `m` only appends to OUT: where it completes with `cap` bytes of OUT, it does the same with fewer if its bytes fit,
and otherwise it raises CapacityExceeded(1) with OUT full of the first of them. -/
def Appends {α : Type} (m : Exec α) : Prop :=
  ∀ (s t : State) (cap : Nat) (a : α), s.outLen.toNat ≤ s.caps.outCap → s.caps.outCap ≤ cap → cap < 2 ^ 32 →
    m (s.withOutCap cap) = .ok a t →
    (s.withOutCap cap).GrewTo t ∧
    (t.outLen.toNat ≤ s.caps.outCap → m s = .ok a (t.withOutCap s.caps.outCap)) ∧
    (s.caps.outCap < t.outLen.toNat → ∃ u, m s = .error ⟨.capacityExceeded, 1⟩ u ∧ s.FullOf t u)

/-- A change of the state that neither looks at the capacity of OUT nor touches OUT, a capacity or FAULT. -/
structure OutBlind (f : State → State) : Prop where
  comm : ∀ s c, f (s.withOutCap c) = (f s).withOutCap c
  frame : ∀ s, (f s).outLen = s.outLen ∧ (f s).mem.out = s.mem.out ∧ (f s).caps = s.caps ∧
    (f s).status.fault = s.status.fault

section
variable {α β : Type} {m : Exec α}

/-- Pseudocode that changes the state by an `OutBlind` function where it completes with a larger OUT, and then does so
with a smaller one. -/
theorem appends_of_blind {f : State → State} (hf : OutBlind f)
    (h : ∀ s c a t, m (s.withOutCap c) = .ok a t → t = f (s.withOutCap c) ∧ m s = .ok a (f s)) : Appends m := by
  intro s t cap a hlen hcap _ hm
  obtain ⟨rfl, hs⟩ := h s cap a t hm
  obtain ⟨hl, ho, hc, hft⟩ := hf.frame (s.withOutCap cap)
  refine ⟨⟨hc, hft, by rw [hl], ?_, fun a _ => by rw [ho]⟩, fun _ => ?_, fun hlt => ?_⟩
  · rw [hl, hc]
    exact hlen.trans hcap
  · obtain ⟨-, -, hcs, -⟩ := hf.frame s
    rw [hs, hf.comm, State.withOutCap_twice, ← hcs, State.withOutCap_same]
  · rw [hl, State.withOutCap_outLen] at hlt
    omega

theorem outBlind_id : OutBlind id := ⟨fun _ _ => rfl, fun _ => ⟨rfl, rfl, rfl, rfl⟩⟩

theorem appends_pure (a : α) : Appends (pure a : Exec α) :=
  appends_of_blind outBlind_id fun s c b t h => by
    rw [exec_pure] at h ⊢
    cases h
    exact ⟨rfl, rfl⟩

theorem appends_raiseIf (c : Prop) [Decidable c] (f : HwFault) (i : Word) : Appends (raiseIf c f i) :=
  appends_of_blind outBlind_id fun s cap a t h => by
    rw [exec_raiseIf] at h ⊢
    split_ifs at h ⊢
    cases h
    exact ⟨rfl, rfl⟩

/-- Where the change is written out, that it is `OutBlind` is seen by unfolding it. -/
theorem appends_alter {f : State → State}
    (hf : OutBlind f := by exact ⟨fun _ _ => rfl, fun _ => ⟨rfl, rfl, rfl, rfl⟩⟩) : Appends (alter f) :=
  appends_of_blind hf fun s c a t h => by
    rw [exec_alter] at h ⊢
    cases h
    exact ⟨rfl, rfl⟩

/-- What follows a value read from the state must not tell apart states that differ in the capacity of OUT only. -/
theorem appends_look_bind {f : State → β} {k : β → Exec α} (h : ∀ s, Appends (k (f s)))
    (hblind : ∀ s c, k (f (s.withOutCap c)) = k (f s) := by exact fun _ _ => rfl) : Appends (look f >>= k) := by
  intro s t cap a hlen hcap hlt hm
  rw [exec_look_bind, hblind] at hm
  simpa only [exec_look_bind] using h s s t cap a hlen hcap hlt hm

theorem Appends.bind {k : α → Exec β} (hm : Appends m) (hk : ∀ a, Appends (k a)) : Appends (m >>= k) := by
  intro s t cap b hlen hcap hlt h
  rw [exec_bind] at h
  cases hmu : m (s.withOutCap cap) with
  | error r u => rw [hmu] at h; cases h
  | ok a u =>
    rw [hmu] at h
    obtain ⟨hsu, hfit, hfull⟩ := hm s u cap a hlen hcap hlt hmu
    have hcu : u.caps.outCap = cap := by rw [hsu.caps]; rfl
    have hku : k a (u.withOutCap cap) = .ok b t := by rw [← hcu, State.withOutCap_same]; exact h
    have hut : u.GrewTo t := by
      have := (hk a u t cap b hsu.fits hcu.le hlt hku).1
      rwa [← hcu, State.withOutCap_same] at this
    refine ⟨hsu.trans hut, ?_⟩
    by_cases hu : u.outLen.toNat ≤ s.caps.outCap
    · obtain ⟨-, hfit', hfull'⟩ := hk a (u.withOutCap s.caps.outCap) t cap b hu hcap hlt hku
      rw [exec_bind, hfit hu]
      refine ⟨hfit', fun ht => ?_⟩
      obtain ⟨v, hv, hvt⟩ := hfull' ht
      exact ⟨v, hv, hvt.fault.trans hsu.fault, hvt.full, hvt.bytes⟩
    · obtain ⟨v, hv, hvu⟩ := hfull (not_le.mp hu)
      rw [exec_bind, hv]
      refine ⟨fun ht => absurd (hut.mono.trans ht) hu, fun _ => ⟨v, rfl, hvu.fault, hvu.full, fun a ha => ?_⟩⟩
      rw [hvu.bytes a ha, hut.kept a (ha.trans (not_le.mp hu))]

theorem appends_alter_bind {f : State → State} {k : Unit → Exec β} (h : ∀ a, Appends (k a))
    (hf : OutBlind f := by exact ⟨fun _ _ => rfl, fun _ => ⟨rfl, rfl, rfl, rfl⟩⟩) : Appends (alter f >>= k) :=
  (appends_alter hf).bind h

theorem appends_ite {c : Prop} [Decidable c] {m' : Exec α} (h : Appends m) (h' : Appends m') :
    Appends (if c then m else m') := by
  split
  · exact h
  · exact h'

/-- An optional piece, and what follows it in either case. -/
theorem Appends.optional_bind {c : Prop} [Decidable c] {m : Exec Unit} {k : Unit → Exec β} (hm : Appends m)
    (hk : ∀ a, Appends (k a)) : Appends (if c then m >>= k else k ()) :=
  appends_ite (hm.bind hk) (hk ())

theorem appends_forFrom {f : Nat → Exec Unit} (h : ∀ i, Appends (f i)) (i n : Nat) : Appends (forFrom i n f) := by
  induction n generalizing i with
  | zero => exact appends_pure ()
  | succ n ih => exact (h i).bind fun _ => ih (i + 1)

theorem appends_forUpTo {f : Nat → Exec Unit} (h : ∀ i, Appends (f i)) (n : Nat) : Appends (forUpTo n f) :=
  appends_forFrom h 0 n

theorem appends_forEach {f : α → Exec Unit} (h : ∀ a, Appends (f a)) (as : List α) : Appends (forEach as f) := by
  induction as with
  | nil => exact appends_pure ()
  | cons a as ih => exact (h a).bind fun _ => ih

end

/-! ## Output and bit writer -/

/-- One byte more, where OUT is not full. -/
theorem grewTo_appendOut {s : State} (b : Byte) (h : s.outLen.toNat < s.caps.outCap) (hcap : s.caps.outCap < 2 ^ 32) :
    s.GrewTo (s.appendOut b) ∧ (s.appendOut b).outLen.toNat = s.outLen.toNat + 1 := by
  have hl : (s.appendOut b).outLen.toNat = s.outLen.toNat + 1 := by
    rw [appendOut_outLen, BitVec.toNat_add]
    exact Nat.mod_eq_of_lt (by show _ + 1 < _; omega)
  refine ⟨⟨rfl, rfl, by omega, by rw [hl]; exact h, fun a ha => ?_⟩, hl⟩
  exact Cells.get_set_of_ne _ _ ha.ne

theorem appends_out (b : Byte) : Appends (out b) := by
  intro s t cap a hlen hcap hlt h
  rw [out_eq] at h
  split_ifs at h with hfull
  cases h
  obtain ⟨hg, hl⟩ := grewTo_appendOut (s := s.withOutCap cap) b (lt_of_le_of_ne (hlen.trans hcap) hfull) hlt
  refine ⟨hg, fun ht => ?_, fun ht => ⟨s, ?_, rfl, ?_, fun a ha => ?_⟩⟩
  · rw [out_eq, if_neg (by rw [hl] at ht; exact (Nat.lt_of_succ_le ht).ne)]
    rfl
  all_goals have he : s.outLen.toNat = s.caps.outCap := hlen.antisymm (by rw [hl] at ht; exact Nat.le_of_lt_succ ht)
  · rw [out_eq, if_pos he]
  · exact he
  · exact (hg.kept a (he ▸ ha)).symm

theorem appends_outAll (bs : List Byte) : Appends (outAll bs) := appends_forEach appends_out bs

theorem appends_emitLoop (k : Nat) : Appends (emitLoop k) := by
  induction k with
  | zero => exact appends_pure ()
  | succ k ih =>
    exact appends_look_bind fun _ => (appends_out _).bind fun _ =>
      (appends_out 0).optional_bind fun _ => appends_alter_bind fun _ => ih

theorem appends_emitBits (len : Nat) (code : Word) : Appends (emitBits len code) :=
  appends_alter_bind fun _ => appends_look_bind fun _ => appends_emitLoop _

theorem appends_bwClear : Appends (alter State.bwClear) := appends_alter

theorem appends_flushBits : Appends flushBits :=
  appends_look_bind fun _ => (appends_emitBits _ _).optional_bind fun _ => appends_bwClear

/-! ## Huffman encode (41_huffman.md R200, R201) -/

theorem appends_checkSelector (tc th : BitVec 4) : Appends (checkSelector tc th) := appends_raiseIf _ _ _

theorem appends_checkBuilt (tc th : BitVec 4) : Appends (checkBuilt tc th) :=
  appends_look_bind fun _ => appends_raiseIf _ _ _

theorem appends_buildTable (c t : Nat) (sp : HuffSpec) : Appends (buildTable c t sp) :=
  (appends_raiseIf _ _ _).bind fun _ => (appends_raiseIf _ _ _).bind fun _ => appends_alter

theorem appends_loadStd : Appends loadStd :=
  (appends_buildTable _ _ _).bind fun _ => (appends_buildTable _ _ _).bind fun _ =>
    (appends_buildTable _ _ _).bind fun _ => appends_buildTable _ _ _

theorem appends_huffEncode (t : HuffTable) (v : Byte) : Appends (huffEncode t v) :=
  (appends_raiseIf _ _ _).bind fun _ => appends_emitBits _ _

theorem appends_emitValue (t : HuffTable) (run : Nat) (v : Int) : Appends (emitValue t run v) :=
  (appends_raiseIf _ _ _).bind fun _ => (appends_huffEncode _ _).bind fun _ =>
    appends_ite (appends_emitBits _ _) (appends_pure ())

/-! ## JPEG encode (45_jpeg_encode.md R340 to R350) -/

theorem appends_scaleTables (q : Nat) : Appends (scaleTables q) :=
  (appends_raiseIf _ _ _).bind fun _ => appends_alter

theorem appends_quant (q : Nat) : Appends (quant q) :=
  appends_look_bind fun _ => (appends_raiseIf _ _ _).bind fun _ => appends_alter

theorem appends_encodeAc (t : HuffTable) (zs : List Word) (run : Nat) : Appends (encodeAc t zs run) := by
  induction zs generalizing run with
  | nil => exact appends_ite (appends_huffEncode _ _) (appends_pure ())
  | cons z zs ih =>
    exact appends_ite (ih _) ((appends_forUpTo (fun _ => appends_huffEncode _ _) _).bind fun _ =>
      (appends_emitValue _ _ _).bind fun _ => ih 0)

theorem appends_encodeBlock (t : Nat) (pred : Word) : Appends (encodeBlock t pred) :=
  appends_look_bind fun _ => (appends_emitValue _ _ _).bind fun _ =>
    (appends_encodeAc _ _ _).bind fun _ => appends_pure _

theorem appends_encodeComponent (c t tx ty : Nat) (pred : Word) : Appends (encodeComponent c t tx ty pred) :=
  appends_alter_bind fun _ => (appends_quant _).bind fun _ => appends_encodeBlock _ _

theorem appends_encodeTile (tx ty : Nat) (p : Preds) : Appends (encodeTile tx ty p) :=
  (appends_encodeComponent _ _ _ _ _).bind fun _ => (appends_encodeComponent _ _ _ _ _).bind fun _ =>
    (appends_encodeComponent _ _ _ _ _).bind fun _ => appends_pure _

theorem appends_encodeTiles (ts : List (Nat × Nat)) (p : Preds) : Appends (encodeTiles ts p) := by
  induction ts generalizing p with
  | nil => exact appends_pure ()
  | cons t ts ih => exact (appends_encodeTile _ _ _).bind fun _ => ih _

/-! ## LZW encode (46_lzw.md R381 to R385) -/

theorem appends_onLze (f : LzwEnc → LzwEnc) : Appends (alter (·.onLze f)) :=
  appends_alter

theorem appends_putByte (b : Byte) : Appends (putByte b) :=
  appends_alter_bind fun _ => appends_look_bind fun _ => appends_ite
      ((appends_out _).bind fun _ => (appends_outAll _).bind fun _ => appends_alter) (appends_pure ())

theorem appends_packLoop (k : Nat) : Appends (packLoop k) := by
  induction k with
  | zero => exact appends_pure ()
  | succ k ih =>
    exact appends_look_bind fun _ => (appends_putByte _).bind fun _ => appends_alter_bind fun _ => ih

theorem appends_emitCode (code : Nat) : Appends (emitCode code) :=
  appends_alter_bind fun _ => appends_look_bind fun _ => appends_packLoop _

theorem appends_encodeLoop (bitDepth : Nat) (vs : List Byte) (p : BitVec 12) (c : Nat) :
    Appends (encodeLoop bitDepth vs p c) := by
  induction vs generalizing p c with
  | nil => exact appends_pure _
  | cons v vs ih =>
    refine appends_look_bind fun s => ?_
    split
    · exact ih _ _
    · exact (appends_emitCode _).bind fun _ => appends_ite
        ((appends_onLze _).bind fun _ => ih _ _)
        ((appends_emitCode _).bind fun _ => (appends_onLze _).bind fun _ => ih _ _)

theorem appends_encodeFinish : Appends encodeFinish :=
  appends_look_bind fun _ => (appends_putByte _).optional_bind fun _ =>
    (appends_onLze _).bind fun _ => appends_look_bind fun _ =>
      appends_ite ((appends_out _).bind fun _ => (appends_outAll _).bind fun _ => appends_out 0) (appends_out 0)

theorem appends_encodeData (bitDepth : Nat) (vs : List Byte) : Appends (encodeData bitDepth vs) := by
  cases vs with
  | nil => exact appends_pure 0
  | cons v vs =>
    exact (appends_encodeLoop _ _ _ _).bind fun _ => (appends_emitCode _).bind fun _ =>
      (appends_onLze _).bind fun _ => appends_pure _

theorem appends_lzwEncode (bitDepth n : Nat) : Appends (lzwEncode bitDepth n) :=
  (appends_raiseIf _ _ _).bind fun _ => appends_look_bind fun _ =>
    (appends_raiseIf _ _ _).bind fun _ => (appends_onLze _).bind fun _ => (appends_emitCode _).bind fun _ =>
      (appends_encodeData _ _).bind fun _ => (appends_emitCode _).bind fun _ =>
        appends_encodeFinish.bind fun _ => appends_pure _

/-! ## Colour quantiser (47_octree.md R403 to R408) -/

theorem appends_octAdd (p : Word) : Appends (octAdd p) :=
  appends_alter_bind fun _ => appends_look_bind fun _ => appends_ite appends_alter
      (appends_look_bind fun _ => (appends_raiseIf _ _ _).bind fun _ => appends_look_bind fun _ =>
          appends_alter_bind fun _ => appends_raiseIf _ _ _)

theorem appends_addPixels (n : Nat) : Appends (addPixels n) :=
  appends_look_bind fun _ => appends_forEach appends_octAdd _

theorem appends_octPalette : Appends octPalette :=
  appends_look_bind fun _ => (appends_raiseIf _ _ _).bind fun _ => appends_alter

theorem appends_octIndex (p : Word) : Appends (octIndex p) :=
  appends_look_bind fun _ => (appends_raiseIf _ _ _).bind fun _ =>
    appends_ite ((appends_raiseIf _ _ _).bind fun _ => appends_pure _)
      ((appends_raiseIf _ _ _).bind fun _ => appends_pure _)

theorem appends_indexPixel (i : Nat) : Appends (indexPixel i) :=
  appends_look_bind fun _ => (appends_octIndex _).bind fun _ => appends_alter

theorem appends_octQuantize (req : Nat) : Appends (octQuantize req) :=
  (appends_raiseIf _ _ _).bind fun _ => appends_look_bind fun _ => (appends_raiseIf _ _ _).bind fun _ =>
      appends_alter_bind fun _ => (appends_addPixels _).bind fun _ =>
        appends_look_bind fun _ => (appends_raiseIf _ _ _).bind fun _ =>
          have last : Appends (do octPalette; forUpTo _ indexPixel) :=
            appends_octPalette.bind fun _ => appends_forUpTo appends_indexPixel _
          appends_ite last (appends_alter_bind fun _ => last)

/-! ## GIF encode (48_gif.md R460 to R466) -/

theorem appends_netscape : Appends netscape :=
  appends_look_bind fun _ => (appends_outAll _).bind fun _ => appends_alter

theorem appends_requireDims : Appends requireDims :=
  appends_look_bind fun _ => appends_raiseIf _ _ _

end Exec

/-! ## The nine commands

Each proof is the command's pseudocode read line by line: one rule of `Exec.Appends` for each line. -/

/-- `i` is a command whose pseudocode only appends to OUT. -/
def AppendingCommand (i : Instr) : Prop :=
  ∃ (opc : Byte) (imm : BitVec 24) (body : Exec Unit), encode i = .command (cmdWord opc imm) ∧
    (∀ s, exec i s = runCmd opc body s) ∧ Exec.Appends body

open Exec

theorem appendingCommand_bwEmit (len : BitVec 5) : AppendingCommand (.bwEmit len) :=
  ⟨_, _, _, rfl, fun _ => rfl, appends_look_bind fun _ => (appends_raiseIf _ _ _).bind fun _ => appends_emitBits _ _⟩

theorem appendingCommand_bwFlush : AppendingCommand .bwFlush := ⟨_, _, _, rfl, fun _ => rfl, appends_flushBits⟩

theorem appendingCommand_hufEnc (tc th : BitVec 4) : AppendingCommand (.hufEnc tc th) :=
  ⟨_, _, _, rfl, fun _ => rfl, appends_look_bind fun _ => (appends_raiseIf _ _ _).bind fun _ =>
    (appends_checkBuilt _ _).bind fun _ => appends_look_bind fun _ => appends_huffEncode _ _⟩

theorem appendingCommand_hufEncval (tc th : BitVec 4) : AppendingCommand (.hufEncval tc th) :=
  ⟨_, _, _, rfl, fun _ => rfl, (appends_checkSelector _ _).bind fun _ => (appends_checkBuilt _ _).bind fun _ =>
    appends_look_bind fun _ => appends_look_bind fun _ => appends_look_bind fun _ => appends_emitValue _ _ _⟩

theorem appendingCommand_jpgEncode : AppendingCommand .jpgEncode :=
  ⟨_, _, _, rfl, fun _ => rfl, appends_look_bind fun _ => (appends_raiseIf _ _ _).bind fun _ =>
    (appends_raiseIf _ _ _).bind fun _ => (appends_raiseIf _ _ _).bind fun _ => (appends_scaleTables _).bind fun _ =>
      appends_loadStd.bind fun _ => appends_bwClear.bind fun _ => appends_look_bind fun _ =>
        (appends_outAll _).bind fun _ => (appends_encodeTiles _ _).bind fun _ => appends_flushBits.bind fun _ =>
          (appends_outAll _).bind fun _ => appends_alter⟩

theorem appendingCommand_lzwEnc : AppendingCommand .lzwEnc :=
  ⟨_, _, _, rfl, fun _ => rfl, appends_look_bind fun _ => appends_look_bind fun _ =>
    appends_look_bind fun _ => (appends_raiseIf _ _ _).bind fun _ =>
      (appends_lzwEncode _ _).bind fun _ => appends_alter⟩

theorem appendingCommand_gifEbegin : AppendingCommand .gifEbegin :=
  ⟨_, _, _, rfl, fun _ => rfl, appends_look_bind fun _ => (appends_raiseIf _ _ _).bind fun _ =>
    (appends_raiseIf _ _ _).bind fun _ => (appends_raiseIf _ _ _).bind fun _ => appends_requireDims.bind fun _ =>
      (appends_outAll _).bind fun _ => (appends_outAll _).bind fun _ => (appends_outAll _).bind fun _ =>
        appends_alter_bind fun _ => appends_ite appends_netscape (appends_pure ())⟩

theorem appendingCommand_gifEframe : AppendingCommand .gifEframe :=
  ⟨_, _, _, rfl, fun _ => rfl, appends_look_bind fun _ => (appends_raiseIf _ _ _).bind fun _ =>
    (appends_raiseIf _ _ _).bind fun _ => (appends_raiseIf _ _ _).bind fun _ => appends_requireDims.bind fun _ =>
      (appends_octQuantize _).bind fun _ => appends_look_bind fun _ =>
        (appends_outAll _).bind fun _ => (appends_outAll _).bind fun _ => (appends_outAll _).bind fun _ =>
          (appends_out _).bind fun _ => (appends_lzwEncode _ _).bind fun _ => appends_alter_bind fun _ =>
              appends_look_bind fun _ => appends_ite appends_netscape (appends_pure ())⟩

theorem appendingCommand_gifEend : AppendingCommand .gifEend :=
  ⟨_, _, _, rfl, fun _ => rfl, appends_look_bind fun _ => (appends_raiseIf _ _ _).bind fun _ =>
    (appends_out _).bind fun _ => appends_alter⟩

theorem appendingCommand_of_isOutWriter {i : Instr} (h : isOutWriter i = true) : AppendingCommand i := by
  unfold isOutWriter at h
  split at h
  · exact appendingCommand_bwEmit _
  · exact appendingCommand_bwFlush
  · exact appendingCommand_hufEnc _ _
  · exact appendingCommand_hufEncval _ _
  · exact appendingCommand_jpgEncode
  · exact appendingCommand_lzwEnc
  · exact appendingCommand_gifEbegin
  · exact appendingCommand_gifEframe
  · exact appendingCommand_gifEend
  · exact absurd h Bool.false_ne_true

/-- The ERR word of CapacityExceeded: code 55, class 4 (60_exceptions.md R501). -/
theorem errWord_capacityExceeded (opc : Byte) : errWord opc .capacityExceeded = 0#8 ++ opc ++ 0x0455#16 := by
  show 0#8 ++ opc ++ 0#4 ++ 4#4 ++ 0x55#8 = _
  rw [BitVec.append_assoc, BitVec.append_assoc]
  rfl

/-- A completed command that only appends to OUT, under a smaller OUT (60_exceptions.md R530). -/
theorem runCmd_smallerOut {opc : Byte} {body : Exec Unit} {s t : State} {cap : Nat} (hb : Appends body)
    (hlen : s.outLen.toNat ≤ s.caps.outCap) (hcap : s.caps.outCap ≤ cap)
    (hlt : cap < 2 ^ 32) (ht : runCmd opc body (s.withOutCap cap) = .next t) (htf : t.status.fault = false) :
    (t.outLen.toNat ≤ s.caps.outCap → runCmd opc body s = .next { t with caps := s.caps }) ∧
    (s.caps.outCap < t.outLen.toNat → ∃ u, runCmd opc body s = .next (enterFault opc ⟨.capacityExceeded, 1⟩ u) ∧
      s.FullOf t u) := by
  rcases runCmd_next ht with ⟨v, hv, rfl⟩ | ⟨r, v, -, rfl⟩
  · obtain ⟨hg, hfit, hfull⟩ := hb s v cap () hlen hcap hlt hv
    refine ⟨fun h => ?_, fun h => ?_⟩
    · rw [runCmd_ok (hfit h), State.withOutCap, hg.caps]
      rfl
    · obtain ⟨u, hu, huv⟩ := hfull h
      exact ⟨u, runCmd_error hu, huv.fault, huv.full, huv.bytes⟩
  · cases htf

/-- Settles O16: each of the nine commands only appends to OUT, so that a smaller OUT either changes nothing or stops it
full. -/
theorem fullOutputRaises : Obligations.FullOutputRaises := by
  unfold Obligations.FullOutputRaises
  refine ⟨fun s b => ⟨fun h => ?_, fun h => ?_⟩, fun i s t cap hi hf _ hlen hcap hlt ht htf => ?_⟩
  · rw [out_eq, if_pos h]
  · rw [out_eq, if_neg h]
  · obtain ⟨opc, imm, body, henc, hexec, hb⟩ := appendingCommand_of_isOutWriter hi
    rw [hexec] at ht ⊢
    obtain ⟨hfit, hfull⟩ := runCmd_smallerOut hb hlen hcap hlt ht htf
    refine ⟨hfit, fun h => ?_⟩
    obtain ⟨u, hu, huf, hul, hub⟩ := hfull h
    refine ⟨_, hu, rfl, rfl, fun w hw => ?_, ?_, hul, hub⟩
    · obtain rfl : cmdWord opc imm = w := by rw [henc] at hw; exact Code.command.inj hw
      have hopc : (cmdWord opc imm).extractLsb' 24 8 = opc := Laws.Shape.opcOf_cmdWord opc imm
      rw [hopc, ← errWord_capacityExceeded]
      simp [enterFault, huf, hf]
    · simp [enterFault, huf, hf]

end Sys2Proof.Machine
end

