-- ==== Sys2Proof/Proofs/HostRegisters.lean ====
section
/-! PROOFS. The reset state as the host reads it, and the host's register accesses: what one step of each kind of access
comes to, and what a register write stores (10_state.md R22, R76; 20_memory.md R80 to R86). -/

namespace Sys2Proof.Machine

open Sys2Proof

/-! ## The reset state (10_state.md R42, R76; 20_memory.md R83) -/

/-- Settles O2: every memory space is empty at reset, and so is the LZW dictionary. -/
theorem resetSound : Obligations.ResetSound where
  mem := Memory.wf_empty
  bc := by decide
  bw _ := by decide
  out := Nat.zero_le _
  scan := rfl
  lzw := ⟨Cells.wf_nil, Cells.wf_nil⟩

theorem readReg_reset (off : Nat) :
    readReg State.reset off = if off = 0x90 then 128 else if off = 0x9C then 0xFFFFFFFF else 0 := by
  unfold readReg
  split
  on_goal -1 => simp_all -- an offset that is not listed is neither of the two
  all_goals rfl

/-- A table of equal entries, read with that entry as the default. -/
theorem getD_getElem?_replicate {α : Type} (n k : Nat) (a : α) : ((Vector.replicate n a)[k]?).getD a = a := by
  rw [Vector.getElem?_replicate]
  split <;> rfl

/-- Of an unbuilt table every field reads 0, but for the sixteen fields `maxCode`. -/
theorem HuffTable.unbuilt_field (f : Nat) :
    HuffTable.unbuilt.field f = if 17 ≤ f ∧ f ≤ 32 then 0xFFFFFFFF else 0 := by
  have hmin (l) : HuffTable.unbuilt.minAt l = 0 := congrArg BitVec.toNat (getD_getElem?_replicate 16 (l - 1) 0)
  have hmax (l) : HuffTable.unbuilt.maxAt l = none := getD_getElem?_replicate 16 (l - 1) none
  have hindex (l) : HuffTable.unbuilt.indexAt l = 0 := congrArg Fin.val (getD_getElem?_replicate 16 (l - 1) 0)
  have hcount (k : Nat) : (HuffTable.unbuilt.counts[k]?).getD 0 = 0 := getD_getElem?_replicate 16 k 0
  have hvalue (k) : HuffTable.unbuilt.valueAt k = 0 := getD_getElem?_replicate 256 k 0
  have hlut (k) : HuffTable.unbuilt.lutAt k = 0 := getD_getElem?_replicate 256 k 0
  have hsize (v : Byte) : HuffTable.unbuilt.sizeAt v = 0 := congrArg Fin.val (getD_getElem?_replicate 256 v.toNat 0)
  have hcode (v : Byte) : HuffTable.unbuilt.codeAt v = 0 := getD_getElem?_replicate 256 v.toNat 0
  unfold HuffTable.field
  rw [hmin, hmax, hindex, hcount, hvalue, hlut, hsize, hcode]
  by_cases h : 17 ≤ f ∧ f ≤ 32
  · rw [if_pos h, if_neg (by omega), if_neg (by omega), if_pos h.2]
  · rw [if_neg h]
    split_ifs
    any_goals rfl
    omega

theorem htab_reset (a : Nat) :
    State.reset.htab a = if 17 ≤ a % 1024 ∧ a % 1024 ≤ 32 then 0xFFFFFFFF else 0 := by
  have h : State.reset.ht[Fin.ofNat 8 (a / 1024)] = HuffTable.unbuilt := Vector.getElem_replicate _
  rw [State.htab, h, HuffTable.unbuilt_field]

theorem readElem_reset (space a : Nat) :
    readElem State.reset space a = if space = 6 ∧ 17 ≤ a % 1024 ∧ a % 1024 ≤ 32 then 0xFFFFFFFF else 0 := by
  by_cases h : space = 6
  · subst h
    rw [show readElem State.reset 6 a = State.reset.htab a from rfl, htab_reset]
    simp only [true_and]
  · rw [if_neg fun hs => h hs.1]
    unfold readElem
    split
    any_goals exact absurd rfl h
    all_goals rfl

/-- Settles O1: the registers one by one, and the memory spaces, of which only HTAB has fields that are not 0. -/
theorem resetState : Obligations.ResetState :=
  ⟨readReg_reset, fun space a _ => readElem_reset space a⟩

/-! ## One access (60_exceptions.md R527; 10_state.md R22, R76) -/

section
variable {s : State} {rest : List HostEvent} {off : Nat} {w : Word}

theorem step_idle (h : s.inputs = []) : step s = .next s := by rw [step, h]

theorem step_reset (h : s.inputs = .reset :: rest) :
    step s = .next ({ s with inputs := rest } : State).resetCore := by rw [step, h]

theorem step_read (h : s.inputs = .read off :: rest) :
    step s = .next (hostRead off { s with inputs := rest }) := by rw [step, h]

theorem step_write (h : s.inputs = .write off w :: rest) :
    step s = hostWriteStep off w { s with inputs := rest } := by rw [step, h]

theorem hostRead_register (h : off ≠ 0x3C) : hostRead off s = { s with rdata := readReg s off } := if_neg h

theorem hostWrite_register (h : off ≠ 0x3C) : hostWrite off w s = writeReg s off w := if_neg h

theorem hostWriteStep_register (h0 : off ≠ 0) (h : off ≠ 0x3C) :
    hostWriteStep off w s = .next (writeReg s off w) := by
  rw [hostWriteStep, if_neg h0, hostWrite_register h]

/-- The host's pending accesses are no register. -/
theorem readReg_inputs : readReg { s with inputs := rest } off = readReg s off := rfl

end

/-- Settles O7: one law of `step` for each kind of access. -/
theorem stepOtherAccess : Obligations.StepOtherAccess := by
  unfold Obligations.StepOtherAccess
  refine ⟨fun s => step_idle, fun s rest => step_reset, fun s off rest h hoff => ?_,
    fun s off w rest h h0 hoff => ?_⟩
  · rw [step_read h, hostRead_register hoff, readReg_inputs]
  · rw [step_write h, hostWriteStep_register h0 hoff]

/-! ## What a register write stores (10_state.md R22, R32, R41, R63) -/

theorem readReg_writeReg_of_ne (s : State) (w : Word) {off off' : Nat} (h : off' ≠ off) :
    readReg (writeReg s off w) off' = readReg s off' := by
  unfold writeReg
  split
  all_goals
    unfold readReg
    split
  any_goals exact absurd rfl h
  all_goals rfl

theorem writeReg_mem_ht (s : State) (w : Word) (off : Nat) :
    (writeReg s off w).mem = s.mem ∧ (writeReg s off w).ht = s.ht := by
  unfold writeReg
  split <;> exact ⟨rfl, rfl⟩

theorem inLenOf_eq_min {cap : Nat} (w : Word) : inLenOf cap w = BitVec.ofNat 32 (min w.toNat cap) := by
  unfold inLenOf
  split
  · rw [Nat.min_eq_right (by omega)]
    rfl
  · rw [Nat.min_eq_left (by omega), BitVec.ofNat_toNat, BitVec.setWidth_eq]

theorem setWidth_setWidth_eq_ofNat_mod (n : Nat) (w : Word) :
    (w.setWidth n).setWidth 32 = BitVec.ofNat 32 (w.toNat % 2 ^ n) := by
  apply BitVec.eq_of_toNat_eq
  rw [BitVec.toNat_setWidth, BitVec.toNat_setWidth, BitVec.toNat_ofNat]

theorem setWidth_athreshOf (w : Word) : (athreshOf w).setWidth 32 = BitVec.ofNat 32 (min (w.toNat % 512) 256) := by
  have hw : (w.setWidth 9).toNat = w.toNat % 512 := BitVec.toNat_setWidth 9 w
  unfold athreshOf
  rw [hw]
  split
  · rw [Nat.min_eq_right (by omega)]
    rfl
  · rw [Nat.min_eq_left (by omega)]
    exact setWidth_setWidth_eq_ofNat_mod 9 w

theorem readReg_writeReg_same (s : State) (w : Word) (off : Nat) :
    readReg (writeReg s off w) off =
      if off ∈ [0x10, 0x14, 0x18, 0x1C, 0x28, 0x34, 0x38, 0xA0] then w
      else if off = 0x2C then BitVec.ofNat 32 (min w.toNat s.caps.inCap)
      else if off = 0x90 then BitVec.ofNat 32 (min (w.toNat % 512) 256)
      else if off = 0xD0 then BitVec.ofNat 32 (w.toNat % 16)
      else readReg s off := by
  unfold writeReg
  split
  case h_6 => exact inLenOf_eq_min w
  case h_9 => exact setWidth_athreshOf w
  case h_11 => exact setWidth_setWidth_eq_ofNat_mod 4 w
  case h_12 => simp_all
  all_goals rfl

/-- Settles O11: a write to one register is not seen at another offset, and at its own reads as stored. -/
theorem registerWrites : Obligations.RegisterWrites := by
  unfold Obligations.RegisterWrites
  intro s w off _ hoff _
  rw [hostWrite_register hoff]
  obtain ⟨hmem, hht⟩ := writeReg_mem_ht s w off
  exact ⟨fun off' h => readReg_writeReg_of_ne s w h, hmem, hht, readReg_writeReg_same s w off⟩

end Sys2Proof.Machine
end

