-- ==== Sys2Proof/Proofs/CommandFrame.lean ====
section
/-! PROOFS. What a command can do to the state the host and the two byte streams share with it. `State.boundary` is that
part of the state; but for SYS.SRESET, SYS.OUTCLR and JPG.ASSEMBLE a command changes it only by the steps of the bit
reader and of the raw reads, and by `out`. `Exec.Framed` says so of a piece of pseudocode: it keeps every property that
these steps keep. It has one rule per combinator and one lemma per operation, each the operation's pseudocode read line
by line, and `exec_keeps` says it of a whole instruction. -/

namespace Sys2Proof.Machine

open Sys2Proof

/-! ## The boundary -/

/-- The registers and memory spaces that the host writes, those of the two streams, and what is not the core's. -/
structure Boundary where
  arg0 : Word
  arg1 : Word
  arg2 : Word
  arg3 : Word
  inPos : Word
  inLen : Word
  outLen : Word
  memSel : Word
  memAddr : Word
  bcAcc : Word
  bcNbits : Nat
  octAthresh : BitVec 9
  pixDim : Word
  inp : Cells 8
  out : Cells 8
  hspec : Cells 8
  pix : Cells 32
  caps : Config.Capacities
  inputs : List HostEvent
  rdata : Word

/-- The boundary part of a state. -/
def State.boundary (s : State) : Boundary where
  arg0 := s.arg0
  arg1 := s.arg1
  arg2 := s.arg2
  arg3 := s.arg3
  inPos := s.inPos
  inLen := s.inLen
  outLen := s.outLen
  memSel := s.memSel
  memAddr := s.memAddr
  bcAcc := s.bcAcc
  bcNbits := s.bcNbits
  octAthresh := s.octAthresh
  pixDim := s.pixDim
  inp := s.mem.inp
  out := s.mem.out
  hspec := s.mem.hspec
  pix := s.mem.pix
  caps := s.caps
  inputs := s.inputs
  rdata := s.rdata

theorem boundary_setBlk (s : State) (b : List Word) : (s.setBlk b).boundary = s.boundary := rfl

theorem boundary_onJpg (s : State) (f : JpegCtx → JpegCtx) : (s.onJpg f).boundary = s.boundary := rfl

theorem boundary_setScan (s : State) (b : Bool) : ({ s with inScan := b } : State).boundary = s.boundary := rfl

theorem boundary_setPlane (s : State) (i : Nat) (c : Cells 8) : (s.setPlane i c).boundary = s.boundary := rfl

namespace Frame

/-- `P` is kept by every step that reads IN: a fetch into the bit buffer where it has room, the use of buffered bits,
the reset and the realignment of the bit reader, and `n` raw bytes taken where there are as many (40_bitcursor.md R161
to R169, 48_gif.md R432). -/
structure StreamIn (P : State → Prop) : Prop where
  fetch : Exec.Triple (fun s => P s ∧ s.bcNbits < 16) fetchByte (fun _ => P) P
  drop : ∀ s n, P s → P (s.dropBits n)
  clear : ∀ s, P s → P s.bcReset
  realign : ∀ s, P s → P s.realign
  take : ∀ s n, P s → s.inPos.toNat + n ≤ s.inLen.toNat → P (s.advance n)

/-- `P` speaks of the boundary only, and is kept by every step that reads IN and by `out`. -/
structure Command (P : State → Prop) : Prop extends StreamIn P where
  out : ∀ b, Exec.Keeps P (out b)
  inner : ∀ s t, t.boundary = s.boundary → P s → P t

/-- A property that does not look at the reader's registers is kept by every step that reads IN. -/
theorem Reader.streamIn {P : State → Prop} (h : Reader P) : StreamIn P where
  fetch := Exec.triple_mono (Exec.keeps_fetchByte h) (fun _ hs => hs.1) (fun _ _ hs => hs) (fun _ hs => hs)
  drop s _ hs := h.bc s s.bcAcc _ hs
  clear _ hs := Exec.Frame.Reader.bcReset h hs
  realign _ hs := Exec.Frame.Reader.realign h hs
  take s _ hs _ := h.pos s _ hs

section
variable {P : State → Prop} (h : Command P)
include h

theorem Command.tables : Tables P := ⟨fun s _ _ => h.inner s _ rfl⟩

theorem Command.blocks : Blocks P :=
  ⟨fun s _ _ => h.inner s _ rfl, fun s _ => h.inner s _ rfl, fun s _ => h.inner s _ rfl⟩

theorem Command.octree : Octree P :=
  ⟨fun s _ => h.inner s _ rfl, fun s _ _ _ => h.inner s _ rfl, fun s _ => h.inner s _ rfl⟩

end

end Frame

namespace Exec

/-- `m` changes the boundary only by the steps of `Frame.Command`. -/
structure Framed {α : Type} (m : Exec α) : Prop where
  keeps : ∀ P : State → Prop, Frame.Command P → Keeps P m

/-! ## One rule per combinator -/

section
variable {α β : Type} {m m' : Exec α}

theorem framed_pure (a : α) : Framed (pure a : Exec α) := ⟨fun _ _ => keeps_pure⟩

theorem framed_raise (f : HwFault) (i : Word) : Framed (raise f i : Exec α) := ⟨fun _ _ => keeps_raise⟩

theorem framed_raiseIf (c : Prop) [Decidable c] (f : HwFault) (i : Word) : Framed (raiseIf c f i) :=
  ⟨fun _ _ => keeps_raiseIf⟩

theorem framed_alter {f : State → State} (hf : ∀ s, (f s).boundary = s.boundary) : Framed (alter f) :=
  ⟨fun _ h => keeps_alter fun s hs => h.inner s _ (hf s) hs⟩

theorem Framed.bind {k : α → Exec β} (hm : Framed m) (hk : ∀ a, Framed (k a)) : Framed (m >>= k) :=
  ⟨fun P h => keeps_bind (hm.keeps P h) fun a => (hk a).keeps P h⟩

theorem framed_look_bind {f : State → β} {k : β → Exec α} (hk : ∀ a, Framed (k a)) : Framed (look f >>= k) :=
  Framed.bind ⟨fun _ _ => keeps_look⟩ hk

theorem framed_alter_bind {f : State → State} {k : Unit → Exec β} (hf : ∀ s, (f s).boundary = s.boundary)
    (hk : ∀ a, Framed (k a)) : Framed (alter f >>= k) :=
  (framed_alter hf).bind hk

theorem framed_check {c : Prop} {_ : Decidable c} {f : HwFault} {i : Word} {k : Unit → Exec α}
    (hk : ∀ a, Framed (k a)) : Framed (raiseIf c f i >>= k) :=
  (framed_raiseIf c f i).bind hk

/-- What follows a check, where it needs that the check passed. -/
theorem framed_guard {c : Prop} [Decidable c] {f : HwFault} {i : Word} {k : Unit → Exec α}
    (hk : ¬ c → Framed (k ())) : Framed (raiseIf c f i >>= k) := by
  refine ⟨fun P h s hs => ?_⟩
  rw [exec_check]
  by_cases hc : c
  · rw [if_pos hc]
    exact hs
  · rw [if_neg hc]
    exact (hk hc).keeps P h s hs

theorem framed_ite {c : Prop} {_ : Decidable c} (h : Framed m) (h' : Framed m') : Framed (if c then m else m') := by
  split
  · exact h
  · exact h'

/-- An optional piece, and what follows it in either case. -/
theorem framed_optional_bind {c : Prop} {_ : Decidable c} {m : Exec Unit} {k : Unit → Exec β} (hm : Framed m)
    (hk : ∀ a, Framed (k a)) : Framed (if c then m >>= k else k ()) :=
  framed_ite (hm.bind hk) (hk ())

theorem framed_forUpTo {f : Nat → Exec Unit} (hf : ∀ i, Framed (f i)) (n : Nat) : Framed (forUpTo n f) :=
  ⟨fun P h => keeps_forUpTo (fun i => (hf i).keeps P h) n⟩

theorem framed_forEach {f : α → Exec Unit} (hf : ∀ a, Framed (f a)) (as : List α) : Framed (forEach as f) :=
  ⟨fun P h => keeps_forEach (fun a => (hf a).keeps P h) as⟩

theorem framed_loopFuel {body : Exec Bool} (hb : Framed body) (k : Nat) : Framed (loopFuel k body) :=
  ⟨fun P h => keeps_loopFuel (hb.keeps P h) k⟩

theorem Framed.onRaise {f : State → State} (hm : Framed m) (hf : ∀ s, (f s).boundary = s.boundary) :
    Framed (onRaise f m) :=
  ⟨fun P h => keeps_onRaise (hm.keeps P h) fun s hs => h.inner s _ (hf s) hs⟩

end

/-! ## Bit reader (40_bitcursor.md R161 to R168) -/

theorem framed_ensureLoop {n : Nat} (hn : n ≤ 16) (k : Nat) : Framed (ensureLoop k n) := by
  induction k with
  | zero => exact framed_pure ()
  | succ k ih =>
    refine ⟨fun P h s hs => ?_⟩
    rw [ensureLoop, exec_look_bind]
    by_cases hb : s.bcNbits < n
    · rw [if_pos hb]
      exact triple_bind h.fetch (fun _ => ih.keeps P h) s ⟨hs, by omega⟩
    · rw [if_neg hb]
      exact hs

theorem framed_ensureBits {n : Nat} (hn : n ≤ 16) : Framed (ensureBits n) := framed_ensureLoop hn 2

theorem framed_takeBits (n : Nat) : Framed (takeBits n) := ⟨fun _ h s hs => h.drop s n hs⟩

theorem framed_decodeBits {n : Nat} (hn : n ≤ 16) : Framed (decodeBits n) :=
  framed_ite (framed_pure 0) ((framed_ensureBits hn).bind fun _ => framed_takeBits n)

theorem framed_decodeBit : Framed decodeBit := (framed_ensureBits (by decide)).bind fun _ => framed_takeBits 1

theorem framed_receiveExtend (t : Nat) : Framed (receiveExtend t) :=
  framed_guard fun ht => framed_ite (framed_pure 0)
    ((framed_decodeBits (not_lt.mp ht)).bind fun _ => framed_pure _)

theorem framed_ignore (n : Nat) : Framed (ignore n) := by
  refine ⟨fun P h s hs => ?_⟩
  rw [ignore_eq]
  split_ifs with hn
  · exact h.realign s hs
  · exact h.take _ n (h.realign s hs) (not_lt.mp hn)

theorem framed_readFull (n : Nat) : Framed (readFull n) := by
  refine ⟨fun P h s hs => ?_⟩
  rw [readFull_eq]
  split_ifs with hn
  · exact h.realign s hs
  · exact h.take _ n (h.inner s.realign _ rfl (h.realign s hs)) (not_lt.mp hn)

/-! ## Huffman decode (41_huffman.md R195 to R198) -/

theorem framed_checkSelector (tc th : BitVec 4) : Framed (checkSelector tc th) := framed_raiseIf _ _ _

theorem framed_checkBuilt (tc th : BitVec 4) : Framed (checkBuilt tc th) :=
  framed_look_bind fun _ => framed_raiseIf _ _ _

theorem framed_buildTable (c t : Nat) (sp : HuffSpec) : Framed (buildTable c t sp) :=
  ⟨fun _ h => keeps_buildTable h.tables c t sp⟩

theorem framed_loadStd : Framed loadStd := ⟨fun _ h => keeps_loadStd h.tables⟩

theorem framed_slowFrom (t : HuffTable) (n l code : Nat) : Framed (slowFrom t n l code) := by
  induction n generalizing l code with
  | zero => exact framed_look_bind fun _ => framed_raise _ _
  | succ n ih => exact framed_decodeBit.bind fun _ => framed_ite (framed_pure _) (ih _ _)

theorem triple_tryFetch {P : State → Prop} (h : Frame.Command P) :
    Triple (fun s => P s ∧ s.bcNbits < 16) tryFetch (fun _ => P) P := by
  intro s hs
  have hf := h.fetch s hs
  unfold tryFetch
  cases hc : fetchByte s with
  | ok u t => rw [hc] at hf; exact hf
  | error r t => exact hs.1

/-- What follows the fetch of R197: the table where it has the code, and else the walk. -/
theorem framed_lookup (t : HuffTable) (fast : Bool) :
    Framed (if fast then do
        let i ← look (·.peekBits 8)
        let e := t.lutAt i.toNat
        if e ≠ 0 then do
          alter (·.dropBits (e.extractLsb' 0 8).toNat)
          pure (e.extractLsb' 8 8)
        else slowWalk t
      else slowWalk t) := by
  have hslow : Framed (slowWalk t) := framed_slowFrom t 16 1 0
  have hdrop (n : Nat) : Framed (alter (·.dropBits n)) := ⟨fun _ h => keeps_alter fun s => h.drop s n⟩
  exact framed_ite (framed_look_bind fun _ => framed_ite ((hdrop _).bind fun _ => framed_pure _) hslow) hslow

/-- The one fetch of R197 is made where fewer than 8 bits are buffered. -/
theorem framed_huffDecode (t : HuffTable) : Framed (huffDecode t) := by
  refine ⟨fun P h s hs => ?_⟩
  rw [huffDecode, exec_look_bind]
  by_cases hb : s.bcNbits < 8
  · rw [if_pos hb]
    exact triple_bind (triple_tryFetch h) (fun fast => (framed_lookup t fast).keeps P h) s ⟨hs, by omega⟩
  · rw [if_neg hb]
    exact (framed_lookup t true).keeps P h s hs

/-! ## JPEG decode (44_jpeg_decode.md R271 to R307) -/

theorem framed_skipFill (k : Nat) (m : Byte) : Framed (skipFill k m) := by
  induction k generalizing m with
  | zero => exact framed_pure m
  | succ k ih => exact framed_ite ((framed_readFull 1).bind fun _ => ih _) (framed_pure m)

theorem framed_nextMarker : Framed nextMarker :=
  (framed_readFull 1).bind fun _ => framed_look_bind fun _ => framed_check fun _ => framed_look_bind fun _ =>
    (framed_readFull 1).bind fun _ => (framed_skipFill _ _).bind fun _ => framed_look_bind fun _ =>
      framed_check fun _ => framed_pure _

theorem framed_segmentLength : Framed segmentLength :=
  (framed_readFull 2).bind fun _ => framed_check fun _ => framed_pure _

theorem framed_app14 (n : Nat) : Framed (app14 n) :=
  (framed_readFull n).bind fun _ => framed_ite (framed_alter fun _ => rfl) (framed_pure ())

theorem framed_sofCheck (p : List Byte) (i : Nat) : Framed (sofCheck p i) := ⟨fun _ _ => keeps_sofCheck p i⟩

theorem framed_frameFits (f : Frame) (c : Comp) : Framed (frameFits f c) := ⟨fun _ _ => keeps_frameFits f c⟩

theorem framed_putFrame (f : Frame) : Framed (alter (·.putFrame f)) := framed_alter fun _ => rfl

theorem framed_sof (m : Byte) (n : Nat) : Framed (sof m n) :=
  framed_look_bind fun _ => framed_check fun _ => framed_check fun _ => (framed_readFull n).bind fun p =>
    framed_check fun _ => framed_check fun _ => framed_check fun _ => framed_check fun _ =>
      (framed_forUpTo (framed_sofCheck p) _).bind fun _ => (framed_forEach (framed_frameFits _) _).bind fun _ =>
        framed_putFrame _

theorem framed_dqtLoop (p : List Byte) (n k o : Nat) : Framed (dqtLoop p n k o) := by
  induction k generalizing o with
  | zero => exact framed_pure ()
  | succ k ih =>
    exact framed_ite (framed_check fun _ => framed_check fun _ => framed_check fun _ =>
      framed_alter_bind (fun _ => rfl) fun _ => ih _) (framed_pure ())

theorem framed_dqt (n : Nat) : Framed (dqt n) := (framed_readFull n).bind fun _ => framed_dqtLoop _ _ _ _

theorem framed_dhtLoop (p : List Byte) (n k o : Nat) : Framed (dhtLoop p n k o) := by
  induction k generalizing o with
  | zero => exact framed_pure ()
  | succ k ih =>
    exact framed_ite (framed_check fun _ => framed_check fun _ => framed_check fun _ => framed_check fun _ =>
      (framed_buildTable _ _ _).bind fun _ => ih _) (framed_pure ())

theorem framed_dht (n : Nat) : Framed (dht n) := (framed_readFull n).bind fun _ => framed_dhtLoop _ _ _ _

theorem framed_dri (n : Nat) : Framed (dri n) :=
  framed_check fun _ => (framed_readFull 2).bind fun _ => framed_alter fun _ => rfl

theorem framed_restartMarker (n : BitVec 3) : Framed (restartMarker n) :=
  framed_look_bind fun _ => framed_check fun _ =>
    ⟨fun _ h => keeps_alter fun s hs => h.inner s.bcReset _ rfl (h.clear s hs)⟩

theorem framed_restart : Framed restart := by
  refine (framed_readFull 2).bind fun p => ?_
  split
  · exact framed_check fun _ => framed_restartMarker _
  · exact framed_raise _ _

theorem framed_readEobrun {r : Nat} (hr : r ≤ 16) : Framed (readEobrun r) :=
  framed_alter_bind (fun _ => rfl) fun _ =>
    framed_ite ((framed_decodeBits hr).bind fun _ => framed_alter fun _ => rfl) (framed_pure ())

theorem runOf_lt (rs : Byte) : runOf rs < 16 := by
  unfold runOf
  rw [BitVec.toNat_ushiftRight, Nat.shiftRight_eq_div_pow]
  omega

theorem framed_acLoop (t : HuffTable) (se al k zig : Nat) : Framed (acLoop t se al k zig) := by
  induction k generalizing zig with
  | zero => exact framed_pure ()
  | succ k ih =>
    refine framed_ite ((framed_huffDecode t).bind fun rs => framed_ite ?_ (framed_ite (ih _) ?_)) (framed_pure ())
    · exact framed_check fun _ => (framed_receiveExtend _).bind fun _ => framed_alter_bind (fun _ => rfl) fun _ => ih _
    · exact (framed_readEobrun (runOf_lt rs).le).bind fun _ => framed_alter fun _ => rfl

theorem framed_firstPassAc (ta zig : Nat) : Framed (firstPassAc ta zig) :=
  framed_look_bind fun _ =>
    framed_ite (framed_ite (framed_alter fun _ => rfl) (framed_acLoop _ _ _ _ _)) (framed_pure ())

theorem framed_firstPassDc (ci td : Nat) : Framed (firstPassDc ci td) :=
  framed_look_bind fun _ => (framed_huffDecode _).bind fun _ => (framed_receiveExtend _).bind fun _ =>
    framed_alter_bind (fun _ => rfl) fun _ => framed_alter fun _ => rfl

theorem framed_firstPass (ci : Nat) : Framed (firstPass ci) :=
  framed_look_bind fun _ => framed_ite ((framed_firstPassDc _ _).bind fun _ => framed_firstPassAc _ _)
    (framed_firstPassAc _ _)

theorem framed_refineNonZeroes (se : Nat) (delta : Word) (k zig : Nat) (nz : Int) :
    Framed (refineNonZeroes se delta k zig nz) := by
  induction k generalizing zig nz with
  | zero => exact framed_pure zig
  | succ k ih =>
    refine framed_ite (framed_look_bind fun _ => framed_ite ?_ ?_) (framed_pure zig)
    · exact framed_ite (framed_pure zig) (ih _ _)
    · exact framed_decodeBit.bind fun _ => framed_optional_bind (framed_alter fun _ => rfl) fun _ => ih _ _

theorem framed_refineValue (rs : Byte) (delta : Word) : Framed (refineValue rs delta) :=
  framed_check fun _ => framed_ite (framed_pure 0) (framed_decodeBit.bind fun _ => framed_pure _)

theorem framed_refineLoop (t : HuffTable) (se : Nat) (delta : Word) (k zig : Nat) :
    Framed (refineLoop t se delta k zig) := by
  induction k generalizing zig with
  | zero => exact framed_pure zig
  | succ k ih =>
    refine framed_ite ((framed_huffDecode t).bind fun rs => framed_ite ?_ ?_) (framed_pure zig)
    · exact (framed_readEobrun (runOf_lt rs).le).bind fun _ => framed_pure zig
    · exact (framed_refineValue rs delta).bind fun _ => (framed_refineNonZeroes _ _ _ _ _).bind fun _ =>
        framed_check fun _ => framed_optional_bind (framed_alter fun _ => rfl) fun _ => ih _

theorem framed_refineAc (ta : Nat) (delta : Word) : Framed (refineAc ta delta) :=
  framed_look_bind fun s =>
    have rest (zig : Nat) : Framed (do
        let run ← look (·.jpg.eobrun)
        if run ≠ 0 then do
          alter State.eobDown
          let _ ← refineNonZeroes s.jpg.se.toNat delta 256 zig (-1)
        else pure ()) :=
      framed_look_bind fun _ => framed_ite
        (framed_alter_bind (fun _ => rfl) fun _ => (framed_refineNonZeroes _ _ _ _ _).bind fun _ => framed_pure ())
        (framed_pure ())
    framed_ite ((framed_refineLoop _ _ _ _ _).bind rest) ((framed_pure _).bind rest)

theorem framed_refineBlock (ci : Nat) : Framed (refineBlock ci) :=
  framed_look_bind fun _ => framed_ite
    (framed_decodeBit.bind fun _ => framed_ite (framed_alter fun _ => rfl) (framed_pure ())) (framed_refineAc _ _)

theorem boundary_reconstructed (s : State) (i bx by_ : Nat) : (s.reconstructed i bx by_).boundary = s.boundary :=
  calc (s.reconstructed i bx by_).boundary
    _ = (s.dequant (s.comp i).tq.toNat).idct.level.boundary := boundary_setPlane _ _ _
    _ = (s.dequant (s.comp i).tq.toNat).idct.boundary := boundary_setBlk _ _
    _ = (s.dequant (s.comp i).tq.toNat).boundary := boundary_setBlk _ _
    _ = s.boundary := boundary_setBlk _ _

theorem framed_reconstruct (i bx by_ : Nat) : Framed (reconstruct i bx by_) :=
  framed_look_bind fun _ => framed_check fun _ => framed_alter fun s => boundary_reconstructed s i bx by_

theorem framed_decodeBlock (i bx by_ : Nat) : Framed (decodeBlock i bx by_) :=
  framed_look_bind fun s =>
    have last : Framed (if s.jpg.progressive then alter (·.storeCoef i (by_ * s.blockCols i + bx))
        else reconstruct i bx by_) := framed_ite (framed_alter fun _ => rfl) (framed_reconstruct i bx by_)
    have rest : Framed (do
        if s.jpg.ah ≠ 0 then refineBlock i else firstPass i
        if s.jpg.progressive then alter (·.storeCoef i (by_ * s.blockCols i + bx)) else reconstruct i bx by_) :=
      framed_ite ((framed_refineBlock i).bind fun _ => last) ((framed_firstPass i).bind fun _ => last)
    framed_ite (framed_alter_bind (fun _ => rfl) fun _ => rest) (framed_alter_bind (fun _ => rfl) fun _ => rest)

theorem framed_loadCoef (i bi : Nat) : Framed (alter (·.loadCoef i bi)) := framed_alter fun _ => rfl

theorem framed_reconstructAll : Framed reconstructAll :=
  framed_look_bind fun _ => framed_forUpTo (fun _ => framed_forUpTo (fun _ => framed_forUpTo (fun _ =>
    (framed_loadCoef _ _).bind fun _ => framed_reconstruct _ _ _) _) _) _

theorem framed_eoi : Framed eoi :=
  framed_look_bind fun _ => framed_check fun _ => framed_optional_bind framed_reconstructAll fun _ =>
    framed_alter fun _ => rfl

theorem framed_mcuBlocks (ux uy : Nat) (sc : ScanComp) : Framed (mcuBlocks ux uy sc) :=
  framed_look_bind fun _ => framed_forUpTo (fun _ => framed_forUpTo (fun _ => framed_decodeBlock _ _ _) _) _

theorem framed_scanUnit (cs : List ScanComp) (ux uy : Nat) : Framed (scanUnit cs ux uy) := by
  unfold scanUnit
  split
  · exact framed_decodeBlock _ _ _
  · exact framed_forEach (framed_mcuBlocks _ _) _

theorem framed_mcuLoop (cs : List ScanComp) : Framed (mcuLoop cs) :=
  framed_look_bind fun _ => framed_forUpTo (fun _ => (framed_scanUnit _ _ _).bind fun _ =>
    framed_ite framed_restart (framed_pure ())) _

/-- A scan starts with the bit reader reset. -/
theorem boundary_startScan (s : State) (q : ScanPar) (cs : List ScanComp) :
    (s.startScan q cs).boundary = s.bcReset.boundary :=
  (boundary_setScan (s.resetEntropy.onJpg _) true).trans
    ((boundary_onJpg s.resetEntropy _).trans (boundary_onJpg s.bcReset _))

theorem framed_startScan (q : ScanPar) (cs : List ScanComp) : Framed (alter (·.startScan q cs)) :=
  ⟨fun _ h => keeps_alter fun s hs => h.inner s.bcReset _ (boundary_startScan s q cs) (h.clear s hs)⟩

theorem framed_endScan : Framed (alter State.endScan) :=
  ⟨fun _ h => keeps_alter fun s hs => h.inner s.realign _ rfl (h.realign s hs)⟩

theorem framed_selectors (p : List Byte) (n j : Nat) (acc : List ScanComp) : Framed (selectors p n j acc) :=
  ⟨fun _ _ => keeps_selectors p n j acc⟩

theorem framed_checkProgressive (q : ScanPar) (ns : Nat) : Framed (checkProgressive q ns) :=
  ⟨fun _ _ => keeps_checkProgressive q ns⟩

theorem framed_checkTables (q : ScanPar) (c : ScanComp) : Framed (checkTables q c) :=
  ⟨fun _ _ => keeps_checkTables q c⟩

theorem framed_sos (n : Nat) : Framed (sos n) :=
  framed_look_bind fun _ => framed_check fun _ => framed_check fun _ => (framed_readFull n).bind fun _ =>
    framed_check fun _ => (framed_selectors _ _ _ _).bind fun _ =>
      framed_optional_bind (framed_checkProgressive _ _) fun _ =>
        (framed_forEach (framed_checkTables _) _).bind fun _ => (framed_startScan _ _).bind fun _ =>
          (framed_mcuLoop _).bind fun _ => framed_endScan

theorem framed_segment {f : Nat → Exec Unit} (hf : ∀ n, Framed (f n)) : Framed (segment f) :=
  framed_segmentLength.bind hf

theorem framed_rst (n : BitVec 3) : Framed (rst n) :=
  framed_look_bind fun _ => framed_ite (framed_restartMarker n) (framed_raise _ _)

theorem framed_runMarker (k : Marker) : Framed (runMarker k) := by
  cases k with
  | soi => exact framed_look_bind fun _ => framed_raise _ _
  | eoi => exact framed_eoi
  | rst n => exact framed_rst n
  | sof0 => exact framed_segment (framed_sof _)
  | sof1 => exact framed_segment (framed_sof _)
  | sof2 => exact framed_segment (framed_sof _)
  | dht => exact framed_segment framed_dht
  | dqt => exact framed_segment framed_dqt
  | dri => exact framed_segment framed_dri
  | sos => exact framed_segment framed_sos
  | app n => exact framed_ite (framed_segment framed_app14) (framed_segment framed_ignore)
  | com => exact framed_segment framed_ignore

theorem framed_runElement (k : Marker) : Framed (runElement k) :=
  framed_look_bind fun _ => framed_ite (framed_runMarker k) (framed_check fun _ => framed_alter fun _ => rfl)

theorem framed_firstElement : Framed firstElement :=
  (framed_readFull 2).bind fun _ => framed_look_bind fun _ => framed_check fun _ => framed_alter fun _ => rfl

theorem framed_jpegStep : Framed jpegStep := by
  refine framed_look_bind fun _ => framed_ite (framed_nextMarker.bind fun m => ?_) framed_firstElement
  split
  · exact framed_runMarker _
  · exact framed_raise _ _

theorem framed_jpegLoop (k : Nat) : Framed (jpegLoop k) := by
  induction k with
  | zero => exact framed_pure ()
  | succ k ih =>
    exact framed_look_bind fun _ => framed_ite (framed_pure ()) (framed_jpegStep.bind fun _ => ih)

theorem framed_requireDecoding : Framed requireDecoding := ⟨fun _ _ => keeps_requireDecoding⟩

/-- A command of the JPEG decoder. -/
theorem framed_decoding {m : Exec Unit} (hm : Framed m) : Framed (do requireDecoding; failingJpeg m) :=
  framed_requireDecoding.bind fun _ => hm.onRaise fun _ => rfl

/-! ## LZW decode (46_lzw.md R371 to R379) -/

/-- A raw byte is taken only where there is one. -/
theorem framed_rawByte : Framed rawByte := by
  refine ⟨fun P h s hs => ?_⟩
  rw [rawByte, exec_look_bind, exec_check]
  split_ifs with hn
  · exact hs
  · exact h.take s 1 hs (not_le.mp hn)

theorem framed_sbByte : Framed sbByte :=
  framed_look_bind fun _ => framed_ite (framed_pure none) <|
    have rest : Framed (do
        let sb ← look (·.sub)
        if sb.term then pure none
        else do
          let b ← rawByte
          alter (·.setSub (sb.rem - 1) false)
          pure (some b)) :=
      framed_look_bind fun _ => framed_ite (framed_pure none)
        (framed_rawByte.bind fun _ => framed_alter_bind (fun _ => rfl) fun _ => framed_pure _)
    framed_ite (framed_rawByte.bind fun _ => framed_alter_bind (fun _ => rfl) fun _ => rest) rest

theorem framed_skipToTerminator : Framed skipToTerminator :=
  framed_look_bind fun _ => framed_loopFuel (framed_sbByte.bind fun _ => framed_pure _) _

theorem framed_fillCode (k w : Nat) : Framed (fillCode k w) := by
  induction k with
  | zero => exact framed_pure true
  | succ k ih =>
    refine framed_look_bind fun _ => framed_ite (framed_sbByte.bind fun b => ?_) (framed_pure true)
    cases b with
    | none => exact framed_pure false
    | some v => exact framed_alter_bind (fun _ => rfl) fun _ => ih

theorem framed_readCode (w : Nat) : Framed (readCode w) :=
  (framed_fillCode 2 w).bind fun _ => framed_ite
    (framed_look_bind fun _ => framed_alter_bind (fun _ => rfl) fun _ => framed_pure _) (framed_pure none)

theorem boundary_lzdAdd (s : State) (p : BitVec 12) (v : Byte) : (s.lzdAdd p v).boundary = s.boundary := by
  unfold State.lzdAdd
  split <;> rfl

theorem boundary_addString (s : State) (a : Nat) (bs : List Byte) (p : BitVec 12) (v : Byte) (q : Option (BitVec 12)) :
    (((s.storeIdx a bs).lzdAdd p v).lzdPrev q).boundary = s.boundary :=
  boundary_lzdAdd (s.storeIdx a bs) p v

theorem framed_dataCode (cc npix cnt code : Nat) : Framed (dataCode cc npix cnt code) := by
  refine framed_look_bind fun z => ?_
  cases z.prev with
  | none => exact framed_check fun _ => framed_alter_bind (fun _ => rfl) fun _ => framed_pure _
  | some p =>
    exact framed_check fun _ => framed_alter_bind (fun s => boundary_addString s cnt _ p _ _) fun _ =>
      framed_pure _

theorem framed_codeLoop (bitDepth npix k cnt : Nat) : Framed (codeLoop bitDepth npix k cnt) := by
  induction k generalizing cnt with
  | zero => exact framed_pure _
  | succ k ih =>
    refine framed_ite (framed_look_bind fun w => (framed_readCode w).bind fun c => ?_) (framed_pure _)
    cases c with
    | none => exact framed_pure _
    | some code =>
      exact framed_ite (framed_alter_bind (fun _ => rfl) fun _ => ih cnt)
        (framed_ite (framed_pure _) ((framed_dataCode _ _ _ _).bind fun _ => ih _))

theorem framed_lzwDecode (bitDepth npix : Nat) : Framed (lzwDecode bitDepth npix) :=
  framed_check fun _ => framed_alter_bind (fun _ => rfl) fun _ => framed_look_bind fun _ =>
    (framed_codeLoop _ _ _ _).bind fun _ => framed_skipToTerminator.bind fun _ =>
      framed_alter_bind (fun _ => rfl) fun _ => framed_pure _

/-! ## GIF decode (48_gif.md R430 to R450) -/

theorem framed_gRead (n : Nat) : Framed (gRead n) := by
  refine ⟨fun P h s hs => ?_⟩
  rw [gRead_eq]
  split_ifs with hn
  · exact hs
  · exact h.take s n hs (not_lt.mp hn)

theorem framed_readColours (n : Nat) : Framed (readColours n) := (framed_gRead _).bind fun _ => framed_pure _

theorem framed_gifScreen : Framed gifScreen :=
  (framed_gRead 7).bind fun _ => framed_check fun _ => framed_look_bind fun _ => framed_check fun _ =>
    framed_alter_bind (fun _ => rfl) fun _ =>
      have last (n : Nat) : Framed (do alter (·.clearCanvas n); alter (·.setGifState .sections)) :=
        framed_alter_bind (fun _ => rfl) fun _ => framed_alter fun _ => rfl
      framed_ite ((framed_readColours _).bind fun _ => framed_alter_bind (fun _ => rfl) fun _ => last _) (last _)

theorem framed_gifHeader : Framed gifHeader :=
  (framed_gRead 6).bind fun _ => framed_check fun _ => framed_gifScreen

theorem framed_graphicControl : Framed graphicControl :=
  (framed_gRead 6).bind fun _ => framed_check fun _ => framed_check fun _ => framed_alter fun _ => rfl

theorem framed_skipExtension : Framed skipExtension := framed_alter_bind (fun _ => rfl) fun _ => framed_skipToTerminator

theorem framed_compositePixel (d : ImageDesc) (gc : GraphicControl) (r y x : Nat) :
    Framed (compositePixel d gc r y x) :=
  framed_look_bind fun _ => framed_ite (framed_pure ()) (framed_check fun _ => framed_alter fun _ => rfl)

theorem framed_composite (d : ImageDesc) (gc : GraphicControl) : Framed (composite d gc) :=
  framed_forEach (fun _ => framed_forUpTo (framed_compositePixel d gc _ _) _) _

theorem framed_imageTable (d : ImageDesc) : Framed (imageTable d) :=
  framed_ite ((framed_readColours _).bind fun _ => framed_alter fun _ => rfl)
    (framed_look_bind fun _ => framed_raiseIf _ _ _)

theorem boundary_disposePrevious (s : State) : s.disposePrevious.boundary = s.boundary := by
  unfold State.disposePrevious
  split_ifs <;> rfl

theorem framed_imageSection : Framed imageSection :=
  (framed_gRead 9).bind fun _ => (framed_imageTable _).bind fun _ => framed_look_bind fun _ => framed_check fun _ =>
    (framed_gRead 1).bind fun _ => (framed_lzwDecode _ _).bind fun _ => framed_alter_bind (fun _ => rfl) fun _ =>
      framed_look_bind fun _ => framed_alter_bind boundary_disposePrevious fun _ =>
        framed_optional_bind (framed_alter fun _ => rfl) fun _ => (framed_composite _ _).bind fun _ =>
          framed_alter fun _ => rfl

theorem framed_runSection (sec : Sect) : Framed (runSection sec) := by
  cases sec with
  | image => exact framed_imageSection
  | graphicControl => exact framed_graphicControl
  | trailer => exact framed_alter fun _ => rfl
  | comment => exact framed_skipExtension
  | application => exact framed_skipExtension
  | plainText => exact framed_skipExtension
  | otherExt _ => exact framed_skipExtension

theorem framed_fetchSection : Framed fetchSection :=
  (framed_gRead 1).bind fun _ => framed_ite (framed_pure _) (framed_ite
    ((framed_gRead 1).bind fun _ => framed_pure _) (framed_check fun _ => framed_pure _))

theorem framed_gifStep : Framed gifStep :=
  framed_fetchSection.bind fun _ => (framed_runSection _).bind fun _ => framed_pure _

theorem framed_failingGif {α : Type} {m : Exec α} (hm : Framed m) : Framed (failingGif m) := hm.onRaise fun _ => rfl

theorem framed_gifLoop (k : Nat) (f : Bool) : Framed (gifLoop k f) := by
  induction k generalizing f with
  | zero => exact framed_pure f
  | succ k ih =>
    exact framed_look_bind fun _ => framed_ite ((framed_failingGif framed_gifStep).bind fun _ => ih _) (framed_pure f)

theorem framed_requireGif (st : GifState) : Framed (requireGif st) := ⟨fun _ _ => keeps_requireGif st⟩

/-- A command of the GIF decoder in state `st`. -/
theorem framed_inGifState {α : Type} (st : GifState) {m : Exec α} (hm : Framed m) :
    Framed (do alter (·.setFrame false); requireGif st; failingGif m) :=
  framed_alter_bind (fun _ => rfl) fun _ => (framed_requireGif st).bind fun _ => framed_failingGif hm

/-! ## Output, bit writer, Huffman encode (40_bitcursor.md R170 to R172, 41_huffman.md R200, R201) -/

theorem framed_out (b : Byte) : Framed (out b) := ⟨fun _ h => h.out b⟩

theorem framed_outAll (bs : List Byte) : Framed (outAll bs) := framed_forEach framed_out bs

theorem framed_emitLoop (k : Nat) : Framed (emitLoop k) := by
  induction k with
  | zero => exact framed_pure ()
  | succ k ih =>
    exact framed_look_bind fun _ => (framed_out _).bind fun _ =>
      framed_optional_bind (framed_out 0) fun _ => framed_alter_bind (fun _ => rfl) fun _ => ih

theorem framed_emitBits (len : Nat) (code : Word) : Framed (emitBits len code) :=
  framed_alter_bind (fun _ => rfl) fun _ => framed_look_bind fun _ => framed_emitLoop _

theorem framed_flushBits : Framed flushBits :=
  framed_look_bind fun _ => framed_optional_bind (framed_emitBits _ _) fun _ => framed_alter fun _ => rfl

theorem framed_huffEncode (t : HuffTable) (v : Byte) : Framed (huffEncode t v) :=
  framed_check fun _ => framed_emitBits _ _

theorem framed_emitValue (t : HuffTable) (run : Nat) (v : Int) : Framed (emitValue t run v) :=
  framed_check fun _ => (framed_huffEncode _ _).bind fun _ => framed_ite (framed_emitBits _ _) (framed_pure ())

/-! ## JPEG encode (45_jpeg_encode.md R340 to R350) -/

theorem framed_scaleTables (q : Nat) : Framed (scaleTables q) := ⟨fun _ h => keeps_scaleTables h.blocks q⟩

theorem framed_quant (q : Nat) : Framed (quant q) := ⟨fun _ h => keeps_quant h.blocks q⟩

theorem framed_encodeAc (t : HuffTable) (zs : List Word) (run : Nat) : Framed (encodeAc t zs run) := by
  induction zs generalizing run with
  | nil => exact framed_ite (framed_huffEncode _ _) (framed_pure ())
  | cons z zs ih =>
    exact framed_ite (ih _) ((framed_forUpTo (fun _ => framed_huffEncode _ _) _).bind fun _ =>
      (framed_emitValue _ _ _).bind fun _ => ih 0)

theorem framed_encodeBlock (t : Nat) (pred : Word) : Framed (encodeBlock t pred) :=
  framed_look_bind fun _ => (framed_emitValue _ _ _).bind fun _ => (framed_encodeAc _ _ _).bind fun _ => framed_pure _

theorem framed_encodeComponent (c t tx ty : Nat) (pred : Word) : Framed (encodeComponent c t tx ty pred) :=
  framed_alter_bind (fun s => (boundary_setBlk (s.setBlk _) _).trans (boundary_setBlk s _)) fun _ =>
    (framed_quant _).bind fun _ => framed_encodeBlock _ _

theorem framed_encodeTile (tx ty : Nat) (p : Preds) : Framed (encodeTile tx ty p) :=
  (framed_encodeComponent _ _ _ _ _).bind fun _ => (framed_encodeComponent _ _ _ _ _).bind fun _ =>
    (framed_encodeComponent _ _ _ _ _).bind fun _ => framed_pure _

theorem framed_encodeTiles (ts : List (Nat × Nat)) (p : Preds) : Framed (encodeTiles ts p) := by
  induction ts generalizing p with
  | nil => exact framed_pure ()
  | cons t ts ih => exact (framed_encodeTile _ _ _).bind fun _ => ih _

/-! ## LZW encode (46_lzw.md R381 to R385) -/

theorem framed_onLze (f : LzwEnc → LzwEnc) : Framed (alter (·.onLze f)) := framed_alter fun _ => rfl

theorem framed_putByte (b : Byte) : Framed (putByte b) :=
  framed_alter_bind (fun _ => rfl) fun _ => framed_look_bind fun _ => framed_ite
    ((framed_out _).bind fun _ => (framed_outAll _).bind fun _ => framed_alter fun _ => rfl) (framed_pure ())

theorem framed_packLoop (k : Nat) : Framed (packLoop k) := by
  induction k with
  | zero => exact framed_pure ()
  | succ k ih =>
    exact framed_look_bind fun _ => (framed_putByte _).bind fun _ => framed_alter_bind (fun _ => rfl) fun _ => ih

theorem framed_emitCode (code : Nat) : Framed (emitCode code) :=
  framed_alter_bind (fun _ => rfl) fun _ => framed_look_bind fun _ => framed_packLoop _

theorem framed_encodeLoop (bitDepth : Nat) (vs : List Byte) (p : BitVec 12) (c : Nat) :
    Framed (encodeLoop bitDepth vs p c) := by
  induction vs generalizing p c with
  | nil => exact framed_pure _
  | cons v vs ih =>
    refine framed_look_bind fun z => ?_
    cases z.lookup p v with
    | some q => exact ih _ _
    | none =>
      exact (framed_emitCode _).bind fun _ => framed_ite ((framed_onLze _).bind fun _ => ih _ _)
        ((framed_emitCode _).bind fun _ => (framed_onLze _).bind fun _ => ih _ _)

theorem framed_encodeFinish : Framed encodeFinish :=
  framed_look_bind fun _ => framed_optional_bind (framed_putByte _) fun _ =>
    (framed_onLze _).bind fun _ => framed_look_bind fun _ =>
      framed_ite ((framed_out _).bind fun _ => (framed_outAll _).bind fun _ => framed_out 0) (framed_out 0)

theorem framed_encodeData (bitDepth : Nat) (vs : List Byte) : Framed (encodeData bitDepth vs) := by
  cases vs with
  | nil => exact framed_pure 0
  | cons v vs =>
    exact (framed_encodeLoop _ _ _ _).bind fun _ => (framed_emitCode _).bind fun _ =>
      (framed_onLze _).bind fun _ => framed_pure _

theorem framed_lzwEncode (bitDepth n : Nat) : Framed (lzwEncode bitDepth n) :=
  framed_check fun _ => framed_look_bind fun _ => framed_check fun _ => (framed_onLze _).bind fun _ =>
    (framed_emitCode _).bind fun _ => (framed_encodeData _ _).bind fun _ => (framed_emitCode _).bind fun _ =>
      framed_encodeFinish.bind fun _ => framed_pure _

/-! ## Colour quantiser and GIF encode (47_octree.md R401 to R408, 48_gif.md R460 to R466) -/

theorem framed_octAdd (p : Word) : Framed (octAdd p) := ⟨fun _ h => keeps_octAdd h.octree p⟩

theorem framed_addPixels (n : Nat) : Framed (addPixels n) := ⟨fun _ h => keeps_addPixels h.octree n⟩

theorem framed_octPalette : Framed octPalette := ⟨fun _ h => keeps_octPalette h.octree⟩

theorem framed_octIndex (p : Word) : Framed (octIndex p) := ⟨fun _ _ => keeps_octIndex p⟩

theorem framed_octQuantize (req : Nat) : Framed (octQuantize req) := ⟨fun _ h => keeps_octQuantize h.octree req⟩

theorem framed_requireDims : Framed requireDims := ⟨fun _ _ => keeps_requireDims⟩

theorem framed_netscape : Framed netscape :=
  framed_look_bind fun _ => (framed_outAll _).bind fun _ => framed_alter fun _ => rfl

end Exec

/-! ## Whole instructions -/

/-- `i` is a command, or an element of a stream run as one, with pseudocode that is framed. -/
def FramedCommand (i : Instr) : Prop :=
  ∃ (opc : Byte) (body : Exec Unit), (∀ s, exec i s = runCmd opc body s) ∧ Exec.Framed body

open Exec

theorem framedCommand_jpegElement {i : Instr} (k : Marker) (h : ∀ s, exec i s = runJpegElement k s) :
    FramedCommand i :=
  ⟨_, _, h, framed_decoding (framed_runElement k)⟩

theorem framedCommand_gifElement {i : Instr} (sec : Sect) (h : ∀ s, exec i s = runGifElement sec s) :
    FramedCommand i :=
  ⟨_, _, h, framed_inGifState .sections (framed_runSection sec)⟩

theorem framedCommand_alter {i : Instr} (opc : Byte) (f : State → State)
    (hexec : ∀ s, exec i s = runCmd opc (alter f) s) (hf : ∀ s, (f s).boundary = s.boundary) : FramedCommand i :=
  ⟨opc, _, hexec, framed_alter hf⟩

theorem framedCommand_bcBits (n : BitVec 5) : FramedCommand (.bcBits n) :=
  ⟨0x13, _, fun _ => rfl, framed_guard fun hn => (framed_decodeBits (not_lt.mp hn)).bind fun _ =>
    framed_alter fun _ => rfl⟩

theorem framedCommand_bcEnsure (n : BitVec 5) : FramedCommand (.bcEnsure n) :=
  ⟨0x11, _, fun _ => rfl, framed_guard fun hn => framed_ensureBits (not_lt.mp (not_or.mp hn).2)⟩

theorem framedCommand_jpgEncode : FramedCommand .jpgEncode :=
  ⟨0x58, _, fun _ => rfl, framed_look_bind fun _ => framed_check fun _ => framed_check fun _ => framed_check fun _ =>
    (framed_scaleTables _).bind fun _ => framed_loadStd.bind fun _ => framed_alter_bind (fun _ => rfl) fun _ =>
      framed_look_bind fun _ => (framed_outAll _).bind fun _ => (framed_encodeTiles _ _).bind fun _ =>
        framed_flushBits.bind fun _ => (framed_outAll _).bind fun _ => framed_alter fun _ => rfl⟩

theorem framedCommand_gifDecode : FramedCommand .gifDecode :=
  ⟨0x83, _, fun _ => rfl, framed_alter_bind (fun _ => rfl) fun _ => framed_look_bind fun _ => framed_check fun _ =>
    framed_optional_bind (framed_failingGif framed_gifHeader) fun _ => framed_look_bind fun _ =>
      (framed_gifLoop _ _).bind fun _ => framed_alter fun _ => rfl⟩

theorem framedCommand_gifEbegin : FramedCommand .gifEbegin :=
  ⟨0x88, _, fun _ => rfl, framed_look_bind fun _ => framed_check fun _ => framed_check fun _ => framed_check fun _ =>
    framed_requireDims.bind fun _ => (framed_outAll _).bind fun _ => (framed_outAll _).bind fun _ =>
      (framed_outAll _).bind fun _ => framed_alter_bind (fun _ => rfl) fun _ =>
        framed_ite framed_netscape (framed_pure ())⟩

theorem framedCommand_gifEframe : FramedCommand .gifEframe :=
  ⟨0x89, _, fun _ => rfl, framed_look_bind fun _ => framed_check fun _ => framed_check fun _ => framed_check fun _ =>
    framed_requireDims.bind fun _ => (framed_octQuantize _).bind fun _ => framed_look_bind fun _ =>
      (framed_outAll _).bind fun _ => (framed_outAll _).bind fun _ => (framed_outAll _).bind fun _ =>
        (framed_out _).bind fun _ => (framed_lzwEncode _ _).bind fun _ => framed_alter_bind (fun _ => rfl) fun _ =>
          framed_look_bind fun _ => framed_ite framed_netscape (framed_pure ())⟩

/-- Every instruction but the three that reset the state, empty OUT and write PIX. -/
theorem framedCommand_of_ne {i : Instr} (hreset : i ≠ .sysSreset) (hclr : i ≠ .sysOutclr)
    (hasm : i ≠ .jpgAssemble) : FramedCommand i := by
  cases i with
  | sysNop => exact ⟨0x00, _, fun _ => rfl, framed_pure ()⟩
  | sysSreset => exact absurd rfl hreset
  | sysOutclr => exact absurd rfl hclr
  | bcReset => exact ⟨0x10, _, fun _ => rfl, ⟨fun _ h => keeps_alter h.clear⟩⟩
  | bcEnsure n => exact framedCommand_bcEnsure n
  | bcBit => exact ⟨0x12, _, fun _ => rfl, framed_decodeBit.bind fun _ => framed_alter fun _ => rfl⟩
  | bcBits n => exact framedCommand_bcBits n
  | bcRecvext t => exact ⟨0x14, _, fun _ => rfl, (framed_receiveExtend _).bind fun _ => framed_alter fun _ => rfl⟩
  | bcIgnore => exact ⟨0x15, _, fun _ => rfl, framed_look_bind fun _ => framed_ignore _⟩
  | bcReadfull =>
    exact ⟨0x16, _, fun _ => rfl, framed_look_bind fun _ => framed_check fun _ => (framed_readFull _).bind fun _ =>
      framed_alter fun _ => rfl⟩
  | bcRealign => exact ⟨0x17, _, fun _ => rfl, ⟨fun _ h => keeps_alter h.realign⟩⟩
  | bwEmit len =>
    exact ⟨0x18, _, fun _ => rfl, framed_look_bind fun _ => framed_check fun _ => framed_emitBits _ _⟩
  | bwFlush => exact ⟨0x19, _, fun _ => rfl, framed_flushBits⟩
  | hufBuild tc th =>
    exact ⟨0x20, _, fun _ => rfl, (framed_checkSelector _ _).bind fun _ => framed_look_bind fun _ =>
      framed_buildTable _ _ _⟩
  | hufDec tc th =>
    exact ⟨0x21, _, fun _ => rfl, (framed_checkSelector _ _).bind fun _ => (framed_checkBuilt _ _).bind fun _ =>
      framed_look_bind fun _ => (framed_huffDecode _).bind fun _ => framed_alter fun _ => rfl⟩
  | hufEnc tc th =>
    exact ⟨0x22, _, fun _ => rfl, framed_look_bind fun _ => framed_check fun _ =>
      (framed_checkBuilt _ _).bind fun _ => framed_look_bind fun _ => framed_huffEncode _ _⟩
  | hufEncval tc th =>
    exact ⟨0x23, _, fun _ => rfl, (framed_checkSelector _ _).bind fun _ => (framed_checkBuilt _ _).bind fun _ =>
      framed_look_bind fun _ => framed_look_bind fun _ => framed_look_bind fun _ => framed_emitValue _ _ _⟩
  | hufLoadstd => exact ⟨0x24, _, fun _ => rfl, framed_loadStd⟩
  | dctInv => exact framedCommand_alter 0x30 State.idct (fun _ => rfl) fun _ => rfl
  | dctFwd => exact framedCommand_alter 0x31 State.fdct (fun _ => rfl) fun _ => rfl
  | blkLevel => exact framedCommand_alter 0x32 State.level (fun _ => rfl) fun _ => rfl
  | blkClear mask => exact framedCommand_alter 0x33 (·.clearBlocks mask) (fun _ => rfl) fun _ => rfl
  | qtScale => exact ⟨0x40, _, fun _ => rfl, framed_look_bind fun _ => framed_scaleTables _⟩
  | qtDeq slot => exact framedCommand_alter 0x41 (·.dequant slot.toNat) (fun _ => rfl) fun _ => rfl
  | qtQuant slot => exact ⟨0x42, _, fun _ => rfl, framed_quant _⟩
  | jpgInit =>
    refine ⟨0x50, _, fun _ => rfl, ⟨fun _ h => keeps_alter fun s hs => ?_⟩⟩
    exact h.inner s.bcReset _ rfl (h.clear s hs)
  | jpgStep => exact ⟨0x51, _, fun _ => rfl, framed_decoding framed_jpegStep⟩
  | jpgDecode =>
    exact ⟨0x52, _, fun _ => rfl, framed_requireDecoding.bind fun _ => framed_look_bind fun _ =>
      (framed_jpegLoop _).onRaise fun _ => rfl⟩
  | jpgAssemble => exact absurd rfl hasm
  | jpgEncode => exact framedCommand_jpgEncode
  | lzwDec =>
    exact ⟨0x60, _, fun _ => rfl, framed_look_bind fun _ => framed_look_bind fun _ => framed_look_bind fun _ =>
      framed_check fun _ => (framed_lzwDecode _ _).bind fun _ => framed_alter fun _ => rfl⟩
  | lzwEnc =>
    exact ⟨0x61, _, fun _ => rfl, framed_look_bind fun _ => framed_look_bind fun _ => framed_look_bind fun _ =>
      framed_check fun _ => (framed_lzwEncode _ _).bind fun _ => framed_alter fun _ => rfl⟩
  | octReset => exact framedCommand_alter 0x70 State.octReset (fun _ => rfl) fun _ => rfl
  | octAdd => exact ⟨0x71, _, fun _ => rfl, framed_look_bind fun _ => framed_octAdd _⟩
  | octBuild => exact ⟨0x72, _, fun _ => rfl, framed_look_bind fun _ => framed_check fun _ => framed_addPixels _⟩
  | octReduce =>
    exact ⟨0x73, _, fun _ => rfl, framed_look_bind fun _ => framed_check fun _ => framed_alter fun _ => rfl⟩
  | octPalette => exact ⟨0x74, _, fun _ => rfl, framed_octPalette⟩
  | octIndex =>
    exact ⟨0x75, _, fun _ => rfl, framed_look_bind fun _ => (framed_octIndex _).bind fun _ =>
      framed_alter fun _ => rfl⟩
  | octQuantize => exact ⟨0x76, _, fun _ => rfl, framed_look_bind fun _ => framed_octQuantize _⟩
  | gifInit =>
    exact framedCommand_alter 0x80 (fun s => { s.setFrame false with gif := GifCtx.init }) (fun _ => rfl) fun _ => rfl
  | gifHeader => exact ⟨0x81, _, fun _ => rfl, framed_inGifState .awaitHeader framed_gifHeader⟩
  | gifStep =>
    exact ⟨0x82, _, fun _ => rfl, framed_alter_bind (fun _ => rfl) fun _ => (framed_requireGif _).bind fun _ =>
      (framed_failingGif framed_gifStep).bind fun _ => framed_pure ()⟩
  | gifDecode => exact framedCommand_gifDecode
  | gifEbegin => exact framedCommand_gifEbegin
  | gifEframe => exact framedCommand_gifEframe
  | gifEend =>
    exact ⟨0x8A, _, fun _ => rfl, framed_look_bind fun _ => framed_check fun _ => (framed_out _).bind fun _ =>
      framed_alter fun _ => rfl⟩
  | jpegSoi => exact framedCommand_jpegElement .soi fun _ => rfl
  | jpegEoi => exact framedCommand_jpegElement .eoi fun _ => rfl
  | jpegRst n => exact framedCommand_jpegElement (.rst n) fun _ => rfl
  | jpegSof0 => exact framedCommand_jpegElement .sof0 fun _ => rfl
  | jpegSof1 => exact framedCommand_jpegElement .sof1 fun _ => rfl
  | jpegSof2 => exact framedCommand_jpegElement .sof2 fun _ => rfl
  | jpegDht => exact framedCommand_jpegElement .dht fun _ => rfl
  | jpegDqt => exact framedCommand_jpegElement .dqt fun _ => rfl
  | jpegDri => exact framedCommand_jpegElement .dri fun _ => rfl
  | jpegSos => exact framedCommand_jpegElement .sos fun _ => rfl
  | jpegApp0 => exact framedCommand_jpegElement (.app 0) fun _ => rfl
  | jpegApp1 => exact framedCommand_jpegElement (.app 1) fun _ => rfl
  | jpegApp2 => exact framedCommand_jpegElement (.app 2) fun _ => rfl
  | jpegApp3 => exact framedCommand_jpegElement (.app 3) fun _ => rfl
  | jpegApp4 => exact framedCommand_jpegElement (.app 4) fun _ => rfl
  | jpegApp5 => exact framedCommand_jpegElement (.app 5) fun _ => rfl
  | jpegApp6 => exact framedCommand_jpegElement (.app 6) fun _ => rfl
  | jpegApp7 => exact framedCommand_jpegElement (.app 7) fun _ => rfl
  | jpegApp8 => exact framedCommand_jpegElement (.app 8) fun _ => rfl
  | jpegApp9 => exact framedCommand_jpegElement (.app 9) fun _ => rfl
  | jpegApp10 => exact framedCommand_jpegElement (.app 10) fun _ => rfl
  | jpegApp11 => exact framedCommand_jpegElement (.app 11) fun _ => rfl
  | jpegApp12 => exact framedCommand_jpegElement (.app 12) fun _ => rfl
  | jpegApp13 => exact framedCommand_jpegElement (.app 13) fun _ => rfl
  | jpegApp14 => exact framedCommand_jpegElement (.app 14) fun _ => rfl
  | jpegApp15 => exact framedCommand_jpegElement (.app 15) fun _ => rfl
  | jpegCom => exact framedCommand_jpegElement .com fun _ => rfl
  | gifSignature => exact ⟨0x81, _, fun _ => rfl, framed_inGifState .awaitHeader framed_gifScreen⟩
  | gifImage => exact framedCommand_gifElement .image fun _ => rfl
  | gifExtGraphicControl => exact framedCommand_gifElement .graphicControl fun _ => rfl
  | gifExtComment => exact framedCommand_gifElement .comment fun _ => rfl
  | gifExtApplication => exact framedCommand_gifElement .application fun _ => rfl
  | gifExtPlainText => exact framedCommand_gifElement .plainText fun _ => rfl
  | gifExtOther label => exact framedCommand_gifElement (.otherExt label) fun _ => rfl
  | gifTrailer => exact framedCommand_gifElement .trailer fun _ => rfl

/-- Every instruction but SYS.SRESET keeps what the steps of `Frame.Command` keep, however it ends; for SYS.OUTCLR and
JPG.ASSEMBLE the property must also be kept by what these two write (49_system.md R482, 44_jpeg_decode.md R308). -/
theorem exec_keeps {P : State → Prop} (h : Frame.Command P) {i : Instr} {s t : State} (hreset : i ≠ .sysSreset)
    (hclr : i = .sysOutclr → ∀ s, P s → P { s with outLen := 0 })
    (hasm : i = .jpgAssemble → ∀ s, P s → P s.assemble) (hs : P s) (ht : exec i s = .next t) : P t := by
  have hbody : ∃ opc body, (∀ s, exec i s = runCmd opc body s) ∧ Keeps P body := by
    by_cases h1 : i = .sysOutclr
    · subst h1
      exact ⟨0x02, _, fun _ => rfl, keeps_alter (hclr rfl)⟩
    by_cases h2 : i = .jpgAssemble
    · subst h2
      exact ⟨_, _, fun _ => rfl, keeps_bind keeps_look fun _ => keeps_bind keeps_raiseIf fun _ =>
        keeps_bind keeps_raiseIf fun _ => keeps_bind keeps_raiseIf fun _ => keeps_alter (hasm rfl)⟩
    obtain ⟨opc, body, hexec, hb⟩ := framedCommand_of_ne hreset h1 h2
    exact ⟨opc, body, hexec, hb.keeps P h⟩
  obtain ⟨opc, body, hexec, hb⟩ := hbody
  rw [hexec] at ht
  exact hb.runCmd hs (fun u => h.inner u _ rfl) (fun _ u => h.inner u _ rfl) ht

end Sys2Proof.Machine
end

