-- ==== Sys2Proof/Proofs/CommandInvariants.lean ====
section
/-! PROOFS. Three properties of the boundary that every instruction keeps: what only the host writes, that OUT is only
appended to, and that IN_POS stays within IN_LEN (10_state.md R27 to R34, 20_memory.md R81, R82). Each is shown to be
kept by the steps of `Frame.Command`; `exec_keeps` then says it of every instruction. -/

namespace Sys2Proof.Machine

open Sys2Proof

/-! ## What only the host writes -/

/-- From `b` to `c` nothing changed that no command writes, but for what JPG.ASSEMBLE writes. -/
def Boundary.HostKept (i : Instr) (b c : Boundary) : Prop :=
  c.arg0 = b.arg0 ∧ c.arg1 = b.arg1 ∧ c.arg2 = b.arg2 ∧ c.arg3 = b.arg3 ∧ c.inLen = b.inLen ∧
  c.memSel = b.memSel ∧ c.memAddr = b.memAddr ∧ c.octAthresh = b.octAthresh ∧
  c.inp = b.inp ∧ c.hspec = b.hspec ∧ c.caps = b.caps ∧ c.inputs = b.inputs ∧ c.rdata = b.rdata ∧
  (i ≠ .jpgAssemble → c.pixDim = b.pixDim ∧ c.pix = b.pix)

/-- The steps of the two streams write none of it. -/
theorem command_hostKept (i : Instr) (b : Boundary) : Frame.Command (fun t => b.HostKept i t.boundary) where
  toStreamIn := Frame.Reader.streamIn ⟨fun _ _ h => h, fun _ _ _ h => h⟩
  out := Exec.keeps_out ⟨fun _ _ _ h => h⟩
  inner u v huv h := by rw [huv]; exact h

/-- Settles O14: SYS.OUTCLR writes none of it either, and JPG.ASSEMBLE only PIX_DIM and PIX. -/
theorem hostStateKept : Obligations.HostStateKept := by
  unfold Obligations.HostStateKept
  intro i s t hreset ht
  have h : s.boundary.HostKept i t.boundary := by
    refine exec_keeps (command_hostKept i s.boundary) hreset (fun _ _ h => h) (fun hi u h => ?_)
      ⟨rfl, rfl, rfl, rfl, rfl, rfl, rfl, rfl, rfl, rfl, rfl, rfl, rfl, fun _ => ⟨rfl, rfl⟩⟩ ht
    obtain ⟨h0, h1, h2, h3, hlen, hsel, haddr, hth, hinp, hspec, hcaps, hin, hrd, -⟩ := h
    exact ⟨h0, h1, h2, h3, hlen, hsel, haddr, hth, hinp, hspec, hcaps, hin, hrd, fun hne => absurd hi hne⟩
  exact h

/-! ## OUT is only appended to -/

/-- From `b` to `c` OUT was only appended to, and has room for what it holds. -/
structure Boundary.OutGrew (b c : Boundary) : Prop where
  caps : c.caps = b.caps
  mono : b.outLen.toNat ≤ c.outLen.toNat
  fits : c.outLen.toNat ≤ c.caps.outCap
  kept : ∀ a : Nat, a < b.outLen.toNat → Cells.get c.out a = Cells.get b.out a

theorem Boundary.OutGrew.of_grewTo {b : Boundary} {s t : State} (h : b.OutGrew s.boundary) (hst : s.GrewTo t) :
    b.OutGrew t.boundary where
  caps := hst.caps.trans h.caps
  mono := h.mono.trans hst.mono
  fits := hst.fits
  kept a ha := (hst.kept a (ha.trans_le h.mono)).trans (h.kept a ha)

theorem command_outGrew {b : Boundary} (hcap : b.caps.outCap < 2 ^ 32) :
    Frame.Command (fun t => b.OutGrew t.boundary) where
  toStreamIn := Frame.Reader.streamIn
    ⟨fun _ _ h => ⟨h.caps, h.mono, h.fits, h.kept⟩, fun _ _ _ h => ⟨h.caps, h.mono, h.fits, h.kept⟩⟩
  out x s h := by
    rw [out_eq]
    split_ifs with hfull
    · exact h
    · have hcaps : s.caps = b.caps := h.caps
      exact h.of_grewTo (Exec.grewTo_appendOut x (lt_of_le_of_ne h.fits hfull) (by rwa [hcaps])).1
  inner u v huv h := by rw [huv]; exact h

/-- Settles O15: the only writes to OUT are those of `out`. -/
theorem outIsAppendOnly : Obligations.OutIsAppendOnly := by
  unfold Obligations.OutIsAppendOnly
  intro i s t hreset hclr _ hlen hcap ht
  have h : s.boundary.OutGrew t.boundary :=
    exec_keeps (command_outGrew (b := s.boundary) hcap) hreset (fun hi => absurd hi hclr)
      (fun _ _ h => ⟨h.caps, h.mono, h.fits, h.kept⟩) ⟨rfl, le_rfl, hlen, fun _ _ => rfl⟩ ht
  exact ⟨h.mono, h.fits, h.kept⟩

/-! ## IN_POS stays within IN_LEN -/

/-- `State.overshoot` counts the buffered bytes as the pseudocode of R166 does. -/
theorem overshoot_eq_bufferedSize (s : State) : s.overshoot = bufferedSize s.bcAcc (s.bcNbits / 8) := by
  unfold State.overshoot
  induction s.bcNbits / 8 with
  | zero => rfl
  | succ k ih =>
    have hbyte : (s.bcAcc >>> (8 * k)).setWidth 8 = 0xFF#8 ↔ s.bcAcc.toNat / 256 ^ k % 256 = 255 := by
      rw [← BitVec.toNat_inj, BitVec.toNat_setWidth, BitVec.toNat_ushiftRight, Nat.shiftRight_eq_div_pow, pow_mul]
      rfl
    rw [List.range_succ, List.map_append, List.sum_append, ih, bufferedSize, List.map_singleton, List.sum_singleton]
    simp only [hbyte]

theorem overshoot_eq_zero {s : State} (h : s.bcNbits = 0) : s.overshoot = 0 := by
  rw [State.overshoot, h]
  rfl

theorem bufferedSize_mono (acc : Word) : Monotone (bufferedSize acc) :=
  monotone_nat_of_le_succ fun _ => Nat.le_add_right _ _

/-- The byte buffered before the newest is the one that was the newest before it. -/
theorem shiftRight_shiftLeft_or (acc : Word) (c : Byte) :
    ((acc <<< 8 ||| c.setWidth 32) >>> 8).setWidth 8 = acc.setWidth 8 := by
  ext i hi
  have hi' : 8 + i < 32 := by omega
  simp [hi', BitVec.getLsbD_eq_getElem (show i < 32 by omega)]

/-- A fetched byte adds its own size to that of the at most one whole byte buffered before. -/
theorem overshoot_feed {s : State} (c : Byte) (k : Nat) (hb : s.bcNbits < 16) :
    (s.feed c k).overshoot = s.overshoot + if c = 0xFF then 2 else 1 := by
  have hdiv : (s.bcNbits + 8) / 8 = s.bcNbits / 8 + 1 := by omega
  rw [overshoot_eq_bufferedSize, overshoot_eq_bufferedSize]
  show bufferedSize (s.bcAcc <<< 8 ||| c.setWidth 32) ((s.bcNbits + 8) / 8) = _
  rw [hdiv]
  obtain h | h : s.bcNbits / 8 = 0 ∨ s.bcNbits / 8 = 1 := by omega
  · rw [h]
    simp [bufferedSize]
  · rw [h]
    simp [bufferedSize, shiftRight_shiftLeft_or]
    omega

theorem toNat_add_wordN {p l : Word} {n : Nat} (h : p.toNat + n ≤ l.toNat) : (p + wordN n).toNat = p.toNat + n := by
  have hl := l.isLt
  rw [wordN, BitVec.toNat_add, BitVec.toNat_ofNat, Nat.add_mod_mod]
  exact Nat.mod_eq_of_lt (by omega)

theorem toNat_sub_wordN {p : Word} {n : Nat} (h : n ≤ p.toNat) : (p - wordN n).toNat = p.toNat - n := by
  have hp := p.isLt
  have hn : (wordN n).toNat = n := Nat.mod_eq_of_lt (by omega)
  rw [BitVec.toNat_sub_of_le (by rw [BitVec.le_def, hn]; exact h), hn]

/-- The bit buffer holds at most 23 bits, taken from before IN_POS, and IN_POS is within IN_LEN. -/
structure State.InRange (s : State) : Prop where
  nbits : s.bcNbits ≤ 23
  pos : s.inPos.toNat ≤ s.inLen.toNat
  taken : s.overshoot ≤ s.inPos.toNat

section
variable {s : State} (h : s.InRange)
include h

theorem State.InRange.feed {c : Byte} {k : Nat} (hb : s.bcNbits < 16) (hk : s.inPos.toNat + k ≤ s.inLen.toNat)
    (hc : (if c = 0xFF then 2 else 1) ≤ k) : (s.feed c k).InRange := by
  have hpos : (s.feed c k).inPos.toNat = s.inPos.toNat + k := toNat_add_wordN hk
  obtain ⟨-, -, htaken⟩ := h
  refine ⟨?_, hpos.trans_le hk, ?_⟩
  · show s.bcNbits + 8 ≤ 23
    omega
  · rw [hpos, overshoot_feed c k hb]
    omega

theorem State.InRange.dropBits (n : Nat) : (s.dropBits n).InRange := by
  refine ⟨(Nat.sub_le _ n).trans h.nbits, h.pos, le_trans ?_ h.taken⟩
  rw [overshoot_eq_bufferedSize, overshoot_eq_bufferedSize]
  exact bufferedSize_mono s.bcAcc (Nat.div_le_div_right (Nat.sub_le _ n))

theorem State.InRange.bcReset : s.bcReset.InRange :=
  ⟨Nat.zero_le _, h.pos, (overshoot_eq_zero rfl).trans_le (Nat.zero_le _)⟩

theorem State.InRange.realign : s.realign.InRange := by
  refine ⟨Nat.zero_le _, le_trans ?_ h.pos, (overshoot_eq_zero rfl).trans_le (Nat.zero_le _)⟩
  have ht := h.taken
  rw [overshoot_eq_bufferedSize] at ht
  exact (toNat_sub_wordN ht).trans_le (Nat.sub_le _ _)

theorem State.InRange.advance {n : Nat} (hn : s.inPos.toNat + n ≤ s.inLen.toNat) : (s.advance n).InRange := by
  have hpos : (s.advance n).inPos.toNat = s.inPos.toNat + n := toNat_add_wordN hn
  exact ⟨h.nbits, hpos.trans_le hn, h.taken.trans (hpos ▸ Nat.le_add_right _ n)⟩

end

theorem State.InRange.of_boundary {s t : State} (hst : t.boundary = s.boundary) (h : s.InRange) : t.InRange := by
  have hpos : t.inPos = s.inPos := congrArg Boundary.inPos hst
  have hlen : t.inLen = s.inLen := congrArg Boundary.inLen hst
  have hacc : t.bcAcc = s.bcAcc := congrArg Boundary.bcAcc hst
  have hnb : t.bcNbits = s.bcNbits := congrArg Boundary.bcNbits hst
  refine ⟨hnb ▸ h.nbits, ?_, ?_⟩
  · rw [hpos, hlen]
    exact h.pos
  · rw [State.overshoot, hacc, hnb, hpos]
    exact h.taken

theorem triple_fetchByte_inRange :
    Exec.Triple (fun s => s.InRange ∧ s.bcNbits < 16) fetchByte (fun _ => State.InRange) State.InRange := by
  intro s ⟨hs, hb⟩
  rw [fetchByte_eq]
  dsimp only
  split_ifs with h1 h2 h3 h4
  · exact hs
  · exact hs
  · exact hs
  · exact hs.feed hb (not_le.mp h3) (by split <;> decide)
  · exact hs.feed hb (not_le.mp h1) (by rw [if_neg h2])

theorem command_inRange : Frame.Command State.InRange where
  fetch := triple_fetchByte_inRange
  drop _ n h := h.dropBits n
  clear _ h := h.bcReset
  realign _ h := h.realign
  take _ _ h hn := h.advance hn
  out := Exec.keeps_out ⟨fun _ _ _ h => ⟨h.nbits, h.pos, h.taken⟩⟩
  inner _ _ := State.InRange.of_boundary

theorem inRange_reset : State.reset.InRange := ⟨Nat.zero_le _, le_rfl, le_rfl⟩

/-- Settles O13: every step that reads IN leaves IN_POS in range, and SYS.SRESET sets it to 0. -/
theorem inPosStaysInRange : Obligations.InPosStaysInRange := by
  unfold Obligations.InPosStaysInRange
  intro i s t hnb hpos htaken ht
  have h : t.InRange := by
    by_cases hi : i = .sysSreset
    · subst hi
      cases ht
      exact ⟨inRange_reset.nbits, inRange_reset.pos, inRange_reset.taken⟩
    · exact exec_keeps command_inRange hi (fun _ _ h => ⟨h.nbits, h.pos, h.taken⟩)
        (fun _ _ h => ⟨h.nbits, h.pos, h.taken⟩) ⟨hnb, hpos, htaken⟩ ht
  exact ⟨h.nbits, h.pos, h.taken⟩

end Sys2Proof.Machine
end

