-- ==== Sys2Proof/Proofs/MemoryWindow.lean ====
section
/-! PROOFS. The memory window: which spaces the host may write, what every element reads after a write of one of them,
and what each case of a window access comes to (20_memory.md R80 to R86, 60_exceptions.md R514). -/

namespace Sys2Proof.Machine

open Sys2Proof

/-! ## The spaces the host may write (20_memory.md R80) -/

theorem spaceWritable_eq_isSome (space : Nat) : spaceWritable space = (writableWidth space).isSome := by
  unfold spaceWritable
  split
  on_goal -1 => simp_all [writableWidth] -- a space that is not listed has no width
  all_goals rfl

theorem spaceWritable_of_width {space k : Nat} (h : writableWidth space = some k) : spaceWritable space = true := by
  rw [spaceWritable_eq_isSome, h]
  rfl

theorem spaceWritable_of_no_width {space : Nat} (h : writableWidth space = none) : spaceWritable space = false := by
  rw [spaceWritable_eq_isSome, h]
  rfl

/-! ## One element written (20_memory.md R85) -/

section
variable {s : State} {w : Word} {space k a : Nat}

/-- A write of an element touches the memory only. -/
theorem writeElem_eq_with_mem : writeElem s space a w = { s with mem := (writeElem s space a w).mem } := by
  unfold writeElem
  split <;> rfl

/-- MEM_ADDR is no element. -/
theorem readElem_bumpAddr (s : State) (space a : Nat) : readElem s.bumpAddr space a = readElem s space a := rfl

/-- An element of a space, as the window shows it, after a write of the low bits of `w` to one element. -/
theorem setWidth_get_set {c : Cells k} (hc : c.wf) (b : Nat) :
    (Cells.get (Cells.set c a (w.setWidth k)) b).setWidth 32 =
      if b = a then BitVec.ofNat 32 (w.toNat % 2 ^ k) else (Cells.get c b).setWidth 32 := by
  rw [Cells.get_set c a _ b hc, apply_ite (BitVec.setWidth 32), setWidth_setWidth_eq_ofNat_mod]

/-- The same for a space of whole words. -/
theorem get_set_word {c : Cells 32} (hc : c.wf) (b : Nat) :
    Cells.get (Cells.set c a w) b = if b = a then BitVec.ofNat 32 (w.toNat % 2 ^ 32) else Cells.get c b := by
  simpa only [BitVec.setWidth_eq] using setWidth_get_set (w := w) (a := a) hc b

theorem readElem_writeElem_same_space (hwf : s.mem.wf) (hk : writableWidth space = some k) (b : Nat) :
    readElem (writeElem s space a w) space b =
      if b = a then BitVec.ofNat 32 (w.toNat % 2 ^ k) else readElem s space b := by
  obtain ⟨hinp, -, hblk, hzz, hqt, hspec, hpix, hidx, hpal, -⟩ := hwf
  have hwidth {n} (h : writableWidth space = some n) : k = n := Option.some.inj (hk.symm.trans h)
  unfold writeElem
  split
  · rw [hwidth rfl]; exact setWidth_get_set hinp b
  · rw [hwidth rfl]; exact get_set_word hblk b
  · rw [hwidth rfl]; exact get_set_word hzz b
  · rw [hwidth rfl]; exact setWidth_get_set hqt b
  · rw [hwidth rfl]; exact setWidth_get_set hspec b
  · rw [hwidth rfl]; exact get_set_word hpix b
  · rw [hwidth rfl]; exact setWidth_get_set hidx b
  · rw [hwidth rfl]; exact get_set_word hpal b
  · simp_all [writableWidth]

theorem readElem_writeElem_of_ne {space' : Nat} (h : space' ≠ space) (b : Nat) :
    readElem (writeElem s space a w) space' b = readElem s space' b := by
  unfold writeElem
  split
  all_goals
    unfold readElem
    split
  any_goals exact absurd rfl h
  all_goals rfl

theorem readElem_writeElem_other (hwf : s.mem.wf) (hk : writableWidth space = some k) {space' b : Nat}
    (h : space' ≠ space ∨ b ≠ a) : readElem (writeElem s space a w) space' b = readElem s space' b := by
  by_cases hspace : space' = space
  · subst hspace
    rw [readElem_writeElem_same_space hwf hk, if_neg (h.resolve_left fun hne => hne rfl)]
  · exact readElem_writeElem_of_ne hspace b

end

/-! ## The cases of a window access (20_memory.md R84 to R86, 60_exceptions.md R514) -/

section
variable {s : State} {w : Word}

theorem windowOk_of_lt (h : s.memAddr.toNat < spaceSize s.caps s.memSel.toNat) : s.windowOk = true :=
  decide_eq_true h

theorem windowOk_of_le (h : spaceSize s.caps s.memSel.toNat ≤ s.memAddr.toNat) : s.windowOk = false :=
  decide_eq_false (not_lt.mpr h)

/-- With no fault pending and no scan open, BadMemAccess is recorded with opcode byte FF, and that is all. -/
theorem windowFault_eq (hf : s.status.fault = false) (hscan : s.inScan = false) :
    windowFault s = { s with
      err := 0x00FF0456
      errInfo := s.windowInfo
      status := { s.status with fault := true, done := false } } := by
  have herr : errWord 0xFF .badMemAccess = 0x00FF0456 := rfl
  simp only [windowFault, enterFault, hf, herr, hscan, Bool.false_eq_true, if_false]

theorem windowRead_inside (h : s.windowOk = true) :
    windowRead s = { s.bumpAddr with rdata := readElem s s.memSel.toNat s.memAddr.toNat } := if_pos h

theorem windowRead_outside_faulted (h : s.windowOk = false) (hf : s.status.fault = true) :
    windowRead s = { s with rdata := 0 } := by
  rw [windowRead, h, hf]
  rfl

theorem windowRead_outside (h : s.windowOk = false) (hf : s.status.fault = false) :
    windowRead s = { windowFault s with rdata := 0 } := by
  rw [windowRead, h, hf]
  rfl

theorem windowWrite_faulted (hf : s.status.fault = true) : windowWrite s w = s := if_pos hf

theorem windowWrite_inside (hf : s.status.fault = false) (h : s.windowOk = true)
    (hspace : spaceWritable s.memSel.toNat = true) :
    windowWrite s w = (writeElem s s.memSel.toNat s.memAddr.toNat w).bumpAddr := by
  rw [windowWrite, hf, if_neg Bool.false_ne_true, if_pos ⟨h, hspace⟩]

theorem windowWrite_refused (hf : s.status.fault = false)
    (h : spaceWritable s.memSel.toNat = false ∨ s.windowOk = false) : windowWrite s w = windowFault s := by
  rw [windowWrite, hf, if_neg Bool.false_ne_true, if_neg]
  rintro ⟨hok, hspace⟩
  simp [hok, hspace] at h

theorem hostRead_window : hostRead 0x3C s = windowRead s := if_pos rfl

theorem hostWrite_window : hostWrite 0x3C w s = windowWrite s w := if_pos rfl

/-- A write that is made changes the element, MEM_ADDR and nothing else. -/
theorem hostWrite_window_element {k : Nat} (hwf : s.mem.wf) (hf : s.status.fault = false)
    (hk : writableWidth s.memSel.toNat = some k) (h : s.memAddr.toNat < spaceSize s.caps s.memSel.toNat) :
    let t := hostWrite 0x3C w s
    t = { s with memAddr := s.memAddr + 1, mem := t.mem } ∧
    readElem t s.memSel.toNat s.memAddr.toNat = BitVec.ofNat 32 (w.toNat % 2 ^ k) ∧
    ∀ space a : Nat, (space ≠ s.memSel.toNat ∨ a ≠ s.memAddr.toNat) → readElem t space a = readElem s space a := by
  rw [hostWrite_window, windowWrite_inside hf (windowOk_of_lt h) (spaceWritable_of_width hk)]
  refine ⟨?_, ?_, fun space a hne => ?_⟩
  · rw [writeElem_eq_with_mem]
    rfl
  · rw [readElem_bumpAddr, readElem_writeElem_same_space hwf hk, if_pos rfl]
  · rw [readElem_bumpAddr, readElem_writeElem_other hwf hk hne]

end

/-- Settles O10: one law of the window for each case of a read and of a write. -/
theorem memoryWindow : Obligations.MemoryWindow := by
  unfold Obligations.MemoryWindow
  refine ⟨fun s => ⟨fun h => ?_, fun h hf => ?_, fun h hf hscan => ?_⟩,
    fun s w k => hostWrite_window_element, fun s w hf hscan h => ?_, fun s w hf => ?_⟩
  · rw [hostRead_window, windowRead_inside (windowOk_of_lt h)]
    rfl
  · rw [hostRead_window, windowRead_outside_faulted (windowOk_of_le h) hf]
  · rw [hostRead_window, windowRead_outside (windowOk_of_le h) hf, windowFault_eq hf hscan]
    rfl
  · rw [hostWrite_window, windowWrite_refused hf (h.imp spaceWritable_of_no_width windowOk_of_le),
      windowFault_eq hf hscan]
    rfl
  · rw [hostWrite_window, windowWrite_faulted hf]

end Sys2Proof.Machine
end

