-- ==== Sys2Proof/Proofs/Encoding.lean ====
section
/-! PROOFS. The encoding of 30_encoding.md: what each immediate format takes and gives back, the 46 rows of the opcode
map, and from these that decoding an encoding is the identity and that no bit of a legal word is ignored (R110 to R120,
R142). -/

namespace Sys2Proof

open Laws.Shape

/-! ## The two fields of a command word (R110) -/

theorem immOf_cmdWord (opc : Byte) (imm : BitVec 24) : immOf (cmdWord opc imm) = imm :=
  BitVec.extractLsb'_append_eq_right

theorem cmdWord_opcOf_immOf (w : Word) : cmdWord (opcOf w) (immOf w) = w :=
  BitVec.extractLsb'_append_extractLsb' (w := 8) (len := 24)

/-! ## The immediate formats (R112) -/

/-- A format: it takes exactly the immediates `enc v`, which are those within `mask`, and reads `f v` from `enc v`. -/
structure Format {m : Nat} {α : Type} (form : BitVec m → Except DecodeError Instr) (f : α → Instr) (enc : α → BitVec m)
    (mask : BitVec m) : Prop where
  legal : ∀ imm, imm &&& ~~~mask = 0#m ↔ ∃ v, imm = enc v
  decodes : ∀ v, form (enc v) = .ok (f v)
  rejects : ∀ imm i, form imm = .ok i → ∃ v, imm = enc v

theorem append_zero_eq_zero_iff {n k : Nat} (v : BitVec n) : v ++ 0#k = 0#(n + k) ↔ v = 0#n := by
  refine ⟨fun h => ?_, fun h => by rw [h, BitVec.zero_append_zero]⟩
  rw [← BitVec.extractLsb'_append_eq_left (a := v) (b := 0#k), h, BitVec.extractLsb'_zero]

theorem and_not_lowMask {n k : Nat} (imm : BitVec (n + k)) :
    imm &&& ~~~(0#n ++ BitVec.allOnes k) = imm.extractLsb' k n ++ 0#k := by
  have himm : imm.extractLsb' k n ++ imm.extractLsb' 0 k = imm := BitVec.extractLsb'_append_extractLsb'
  conv_lhs => rw [← himm]
  rw [BitVec.not_append, BitVec.and_append, BitVec.not_zero, BitVec.not_allOnes, BitVec.and_allOnes, BitVec.and_zero]

/-- An operand of `k` bits below `n` bits that must be 0. -/
theorem format_low {n k : Nat} (f : BitVec k → Instr) (e : BitVec (n + k) → DecodeError) :
    Format (fun imm => if imm.extractLsb' k n = 0#n then .ok (f (imm.extractLsb' 0 k)) else .error (e imm)) f
      (0#n ++ ·) (0#n ++ BitVec.allOnes k) := by
  have hhigh (v : BitVec k) : (0#n ++ v).extractLsb' k n = 0#n := BitVec.extractLsb'_append_eq_left
  have hlow (v : BitVec k) : (0#n ++ v).extractLsb' 0 k = v := BitVec.extractLsb'_append_eq_right
  have hfield (imm : BitVec (n + k)) (h : imm.extractLsb' k n = 0#n) : ∃ v, imm = 0#n ++ v :=
    ⟨imm.extractLsb' 0 k, by rw [← h, BitVec.extractLsb'_append_extractLsb']⟩
  refine ⟨fun imm => ?_, fun v => ?_, fun imm i h => ?_⟩
  · rw [and_not_lowMask, append_zero_eq_zero_iff]
    exact ⟨hfield imm, fun ⟨v, hv⟩ => hv ▸ hhigh v⟩
  · rw [if_pos (hhigh v), hlow]
  · by_cases hz : imm.extractLsb' k n = 0#n
    · exact hfield imm hz
    · rw [if_neg hz] at h
      cases h

theorem format_formN (i : Instr) : Format (formN · i) (fun _ : Unit => i) (fun _ => 0) 0 := by
  refine ⟨fun imm => ?_, fun _ => if_pos rfl, fun imm j h => ⟨(), ?_⟩⟩
  · rw [BitVec.ofNat_eq_ofNat, BitVec.not_zero, BitVec.and_allOnes]
    exact ⟨fun h => ⟨(), h⟩, fun ⟨_, h⟩ => h⟩
  · by_contra hz
    rw [formN, if_neg hz] at h
    cases h

theorem format_formI5 (f : BitVec 5 → Instr) : Format (formI5 · f) f (0#19 ++ ·) 0x1F :=
  format_low (n := 19) f .immediateNotZero

theorem format_formI8 (f : Byte → Instr) : Format (formI8 · f) f (0#16 ++ ·) 0xFF :=
  format_low (n := 16) f .immediateNotZero

theorem format_formS (f : BitVec 2 → Instr) : Format (formS · f) f (0#22 ++ ·) 3 :=
  format_low (n := 22) f .immediateNotZero

theorem formT_eq_formI8 (imm : BitVec 24) (f : BitVec 4 → BitVec 4 → Instr) :
    formT imm f = formI8 imm (fun v => f (v.extractLsb' 4 4) (v.extractLsb' 0 4)) := by
  have hhigh : (imm.extractLsb' 0 8).extractLsb' 4 4 = imm.extractLsb' 4 4 :=
    BitVec.extractLsb'_extractLsb'_of_le (by decide)
  have hlow : (imm.extractLsb' 0 8).extractLsb' 0 4 = imm.extractLsb' 0 4 :=
    BitVec.extractLsb'_extractLsb'_of_le (by decide)
  rw [formT, formI8, hhigh, hlow]

/-- Format T is format I8 with the byte split into its halves. -/
theorem format_formT (f : BitVec 4 → BitVec 4 → Instr) :
    Format (formT · f) (fun v : BitVec 4 × BitVec 4 => f v.1 v.2) (fun v => 0#16 ++ v.1 ++ v.2) 0xFF := by
  have h8 := format_formI8 fun v => f (v.extractLsb' 4 4) (v.extractLsb' 0 4)
  have hbyte (v : Byte) : 0#16 ++ v = 0#16 ++ v.extractLsb' 4 4 ++ v.extractLsb' 0 4 := by
    rw [BitVec.append_assoc]
    exact congrArg (0#16 ++ ·) (BitVec.extractLsb'_append_extractLsb' (w := 4) (len := 4)).symm
  refine ⟨fun imm => (h8.legal imm).trans ?_, fun v => ?_, fun imm i h => ?_⟩
  · exact ⟨fun ⟨v, hv⟩ => ⟨(_, _), hv.trans (hbyte v)⟩,
      fun ⟨v, hv⟩ => ⟨v.1 ++ v.2, hv.trans (BitVec.append_assoc ..)⟩⟩
  · have hhigh : (v.1 ++ v.2).extractLsb' 4 4 = v.1 := BitVec.extractLsb'_append_eq_left
    have hlow : (v.1 ++ v.2).extractLsb' 0 4 = v.2 := BitVec.extractLsb'_append_eq_right
    refine (congrArg (formT · f) (BitVec.append_assoc ..)).trans ((formT_eq_formI8 _ f).trans ?_)
    exact (h8.decodes (v.1 ++ v.2)).trans (by rw [hhigh, hlow])
  · rw [formT_eq_formI8] at h
    obtain ⟨v, hv⟩ := h8.rejects imm i h
    exact ⟨(_, _), hv.trans (hbyte v)⟩

/-! ## The rows of the opcode map (R114, R115) -/

/-- Opcode `opc` is decoded by the format `form`. -/
def HasFormat (opc : Byte) (form : BitVec 24 → Except DecodeError Instr) : Prop :=
  ∀ w : Word, opcOf w = opc → decodeCommand w = form (immOf w)

/-- The row of opcode `opc` takes exactly the immediates within `mask`, and ignores none of their bits. -/
def OpcodeRow (opc : Byte) (mask : BitVec 24) : Prop :=
  ∀ w : Word, opcOf w = opc →
    ((∃ i, decodeCommand w = .ok i) ↔ immOf w &&& ~~~mask = 0) ∧ ∀ i, decodeCommand w = .ok i → encode i = .command w

section
variable {opc : Byte} {α : Type} {form : BitVec 24 → Except DecodeError Instr} {f : α → Instr} {enc : α → BitVec 24}
  {mask : BitVec 24} (h : Format form f enc mask)
include h

/-- A row from its format; that the opcode has the format is seen by evaluating the opcode map. -/
theorem Format.opcodeRow (henc : ∀ v, encode (f v) = .command (cmdWord opc (enc v)))
    (hopc : HasFormat opc form := by intro w h; rw [decodeCommand, h]; rfl) : OpcodeRow opc mask := by
  intro w hw
  have hok (v : α) (hv : immOf w = enc v) : decodeCommand w = .ok (f v) := by rw [hopc w hw, hv, h.decodes]
  refine ⟨Iff.trans ?_ (h.legal (immOf w)).symm, fun i hi => ?_⟩
  · exact ⟨fun ⟨i, hi⟩ => h.rejects _ i (hopc w hw ▸ hi), fun ⟨v, hv⟩ => ⟨_, hok v hv⟩⟩
  · obtain ⟨v, hv⟩ := h.rejects _ i (hopc w hw ▸ hi)
    obtain rfl : f v = i := Except.ok.inj ((hok v hv).symm.trans hi)
    rw [henc, ← hv, ← hw, cmdWord_opcOf_immOf]

/-- The operands of a command are read back from its word. -/
theorem Format.decode_cmdWord (v : α) (hopc : HasFormat opc form := by intro w h; rw [decodeCommand, h]; rfl) :
    decode (.command (cmdWord opc (enc v))) = .ok (f v) := by
  rw [decode, hopc _ (opcOf_cmdWord opc _), immOf_cmdWord, h.decodes]

end

theorem opcodeRow_of_mem : ∀ r ∈ opcodeMap, OpcodeRow r.1 r.2 := by
  unfold opcodeMap
  simp only [List.cons_append, List.nil_append, List.forall_mem_cons]
  exact ⟨(format_formN .sysNop).opcodeRow fun _ => rfl, (format_formN .sysSreset).opcodeRow fun _ => rfl,
    (format_formN .sysOutclr).opcodeRow fun _ => rfl, (format_formN .bcReset).opcodeRow fun _ => rfl,
    (format_formI5 .bcEnsure).opcodeRow fun _ => rfl, (format_formN .bcBit).opcodeRow fun _ => rfl,
    (format_formI5 .bcBits).opcodeRow fun _ => rfl, (format_formI8 .bcRecvext).opcodeRow fun _ => rfl,
    (format_formN .bcIgnore).opcodeRow fun _ => rfl, (format_formN .bcReadfull).opcodeRow fun _ => rfl,
    (format_formN .bcRealign).opcodeRow fun _ => rfl, (format_formI5 .bwEmit).opcodeRow fun _ => rfl,
    (format_formN .bwFlush).opcodeRow fun _ => rfl, (format_formT .hufBuild).opcodeRow fun _ => rfl,
    (format_formT .hufDec).opcodeRow fun _ => rfl, (format_formT .hufEnc).opcodeRow fun _ => rfl,
    (format_formT .hufEncval).opcodeRow fun _ => rfl, (format_formN .hufLoadstd).opcodeRow fun _ => rfl,
    (format_formN .dctInv).opcodeRow fun _ => rfl, (format_formN .dctFwd).opcodeRow fun _ => rfl,
    (format_formN .blkLevel).opcodeRow fun _ => rfl, (format_formS .blkClear).opcodeRow fun _ => rfl,
    (format_formN .qtScale).opcodeRow fun _ => rfl, (format_formS .qtDeq).opcodeRow fun _ => rfl,
    (format_formS .qtQuant).opcodeRow fun _ => rfl, (format_formN .jpgInit).opcodeRow fun _ => rfl,
    (format_formN .jpgStep).opcodeRow fun _ => rfl, (format_formN .jpgDecode).opcodeRow fun _ => rfl,
    (format_formN .jpgAssemble).opcodeRow fun _ => rfl, (format_formN .jpgEncode).opcodeRow fun _ => rfl,
    (format_formN .lzwDec).opcodeRow fun _ => rfl, (format_formN .lzwEnc).opcodeRow fun _ => rfl,
    (format_formN .octReset).opcodeRow fun _ => rfl, (format_formN .octAdd).opcodeRow fun _ => rfl,
    (format_formN .octBuild).opcodeRow fun _ => rfl, (format_formN .octReduce).opcodeRow fun _ => rfl,
    (format_formN .octPalette).opcodeRow fun _ => rfl, (format_formN .octIndex).opcodeRow fun _ => rfl,
    (format_formN .octQuantize).opcodeRow fun _ => rfl, (format_formN .gifInit).opcodeRow fun _ => rfl,
    (format_formN .gifHeader).opcodeRow fun _ => rfl, (format_formN .gifStep).opcodeRow fun _ => rfl,
    (format_formN .gifDecode).opcodeRow fun _ => rfl, (format_formN .gifEbegin).opcodeRow fun _ => rfl,
    (format_formN .gifEframe).opcodeRow fun _ => rfl, (format_formN .gifEend).opcodeRow fun _ => rfl,
    List.forall_mem_nil _⟩

/-- A byte whose value is that of a listed opcode is listed. -/
theorem mem_opcodes_of_toNat {b : Byte} {k : Nat} (h : b.toNat = k)
    (hk : BitVec.ofNat 8 k ∈ opcodeMap.map Prod.fst) : b ∈ opcodeMap.map Prod.fst := by
  rwa [← h, BitVec.ofNat_toNat, BitVec.setWidth_eq] at hk

/-- Every other opcode is reserved (R115). -/
theorem opcOf_mem_of_decodes {w : Word} {i : Instr} (h : decodeCommand w = .ok i) :
    opcOf w ∈ opcodeMap.map Prod.fst := by
  unfold decodeCommand at h
  split at h
  on_goal -1 => cases h
  all_goals exact mem_opcodes_of_toNat ‹_› (by decide)

theorem exists_opcodeRow {w : Word} {i : Instr} (h : decodeCommand w = .ok i) :
    ∃ r ∈ opcodeMap, opcOf w = r.1 ∧ OpcodeRow r.1 r.2 := by
  obtain ⟨r, hr, hw⟩ := List.mem_map.mp (opcOf_mem_of_decodes h)
  exact ⟨r, hr, hw.symm, opcodeRow_of_mem r hr⟩

/-- Settles O4: the rows of the opcode map, and no opcode beside them. -/
theorem legalCommandWords : Obligations.LegalCommandWords := by
  refine ⟨fun w => ⟨fun ⟨i, hi⟩ => ?_, fun ⟨r, hr, hw, himm⟩ => ?_⟩, fun w i hi => ?_⟩
  · obtain ⟨r, hr, hw, hrow⟩ := exists_opcodeRow hi
    exact ⟨r, hr, hw, (hrow w hw).1.mp ⟨i, hi⟩⟩
  · exact (opcodeRow_of_mem r hr w hw).1.mpr himm
  · obtain ⟨r, -, hw, hrow⟩ := exists_opcodeRow hi
    exact (hrow w hw).2 i hi

/-! ## Decoding an encoding -/

theorem decode_jpegRst : ∀ n : BitVec 3, decode (encode (.jpegRst n)) = .ok (.jpegRst n) := by decide

/-- A label without a row of its own (R142). -/
theorem decodeLabel_of_not_named {l : Byte} (h : namedLabel l = false) : decodeLabel l = .otherExt l := by
  simp only [namedLabel, Bool.or_eq_false_iff, beq_eq_false_iff_ne] at h
  obtain ⟨⟨⟨hF9, hFE⟩, hFF⟩, h01⟩ := h
  rw [decodeLabel, if_neg hF9, if_neg hFE, if_neg hFF, if_neg h01]

theorem decode_gifExtOther {l : Byte} (h : namedLabel l = false) :
    decode (encode (.gifExtOther l)) = .ok (.gifExtOther l) := by
  show (Except.ok (decodeLabel l).toInstr : Except DecodeError Instr) = _
  rw [decodeLabel_of_not_named h]
  rfl

/-- Settles O3: each operand field is read back whole; an encoding without an operand is one fixed word or byte
string. -/
theorem decodeEncode : Obligations.DecodeEncode := by
  unfold Obligations.DecodeEncode
  intro i hwf
  cases i with
  | bcEnsure n => exact (format_formI5 .bcEnsure).decode_cmdWord n
  | bcBits n => exact (format_formI5 .bcBits).decode_cmdWord n
  | bcRecvext t => exact (format_formI8 .bcRecvext).decode_cmdWord t
  | bwEmit len => exact (format_formI5 .bwEmit).decode_cmdWord len
  | hufBuild tc th => exact (format_formT .hufBuild).decode_cmdWord (tc, th)
  | hufDec tc th => exact (format_formT .hufDec).decode_cmdWord (tc, th)
  | hufEnc tc th => exact (format_formT .hufEnc).decode_cmdWord (tc, th)
  | hufEncval tc th => exact (format_formT .hufEncval).decode_cmdWord (tc, th)
  | blkClear mask => exact (format_formS .blkClear).decode_cmdWord mask
  | qtDeq slot => exact (format_formS .qtDeq).decode_cmdWord slot
  | qtQuant slot => exact (format_formS .qtQuant).decode_cmdWord slot
  | jpegRst n => exact decode_jpegRst n
  | gifExtOther label => exact decode_gifExtOther (Bool.not_eq_true' _ |>.mp hwf)
  | _ => rfl

/-- Settles O5, by evaluating the decoder on each word. -/
theorem sampleWords : Obligations.SampleWords := by
  unfold Obligations.SampleWords
  decide

end Sys2Proof
end

