-- ==== Sys2Proof/Proofs/CommandIssue.lean ====
section
/-! PROOFS. What a write to CMD comes to: a refusal, the fault of an illegal word, or the run of the instruction the word
decodes to (30_encoding.md R111, R115); and the three system commands (49_system.md R480 to R482). -/

namespace Sys2Proof.Machine

open Sys2Proof

/-! ## The outcomes of `issue` (R111 steps (1) and (2)) -/

section
variable {s : State} {w : Word}

theorem issue_refused (hf : s.status.fault = true) (hw : opcOf w ≠ 0x01) : issue w s = .ended s.refuse :=
  if_pos ⟨hf, hw⟩

theorem not_refused (h : s.status.fault = false ∨ opcOf w = 0x01) : ¬ (s.status.fault = true ∧ opcOf w ≠ 0x01) := by
  rintro ⟨hf, hw⟩
  rcases h with h | h
  · rw [h] at hf
    cases hf
  · exact hw h

theorem issue_legal {i : Instr} (h : s.status.fault = false ∨ opcOf w = 0x01) (hi : decodeCommand w = .ok i) :
    issue w s = .run i s.accept := by
  rw [issue, if_neg (not_refused h), hi]

theorem issue_illegal (h : s.status.fault = false ∨ opcOf w = 0x01) (hi : ∀ i, decodeCommand w ≠ .ok i) :
    issue w s = .ended (enterFault (opcOf w) ⟨.illegalCommand, w⟩ s.accept) := by
  rw [issue, if_neg (not_refused h)]
  cases hd : decodeCommand w with
  | ok i => exact absurd hd (hi i)
  | error e => rfl

end

/-! ## A step that writes CMD -/

section
variable {s : State} {w : Word} {rest : List HostEvent} (h : s.inputs = .write 0 w :: rest)
include h

theorem step_command_ended {t : State} (hi : issue w { s with inputs := rest } = .ended t) : step s = .next t := by
  rw [step_write h, hostWriteStep, if_pos rfl, hi]

theorem step_command_run {i : Instr} {t : State} (hi : issue w { s with inputs := rest } = .run i t) :
    step s = exec i t := by
  rw [step_write h, hostWriteStep, if_pos rfl, hi]

end

/-- Settles O6: a legal word that is not refused is run. -/
theorem stepRunsCommand : Obligations.StepRunsCommand := by
  unfold Obligations.StepRunsCommand
  intro s w rest i h hi hacc
  exact step_command_run h (issue_legal hacc hi)

/-! ## Illegal words -/

section
variable {s : State} (opc : Byte) (r : Raise)

/-- Fault entry while no fault is pending and no scan is open (60_exceptions.md R530). -/
theorem enterFault_clean (hf : s.status.fault = false) (hscan : s.inScan = false) :
    enterFault opc r s = { s with
      err := errWord opc r.fault
      errInfo := r.info
      status := { s.status with fault := true, done := false } } := by
  simp only [enterFault, hf, hscan, Bool.false_eq_true, if_false]

/-- A second fault clears DONE only. -/
theorem enterFault_faulted (hf : s.status.fault = true) (hscan : s.inScan = false) :
    enterFault opc r s = { s with status := { s.status with done := false } } := by
  simp only [enterFault, hf, hscan, if_true]

end

/-- The ERR word of IllegalCommand: code 50, class 4 (60_exceptions.md R501). -/
theorem errWord_illegalCommand (opc : Byte) : errWord opc .illegalCommand = 0#8 ++ opc ++ 0x0450#16 := by
  show 0#8 ++ opc ++ 0#4 ++ 4#4 ++ 0x50#8 = _
  rw [BitVec.append_assoc, BitVec.append_assoc]
  rfl

/-- SYS.SRESET takes no operand (R112). -/
theorem decodeCommand_sysSreset_ne_ok {w : Word} (hw : opcOf w = 0x01) (himm : immOf w ≠ 0) (i : Instr) :
    decodeCommand w ≠ .ok i := by
  have hrow : OpcodeRow 0x01 0 := (format_formN .sysSreset).opcodeRow fun _ => rfl
  intro hi
  have h0 : immOf w &&& ~~~(0 : BitVec 24) = 0 := (hrow w hw).1.mp ⟨i, hi⟩
  rw [BitVec.ofNat_eq_ofNat, BitVec.not_zero, BitVec.and_allOnes] at h0
  exact himm h0

/-- Settles O8: each outcome of `issue` with the state it leaves, and the system commands by their definitions. -/
theorem systemAndRefusedWords : Obligations.SystemAndRefusedWords := by
  unfold Obligations.SystemAndRefusedWords
  refine ⟨fun s w rest h hf hw => ?_, fun s w rest h hscan hi hf => ?_, fun s w rest h hscan hw himm hf => ?_,
    fun s => rfl, fun s => rfl, fun s => rfl, fun s rest h => ?_, by decide⟩
  · exact step_command_ended h (issue_refused hf hw)
  · rw [step_command_ended h (issue_illegal (.inl hf) hi),
      enterFault_clean (s := ({ s with inputs := rest } : State).accept) _ _ hf hscan, errWord_illegalCommand]
    rfl
  · rw [step_command_ended h (issue_illegal (.inr hw) (decodeCommand_sysSreset_ne_ok hw himm)),
      enterFault_faulted (s := ({ s with inputs := rest } : State).accept) _ _ hf hscan]
    rfl
  · exact step_command_run h (issue_legal (.inr (by decide)) (by decide : decodeCommand 0x01000000 = .ok .sysSreset))

end Sys2Proof.Machine
end

