-- ==== Sys2Proof/Proofs/CommandSides.lean ====
section
/-! PROOFS. The two sides of the core: what the instructions of the GIF, LZW and octree units can write, and what those
of the other units can. One lemma per side says that each of its instructions is a command with the opcode byte that
fault entry records, whose pseudocode keeps every property that does not look at what its side writes. From these follow
that the codecs share nothing (30_encoding.md R116) and that every instruction completes or faults (R111, R530). -/

namespace Sys2Proof

/-- The opcode byte in ERR after a fault of the instruction; an element has that of the command that would run it
(60_exceptions.md R530, log 3). -/
def Instr.faultOpcode (i : Instr) : Byte :=
  match encode i with
  | .command w => w.extractLsb' 24 8
  | .stream bs => if Machine.byteAt bs 0 = 0xFF then 0x51 else if Machine.byteAt bs 0 = 0x47 then 0x81 else 0x82

theorem faultOpcode_of_command {i : Instr} {opc : Byte} {imm : BitVec 24} (h : encode i = .command (cmdWord opc imm)) :
    i.faultOpcode = opc := by
  rw [Instr.faultOpcode, h]
  exact Laws.Shape.opcOf_cmdWord opc imm

end Sys2Proof

namespace Sys2Proof.Machine

open Sys2Proof

/-! ## What each side writes -/

namespace Frame

/-- The GIF, LZW and octree units write, beside what GIF decode, LZW encode and the quantiser do, the encoder registers
and RES0. -/
structure GifSide (P : State → Prop) : Prop extends Gif P, LzwEnc P, Octree P where
  genc : ∀ s g, P s → P { s with genc := g }
  res0 : ∀ s v, P s → P { s with res0 := v }

/-- The other units, SYS.SRESET apart, write, beside what the JPEG decoder and the bit writer do, RES0, OUT_LEN and the
pixels. -/
structure JpegSide (P : State → Prop) : Prop extends Jpeg P, Writer P where
  res0 : ∀ s v, P s → P { s with res0 := v }
  outLen : ∀ s n, P s → P { s with outLen := n }
  pix : ∀ s d c, P s → P { s with pixDim := d, mem := { s.mem with pix := c } }

end Frame

namespace Exec

/-! ## A line of pseudocode and what follows it -/

section
variable {α β : Type} {P : State → Prop}

theorem keeps_look_bind {f : State → α} {k : α → Exec β} (hk : ∀ a, Keeps P (k a)) : Keeps P (look f >>= k) :=
  keeps_bind keeps_look hk

theorem keeps_check {c : Prop} {_ : Decidable c} {f : HwFault} {i : Word} {k : Unit → Exec α}
    (hk : ∀ a, Keeps P (k a)) : Keeps P (raiseIf c f i >>= k) :=
  keeps_bind keeps_raiseIf hk

/-- An optional piece, and what follows it in either case. -/
theorem keeps_optional_bind {c : Prop} {_ : Decidable c} {m : Exec Unit} {k : Unit → Exec β} (hm : Keeps P m)
    (hk : ∀ a, Keeps P (k a)) : Keeps P (if c then m >>= k else k ()) :=
  keeps_ite (keeps_bind hm hk) (hk ())

theorem keeps_checkSelector (tc th : BitVec 4) : Keeps P (checkSelector tc th) := keeps_raiseIf

theorem keeps_checkBuilt (tc th : BitVec 4) : Keeps P (checkBuilt tc th) := keeps_look_bind fun _ => keeps_raiseIf

theorem keeps_look_buildTable (h : Frame.Tables P) (f : State → HuffSpec) (c t : Nat) :
    Keeps P (look f >>= buildTable c t) :=
  keeps_look_bind fun sp => keeps_buildTable h c t sp

theorem keeps_setRes0 (h : ∀ s v, P s → P { s with res0 := v }) (v : Word) : Keeps P (alter (·.setRes0 v)) :=
  keeps_alter fun s hs => h s v hs

/-- A command of the GIF decoder in state `st`. -/
theorem keeps_inGifState (h : Frame.Gif P) (st : GifState) {m : Exec α} (hm : Keeps P m) :
    Keeps P (do alter (·.setFrame false); requireGif st; failingGif m) :=
  keeps_bind (keeps_alter fun s hs => h.frame s _ hs) fun _ => keeps_bind (keeps_requireGif st) fun _ =>
    keeps_failingGif h hm

/-- A command of the JPEG decoder. -/
theorem keeps_decoding (h : Frame.Jpeg P) {m : Exec α} (hm : Keeps P m) :
    Keeps P (do requireDecoding; failingJpeg m) :=
  keeps_bind keeps_requireDecoding fun _ => keeps_failingJpeg h hm

end

end Exec

/-! ## Each instruction as a command of its side -/

/-- `i` is a command with the opcode byte it records, or an element of a stream run as one, whose pseudocode keeps
`P`. -/
def CommandKeeps (P : State → Prop) (i : Instr) : Prop :=
  ∃ (opc : Byte) (body : Exec Unit), i.faultOpcode = opc ∧ (∀ s, exec i s = runCmd opc body s) ∧ Exec.Keeps P body

open Exec

section
variable {P : State → Prop} {i : Instr}

theorem commandKeeps_of_command {opc : Byte} {imm : BitVec 24} {body : Exec Unit}
    (henc : encode i = .command (cmdWord opc imm)) (hexec : ∀ s, exec i s = runCmd opc body s) (hbody : Keeps P body) :
    CommandKeeps P i :=
  ⟨opc, body, faultOpcode_of_command henc, hexec, hbody⟩

theorem commandKeeps_gifElement (h : Frame.Gif P) (sec : Sect) (hopc : i.faultOpcode = 0x82)
    (hexec : ∀ s, exec i s = runGifElement sec s) : CommandKeeps P i :=
  ⟨_, _, hopc, hexec, keeps_inGifState h .sections (keeps_runSection h sec)⟩

theorem commandKeeps_jpegElement (h : Frame.Jpeg P) (k : Marker) (hopc : i.faultOpcode = 0x51)
    (hexec : ∀ s, exec i s = runJpegElement k s) : CommandKeeps P i :=
  ⟨_, _, hopc, hexec, keeps_decoding h (keeps_runElement h k)⟩

end

section
variable {P : State → Prop} (h : Frame.GifSide P)
include h

theorem commandKeeps_lzwDec : CommandKeeps P .lzwDec :=
  commandKeeps_of_command rfl (fun _ => rfl) <| keeps_look_bind fun _ => keeps_look_bind fun _ =>
    keeps_look_bind fun _ => keeps_check fun _ => keeps_bind (keeps_lzwDecode h.toLzwDec _ _) fun _ =>
      keeps_alter fun s hs => h.res0 _ _ (h.trunc s _ hs)

theorem commandKeeps_lzwEnc : CommandKeeps P .lzwEnc :=
  commandKeeps_of_command rfl (fun _ => rfl) <| keeps_look_bind fun _ => keeps_look_bind fun _ =>
    keeps_look_bind fun _ => keeps_check fun _ => keeps_bind (keeps_lzwEncode h.toLzwEnc _ _) fun _ =>
      keeps_setRes0 h.res0 _

theorem commandKeeps_gifDecode : CommandKeeps P .gifDecode :=
  commandKeeps_of_command rfl (fun _ => rfl) <| keeps_bind (keeps_alter fun s hs => h.frame s _ hs) fun _ =>
    keeps_look_bind fun _ => keeps_check fun _ =>
      keeps_optional_bind (keeps_failingGif h.toGif (keeps_gifHeader h.toGif)) fun _ => keeps_look_bind fun _ =>
        keeps_bind (keeps_gifLoop h.toGif _ _) fun _ => keeps_alter fun s hs => h.frame s _ hs

theorem commandKeeps_gifEbegin : CommandKeeps P .gifEbegin :=
  commandKeeps_of_command rfl (fun _ => rfl) <| keeps_look_bind fun _ => keeps_check fun _ => keeps_check fun _ =>
    keeps_check fun _ => keeps_bind keeps_requireDims fun _ => keeps_bind (keeps_outAll h.toOut _) fun _ =>
      keeps_bind (keeps_outAll h.toOut _) fun _ => keeps_bind (keeps_outAll h.toOut _) fun _ =>
        keeps_bind (keeps_alter fun s hs => h.genc s _ hs) fun _ =>
          keeps_ite (keeps_netscape h.toOut h.genc) keeps_pure

theorem commandKeeps_gifEframe : CommandKeeps P .gifEframe :=
  commandKeeps_of_command rfl (fun _ => rfl) <| keeps_look_bind fun _ => keeps_check fun _ => keeps_check fun _ =>
    keeps_check fun _ => keeps_bind keeps_requireDims fun _ => keeps_bind (keeps_octQuantize h.toOctree _) fun _ =>
      keeps_look_bind fun _ => keeps_bind (keeps_outAll h.toOut _) fun _ => keeps_bind (keeps_outAll h.toOut _) fun _ =>
        keeps_bind (keeps_outAll h.toOut _) fun _ => keeps_bind (keeps_out h.toOut _) fun _ =>
          keeps_bind (keeps_lzwEncode h.toLzwEnc _ _) fun _ =>
            keeps_bind (keeps_alter fun s hs => h.genc s _ hs) fun _ => keeps_look_bind fun _ =>
              keeps_ite (keeps_netscape h.toOut h.genc) keeps_pure

/-- Every instruction of the GIF, LZW and octree units. -/
theorem commandKeeps_of_gifSide {i : Instr} (hi : isGifSide i = true) : CommandKeeps P i := by
  have hoct {f : State → Octree} : Keeps P (alter fun s => { s with oct := f s }) :=
    keeps_alter fun s hs => h.oct s _ hs
  have hframe : Keeps P (alter (·.setFrame false)) := keeps_alter fun s hs => h.frame s _ hs
  cases i with
  | lzwDec => exact commandKeeps_lzwDec h
  | lzwEnc => exact commandKeeps_lzwEnc h
  | octReset => exact commandKeeps_of_command rfl (fun _ => rfl) hoct
  | octAdd =>
    exact commandKeeps_of_command rfl (fun _ => rfl) <| keeps_look_bind fun _ => keeps_octAdd h.toOctree _
  | octBuild =>
    exact commandKeeps_of_command rfl (fun _ => rfl) <| keeps_look_bind fun _ => keeps_check fun _ =>
      keeps_addPixels h.toOctree _
  | octReduce =>
    exact commandKeeps_of_command rfl (fun _ => rfl) <| keeps_look_bind fun _ => keeps_check fun _ => hoct
  | octPalette => exact commandKeeps_of_command rfl (fun _ => rfl) <| keeps_octPalette h.toOctree
  | octIndex =>
    exact commandKeeps_of_command rfl (fun _ => rfl) <| keeps_look_bind fun _ => keeps_bind (keeps_octIndex _) fun _ =>
      keeps_setRes0 h.res0 _
  | octQuantize =>
    exact commandKeeps_of_command rfl (fun _ => rfl) <| keeps_look_bind fun _ => keeps_octQuantize h.toOctree _
  | gifInit =>
    exact commandKeeps_of_command rfl (fun _ => rfl) <| keeps_alter fun s hs => h.gif _ _ (h.frame s _ hs)
  | gifHeader =>
    exact commandKeeps_of_command rfl (fun _ => rfl) <|
      keeps_inGifState h.toGif .awaitHeader (keeps_gifHeader h.toGif)
  | gifStep =>
    exact commandKeeps_of_command rfl (fun _ => rfl) <| keeps_bind hframe fun _ =>
      keeps_bind (keeps_requireGif _) fun _ => keeps_bind (keeps_failingGif h.toGif (keeps_gifStep h.toGif)) fun _ =>
        keeps_pure
  | gifDecode => exact commandKeeps_gifDecode h
  | gifEbegin => exact commandKeeps_gifEbegin h
  | gifEframe => exact commandKeeps_gifEframe h
  | gifEend =>
    exact commandKeeps_of_command rfl (fun _ => rfl) <| keeps_look_bind fun _ => keeps_check fun _ =>
      keeps_bind (keeps_out h.toOut _) fun _ => keeps_alter fun s hs => h.genc s _ hs
  | gifSignature =>
    exact ⟨0x81, _, rfl, fun _ => rfl, keeps_inGifState h.toGif .awaitHeader (keeps_gifScreen h.toGif)⟩
  | gifImage => exact commandKeeps_gifElement h.toGif .image rfl fun _ => rfl
  | gifExtGraphicControl => exact commandKeeps_gifElement h.toGif .graphicControl rfl fun _ => rfl
  | gifExtComment => exact commandKeeps_gifElement h.toGif .comment rfl fun _ => rfl
  | gifExtApplication => exact commandKeeps_gifElement h.toGif .application rfl fun _ => rfl
  | gifExtPlainText => exact commandKeeps_gifElement h.toGif .plainText rfl fun _ => rfl
  | gifExtOther label => exact commandKeeps_gifElement h.toGif (.otherExt label) rfl fun _ => rfl
  | gifTrailer => exact commandKeeps_gifElement h.toGif .trailer rfl fun _ => rfl
  | _ => cases hi

end

section
variable {P : State → Prop} (h : Frame.JpegSide P)
include h

theorem commandKeeps_jpgEncode : CommandKeeps P .jpgEncode :=
  commandKeeps_of_command rfl (fun _ => rfl) <| keeps_look_bind fun _ => keeps_check fun _ => keeps_check fun _ =>
    keeps_check fun _ => keeps_bind (keeps_scaleTables h.toBlocks _) fun _ =>
      keeps_bind (keeps_loadStd h.toTables) fun _ => keeps_bind (keeps_alter fun s hs => h.bw s _ _ hs) fun _ =>
        keeps_look_bind fun _ => keeps_bind (keeps_outAll h.toOut _) fun _ =>
          keeps_bind (keeps_encodeTiles h.toWriter h.toBlocks _ _) fun _ =>
            keeps_bind (keeps_flushBits h.toWriter) fun _ => keeps_bind (keeps_outAll h.toOut _) fun _ =>
              keeps_alter fun s hs => h.res0 s _ hs

/-- The reader commands. -/
theorem commandKeeps_of_reader {i : Instr} (hi : isReader i = true) : CommandKeeps P i := by
  have hreader : Frame.Reader P := h.toReader
  cases i with
  | bcReset =>
    exact commandKeeps_of_command rfl (fun _ => rfl) <| keeps_alter fun _ hs => Frame.Reader.bcReset hreader hs
  | bcEnsure n =>
    exact commandKeeps_of_command rfl (fun _ => rfl) <| keeps_check fun _ => keeps_ensureBits hreader _
  | bcBit =>
    exact commandKeeps_of_command rfl (fun _ => rfl) <| keeps_bind (keeps_decodeBit hreader) fun _ =>
      keeps_setRes0 h.res0 _
  | bcBits n =>
    exact commandKeeps_of_command rfl (fun _ => rfl) <| keeps_check fun _ =>
      keeps_bind (keeps_decodeBits hreader _) fun _ => keeps_setRes0 h.res0 _
  | bcRecvext t =>
    exact commandKeeps_of_command rfl (fun _ => rfl) <| keeps_bind (keeps_receiveExtend hreader _) fun _ =>
      keeps_setRes0 h.res0 _
  | bcIgnore =>
    exact commandKeeps_of_command rfl (fun _ => rfl) <| keeps_look_bind fun _ => keeps_ignore hreader _
  | bcReadfull =>
    exact commandKeeps_of_command rfl (fun _ => rfl) <| keeps_look_bind fun _ => keeps_check fun _ =>
      keeps_bind (keeps_readFull h.toRaw _) fun _ => keeps_setRes0 h.res0 _
  | bcRealign => exact commandKeeps_of_command rfl (fun _ => rfl) <| keeps_realign hreader
  | hufDec tc th =>
    exact commandKeeps_of_command rfl (fun _ => rfl) <| keeps_bind (keeps_checkSelector _ _) fun _ =>
      keeps_bind (keeps_checkBuilt _ _) fun _ => keeps_look_bind fun _ =>
        keeps_bind (keeps_huffDecode hreader _) fun _ => keeps_setRes0 h.res0 _
  | _ => cases hi

/-- The writer commands. -/
theorem commandKeeps_of_writer {i : Instr} (hi : isWriter i = true) : CommandKeeps P i := by
  cases i with
  | bwEmit len =>
    exact commandKeeps_of_command rfl (fun _ => rfl) <| keeps_look_bind fun _ => keeps_check fun _ =>
      keeps_emitBits h.toWriter _ _
  | bwFlush => exact commandKeeps_of_command rfl (fun _ => rfl) <| keeps_flushBits h.toWriter
  | hufEnc tc th =>
    exact commandKeeps_of_command rfl (fun _ => rfl) <| keeps_look_bind fun _ => keeps_check fun _ =>
      keeps_bind (keeps_checkBuilt _ _) fun _ => keeps_look_bind fun _ => keeps_huffEncode h.toWriter _ _
  | hufEncval tc th =>
    exact commandKeeps_of_command rfl (fun _ => rfl) <| keeps_bind (keeps_checkSelector _ _) fun _ =>
      keeps_bind (keeps_checkBuilt _ _) fun _ => keeps_look_bind fun _ => keeps_look_bind fun _ =>
        keeps_look_bind fun _ => keeps_emitValue h.toWriter _ _ _
  | _ => cases hi

/-- Every instruction of the other units but SYS.SRESET. -/
theorem commandKeeps_of_jpegSide {i : Instr} (hi : isGifSide i = false) (hreset : i ≠ .sysSreset) :
    CommandKeeps P i := by
  have hblk (f : State → Cells 32) : Keeps P (alter fun s => { s with mem := { s.mem with blk := f s } }) :=
    keeps_alter fun s hs => h.blk s _ hs
  cases i with
  | sysNop => exact commandKeeps_of_command rfl (fun _ => rfl) (keeps_pure (a := ()))
  | sysSreset => exact absurd rfl hreset
  | sysOutclr => exact commandKeeps_of_command rfl (fun _ => rfl) <| keeps_alter fun s hs => h.outLen s _ hs
  | bcReset => exact commandKeeps_of_reader h rfl
  | bcEnsure n => exact commandKeeps_of_reader h rfl
  | bcBit => exact commandKeeps_of_reader h rfl
  | bcBits n => exact commandKeeps_of_reader h rfl
  | bcRecvext t => exact commandKeeps_of_reader h rfl
  | bcIgnore => exact commandKeeps_of_reader h rfl
  | bcReadfull => exact commandKeeps_of_reader h rfl
  | bcRealign => exact commandKeeps_of_reader h rfl
  | bwEmit len => exact commandKeeps_of_writer h rfl
  | bwFlush => exact commandKeeps_of_writer h rfl
  | hufBuild tc th =>
    exact commandKeeps_of_command rfl (fun _ => rfl) <| keeps_bind (keeps_checkSelector _ _) fun _ =>
      keeps_look_buildTable h.toTables _ _ _
  | hufDec tc th => exact commandKeeps_of_reader h rfl
  | hufEnc tc th => exact commandKeeps_of_writer h rfl
  | hufEncval tc th => exact commandKeeps_of_writer h rfl
  | hufLoadstd => exact commandKeeps_of_command rfl (fun _ => rfl) <| keeps_loadStd h.toTables
  | dctInv => exact commandKeeps_of_command rfl (fun _ => rfl) <| hblk _
  | dctFwd => exact commandKeeps_of_command rfl (fun _ => rfl) <| hblk _
  | blkLevel => exact commandKeeps_of_command rfl (fun _ => rfl) <| hblk _
  | blkClear mask =>
    exact commandKeeps_of_command rfl (fun _ => rfl) <| keeps_alter (f := (·.clearBlocks mask)) fun s hs =>
      h.zz _ (s.clearBlocks mask).mem.zz (h.blk s (s.clearBlocks mask).mem.blk hs)
  | qtScale =>
    exact commandKeeps_of_command rfl (fun _ => rfl) <| keeps_look_bind fun _ => keeps_scaleTables h.toBlocks _
  | qtDeq slot => exact commandKeeps_of_command rfl (fun _ => rfl) <| hblk _
  | qtQuant slot => exact commandKeeps_of_command rfl (fun _ => rfl) <| keeps_quant h.toBlocks _
  | jpgInit =>
    exact commandKeeps_of_command rfl (fun _ => rfl) <| keeps_alter fun s hs =>
      h.ht _ s.ht 0 (h.qt _ 0 s.mem.qt (h.jpg _ _ (Frame.Reader.bcReset h.toReader hs)))
  | jpgStep =>
    exact commandKeeps_of_command rfl (fun _ => rfl) <| keeps_decoding h.toJpeg (keeps_jpegStep h.toJpeg)
  | jpgDecode =>
    exact commandKeeps_of_command rfl (fun _ => rfl) <| keeps_bind keeps_requireDecoding fun _ =>
      keeps_look_bind fun _ => keeps_failingJpeg h.toJpeg (keeps_jpegLoop h.toJpeg _)
  | jpgAssemble =>
    exact commandKeeps_of_command rfl (fun _ => rfl) <| keeps_look_bind fun _ => keeps_check fun _ =>
      keeps_check fun _ => keeps_check fun _ => keeps_alter fun s hs => h.pix s _ _ hs
  | jpgEncode => exact commandKeeps_jpgEncode h
  | jpegSoi => exact commandKeeps_jpegElement h.toJpeg .soi rfl fun _ => rfl
  | jpegEoi => exact commandKeeps_jpegElement h.toJpeg .eoi rfl fun _ => rfl
  | jpegRst n => exact commandKeeps_jpegElement h.toJpeg (.rst n) rfl fun _ => rfl
  | jpegSof0 => exact commandKeeps_jpegElement h.toJpeg .sof0 rfl fun _ => rfl
  | jpegSof1 => exact commandKeeps_jpegElement h.toJpeg .sof1 rfl fun _ => rfl
  | jpegSof2 => exact commandKeeps_jpegElement h.toJpeg .sof2 rfl fun _ => rfl
  | jpegDht => exact commandKeeps_jpegElement h.toJpeg .dht rfl fun _ => rfl
  | jpegDqt => exact commandKeeps_jpegElement h.toJpeg .dqt rfl fun _ => rfl
  | jpegDri => exact commandKeeps_jpegElement h.toJpeg .dri rfl fun _ => rfl
  | jpegSos => exact commandKeeps_jpegElement h.toJpeg .sos rfl fun _ => rfl
  | jpegApp0 => exact commandKeeps_jpegElement h.toJpeg (.app 0) rfl fun _ => rfl
  | jpegApp1 => exact commandKeeps_jpegElement h.toJpeg (.app 1) rfl fun _ => rfl
  | jpegApp2 => exact commandKeeps_jpegElement h.toJpeg (.app 2) rfl fun _ => rfl
  | jpegApp3 => exact commandKeeps_jpegElement h.toJpeg (.app 3) rfl fun _ => rfl
  | jpegApp4 => exact commandKeeps_jpegElement h.toJpeg (.app 4) rfl fun _ => rfl
  | jpegApp5 => exact commandKeeps_jpegElement h.toJpeg (.app 5) rfl fun _ => rfl
  | jpegApp6 => exact commandKeeps_jpegElement h.toJpeg (.app 6) rfl fun _ => rfl
  | jpegApp7 => exact commandKeeps_jpegElement h.toJpeg (.app 7) rfl fun _ => rfl
  | jpegApp8 => exact commandKeeps_jpegElement h.toJpeg (.app 8) rfl fun _ => rfl
  | jpegApp9 => exact commandKeeps_jpegElement h.toJpeg (.app 9) rfl fun _ => rfl
  | jpegApp10 => exact commandKeeps_jpegElement h.toJpeg (.app 10) rfl fun _ => rfl
  | jpegApp11 => exact commandKeeps_jpegElement h.toJpeg (.app 11) rfl fun _ => rfl
  | jpegApp12 => exact commandKeeps_jpegElement h.toJpeg (.app 12) rfl fun _ => rfl
  | jpegApp13 => exact commandKeeps_jpegElement h.toJpeg (.app 13) rfl fun _ => rfl
  | jpegApp14 => exact commandKeeps_jpegElement h.toJpeg (.app 14) rfl fun _ => rfl
  | jpegApp15 => exact commandKeeps_jpegElement h.toJpeg (.app 15) rfl fun _ => rfl
  | jpegCom => exact commandKeeps_jpegElement h.toJpeg .com rfl fun _ => rfl
  | _ => cases hi

end

/-! ## The codecs share nothing (R116) -/

/-- From `s` to `t` nothing of the JPEG side changed. -/
def State.JpegKept (s t : State) : Prop :=
  t.bcAcc = s.bcAcc ∧ t.bcNbits = s.bcNbits ∧ t.bwAcc = s.bwAcc ∧ t.bwNbits = s.bwNbits ∧ t.jpg = s.jpg ∧
  t.qtValid = s.qtValid ∧ t.htValid = s.htValid ∧ t.ht = s.ht ∧ t.mem.blk = s.mem.blk ∧ t.mem.zz = s.mem.zz ∧
  t.mem.qt = s.mem.qt ∧ t.mem.plane = s.mem.plane ∧ t.mem.coef = s.mem.coef ∧ t.mem.tmp = s.mem.tmp

/-- From `s` to `t` nothing of the GIF side changed. -/
def State.GifKept (s t : State) : Prop :=
  t.gif = s.gif ∧ t.genc = s.genc ∧ t.oct = s.oct ∧ t.palLen = s.palLen ∧ t.transpIdx = s.transpIdx ∧
  t.status.frame = s.status.frame ∧ t.status.trunc = s.status.trunc ∧ t.mem.idx = s.mem.idx ∧
  t.mem.pal = s.mem.pal ∧ t.mem.canvas = s.mem.canvas ∧ t.mem.snap = s.mem.snap ∧ t.mem.gct = s.mem.gct ∧
  t.mem.lct = s.mem.lct

theorem gifSide_jpegKept (s : State) : Frame.GifSide s.JpegKept where
  pos _ _ h := h
  sub _ _ h := h
  lzd _ _ h := h
  idx _ _ h := h
  gif _ _ h := h
  frame _ _ h := h
  trunc _ _ h := h
  canvas _ _ h := h
  snap _ _ h := h
  gct _ _ h := h
  lct _ _ h := h
  out _ _ _ h := h
  lze _ _ h := h
  oct _ _ h := h
  pal _ _ _ _ h := h
  genc _ _ h := h
  res0 _ _ h := h

theorem jpegSide_gifKept (s : State) : Frame.JpegSide s.GifKept where
  pos _ _ h := h
  bc _ _ _ h := h
  tmp _ _ h := h
  ht _ _ _ h := h
  qt _ _ _ h := h
  blk _ _ h := h
  zz _ _ h := h
  jpg _ _ h := h
  scan _ _ h := h
  plane _ _ h := h
  coef _ _ h := h
  out _ _ _ h := h
  bw _ _ _ h := h
  res0 _ _ h := h
  outLen _ _ h := h
  pix _ _ _ h := h

/-- Settles O18: what an instruction of one side writes is no state of the other. -/
theorem codecsShareNothing : Obligations.CodecsShareNothing := by
  unfold Obligations.CodecsShareNothing
  refine ⟨fun i s t hi ht => ?_, fun i s t hi hreset ht => ?_⟩
  · obtain ⟨opc, body, -, hexec, hbody⟩ := commandKeeps_of_gifSide (gifSide_jpegKept s) hi
    rw [hexec] at ht
    exact hbody.runCmd ⟨rfl, rfl, rfl, rfl, rfl, rfl, rfl, rfl, rfl, rfl, rfl, rfl, rfl, rfl⟩ (fun _ h => h)
      (fun _ _ h => h) ht
  · obtain ⟨opc, body, -, hexec, hbody⟩ := commandKeeps_of_jpegSide (jpegSide_gifKept s) hi hreset
    rw [hexec] at ht
    exact hbody.runCmd ⟨rfl, rfl, rfl, rfl, rfl, rfl, rfl, rfl, rfl, rfl, rfl, rfl, rfl⟩ (fun _ h => h)
      (fun _ _ h => h) ht

/-! ## Every instruction ends (R111, R530) -/

/-- No fault is pending, and ERR and ERRINFO are those of `s`. -/
def State.FaultFree (s t : State) : Prop := t.status.fault = false ∧ t.err = s.err ∧ t.errInfo = s.errInfo

theorem gifSide_faultFree (s : State) : Frame.GifSide s.FaultFree where
  pos _ _ h := h
  sub _ _ h := h
  lzd _ _ h := h
  idx _ _ h := h
  gif _ _ h := h
  frame _ _ h := h
  trunc _ _ h := h
  canvas _ _ h := h
  snap _ _ h := h
  gct _ _ h := h
  lct _ _ h := h
  out _ _ _ h := h
  lze _ _ h := h
  oct _ _ h := h
  pal _ _ _ _ h := h
  genc _ _ h := h
  res0 _ _ h := h

theorem jpegSide_faultFree (s : State) : Frame.JpegSide s.FaultFree where
  pos _ _ h := h
  bc _ _ _ h := h
  tmp _ _ h := h
  ht _ _ _ h := h
  qt _ _ _ h := h
  blk _ _ h := h
  zz _ _ h := h
  jpg _ _ h := h
  scan _ _ h := h
  plane _ _ h := h
  coef _ _ h := h
  out _ _ _ h := h
  bw _ _ _ h := h
  res0 _ _ h := h
  outLen _ _ h := h
  pix _ _ _ h := h

/-- Raising is the only way to FAULT, ERR and ERRINFO. -/
theorem commandKeeps_faultFree (s : State) {i : Instr} (hreset : i ≠ .sysSreset) : CommandKeeps s.FaultFree i := by
  cases hi : isGifSide i with
  | true => exact commandKeeps_of_gifSide (gifSide_faultFree s) hi
  | false => exact commandKeeps_of_jpegSide (jpegSide_faultFree s) hi hreset

/-- A command whose pseudocode does not touch FAULT, ERR and ERRINFO completes with them as they were, or raises one
fault. -/
theorem runCmd_ends {opc : Byte} {body : Exec Unit} {s : State} (hb : Keeps s.FaultFree body)
    (hf : s.status.fault = false) :
    ∃ t, runCmd opc body s = .next t ∧
      ((t.status.fault = false ∧ t.status.done = true ∧ t.err = s.err ∧ t.errInfo = s.errInfo) ∨
        (t.status.fault = true ∧ t.status.done = false ∧ ∃ f : HwFault, t.err = errWord opc f)) := by
  have hend := hb s ⟨hf, rfl, rfl⟩
  cases hbs : body s with
  | ok u t =>
    rw [hbs] at hend
    obtain ⟨htf, herr, hinfo⟩ := hend
    exact ⟨t.complete, runCmd_ok hbs, .inl ⟨htf, rfl, herr, hinfo⟩⟩
  | error r t =>
    rw [hbs] at hend
    obtain ⟨htf, -, -⟩ := hend
    exact ⟨enterFault opc r t, runCmd_error hbs, .inr ⟨rfl, rfl, r.fault, by simp [enterFault, htf]⟩⟩

/-- Settles O9: every instruction but SYS.SRESET is a command that leaves FAULT, ERR and ERRINFO alone until it ends. -/
theorem everyInstructionEnds : Obligations.EveryInstructionEnds := by
  unfold Obligations.EveryInstructionEnds
  intro i s hf
  by_cases hreset : i = .sysSreset
  · subst hreset
    exact ⟨_, rfl, .inl ⟨rfl, rfl, fun h => absurd rfl h, fun _ => ⟨rfl, rfl⟩⟩⟩
  obtain ⟨opc, body, hopc, hexec, hbody⟩ := commandKeeps_faultFree s hreset
  obtain ⟨t, ht, hend⟩ := runCmd_ends (opc := opc) hbody hf
  refine ⟨t, (hexec s).trans ht, ?_⟩
  rcases hend with ⟨htf, hdone, herr⟩ | ⟨htf, hdone, f, herr⟩
  · exact .inl ⟨htf, hdone, fun _ => herr, fun h => absurd h hreset⟩
  · exact .inr ⟨htf, hdone, f, by rw [herr, ← hopc]; rfl⟩

end Sys2Proof.Machine
end

