-- ==== Sys2Proof/Proofs/GifEncodeEnds.lean ====
section
/-! PROOFS. The two ends of a GIF encode: the checks of GIF.EBEGIN in their order and what it writes after them, and
GIF.EEND (48_gif.md R460, R464, R466). -/

namespace Sys2Proof.Machine

open Sys2Proof

/-! ## A command line by line (30_encoding.md R111) -/

section
variable {α β : Type} (opc : Byte) (s : State)

theorem runCmd_look (f : State → α) (k : α → Exec Unit) : runCmd opc (look f >>= k) s = runCmd opc (k (f s)) s := rfl

/-- The first check that fails ends the command. -/
theorem runCmd_check (c : Prop) [Decidable c] (f : HwFault) (i : Word) (k : Unit → Exec Unit) :
    runCmd opc (raiseIf c f i >>= k) s = if c then .next (enterFault opc ⟨f, i⟩ s) else runCmd opc (k ()) s := by
  simp only [runCmd, exec_check]
  split_ifs <;> rfl

theorem runCmd_requireDims (k : Unit → Exec Unit) :
    runCmd opc (requireDims >>= k) s =
      if s.pixW = 0 ∨ s.pixH = 0 then .next (enterFault opc ⟨.badDimensions, s.pixDim⟩ s) else runCmd opc (k ()) s :=
  runCmd_check opc s (s.pixW = 0 ∨ s.pixH = 0) .badDimensions s.pixDim k

theorem exec_ok_bind {s t : State} {m : Exec α} {a : α} (h : m s = .ok a t) (k : α → Exec β) :
    (m >>= k) s = k a t := by
  rw [exec_bind, h]

end

/-! ## Bytes that fit in OUT -/

section
variable {s : State} {as bs : List Byte}

theorem roomFor_append (h : s.RoomFor (as ++ bs)) : s.RoomFor as ∧ (s.appended as).RoomFor bs := by
  unfold State.RoomFor at h ⊢
  have hlen : (s.appended as).outLen.toNat ≤ s.outLen.toNat + as.length := by
    rw [appended_outLen, wordN, BitVec.toNat_add, BitVec.toNat_ofNat, Nat.add_mod_mod]
    exact Nat.mod_le _ _
  rw [List.length_append] at h
  rw [appended_caps]
  omega

theorem out_ok_of_room {b : Byte} (h : s.RoomFor [b]) : out b s = .ok () (s.appendOut b) := by
  rw [out_eq, if_neg (Nat.lt_of_lt_of_le (Nat.lt_succ_self _) h).ne]

/-- OUT_LEN never reaches a capacity that its register cannot hold. -/
theorem out_ok_of_large (b : Byte) (h : 2 ^ 32 ≤ s.caps.outCap) : out b s = .ok () (s.appendOut b) := by
  rw [out_eq, if_neg (s.outLen.isLt.trans_le h).ne]

theorem outAll_ok_of_room (h : s.RoomFor bs) : outAll bs s = .ok () (s.appended bs) := by
  rcases lt_or_ge s.caps.outCap (2 ^ 32) with hcap | hcap
  · exact outAll_ok bs h hcap
  · clear h
    induction bs generalizing s with
    | nil => rfl
    | cons b bs ih =>
      rw [outAll, forEach_cons, exec_ok_bind (out_ok_of_large b hcap)]
      exact ih hcap

theorem appended_withGenc (g : GifEnc) :
    ({ s with genc := g } : State).appended bs = { s.appended bs with genc := g } := by
  induction bs generalizing s with
  | nil => rfl
  | cons b bs ih => exact ih (s := s.appendOut b)

end

/-! ## GIF.EBEGIN (R460, R464) -/

/-- The encoder registers that GIF.EBEGIN sets before it places the Netscape extension. -/
def State.openedGenc (s : State) : GifEnc where
  opened := true
  anim := s.arg0.getLsbD 0
  nsLate := s.arg0.getLsbD 1
  nsDone := false
  rep := s.arg1.setWidth 16
  frames := 0

/-- What GIF.EBEGIN does after its checks. -/
def ebeginWrites (s : State) : Exec Unit := do
  outAll gifMagic
  outAll s.dimBytes
  outAll [0x70, 0x00, 0x00]
  alter (fun t => { t with genc := s.openedGenc })
  if s.arg0.getLsbD 0 ∧ s.arg0.getLsbD 1 = false then netscape else pure ()

theorem exec_gifEbegin (s : State) :
    exec .gifEbegin s =
      if s.genc.opened = true then .next (enterFault 0x88 ⟨.badState, 1⟩ s)
      else if s.arg0.toNat > 3 then .next (enterFault 0x88 ⟨.badArgument, s.arg0⟩ s)
      else if s.arg1.toNat > 65535 then .next (enterFault 0x88 ⟨.badArgument, s.arg1⟩ s)
      else if s.pixW = 0 ∨ s.pixH = 0 then .next (enterFault 0x88 ⟨.badDimensions, s.pixDim⟩ s)
      else runCmd 0x88 (ebeginWrites s) s := by
  rw [exec, execGifEbegin, runCmd_look, runCmd_check, runCmd_check, runCmd_check, runCmd_requireDims]
  rfl

theorem netscape_ok {s : State} (g : GifEnc) (h : s.RoomFor (netscapeBytes g.rep)) :
    netscape { s with genc := g } =
      .ok () { s.appended (netscapeBytes g.rep) with genc := { g with nsDone := true } } := by
  have hout : outAll (netscapeBytes g.rep) { s with genc := g } =
      .ok () { s.appended (netscapeBytes g.rep) with genc := g } := by
    rw [← appended_withGenc]
    exact outAll_ok_of_room h
  rw [netscape, exec_look_bind, exec_ok_bind hout, exec_alter]

/-- The signature and the screen descriptor. -/
def State.screenBytes (s : State) : List Byte := gifMagic ++ s.dimBytes ++ [0x70, 0x00, 0x00]

/-- What GIF.EBEGIN appends: the screen, and for an animation without late placement the Netscape extension. -/
def State.openingBytes (s : State) : List Byte :=
  s.screenBytes ++ if s.arg0 = 1 then netscapeBytes (s.arg1.extractLsb' 0 16) else []

/-- The encoder registers as GIF.EBEGIN leaves them. -/
def State.startedGenc (s : State) : GifEnc where
  opened := true
  anim := s.arg0.getLsbD 0
  nsLate := s.arg0.getLsbD 1
  nsDone := decide (s.arg0 = 1)
  rep := s.arg1.extractLsb' 0 16
  frames := 0

theorem ebeginWrites_ok {s : State} (harg : s.arg0.getLsbD 0 = true ∧ s.arg0.getLsbD 1 = false ↔ s.arg0 = 1)
    (h : s.RoomFor s.openingBytes) :
    ebeginWrites s s = .ok () { s.appended s.openingBytes with genc := s.startedGenc } := by
  have hrep : s.openedGenc.rep = s.arg1.extractLsb' 0 16 := BitVec.setWidth_eq_extractLsb' (x := s.arg1) (by decide)
  unfold State.openingBytes State.startedGenc at *
  rw [← hrep] at h ⊢
  obtain ⟨hscreen, hext⟩ := roomFor_append h
  obtain ⟨hhead, hlast⟩ := roomFor_append hscreen
  obtain ⟨hmagic, hdims⟩ := roomFor_append hhead
  rw [appended_append] at hlast
  rw [ebeginWrites, exec_ok_bind (outAll_ok_of_room hmagic), exec_ok_bind (outAll_ok_of_room hdims),
    exec_ok_bind (outAll_ok_of_room hlast), exec_alter_bind, ← appended_append, ← appended_append, exec_ite]
  change (if _ then netscape { s.appended s.screenBytes with genc := s.openedGenc } else _) = _
  by_cases h1 : s.arg0 = 1
  · rw [if_pos h1] at hext ⊢
    rw [if_pos (harg.mpr h1), netscape_ok s.openedGenc hext, appended_append, decide_eq_true h1]
    rfl
  · rw [if_neg (mt harg.mp h1), if_neg h1, List.append_nil, decide_eq_false h1]
    rfl

theorem le16_extract (v : Word) :
    le16 (v.extractLsb' 0 16) ++ le16 (v.extractLsb' 16 16) = leBytes v ++ leBytes (v >>> (16 : Nat)) := by
  have hlow (i : Nat) (hi : i + 8 ≤ 16) : (v.extractLsb' 0 16).extractLsb' i 8 = v.extractLsb' i 8 :=
    BitVec.extractLsb'_extractLsb'_of_le hi
  have hhigh (i : Nat) (hi : i + 8 ≤ 16) :
      (v.extractLsb' 16 16).extractLsb' i 8 = (v >>> (16 : Nat)).extractLsb' i 8 := by
    ext j hj
    simp [show i + j < 16 by omega]
  rw [le16, le16, leBytes, leBytes, hlow 0 (by decide), hlow 8 (by decide), hhigh 0 (by decide), hhigh 8 (by decide)]

theorem openingBytes_eq (s : State) :
    s.openingBytes = [0x47, 0x49, 0x46, 0x38, 0x39, 0x61] ++ le16 (s.pixDim.extractLsb' 0 16) ++
      le16 (s.pixDim.extractLsb' 16 16) ++ [0x70, 0x00, 0x00] ++
      (if s.arg0 = 1 then netscapeBytes (s.arg1.extractLsb' 0 16) else []) := by
  rw [List.append_assoc [0x47, 0x49, 0x46, 0x38, 0x39, 0x61], le16_extract]
  rfl

/-- ARG0 is the animation bit alone where it is 1. -/
theorem arg0_bits_iff {v : Word} (h : v.toNat ≤ 3) : v.getLsbD 0 = true ∧ v.getLsbD 1 = false ↔ v = 1 := by
  obtain rfl | rfl | rfl | rfl : v = 0 ∨ v = 1 ∨ v = 2 ∨ v = 3 := by bv_omega
  all_goals decide

/-- Settles O59: the checks one by one, and the writes after them where the bytes fit. -/
theorem gifEncodeEnds : Obligations.GifEncodeEnds := by
  unfold Obligations.GifEncodeEnds
  have hdims (s : State) :
      s.pixW = 0 ∨ s.pixH = 0 ↔ s.pixDim.extractLsb' 0 16 = 0 ∨ s.pixDim.extractLsb' 16 16 = 0 :=
    or_congr (BitVec.toNat_inj (y := 0)) (BitVec.toNat_inj (y := 0))
  refine ⟨fun s hopen h0 h1 hw hh hroom => ?_,
    fun s => ⟨fun h => ?_, fun h h0 => ?_, fun h h0 h1 => ?_, fun h h0 h1 hd => ?_, fun h => ?_, fun h => ?_⟩,
    fun s h hroom => ?_, fun rep => rfl⟩
  · rw [exec_gifEbegin, if_neg (by simp [hopen]), if_neg (by omega), if_neg (by omega),
      if_neg (by rw [hdims]; exact not_or.mpr ⟨hw, hh⟩)]
    have hbytes := openingBytes_eq s
    rw [← hbytes] at hroom ⊢
    exact runCmd_ok (ebeginWrites_ok (arg0_bits_iff h0) hroom)
  · rw [exec_gifEbegin, if_pos h]
  · rw [exec_gifEbegin, if_neg (by simp [h]), if_pos h0]
  · rw [exec_gifEbegin, if_neg (by simp [h]), if_neg (by omega), if_pos h1]
  · rw [exec_gifEbegin, if_neg (by simp [h]), if_neg (by omega), if_neg (by omega), if_pos ((hdims s).mpr hd)]
  · rw [exec, execGifEend, runCmd_look, runCmd_check, if_pos h]
  · rw [exec, execGifEframe, runCmd_look, runCmd_check]
    exact if_pos h
  · rw [exec, execGifEend, runCmd_look, runCmd_check, if_neg (by simp [h])]
    exact runCmd_ok (by rw [exec_ok_bind (out_ok_of_room hroom)]; rfl)

end Sys2Proof.Machine
end

