-- ==== Sys2Proof/Proofs/JpegTableSegments.lean ====
section
/-! PROOFS. DQT and DHT: a segment's payload as the loop over its tables sees it, one turn of each loop, and the loops
over all tables (44_jpeg_decode.md R273, R280, R281). -/

namespace Sys2Proof.Machine

open Sys2Proof

/-! ## Bytes read (40_bitcursor.md R166, R168) -/

section
variable {s t : State} {as bs : List Byte}

theorem realign_eq_realigned (s : State) : s.realign = s.realigned := by
  unfold State.realigned
  rw [overshoot_eq_bufferedSize]
  rfl

theorem realign_of_empty (hacc : s.bcAcc = 0) (hbits : s.bcNbits = 0) : s.realign = s := by
  have h : s.realign = { s with bcAcc := s.bcAcc, bcNbits := s.bcNbits, inPos := s.inPos - wordN 0 } := by
    rw [realign_eq_realigned, State.realigned, overshoot_eq_zero hbits, hacc, hbits]
  rw [h, show s.inPos - wordN 0 = s.inPos from BitVec.sub_zero _]

theorem inBytes_of_reads (h : s.Reads bs) : s.inBytes s.inPos.toNat bs.length = bs := by
  refine List.ext_getElem (Cells.length_getRange ..) fun i hi hi' => ?_
  exact (Cells.getElem_getRange ..).trans <| (h.2 i hi').trans (List.getD_eq_getElem bs 0 hi')

theorem reads_append (h : s.Reads (as ++ bs)) : s.Reads as ∧ (s.advance as.length).Reads bs := by
  obtain ⟨hlen, hbyte⟩ := h
  rw [List.length_append] at hlen hbyte
  have hpos : (s.advance as.length).inPos.toNat = s.inPos.toNat + as.length :=
    toNat_add_wordN (l := s.inLen) (by omega)
  refine ⟨⟨by omega, fun i hi => ?_⟩, ⟨?_, fun i hi => ?_⟩⟩
  · rw [hbyte i (by omega)]
    exact List.getD_append as bs 0 i hi
  · rw [hpos]
    exact (Nat.add_assoc ..).trans_le hlen
  · have hi' := hbyte (as.length + i) (by omega)
    rw [byteAt, List.getD_append_right as bs 0 _ (Nat.le_add_right ..), Nat.add_sub_cancel_left] at hi'
    rw [State.byteIn, hpos, Nat.add_assoc]
    exact hi'

theorem readFull_ok (hs : s.realign = t) (h : t.Reads bs) :
    readFull bs.length s = .ok bs ((t.storeTmp bs).advance bs.length) := by
  have hlen : s.inLen = t.inLen := by rw [← hs]; rfl
  have hbytes : s.inBytes t.inPos.toNat bs.length = t.inBytes t.inPos.toNat bs.length := by rw [← hs]; rfl
  rw [readFull_eq, hs, hbytes, inBytes_of_reads h, hlen, if_neg (Nat.not_lt.mpr h.1)]

end

/-! ## A segment (R273) -/

section
variable {s t : State} {p : List Byte} {r : Raise}

theorem toNat_lengthField {n : Nat} (h : n ≤ 65533) :
    (u16be (BitVec.ofNat 8 ((n + 2) / 256)) (BitVec.ofNat 8 (n + 2))).toNat = n + 2 := by
  rw [u16be, BitVec.toNat_append, BitVec.toNat_ofNat, BitVec.toNat_ofNat, ← Nat.shiftLeft_add_eq_or_of_lt (by omega),
    Nat.shiftLeft_eq]
  omega

theorem segment_eq (h : p.length ≤ 65533) (hreads : s.realigned.Reads (segmentBytes p))
    (k : List Byte → Nat → Exec Unit) :
    segment (fun n => readFull n >>= fun p => k p n) s = k p p.length (s.pastSegment p) := by
  obtain ⟨hhead, hload⟩ := reads_append hreads
  have hlen : (u16be (byteAt ((segmentBytes p).take 2) 0) (byteAt ((segmentBytes p).take 2) 1)).toNat = p.length + 2 :=
    toNat_lengthField h
  have htwo : readFull 2 s =
      .ok ((segmentBytes p).take 2) ((s.realigned.storeTmp ((segmentBytes p).take 2)).advance 2) :=
    readFull_ok (realign_eq_realigned s) hhead
  have hfield : segmentLength s = .ok p.length ((s.realigned.storeTmp ((segmentBytes p).take 2)).advance 2) := by
    rw [segmentLength, exec_ok_bind htwo, exec_check]
    show (if BitVec.toNat (u16be _ _) < 2 then _ else EStateM.Result.ok (BitVec.toNat (u16be _ _) - 2) _) = _
    rw [hlen, if_neg (by omega)]
    rfl
  have hpayload : readFull p.length ((s.realigned.storeTmp ((segmentBytes p).take 2)).advance 2) = _ :=
    readFull_ok (realign_of_empty rfl rfl) hload
  have hpos : s.realigned.inPos + wordN 2 + wordN p.length = s.realigned.inPos + wordN (p.length + 2) := by
    rw [BitVec.add_assoc, wordN, wordN, wordN, ← BitVec.ofNat_add, Nat.add_comm]
  rw [segment, exec_ok_bind hfield, exec_ok_bind hpayload, State.pastSegment, ← hpos]
  rfl

/-- Inside a decode an element is its marker's handler. -/
theorem runJpegElement_eq (hd : s.Decoding) (k : Marker) :
    runJpegElement k s = runCmd 0x51 (failingJpeg (runMarker k)) s := by
  obtain ⟨hsoi, hdone, hfailed⟩ := hd
  have hstate : requireDecoding s = .ok () s := by
    rw [requireDecoding, exec_look_bind]
    exact exec_raiseIf_neg s (not_or.mpr ⟨hdone, hfailed⟩) ..
  have helem : runElement k s = runMarker k s := by
    rw [runElement, exec_look_bind]
    show (if s.jpg.soiSeen = true then _ else _ : Exec Unit) s = _
    rw [if_pos hsoi]
  rw [runJpegElement, runCmd, exec_ok_bind hstate, runCmd, failingJpeg, failingJpeg, exec_onRaise, exec_onRaise, helem]

theorem runJpegElement_ok {k : Marker} (hd : s.Decoding) (h : runMarker k s = .ok () t) :
    runJpegElement k s = .next t.complete := by
  rw [runJpegElement_eq hd]
  exact runCmd_ok (by rw [failingJpeg, exec_onRaise, h])

theorem runJpegElement_error {k : Marker} (hd : s.Decoding) (h : runMarker k s = .error r t) :
    runJpegElement k s = .next (enterFault 0x51 r t.failedJpeg) := by
  rw [runJpegElement_eq hd]
  exact runCmd_error (by rw [failingJpeg, exec_onRaise, h]; rfl)

end

/-! ## A loop over the tables of a payload -/

/-- What the loops of R280 and R281 have in common: `loop p n fuel o` goes over the payload `p` of `n` bytes from offset
`o` on. An acceptable table at `o` is put into its slot, at the end of the payload the loop ends, and what stands at `o`
raises where it is not acceptable. -/
structure TableLoop {τ : Type} (loop : List Byte → Nat → Nat → Nat → Exec Unit) (bytes : τ → List Byte)
    (put : State → τ → State) (Ok : τ → Prop) (fault : List Byte → Option Raise) : Prop where
  nonempty : ∀ q, 0 < (bytes q).length
  turn : ∀ (p rest : List Byte) (q : τ) (k o : Nat) (t : State), Ok q → p.drop o = bytes q ++ rest →
    loop p p.length (k + 1) o t = loop p p.length k (o + (bytes q).length) (put t q)
  done : ∀ (p : List Byte) (k o : Nat) (t : State), p.drop o = [] → loop p p.length (k + 1) o t = .ok () t
  bad : ∀ (p : List Byte) (r : Raise) (k o : Nat) (t : State), fault (p.drop o) = some r →
    loop p p.length (k + 1) o t = .error r t

namespace TableLoop

variable {τ : Type} {loop : List Byte → Nat → Nat → Nat → Exec Unit} {bytes : τ → List Byte}
  {put : State → τ → State} {Ok : τ → Prop} {fault : List Byte → Option Raise} {qs : List τ} {p rest : List Byte}

theorem length_le (h : TableLoop loop bytes put Ok fault) (qs : List τ) : qs.length ≤ (qs.flatMap bytes).length := by
  induction qs with
  | nil => exact Nat.zero_le _
  | cons q qs ih =>
    have hq := h.nonempty q
    rw [List.flatMap_cons, List.length_append, List.length_cons]
    omega

theorem turns (h : TableLoop loop bytes put Ok fault) (hqs : ∀ q ∈ qs, Ok q) {o : Nat}
    (hp : p.drop o = qs.flatMap bytes ++ rest) (k : Nat) (t : State) :
    loop p p.length (k + qs.length) o t =
      loop p p.length k (o + (qs.flatMap bytes).length) (qs.foldl put t) := by
  induction qs generalizing o t with
  | nil => rfl
  | cons q qs ih =>
    rw [List.flatMap_cons, List.append_assoc] at hp
    have hrest : p.drop (o + (bytes q).length) = qs.flatMap bytes ++ rest := by
      rw [← List.drop_drop, hp, List.drop_left]
    rw [List.length_cons, ← Nat.add_assoc, h.turn p _ q _ o t (hqs q List.mem_cons_self) hp,
      ih (fun q' hq' => hqs q' (List.mem_cons_of_mem q hq')) hrest, List.flatMap_cons, List.length_append,
      Nat.add_assoc, List.foldl_cons]

/-- From its first byte, with the fuel of R280 and R281, the loop comes to what follows the acceptable tables. -/
theorem start (h : TableLoop loop bytes put Ok fault) (hqs : ∀ q ∈ qs, Ok q) (hp : p = qs.flatMap bytes ++ rest)
    (t : State) :
    ∃ k o, p.drop o = rest ∧ loop p p.length (p.length + 1) 0 t = loop p p.length (k + 1) o (qs.foldl put t) := by
  have hle : qs.length ≤ p.length := by
    have hq := h.length_le qs
    rw [hp, List.length_append]
    omega
  refine ⟨p.length - qs.length, (qs.flatMap bytes).length, by rw [hp, List.drop_left], ?_⟩
  rw [show p.length + 1 = p.length - qs.length + 1 + qs.length by omega, h.turns hqs (o := 0) hp, Nat.zero_add]

/-- The element as a whole: all tables loaded, or those before the one that raises. -/
theorem element (h : TableLoop loop bytes put Ok fault) {s : State} {m : Marker}
    (hm : runMarker m = segment (fun n => readFull n >>= fun p => loop p n (n + 1) 0)) (hd : s.Decoding)
    (hqs : ∀ q ∈ qs, Ok q) (hp : p = qs.flatMap bytes ++ rest) (hlen : p.length ≤ 65533)
    (hreads : s.realigned.Reads (segmentBytes p)) :
    (rest = [] → runJpegElement m s = .next (qs.foldl put (s.pastSegment p)).complete) ∧
    ∀ r : Raise, fault rest = some r →
      runJpegElement m s = .next (enterFault 0x51 r (qs.foldl put (s.pastSegment p)).failedJpeg) := by
  obtain ⟨k, o, ho, hloop⟩ := h.start hqs hp (s.pastSegment p)
  have hrun : runMarker m s = loop p p.length (k + 1) o (qs.foldl put (s.pastSegment p)) := by
    rw [hm, segment_eq hlen hreads (fun p n => loop p n (n + 1) 0), hloop]
  refine ⟨fun hrest => runJpegElement_ok hd ?_, fun r hr => runJpegElement_error hd ?_⟩
  · rw [hrun, h.done p k o _ (ho.trans hrest)]
  · rw [hrun, h.bad p r k o _ (by rw [ho, hr])]

end TableLoop

/-! ## Bytes of a payload from an offset on -/

section
variable {p more : List Byte} {b : Byte} {o : Nat}

theorem byteAt_drop (p : List Byte) (o i : Nat) : byteAt (p.drop o) i = byteAt p (o + i) := by
  simp [byteAt, List.getD_eq_getElem?_getD]

theorem byteAt_offset (h : p.drop o = b :: more) : byteAt p o = b := by
  rw [← Nat.add_zero o, ← byteAt_drop, h]
  rfl

theorem byteAt_after (h : p.drop o = b :: more) (i : Nat) : byteAt p (o + 1 + i) = byteAt more i := by
  rw [← byteAt_drop, ← List.drop_drop, h]
  rfl

theorem length_sub_offset (h : p.drop o = b :: more) : p.length - o = (b :: more).length := by
  rw [← List.length_drop, h]

theorem offset_lt (h : p.drop o = b :: more) : o < p.length := by
  have := length_sub_offset h
  rw [List.length_cons] at this
  omega

theorem length_le_of_drop (h : p.drop o = []) : ¬ o < p.length := by
  rw [List.drop_eq_nil_iff] at h
  omega

theorem toNat_high (b : Byte) : (b >>> (4 : Nat)).toNat = b.toNat / 16 := by
  rw [BitVec.toNat_ushiftRight, Nat.shiftRight_eq_div_pow]

theorem toNat_low (b : Byte) : (b &&& 15).toNat = b.toNat % 16 := by
  rw [BitVec.toNat_and]
  exact Nat.and_two_pow_sub_one_eq_mod b.toNat 4

end

/-! ## DQT (R280) -/

section
variable {p more : List Byte} {b : Byte} {o : Nat}

theorem dqtLoop_cons (h : p.drop o = b :: more) (k : Nat) (t : State) :
    dqtLoop p p.length (k + 1) o t =
      match dqtFault (b :: more) with
      | some r => .error r t
      | none => dqtLoop p p.length k (o + if b.toNat / 16 = 0 then 65 else 129)
          (t.putQt (b.toNat % 16) (dqtEntries p o (decide (b.toNat / 16 = 1)))) := by
  rw [dqtLoop, if_pos (offset_lt h), byteAt_offset h, toNat_high, toNat_low, length_sub_offset h, exec_check,
    exec_check, exec_check, dqtFault]
  split_ifs <;> rfl

/-- The bytes of an entry (R123). -/
def dqtEntryBytes (wide : Bool) (e : BitVec 16) : List Byte :=
  if wide then [e.extractLsb' 8 8, e.extractLsb' 0 8] else [e.extractLsb' 0 8]

/-- Entry `k` of the entries that begin at the first byte. -/
def dqtEntry (wide : Bool) (l : List Byte) (k : Nat) : BitVec 16 :=
  if wide then u16be (byteAt l (2 * k)) (byteAt l (2 * k + 1)) else (byteAt l k).setWidth 16

theorem dqtEntry_zero {wide : Bool} {e : BitVec 16} (h : wide = false → e.toNat < 256) (l : List Byte) :
    dqtEntry wide (dqtEntryBytes wide e ++ l) 0 = e := by
  cases wide with
  | true =>
    exact (BitVec.extractLsb'_append_extractLsb'_eq_extractLsb' (by decide)).trans (BitVec.extractLsb'_eq_self ..)
  | false =>
    refine BitVec.eq_of_toNat_eq ?_
    have := h rfl
    show ((e.extractLsb' 0 8).setWidth 16).toNat = _
    simp
    omega

theorem dqtEntry_succ (wide : Bool) (e : BitVec 16) (l : List Byte) (k : Nat) :
    dqtEntry wide (dqtEntryBytes wide e ++ l) (k + 1) = dqtEntry wide l k := by
  cases wide <;> rfl

theorem map_dqtEntry {wide : Bool} {es : List (BitVec 16)} (h : wide = false → ∀ e ∈ es, e.toNat < 256)
    (l : List Byte) :
    (List.range es.length).map (dqtEntry wide (es.flatMap (dqtEntryBytes wide) ++ l)) = es := by
  induction es with
  | nil => rfl
  | cons e es ih =>
    rw [List.length_cons, List.range_succ_eq_map, List.map_cons, List.map_map, List.flatMap_cons, List.append_assoc,
      dqtEntry_zero fun hw => h hw e List.mem_cons_self]
    refine congrArg (e :: ·) ((List.map_congr_left fun k _ => dqtEntry_succ wide e _ k).trans ?_)
    exact ih fun hw e' he' => h hw e' (List.mem_cons_of_mem e he')

theorem dqtEntries_eq (h : p.drop o = b :: more) (wide : Bool) :
    dqtEntries p o wide = (List.range 64).map (dqtEntry wide more) := by
  refine List.map_congr_left fun k _ => ?_
  rw [dqtEntry, ← byteAt_after h, ← byteAt_after h, ← byteAt_after h]
  congr 3
  omega

theorem length_entryBytes (wide : Bool) (es : List (BitVec 16)) :
    (es.flatMap (dqtEntryBytes wide)).length = (if wide then 2 else 1) * es.length := by
  rw [List.length_flatMap]
  cases wide <;> simp [dqtEntryBytes, Nat.mul_comm]

theorem length_dqtBytes {q : DqtTable} (hq : q.Ok) : q.bytes.length = if q.wide.toNat = 0 then 65 else 129 := by
  have h := length_entryBytes q.wide q.entries
  rw [hq.1] at h
  have hcons : q.bytes.length = (q.entries.flatMap (dqtEntryBytes q.wide)).length + 1 := rfl
  rw [hcons, h]
  cases q.wide <;> rfl

/-- The byte before a DQT table's entries: precision and slot. -/
theorem dqtHead_toNat (q : DqtTable) :
    (BitVec.ofNat 8 ((if q.wide then 16 else 0) + q.slot.val)).toNat / 16 = q.wide.toNat ∧
    (BitVec.ofNat 8 ((if q.wide then 16 else 0) + q.slot.val)).toNat % 16 = q.slot.val := by
  have hslot := q.slot.isLt
  cases q.wide <;> simp <;> omega

theorem dqtFault_eq_none (hslot : b.toNat % 16 ≤ 3) (hprec : b.toNat / 16 ≤ 1)
    (hlen : (if b.toNat / 16 = 0 then 65 else 129) ≤ (b :: more).length) : dqtFault (b :: more) = none := by
  rw [dqtFault, if_neg (Nat.not_lt.mpr hslot), if_neg (Nat.not_lt.mpr hprec), if_neg (Nat.not_lt.mpr hlen)]

theorem dqt_turn {q : DqtTable} (hq : q.Ok) (h : p.drop o = q.bytes ++ more) (k : Nat) (t : State) :
    dqtLoop p p.length (k + 1) o t =
      dqtLoop p p.length k (o + q.bytes.length) (t.putQt q.slot.val q.entries) := by
  have hlen := length_dqtBytes hq
  have hentries := map_dqtEntry hq.2 more
  rw [hq.1] at hentries
  obtain ⟨hprec, hslot⟩ := dqtHead_toNat q
  have hcons : p.drop o = BitVec.ofNat 8 ((if q.wide then 16 else 0) + q.slot.val) ::
      (q.entries.flatMap (dqtEntryBytes q.wide) ++ more) := h
  have hwide : decide (q.wide.toNat = 1) = q.wide := by cases q.wide <;> rfl
  have hnone := dqtFault_eq_none (hslot.trans_le (Nat.le_of_lt_succ q.slot.isLt))
    (hprec.trans_le (Bool.toNat_le _)) (more := q.entries.flatMap (dqtEntryBytes q.wide) ++ more) (by
      rw [hprec, ← hlen, ← List.cons_append]
      exact (List.sublist_append_left ..).length_le)
  rw [dqtLoop_cons hcons, hnone, hprec, hslot, hwide, dqtEntries_eq hcons, hentries, hlen]

theorem dqt_tableLoop :
    TableLoop dqtLoop DqtTable.bytes (fun t q => t.putQt q.slot.val q.entries) DqtTable.Ok dqtFault where
  nonempty q := Nat.succ_pos _
  turn p rest q k o t hq h := dqt_turn hq h k t
  done p k o t h := by rw [dqtLoop, if_neg (length_le_of_drop h)]; rfl
  bad p r k o t h := by
    cases hp : p.drop o with
    | nil => rw [hp] at h; cases h
    | cons b more => rw [dqtLoop_cons hp, ← hp, h]

end

/-! ## A specification as R190 to R195 count it -/

section
variable (sp : HuffSpec)

/-- Row `l` of R191 in closed form. -/
def HuffSpec.rowOf (l : Nat) : HuffRow := ⟨l, sp.firstCode l, sp.firstIndex l, sp.count l⟩

theorem huffRows_drop (n l : Nat) (h : l + n = sp.counts.length) :
    huffRows (sp.counts.drop l) (l + 1) (sp.firstCode (l + 1)) (sp.firstIndex (l + 1)) =
      (List.range' (l + 1) n).map sp.rowOf := by
  induction n generalizing l with
  | zero => rw [List.drop_eq_nil_of_le (by omega)]; rfl
  | succ n ih =>
    have hl : l < sp.counts.length := by omega
    have hcount : sp.counts[l].toNat = sp.count (l + 1) :=
      congrArg BitVec.toNat (List.getD_eq_getElem sp.counts 0 hl).symm
    rw [List.drop_eq_getElem_cons hl, huffRows, hcount, List.range'_succ, List.map_cons]
    exact congrArg _ (ih (l + 1) (by omega))

theorem rows_eq : sp.rows = (List.range' 1 sp.counts.length).map sp.rowOf :=
  huffRows_drop sp sp.counts.length 0 (Nat.zero_add _)

theorem firstCode_zero_fits : decide (2 ^ 0 < sp.firstCode 0 + sp.count 0) = false := rfl

theorem oversubscribed_eq (h : sp.counts.length = 16) :
    sp.oversubscribed = (List.range 17).find? (fun l => decide (2 ^ l < sp.firstCode l + sp.count l)) := by
  have hrange : List.range 17 = 0 :: List.range' 1 16 := by decide
  rw [HuffSpec.oversubscribed, rows_eq, h, hrange, List.find?_cons_of_neg (by rw [firstCode_zero_fits]; decide),
    List.find?_map, Option.map_map]
  exact congrFun Option.map_id _

theorem oversubscribed_of_valid (h : sp.Valid) : sp.oversubscribed = none := by
  rw [oversubscribed_eq sp h.lengths, List.find?_eq_none]
  intro l hl
  rw [List.mem_range] at hl
  rcases Nat.eq_zero_or_pos l with rfl | hpos
  · rw [firstCode_zero_fits]
    decide
  · simpa using h.fits l hpos (by omega)

theorem length_codes_huffRows (cs : List Byte) (l code k : Nat) :
    ((huffRows cs l code k).flatMap (fun r => (List.range r.count).map (fun j => (r.len, r.first + j)))).length =
      (cs.map BitVec.toNat).sum := by
  induction cs generalizing l code k with
  | nil => rfl
  | cons c cs ih =>
    rw [huffRows, List.flatMap_cons, List.length_append, ih, List.length_map, List.length_range, List.map_cons,
      List.sum_cons]

/-- Values past the last code do not matter (R196). -/
theorem build_append (more : List Byte) (h : sp.values.length = sp.total) :
    (⟨sp.counts, sp.values ++ more⟩ : HuffSpec).build = sp.build := by
  have hcodes : (⟨sp.counts, sp.values ++ more⟩ : HuffSpec).codes = sp.codes := by
    have hlen := (length_codes_huffRows sp.counts 1 0 0).trans h.symm
    have happ := List.zipWith_append (f := fun lc v => (⟨lc.1, lc.2, v⟩ : HuffCode)) (l₁' := []) (l₂' := more) hlen
    rw [List.append_nil, List.zipWith_nil_left, List.append_nil] at happ
    exact happ
  have hvalues (i : Fin 256) : (if i.val < sp.total then byteAt (sp.values ++ more) i else 0) =
      if i.val < sp.total then byteAt sp.values i else 0 := by
    split
    · next hi => exact List.getD_append sp.values more 0 i (by omega)
    · rfl
  rw [HuffSpec.build, hcodes, HuffSpec.build, HuffTable.mk.injEq]
  exact ⟨rfl, rfl, congrArg Vector.ofFn (funext hvalues), rfl, rfl, rfl, rfl, rfl, rfl⟩

end

/-! ## DHT (R281) -/

section
variable {p more : List Byte} {b : Byte} {o : Nat}

theorem dhtSpec_eq (h : p.drop o = b :: more) (hlen : 16 ≤ more.length) :
    dhtSpec p o = ⟨more.take 16, (more.drop 16).take 256⟩ := by
  have hcounts : (List.range 16).map (fun l => byteAt p (o + 1 + l)) = more.take 16 := by
    refine List.ext_getElem (by simp [hlen]) fun i hi hi' => ?_
    rw [List.length_take] at hi'
    rw [List.getElem_map, List.getElem_range, byteAt_after h, List.getElem_take]
    exact List.getD_eq_getElem more 0 (by omega)
  have hvalues : p.drop (o + 17) = more.drop 16 := by
    rw [← List.drop_drop, h, List.drop_succ_cons]
  rw [dhtSpec, hcounts, hvalues]

theorem dhtLoop_cons (h : p.drop o = b :: more) (k : Nat) (t : State) :
    dhtLoop p p.length (k + 1) o t =
      match dhtFault (b :: more) with
      | some r => .error r t
      | none => dhtLoop p p.length k (o + 17 + (dhtSpec p o).total)
          (t.putTable (b.toNat / 16) (b.toNat % 16) (dhtSpec p o).build) := by
  rw [dhtLoop, if_pos (offset_lt h), length_sub_offset h, exec_check, dhtFault]
  by_cases hlen : (b :: more).length < 17
  · rw [if_pos hlen, if_pos hlen]
  have h16 : 16 ≤ more.length := by
    rw [List.length_cons] at hlen
    omega
  have hover : (dhtSpec p o).oversubscribed = (List.range 17).find? (fun l => decide (2 ^ l <
      (⟨more.take 16, more.drop 16⟩ : HuffSpec).firstCode l + (⟨more.take 16, more.drop 16⟩ : HuffSpec).count l)) := by
    rw [dhtSpec_eq h h16]
    exact oversubscribed_eq ⟨more.take 16, more.drop 16⟩ (by simp [h16])
  have htotal : (dhtSpec p o).total = (⟨more.take 16, more.drop 16⟩ : HuffSpec).total := by
    rw [dhtSpec_eq h h16]
    rfl
  have hroom : (b :: more).length - 17 < (dhtSpec p o).total ↔ (b :: more).length < 17 + (dhtSpec p o).total := by omega
  rw [if_neg hlen, if_neg hlen, byteAt_offset h, toNat_high, toNat_low, exec_check, exec_check, exec_check, exec_bind,
    buildTable_eq, ← htotal, ← hover]
  simp only [hroom]
  by_cases hbig : 256 < (dhtSpec p o).total
  · rw [if_pos hbig, if_pos hbig]
    split_ifs <;> rfl
  · rw [if_neg hbig, if_neg hbig, if_neg hbig]
    cases (dhtSpec p o).oversubscribed with
    | none =>
      rw [if_neg (not_not.mpr rfl)]
      split_ifs <;> rfl
    | some l =>
      rw [if_pos (Option.some_ne_none l)]
      split_ifs <;> rfl

/-- The byte before a DHT table's counts: class and slot. -/
theorem dhtHead_toNat (d : DhtTable) :
    (BitVec.ofNat 8 (16 * d.cls.val + d.slot.val)).toNat / 16 = d.cls.val ∧
    (BitVec.ofNat 8 (16 * d.cls.val + d.slot.val)).toNat % 16 = d.slot.val := by
  have hcls := d.cls.isLt
  have hslot := d.slot.isLt
  rw [BitVec.toNat_ofNat]
  omega

/-- A table that builds, with its values behind it, fails no check of R281. -/
theorem dhtFault_eq_none {sp : HuffSpec} (hsp : sp.Valid) (hvalues : sp.values.length = sp.total)
    (hcls : b.toNat / 16 ≤ 1) (hslot : b.toNat % 16 ≤ 3) :
    dhtFault (b :: (sp.counts ++ sp.values ++ more)) = none := by
  have hlen : (b :: (sp.counts ++ sp.values ++ more)).length = 17 + sp.total + more.length := by
    rw [List.length_cons, List.length_append, List.length_append, hsp.lengths, hvalues]
    omega
  have hcounts : (sp.counts ++ sp.values ++ more).take 16 = sp.counts := by
    rw [List.append_assoc, ← hsp.lengths, List.take_left]
  have htotal (vs : List Byte) : (⟨sp.counts, vs⟩ : HuffSpec).total = sp.total := rfl
  have hover (vs : List Byte) : (List.range 17).find? (fun l =>
      decide (2 ^ l < (⟨sp.counts, vs⟩ : HuffSpec).firstCode l + (⟨sp.counts, vs⟩ : HuffSpec).count l)) = none :=
    (oversubscribed_eq ⟨sp.counts, vs⟩ hsp.lengths).symm.trans (oversubscribed_of_valid sp hsp)
  rw [dhtFault, hlen, hcounts, if_neg (by omega), if_neg (by omega), htotal, if_neg (Nat.not_lt.mpr hsp.total),
    if_neg (Nat.not_lt.mpr (Nat.le_add_right ..)), hover, Option.map_none]

theorem dht_turn {d : DhtTable} (hd : d.Ok) (h : p.drop o = d.bytes ++ more) (k : Nat) (t : State) :
    dhtLoop p p.length (k + 1) o t =
      dhtLoop p p.length k (o + d.bytes.length) (t.putTable d.cls.val d.slot.val d.spec.build) := by
  obtain ⟨hvalid, hvalues⟩ := hd
  obtain ⟨hcls, hslot⟩ := dhtHead_toNat d
  have hlen : d.bytes.length = 17 + d.spec.total := by
    rw [DhtTable.bytes, List.length_cons, List.length_append, hvalid.lengths, hvalues]
    omega
  have hcons : p.drop o =
      BitVec.ofNat 8 (16 * d.cls.val + d.slot.val) :: (d.spec.counts ++ d.spec.values ++ more) := h
  have hspec : dhtSpec p o = ⟨d.spec.counts, d.spec.values ++ more.take (256 - d.spec.total)⟩ := by
    rw [dhtSpec_eq hcons (by simp [hvalid.lengths]), List.append_assoc, ← hvalid.lengths, List.take_left,
      List.drop_left, List.take_append, hvalues, List.take_of_length_le (hvalues.trans_le hvalid.total)]
  have hnone := dhtFault_eq_none hvalid hvalues (more := more) (hcls.trans_le (Nat.le_of_lt_succ d.cls.isLt))
    (hslot.trans_le (Nat.le_of_lt_succ d.slot.isLt))
  rw [dhtLoop_cons hcons, hnone, hcls, hslot, hspec, build_append d.spec _ hvalues, hlen, Nat.add_assoc]
  rfl

theorem dht_tableLoop :
    TableLoop dhtLoop DhtTable.bytes (fun t d => t.putTable d.cls.val d.slot.val d.spec.build) DhtTable.Ok
      dhtFault where
  nonempty d := Nat.succ_pos _
  turn p rest d k o t hd h := dht_turn hd h k t
  done p k o t h := by rw [dhtLoop, if_neg (length_le_of_drop h)]; rfl
  bad p r k o t h := by
    cases hp : p.drop o with
    | nil => rw [hp] at h; cases h
    | cons b more => rw [dhtLoop_cons hp, ← hp, h]

end

/-- Settles O38: both handlers are loops over the tables of their payload. -/
theorem jpegTableSegments : Obligations.JpegTableSegments := by
  unfold Obligations.JpegTableSegments
  exact ⟨fun _ _ _ hd hqs hlen hreads => dqt_tableLoop.element (m := .dqt) rfl hd hqs rfl hlen hreads,
    fun _ _ _ hd hhs hlen hreads => dht_tableLoop.element (m := .dht) rfl hd hhs rfl hlen hreads⟩

end Sys2Proof.Machine
end

