-- ==== Sys2Proof/Proofs/ReaderWriterIndependent.lean ====
section
/-! PROOFS. What the commands of the bit reader and of the bit writer keep (40_bitcursor.md R173): any property that
does not look at the fields of `Frame.Reader` or `Frame.Writer`, and so the rest of the state. -/

namespace Sys2Proof.Machine

open Sys2Proof
open Exec

/-- A reader command keeps what the reader's operations keep: those of the bit reader, the bulk read and RES0. -/
theorem commandKeeps_reader {P : State → Prop} (h : Frame.Reader P) (hfull : ∀ n, Keeps P (readFull n))
    (hres0 : ∀ s v, P s → P { s with res0 := v }) {i : Instr} (hi : isReader i = true) : CommandKeeps P i := by
  cases i with
  | bcReset => exact commandKeeps_of_command rfl (fun _ => rfl) <| keeps_alter fun _ hs => Frame.Reader.bcReset h hs
  | bcEnsure n =>
    exact commandKeeps_of_command rfl (fun _ => rfl) <| keeps_check fun _ => keeps_ensureBits h _
  | bcBit =>
    exact commandKeeps_of_command rfl (fun _ => rfl) <| keeps_bind (keeps_decodeBit h) fun _ => keeps_setRes0 hres0 _
  | bcBits n =>
    exact commandKeeps_of_command rfl (fun _ => rfl) <| keeps_check fun _ => keeps_bind (keeps_decodeBits h _) fun _ =>
      keeps_setRes0 hres0 _
  | bcRecvext t =>
    exact commandKeeps_of_command rfl (fun _ => rfl) <| keeps_bind (keeps_receiveExtend h _) fun _ =>
      keeps_setRes0 hres0 _
  | bcIgnore => exact commandKeeps_of_command rfl (fun _ => rfl) <| keeps_look_bind fun _ => keeps_ignore h _
  | bcReadfull =>
    exact commandKeeps_of_command rfl (fun _ => rfl) <| keeps_look_bind fun _ => keeps_check fun _ =>
      keeps_bind (hfull _) fun _ => keeps_setRes0 hres0 _
  | bcRealign => exact commandKeeps_of_command rfl (fun _ => rfl) <| keeps_realign h
  | hufDec tc th =>
    exact commandKeeps_of_command rfl (fun _ => rfl) <| keeps_bind (keeps_checkSelector _ _) fun _ =>
      keeps_bind (keeps_checkBuilt _ _) fun _ => keeps_look_bind fun _ => keeps_bind (keeps_huffDecode h _) fun _ =>
        keeps_setRes0 hres0 _
  | _ => cases hi

/-- A writer command keeps what the bit writer's operations keep. -/
theorem commandKeeps_writer {P : State → Prop} (h : Frame.Writer P) {i : Instr} (hi : isWriter i = true) :
    CommandKeeps P i := by
  cases i with
  | bwEmit len =>
    exact commandKeeps_of_command rfl (fun _ => rfl) <| keeps_look_bind fun _ => keeps_check fun _ =>
      keeps_emitBits h _ _
  | bwFlush => exact commandKeeps_of_command rfl (fun _ => rfl) <| keeps_flushBits h
  | hufEnc tc th =>
    exact commandKeeps_of_command rfl (fun _ => rfl) <| keeps_look_bind fun _ => keeps_check fun _ =>
      keeps_bind (keeps_checkBuilt _ _) fun _ => keeps_look_bind fun _ => keeps_huffEncode h _ _
  | hufEncval tc th =>
    exact commandKeeps_of_command rfl (fun _ => rfl) <| keeps_bind (keeps_checkSelector _ _) fun _ =>
      keeps_bind (keeps_checkBuilt _ _) fun _ => keeps_look_bind fun _ => keeps_look_bind fun _ =>
        keeps_look_bind fun _ => keeps_emitValue h _ _ _
  | _ => cases hi

/-! ## The rest of the state -/

/-- `t` differs from `s` at most in what a reader command writes, the status and the error registers. -/
def ReaderWrites (s t : State) : Prop :=
  t = { s with
    status := t.status, err := t.err, errInfo := t.errInfo, res0 := t.res0, inPos := t.inPos
    bcAcc := t.bcAcc, bcNbits := t.bcNbits, mem := { s.mem with tmp := t.mem.tmp } }

/-- The same for a writer command. -/
def WriterWrites (s t : State) : Prop :=
  t = { s with
    status := t.status, err := t.err, errInfo := t.errInfo, outLen := t.outLen
    bwAcc := t.bwAcc, bwNbits := t.bwNbits, mem := { s.mem with out := t.mem.out } }

section
variable {s : State}

theorem raw_readerWrites : Frame.Raw (ReaderWrites s) where
  pos _ v h := (congrArg (fun u : State => { u with inPos := v }) h :)
  bc _ a n h := (congrArg (fun u : State => { u with bcAcc := a, bcNbits := n }) h :)
  tmp _ c h := (congrArg (fun u : State => { u with mem := { u.mem with tmp := c } }) h :)

theorem writer_writerWrites : Frame.Writer (WriterWrites s) where
  out _ n c h := (congrArg (fun u : State => { u with outLen := n, mem := { u.mem with out := c } }) h :)
  bw _ a n h := (congrArg (fun u : State => { u with bwAcc := a, bwNbits := n }) h :)

theorem readerWrites_complete {t : State} (h : ReaderWrites s t) : ReaderWrites s t.complete :=
  (congrArg State.complete h :)

theorem writerWrites_complete {t : State} (h : WriterWrites s t) : WriterWrites s t.complete :=
  (congrArg State.complete h :)

/-- Outside a scan, fault entry writes the status and the error registers only. -/
theorem readerWrites_enterFault (hscan : s.inScan = false) (opc : Byte) (r : Raise) {t : State}
    (h : ReaderWrites s t) : ReaderWrites s (enterFault opc r t) := by
  refine (congrArg (enterFault opc r) h).trans ?_
  simp only [enterFault, hscan]

theorem writerWrites_enterFault (hscan : s.inScan = false) (opc : Byte) (r : Raise) {t : State}
    (h : WriterWrites s t) : WriterWrites s (enterFault opc r t) := by
  refine (congrArg (enterFault opc r) h).trans ?_
  simp only [enterFault, hscan]

end

/-- Settles O17: every operation of a reader or writer command writes the fields of its own side only. -/
theorem readerWriterIndependent : Obligations.ReaderWriterIndependent := by
  unfold Obligations.ReaderWriterIndependent
  refine ⟨fun i s t hi hscan ht => ?_, fun i s t hi hscan ht => ?_⟩
  · obtain ⟨opc, body, -, hexec, hkeeps⟩ := commandKeeps_reader raw_readerWrites.toReader
      (keeps_readFull raw_readerWrites) (fun _ v h => (congrArg (fun u : State => { u with res0 := v }) h :)) hi
    rw [hexec] at ht
    exact hkeeps.runCmd (show ReaderWrites s s from rfl) (fun _ => readerWrites_complete)
      (fun r _ => readerWrites_enterFault hscan opc r) ht
  · obtain ⟨opc, body, -, hexec, hkeeps⟩ := commandKeeps_writer writer_writerWrites hi
    rw [hexec] at ht
    exact hkeeps.runCmd (show WriterWrites s s from rfl) (fun _ => writerWrites_complete)
      (fun r _ => writerWrites_enterFault hscan opc r) ht

end Sys2Proof.Machine
end

