-- ==== Sys2Proof/Proofs/TidyCommands.lean ====
section
/-! PROOFS. The part of `State.Sound` that the boundary does not show: the memory spaces and the LZW dictionary that
only commands write stay in canonical form, the bit writer ends with at most 7 bits pending, and the scan flag is down
at the end (20_memory.md R80, 40_bitcursor.md R171, R173, log 4). `Exec.Tidy` says so of a piece of pseudocode; it has one rule
per combinator and one lemma per operation, each the operation's pseudocode read line by line. -/

namespace Sys2Proof.Machine

open Sys2Proof

/-! ## Canonical form of what only commands write -/

/-- The spaces beside those of the boundary, and the LZW dictionary, are in canonical form. -/
structure Canon (m : Memory) (z : LzwDec) : Prop where
  blk : m.blk.wf
  zz : m.zz.wf
  qt : m.qt.wf
  idx : m.idx.wf
  pal : m.pal.wf
  plane : ∀ i : Fin 4, m.plane[i].wf
  coef : ∀ i : Fin 4, m.coef[i].wf
  canvas : m.canvas.wf
  snap : m.snap.wf
  gct : m.gct.wf
  lct : m.lct.wf
  tmp : m.tmp.wf
  pfx : z.pfx.wf
  sfx : z.sfx.wf

/-- `Canon` of a state. -/
def State.Canonical (s : State) : Prop := Canon s.mem s.lzd

/-- What the pseudocode of a command keeps until it ends: the canonical forms, at most 7 bits pending in the writer, and
the scan flag at `b`. -/
def State.Tidy (b : Bool) (s : State) : Prop := s.Canonical ∧ s.bwNbits ≤ 7 ∧ s.inScan = b

/-- A vector of spaces with one of them replaced. -/
theorem wf_vector_set {w : Nat} {v : Vector (Cells w) 4} (h : ∀ i : Fin 4, v[i].wf) (k : Fin 4) {c : Cells w}
    (hc : c.wf) (i : Fin 4) : (v.set k.val c k.isLt)[i].wf := by
  by_cases hik : k.val = i.val
  · simpa [hik] using hc
  · simpa [Vector.getElem_set, hik] using h i

theorem wf_foldl {w : Nat} {α : Type} {f : Cells w → α → Cells w} (hf : ∀ c a, c.wf → (f c a).wf) (as : List α)
    {c : Cells w} (hc : c.wf) : (as.foldl f c).wf := by
  induction as generalizing c with
  | nil => exact hc
  | cons a as ih => exact ih (hf c a hc)

section
variable {s : State} (h : s.Canonical)
include h

theorem State.Canonical.setBlk (b : List Word) : (s.setBlk b).Canonical := { h with blk := Cells.wf_setRange h.blk 0 b }

theorem State.Canonical.setZz (b : List Word) : (s.setZz b).Canonical := { h with zz := Cells.wf_setRange h.zz 0 b }

theorem State.Canonical.setZzAt (k : Nat) (v : Word) : (s.setZzAt k v).Canonical :=
  { h with zz := Cells.wf_set h.zz k v }

theorem State.Canonical.clearZz : s.clearZz.Canonical := { h with zz := Cells.wf_clearRange h.zz 0 64 }

theorem State.Canonical.clearBlocks (m : BitVec 2) : (s.clearBlocks m).Canonical :=
  { h with
    blk := by
      show Cells.wf (if _ then _ else _)
      split
      · exact Cells.wf_clearRange h.blk 0 64
      · exact h.blk
    zz := by
      show Cells.wf (if _ then _ else _)
      split
      · exact Cells.wf_clearRange h.zz 0 64
      · exact h.zz }

theorem State.Canonical.putQt (q : Nat) (vs : List (BitVec 16)) : (s.putQt q vs).Canonical :=
  { h with qt := Cells.wf_setRange h.qt _ vs }

theorem State.Canonical.storeTmp (bs : List Byte) : (s.storeTmp bs).Canonical :=
  { h with tmp := Cells.wf_setRange h.tmp 0 bs }

theorem State.Canonical.setPlane (i : Nat) {c : Cells 8} (hc : c.wf) : (s.setPlane i c).Canonical :=
  { h with plane := wf_vector_set h.plane _ hc }

theorem State.Canonical.storeCoef (i bi : Nat) : (s.storeCoef i bi).Canonical :=
  { h with coef := wf_vector_set h.coef _ (Cells.wf_setRange (h.coef _) _ _) }

theorem State.Canonical.dequant (q : Nat) : (s.dequant q).Canonical := h.setBlk _

theorem State.Canonical.idct : s.idct.Canonical := h.setBlk _

theorem State.Canonical.fdct : s.fdct.Canonical := h.setBlk _

theorem State.Canonical.level : s.level.Canonical := h.setBlk _

theorem State.Canonical.wf_scattered (i bx by_ : Nat) : (s.scattered i bx by_).wf :=
  wf_foldl (fun _ _ hc => Cells.wf_setRange hc _ _) _ (h.plane _)

theorem State.Canonical.reconstructed (i bx by_ : Nat) : (s.reconstructed i bx by_).Canonical :=
  have ht : (s.dequant (s.comp i).tq.toNat).idct.level.Canonical := (h.dequant _).idct.level
  ht.setPlane i (ht.wf_scattered i bx by_)

/-- The memories of a frame's components, cleared over its extent (44_jpeg_decode.md R278). -/
theorem State.Canonical.putFrame (f : Frame) : (s.putFrame f).Canonical :=
  { h with
    plane := fun i => by
      simp only [State.putFrame, Memory.clearFrame, Fin.getElem_fin, Vector.getElem_ofFn]
      split
      · exact Cells.wf_clearRange (h.plane i) 0 _
      · exact h.plane i
    coef := fun i => by
      simp only [State.putFrame, Memory.clearFrame, Fin.getElem_fin, Vector.getElem_ofFn]
      split
      · exact Cells.wf_clearRange (h.coef i) 0 _
      · exact h.coef i }

theorem State.Canonical.storeIdx (a : Nat) (bs : List Byte) : (s.storeIdx a bs).Canonical :=
  { h with idx := Cells.wf_setRange h.idx a bs }

theorem State.Canonical.setIdx (i : Nat) (v : Byte) : (s.setIdx i v).Canonical :=
  { h with idx := Cells.wf_set h.idx i v }

theorem State.Canonical.zeroIdx (cnt npix : Nat) : (s.zeroIdx cnt npix).Canonical :=
  { h with idx := Cells.wf_clearRange h.idx _ _ }

theorem State.Canonical.putPalette : s.putPalette.Canonical :=
  { h with pal := Cells.wf_setRange (Cells.wf_clearRange h.pal 0 256) 0 _ }

theorem State.Canonical.putGct (cs : List Word) : (s.putGct cs).Canonical :=
  { h with gct := Cells.wf_setRange (Cells.wf_clearRange h.gct 0 256) 0 cs }

theorem State.Canonical.putLct (cs : List Word) : (s.putLct cs).Canonical :=
  { h with lct := Cells.wf_setRange (Cells.wf_clearRange h.lct 0 256) 0 cs }

theorem State.Canonical.clearCanvas (n : Nat) : (s.clearCanvas n).Canonical :=
  { h with canvas := Cells.wf_clearRange h.canvas 0 n }

theorem State.Canonical.setCanvas (i : Nat) (v : Word) : (s.setCanvas i v).Canonical :=
  { h with canvas := Cells.wf_set h.canvas i v }

theorem State.Canonical.snapshot : s.snapshot.Canonical :=
  { h with snap := Cells.wf_copyFront h.snap h.canvas _ }

end

section
variable {b : Bool} {s : State} (h : s.Tidy b)
include h

theorem State.Tidy.reconstructed (i bx by_ : Nat) : (s.reconstructed i bx by_).Tidy b := by
  obtain ⟨hcanon, hbw, hscan⟩ := h
  refine ⟨hcanon.reconstructed i bx by_, ?_, ?_⟩
  · simpa [State.reconstructed, State.level, State.idct, State.dequant] using hbw
  · simpa [State.reconstructed, State.level, State.idct, State.dequant] using hscan

theorem State.Tidy.lzdAdd (p : BitVec 12) (v : Byte) : (s.lzdAdd p v).Tidy b := by
  obtain ⟨hcanon, hrest⟩ := h
  unfold State.lzdAdd
  split
  · exact ⟨{ hcanon with pfx := Cells.wf_set hcanon.pfx _ _, sfx := Cells.wf_set hcanon.sfx _ _ }, hrest⟩
  · exact ⟨hcanon, hrest⟩

theorem State.Tidy.disposePrevious : s.disposePrevious.Tidy b := by
  obtain ⟨hcanon, hrest⟩ := h
  unfold State.disposePrevious
  split_ifs
  · exact ⟨{ hcanon with canvas := wf_foldl (fun _ _ hc => Cells.wf_clearRange hc _ _) _ hcanon.canvas }, hrest⟩
  · exact ⟨{ hcanon with canvas := Cells.wf_copyFront hcanon.canvas hcanon.snap _ }, hrest⟩
  · exact ⟨hcanon, hrest⟩

end

/-! ## Frames that `State.Tidy` meets -/

section
variable (b : Bool)

theorem reader_tidy : Frame.Reader (State.Tidy b) := ⟨fun _ _ h => h, fun _ _ _ h => h⟩

theorem tables_tidy : Frame.Tables (State.Tidy b) := ⟨fun _ _ _ h => h⟩

theorem lzwEnc_tidy : Frame.LzwEnc (State.Tidy b) where
  out _ _ _ h := ⟨{ h.1 with }, h.2⟩
  lze _ _ h := h

end

namespace Exec

/-- From a tidy state `m` completes in one, or raises with everything in canonical form. -/
structure Tidy {α : Type} (b : Bool) (m : Exec α) : Prop where
  triple : Triple (State.Tidy b) m (fun _ => State.Tidy b) State.Canonical

/-! ## One rule per combinator -/

section
variable {α β : Type} {b : Bool} {m m' : Exec α}

theorem tidy_of_keeps (h : Keeps (State.Tidy b) m) : Tidy b m :=
  ⟨triple_mono h (fun _ hs => hs) (fun _ _ hs => hs) fun _ hs => hs.1⟩

theorem tidy_pure (a : α) : Tidy b (pure a : Exec α) := tidy_of_keeps keeps_pure

theorem tidy_raise (f : HwFault) (i : Word) : Tidy b (raise f i : Exec α) := tidy_of_keeps keeps_raise

theorem tidy_raiseIf (c : Prop) {_ : Decidable c} (f : HwFault) (i : Word) : Tidy b (raiseIf c f i) :=
  tidy_of_keeps keeps_raiseIf

theorem tidy_alter {f : State → State} (hf : ∀ s, s.Tidy b → (f s).Tidy b) : Tidy b (alter f) :=
  tidy_of_keeps (keeps_alter hf)

theorem Tidy.bind {k : α → Exec β} (hm : Tidy b m) (hk : ∀ a, Tidy b (k a)) : Tidy b (m >>= k) :=
  ⟨triple_bind hm.triple fun a => (hk a).triple⟩

theorem tidy_look_bind {f : State → β} {k : β → Exec α} (hk : ∀ a, Tidy b (k a)) : Tidy b (look f >>= k) :=
  (tidy_of_keeps keeps_look).bind hk

theorem tidy_alter_bind {f : State → State} {k : Unit → Exec β} (hf : ∀ s, s.Tidy b → (f s).Tidy b)
    (hk : ∀ a, Tidy b (k a)) : Tidy b (alter f >>= k) :=
  (tidy_alter hf).bind hk

theorem tidy_check {c : Prop} {_ : Decidable c} {f : HwFault} {i : Word} {k : Unit → Exec α}
    (hk : ∀ a, Tidy b (k a)) : Tidy b (raiseIf c f i >>= k) :=
  (tidy_raiseIf c f i).bind hk

theorem tidy_ite {c : Prop} {_ : Decidable c} (h : Tidy b m) (h' : Tidy b m') : Tidy b (if c then m else m') := by
  split
  · exact h
  · exact h'

/-- An optional piece, and what follows it in either case. -/
theorem tidy_optional_bind {c : Prop} {_ : Decidable c} {m : Exec Unit} {k : Unit → Exec β} (hm : Tidy b m)
    (hk : ∀ a, Tidy b (k a)) : Tidy b (if c then m >>= k else k ()) :=
  tidy_ite (hm.bind hk) (hk ())

theorem tidy_forUpTo {f : Nat → Exec Unit} (hf : ∀ i, Tidy b (f i)) (n : Nat) : Tidy b (forUpTo n f) := by
  have hfrom (i : Nat) : Tidy b (forFrom i n f) := by
    induction n generalizing i with
    | zero => exact tidy_pure ()
    | succ n ih => exact (hf i).bind fun _ => ih (i + 1)
  exact hfrom 0

theorem tidy_forEach {f : α → Exec Unit} (hf : ∀ a, Tidy b (f a)) (as : List α) : Tidy b (forEach as f) := by
  induction as with
  | nil => exact tidy_pure ()
  | cons a as ih => exact (hf a).bind fun _ => ih

theorem tidy_loopFuel {body : Exec Bool} (hb : Tidy b body) (k : Nat) : Tidy b (loopFuel k body) := by
  induction k with
  | zero => exact tidy_pure ()
  | succ k ih => exact hb.bind fun _ => tidy_ite ih (tidy_pure ())

theorem Tidy.onRaise {f : State → State} (hm : Tidy b m) (hf : ∀ s, s.Canonical → (f s).Canonical) :
    Tidy b (onRaise f m) := by
  refine ⟨fun s hs => ?_⟩
  have h := hm.triple s hs
  rw [exec_onRaise]
  cases hms : m s with
  | ok a t => rw [hms] at h; exact h
  | error r t => rw [hms] at h; exact hf t h

end

/-! ## Bit reader and Huffman decode (40_bitcursor.md R161 to R168, 41_huffman.md R195 to R198) -/

section
variable {b : Bool}

theorem tidy_decodeBits (n : Nat) : Tidy b (decodeBits n) := tidy_of_keeps (keeps_decodeBits (reader_tidy b) n)

theorem tidy_decodeBit : Tidy b decodeBit := tidy_of_keeps (keeps_decodeBit (reader_tidy b))

theorem tidy_receiveExtend (t : Nat) : Tidy b (receiveExtend t) :=
  tidy_of_keeps (keeps_receiveExtend (reader_tidy b) t)

theorem tidy_ignore (n : Nat) : Tidy b (ignore n) := tidy_of_keeps (keeps_ignore (reader_tidy b) n)

theorem tidy_huffDecode (t : HuffTable) : Tidy b (huffDecode t) := tidy_of_keeps (keeps_huffDecode (reader_tidy b) t)

theorem tidy_buildTable (c t : Nat) (sp : HuffSpec) : Tidy b (buildTable c t sp) :=
  tidy_of_keeps (keeps_buildTable (tables_tidy b) c t sp)

theorem keeps_readFull_tidy (n : Nat) : Keeps (State.Tidy b) (readFull n) :=
  keeps_bind (keeps_realign (reader_tidy b)) fun _ => keeps_look_bind fun _ => keeps_check fun _ =>
    keeps_bind (keeps_alter fun _ ⟨h, hr⟩ => ⟨h.storeTmp _, hr⟩) fun _ => keeps_pure

theorem tidy_readFull (n : Nat) : Tidy b (readFull n) := tidy_of_keeps (keeps_readFull_tidy n)

/-! ## JPEG decode (44_jpeg_decode.md R271 to R307) -/

theorem tidy_onJpg (f : JpegCtx → JpegCtx) : Tidy b (alter (·.onJpg f)) := tidy_alter fun _ h => h

theorem tidy_skipFill (k : Nat) (m : Byte) : Tidy b (skipFill k m) := by
  induction k generalizing m with
  | zero => exact tidy_pure m
  | succ k ih => exact tidy_ite ((tidy_readFull 1).bind fun _ => ih _) (tidy_pure m)

theorem tidy_nextMarker : Tidy b nextMarker :=
  (tidy_readFull 1).bind fun _ => tidy_look_bind fun _ => tidy_check fun _ => tidy_look_bind fun _ =>
    (tidy_readFull 1).bind fun _ => (tidy_skipFill _ _).bind fun _ => tidy_look_bind fun _ =>
      tidy_check fun _ => tidy_pure _

theorem tidy_segmentLength : Tidy b segmentLength :=
  (tidy_readFull 2).bind fun _ => tidy_check fun _ => tidy_pure _

theorem tidy_app14 (n : Nat) : Tidy b (app14 n) :=
  (tidy_readFull n).bind fun _ => tidy_ite (tidy_onJpg _) (tidy_pure ())

theorem tidy_sof (m : Byte) (n : Nat) : Tidy b (sof m n) :=
  tidy_look_bind fun _ => tidy_check fun _ => tidy_check fun _ => (tidy_readFull n).bind fun p =>
    tidy_check fun _ => tidy_check fun _ => tidy_check fun _ => tidy_check fun _ =>
      (tidy_forUpTo (fun i => tidy_of_keeps (keeps_sofCheck p i)) _).bind fun _ =>
        (tidy_forEach (fun c => tidy_of_keeps (keeps_frameFits _ c)) _).bind fun _ =>
          tidy_alter fun _ ⟨h, hr⟩ => ⟨h.putFrame _, hr⟩

theorem tidy_dqtLoop (p : List Byte) (n k o : Nat) : Tidy b (dqtLoop p n k o) := by
  induction k generalizing o with
  | zero => exact tidy_pure ()
  | succ k ih =>
    exact tidy_ite (tidy_check fun _ => tidy_check fun _ => tidy_check fun _ =>
      tidy_alter_bind (fun _ ⟨h, hr⟩ => ⟨h.putQt _ _, hr⟩) fun _ => ih _) (tidy_pure ())

theorem tidy_dqt (n : Nat) : Tidy b (dqt n) := (tidy_readFull n).bind fun _ => tidy_dqtLoop _ _ _ _

theorem tidy_dhtLoop (p : List Byte) (n k o : Nat) : Tidy b (dhtLoop p n k o) := by
  induction k generalizing o with
  | zero => exact tidy_pure ()
  | succ k ih =>
    exact tidy_ite (tidy_check fun _ => tidy_check fun _ => tidy_check fun _ => tidy_check fun _ =>
      (tidy_buildTable _ _ _).bind fun _ => ih _) (tidy_pure ())

theorem tidy_dht (n : Nat) : Tidy b (dht n) := (tidy_readFull n).bind fun _ => tidy_dhtLoop _ _ _ _

theorem tidy_dri (n : Nat) : Tidy b (dri n) :=
  tidy_check fun _ => (tidy_readFull 2).bind fun _ => tidy_onJpg _

theorem tidy_restartMarker (n : BitVec 3) : Tidy b (restartMarker n) :=
  tidy_look_bind fun _ => tidy_check fun _ => tidy_alter fun _ h => h

theorem tidy_restart : Tidy b restart := by
  refine (tidy_readFull 2).bind fun p => ?_
  split
  · exact tidy_check fun _ => tidy_restartMarker _
  · exact tidy_raise _ _

theorem tidy_eobDown : Tidy b (alter State.eobDown) := tidy_alter fun _ h => h

theorem tidy_readEobrun (r : Nat) : Tidy b (readEobrun r) :=
  tidy_alter_bind (fun _ h => h) fun _ =>
    tidy_ite ((tidy_decodeBits r).bind fun _ => tidy_alter fun _ h => h) (tidy_pure ())

theorem tidy_acLoop (t : HuffTable) (se al k zig : Nat) : Tidy b (acLoop t se al k zig) := by
  induction k generalizing zig with
  | zero => exact tidy_pure ()
  | succ k ih =>
    refine tidy_ite ((tidy_huffDecode t).bind fun rs => tidy_ite ?_ (tidy_ite (ih _) ?_)) (tidy_pure ())
    · exact tidy_check fun _ => (tidy_receiveExtend _).bind fun _ =>
        tidy_alter_bind (fun _ ⟨h, hr⟩ => ⟨h.setZzAt _ _, hr⟩) fun _ => ih _
    · exact (tidy_readEobrun _).bind fun _ => tidy_eobDown

theorem tidy_firstPassAc (ta zig : Nat) : Tidy b (firstPassAc ta zig) :=
  tidy_look_bind fun _ => tidy_ite (tidy_ite tidy_eobDown (tidy_acLoop _ _ _ _ _)) (tidy_pure ())

theorem tidy_firstPassDc (ci td : Nat) : Tidy b (firstPassDc ci td) :=
  tidy_look_bind fun _ => (tidy_huffDecode _).bind fun _ => (tidy_receiveExtend _).bind fun _ =>
    tidy_alter_bind (fun _ h => h) fun _ => tidy_alter fun _ ⟨h, hr⟩ => ⟨h.setZzAt _ _, hr⟩

theorem tidy_firstPass (ci : Nat) : Tidy b (firstPass ci) :=
  tidy_look_bind fun _ => tidy_ite ((tidy_firstPassDc _ _).bind fun _ => tidy_firstPassAc _ _)
    (tidy_firstPassAc _ _)

theorem tidy_refineNonZeroes (se : Nat) (delta : Word) (k zig : Nat) (nz : Int) :
    Tidy b (refineNonZeroes se delta k zig nz) := by
  induction k generalizing zig nz with
  | zero => exact tidy_pure zig
  | succ k ih =>
    refine tidy_ite (tidy_look_bind fun _ => tidy_ite ?_ ?_) (tidy_pure zig)
    · exact tidy_ite (tidy_pure zig) (ih _ _)
    · exact tidy_decodeBit.bind fun _ =>
        tidy_optional_bind (tidy_alter fun _ ⟨h, hr⟩ => ⟨h.setZzAt _ _, hr⟩) fun _ => ih _ _

theorem tidy_refineValue (rs : Byte) (delta : Word) : Tidy b (refineValue rs delta) :=
  tidy_of_keeps (keeps_refineValue (reader_tidy b) rs delta)

theorem tidy_refineLoop (t : HuffTable) (se : Nat) (delta : Word) (k zig : Nat) :
    Tidy b (refineLoop t se delta k zig) := by
  induction k generalizing zig with
  | zero => exact tidy_pure zig
  | succ k ih =>
    refine tidy_ite ((tidy_huffDecode t).bind fun rs => tidy_ite ?_ ?_) (tidy_pure zig)
    · exact (tidy_readEobrun _).bind fun _ => tidy_pure zig
    · exact (tidy_refineValue rs delta).bind fun _ => (tidy_refineNonZeroes _ _ _ _ _).bind fun _ =>
        tidy_check fun _ => tidy_optional_bind (tidy_alter fun _ ⟨h, hr⟩ => ⟨h.setZzAt _ _, hr⟩) fun _ => ih _

theorem tidy_refineAc (ta : Nat) (delta : Word) : Tidy b (refineAc ta delta) :=
  tidy_look_bind fun s =>
    have rest (zig : Nat) : Tidy b (do
        let run ← look (·.jpg.eobrun)
        if run ≠ 0 then do
          alter State.eobDown
          let _ ← refineNonZeroes s.jpg.se.toNat delta 256 zig (-1)
        else pure ()) :=
      tidy_look_bind fun _ => tidy_ite
        (tidy_eobDown.bind fun _ => (tidy_refineNonZeroes _ _ _ _ _).bind fun _ => tidy_pure ()) (tidy_pure ())
    tidy_ite ((tidy_refineLoop _ _ _ _ _).bind rest) ((tidy_pure _).bind rest)

theorem tidy_refineBlock (ci : Nat) : Tidy b (refineBlock ci) :=
  tidy_look_bind fun _ => tidy_ite
    (tidy_decodeBit.bind fun _ => tidy_ite (tidy_alter fun _ ⟨h, hr⟩ => ⟨h.setZzAt _ _, hr⟩) (tidy_pure ()))
    (tidy_refineAc _ _)

theorem tidy_reconstruct (i bx by_ : Nat) : Tidy b (reconstruct i bx by_) :=
  tidy_look_bind fun _ => tidy_check fun _ => tidy_alter fun _ h => h.reconstructed i bx by_

theorem tidy_loadCoef (i bi : Nat) : Tidy b (alter (·.loadCoef i bi)) := tidy_alter fun _ ⟨h, hr⟩ => ⟨h.setZz _, hr⟩

theorem tidy_decodeBlock (i bx by_ : Nat) : Tidy b (decodeBlock i bx by_) :=
  tidy_look_bind fun s =>
    have last : Tidy b (if s.jpg.progressive then alter (·.storeCoef i (by_ * s.blockCols i + bx))
        else reconstruct i bx by_) :=
  tidy_ite (tidy_alter fun _ ⟨h, hr⟩ => ⟨h.storeCoef _ _, hr⟩) (tidy_reconstruct i bx by_)
    have rest : Tidy b (do
        if s.jpg.ah ≠ 0 then refineBlock i else firstPass i
        if s.jpg.progressive then alter (·.storeCoef i (by_ * s.blockCols i + bx)) else reconstruct i bx by_) :=
      tidy_ite ((tidy_refineBlock i).bind fun _ => last) ((tidy_firstPass i).bind fun _ => last)
    tidy_ite ((tidy_loadCoef _ _).bind fun _ => rest) (tidy_alter_bind (fun _ ⟨h, hr⟩ => ⟨h.clearZz, hr⟩) fun _ => rest)

theorem tidy_reconstructAll : Tidy b reconstructAll :=
  tidy_look_bind fun _ => tidy_forUpTo (fun _ => tidy_forUpTo (fun _ => tidy_forUpTo (fun _ =>
    (tidy_loadCoef _ _).bind fun _ => tidy_reconstruct _ _ _) _) _) _

theorem tidy_eoi : Tidy b eoi :=
  tidy_look_bind fun _ => tidy_check fun _ => tidy_optional_bind tidy_reconstructAll fun _ => tidy_onJpg _

theorem tidy_mcuBlocks (ux uy : Nat) (sc : ScanComp) : Tidy b (mcuBlocks ux uy sc) :=
  tidy_look_bind fun _ => tidy_forUpTo (fun _ => tidy_forUpTo (fun _ => tidy_decodeBlock _ _ _) _) _

theorem tidy_scanUnit (cs : List ScanComp) (ux uy : Nat) : Tidy b (scanUnit cs ux uy) := by
  unfold scanUnit
  split
  · exact tidy_decodeBlock _ _ _
  · exact tidy_forEach (tidy_mcuBlocks _ _) _

theorem tidy_mcuLoop (cs : List ScanComp) : Tidy b (mcuLoop cs) :=
  tidy_look_bind fun _ => tidy_forUpTo (fun _ => (tidy_scanUnit _ _ _).bind fun _ =>
    tidy_ite tidy_restart (tidy_pure ())) _

/-- The scan flag goes up before the entropy-coded data and down after it. -/
theorem tidy_scan (q : ScanPar) (cs : List ScanComp) :
    Tidy false (do alter (·.startScan q cs); mcuLoop cs; alter State.endScan) :=
  ⟨triple_bind (R := fun _ => State.Tidy true) (triple_alter fun _ ⟨hs, hbw, _⟩ => ⟨hs, hbw, rfl⟩) fun _ =>
    triple_bind (tidy_mcuLoop cs).triple fun _ => triple_alter fun _ ⟨hs, hbw, _⟩ => ⟨hs, hbw, rfl⟩⟩

theorem tidy_sos (n : Nat) : Tidy false (sos n) :=
  tidy_look_bind fun _ => tidy_check fun _ => tidy_check fun _ => (tidy_readFull n).bind fun _ =>
    tidy_check fun _ => (tidy_of_keeps (keeps_selectors _ _ _ _)).bind fun _ =>
      tidy_optional_bind (tidy_of_keeps (keeps_checkProgressive _ _)) fun _ =>
        (tidy_forEach (fun c => tidy_of_keeps (keeps_checkTables _ c)) _).bind fun _ => tidy_scan _ _

theorem tidy_segment {f : Nat → Exec Unit} (hf : ∀ n, Tidy b (f n)) : Tidy b (segment f) :=
  tidy_segmentLength.bind hf

theorem tidy_rst (n : BitVec 3) : Tidy b (rst n) :=
  tidy_look_bind fun _ => tidy_ite (tidy_restartMarker n) (tidy_raise _ _)

theorem tidy_runMarker (k : Marker) : Tidy false (runMarker k) := by
  cases k with
  | soi => exact tidy_look_bind fun _ => tidy_raise _ _
  | eoi => exact tidy_eoi
  | rst n => exact tidy_rst n
  | sof0 => exact tidy_segment (tidy_sof _)
  | sof1 => exact tidy_segment (tidy_sof _)
  | sof2 => exact tidy_segment (tidy_sof _)
  | dht => exact tidy_segment tidy_dht
  | dqt => exact tidy_segment tidy_dqt
  | dri => exact tidy_segment tidy_dri
  | sos => exact tidy_segment tidy_sos
  | app n => exact tidy_ite (tidy_segment tidy_app14) (tidy_segment tidy_ignore)
  | com => exact tidy_segment tidy_ignore

theorem tidy_runElement (k : Marker) : Tidy false (runElement k) :=
  tidy_look_bind fun _ => tidy_ite (tidy_runMarker k) (tidy_check fun _ => tidy_onJpg _)

theorem tidy_firstElement : Tidy b firstElement :=
  (tidy_readFull 2).bind fun _ => tidy_look_bind fun _ => tidy_check fun _ => tidy_onJpg _

theorem tidy_jpegStep : Tidy false jpegStep := by
  refine tidy_look_bind fun _ => tidy_ite (tidy_nextMarker.bind fun m => ?_) tidy_firstElement
  split
  · exact tidy_runMarker _
  · exact tidy_raise _ _

theorem tidy_jpegLoop (k : Nat) : Tidy false (jpegLoop k) := by
  induction k with
  | zero => exact tidy_pure ()
  | succ k ih =>
    exact tidy_look_bind fun _ => tidy_ite (tidy_pure ()) (tidy_jpegStep.bind fun _ => ih)

theorem tidy_requireDecoding : Tidy b requireDecoding := tidy_of_keeps keeps_requireDecoding

theorem tidy_failingJpeg {m : Exec Unit} (hm : Tidy b m) : Tidy b (failingJpeg m) := hm.onRaise fun _ h => h

/-! ## LZW decode (46_lzw.md R371 to R379) -/

theorem tidy_rawByte : Tidy b rawByte :=
  tidy_look_bind fun _ => tidy_check fun _ => tidy_alter_bind (fun _ h => h) fun _ => tidy_pure _

theorem tidy_sbByte : Tidy b sbByte :=
  tidy_look_bind fun _ => tidy_ite (tidy_pure none) <|
    have rest : Tidy b (do
        let sb ← look (·.sub)
        if sb.term then pure none
        else do
          let b ← rawByte
          alter (·.setSub (sb.rem - 1) false)
          pure (some b)) :=
      tidy_look_bind fun _ => tidy_ite (tidy_pure none)
        (tidy_rawByte.bind fun _ => tidy_alter_bind (fun _ h => h) fun _ => tidy_pure _)
    tidy_ite (tidy_rawByte.bind fun _ => tidy_alter_bind (fun _ h => h) fun _ => rest) rest

theorem tidy_skipToTerminator : Tidy b skipToTerminator :=
  tidy_look_bind fun _ => tidy_loopFuel (tidy_sbByte.bind fun _ => tidy_pure _) _

theorem tidy_fillCode (k w : Nat) : Tidy b (fillCode k w) := by
  induction k with
  | zero => exact tidy_pure true
  | succ k ih =>
    refine tidy_look_bind fun _ => tidy_ite (tidy_sbByte.bind fun v => ?_) (tidy_pure true)
    cases v with
    | none => exact tidy_pure false
    | some v => exact tidy_alter_bind (fun _ h => ⟨{ h.1 with }, h.2⟩) fun _ => ih

theorem tidy_readCode (w : Nat) : Tidy b (readCode w) :=
  (tidy_fillCode 2 w).bind fun _ => tidy_ite
    (tidy_look_bind fun _ => tidy_alter_bind (fun _ h => ⟨{ h.1 with }, h.2⟩) fun _ => tidy_pure _) (tidy_pure none)

theorem dataCode_tidy {s : State} (h : s.Tidy b) (a : Nat) (bs : List Byte) (p : BitVec 12) (v : Byte)
    (q : Option (BitVec 12)) : (((s.storeIdx a bs).lzdAdd p v).lzdPrev q).Tidy b := by
  obtain ⟨hcanon, hrest⟩ := State.Tidy.lzdAdd (s := s.storeIdx a bs) ⟨h.1.storeIdx a bs, h.2⟩ p v
  exact ⟨{ hcanon with }, hrest⟩

theorem tidy_dataCode (cc npix cnt code : Nat) : Tidy b (dataCode cc npix cnt code) := by
  refine tidy_look_bind fun z => ?_
  cases z.prev with
  | none => exact tidy_check fun _ => tidy_alter_bind (fun _ h => ⟨{ h.1.storeIdx _ _ with }, h.2⟩) fun _ => tidy_pure _
  | some p =>
    exact tidy_check fun _ => tidy_alter_bind (fun s h => dataCode_tidy h _ _ _ _ _) fun _ =>
      tidy_pure _

theorem tidy_codeLoop (bitDepth npix k cnt : Nat) : Tidy b (codeLoop bitDepth npix k cnt) := by
  induction k generalizing cnt with
  | zero => exact tidy_pure _
  | succ k ih =>
    refine tidy_ite (tidy_look_bind fun w => (tidy_readCode w).bind fun c => ?_) (tidy_pure _)
    cases c with
    | none => exact tidy_pure _
    | some code =>
      exact tidy_ite (tidy_alter_bind (fun _ h => ⟨{ h.1 with }, h.2⟩) fun _ => ih cnt)
        (tidy_ite (tidy_pure _) ((tidy_dataCode _ _ _ _).bind fun _ => ih _))

theorem tidy_lzwDecode (bitDepth npix : Nat) : Tidy b (lzwDecode bitDepth npix) :=
  tidy_check fun _ => tidy_alter_bind (fun _ h => ⟨{ h.1 with }, h.2⟩) fun _ => tidy_look_bind fun _ =>
    (tidy_codeLoop _ _ _ _).bind fun _ => tidy_skipToTerminator.bind fun _ =>
      tidy_alter_bind (fun _ ⟨h, hr⟩ => ⟨h.zeroIdx _ _, hr⟩) fun _ => tidy_pure _

/-! ## GIF decode (48_gif.md R430 to R450) -/

theorem tidy_gRead (n : Nat) : Tidy b (gRead n) := tidy_of_keeps (keeps_gRead (fun _ _ h => h) n)

theorem tidy_readColours (n : Nat) : Tidy b (readColours n) := (tidy_gRead _).bind fun _ => tidy_pure _

theorem tidy_gifScreen : Tidy b gifScreen :=
  (tidy_gRead 7).bind fun _ => tidy_check fun _ => tidy_look_bind fun _ => tidy_check fun _ =>
    tidy_alter_bind (fun s h => ⟨State.Canonical.putGct (s := s.putScreen _) h.1 [], h.2⟩) fun _ =>
      have last (n : Nat) : Tidy b (do alter (·.clearCanvas n); alter (·.setGifState .sections)) :=
        tidy_alter_bind (fun _ ⟨h, hr⟩ => ⟨h.clearCanvas n, hr⟩) fun _ => tidy_alter fun _ h => h
      tidy_ite ((tidy_readColours _).bind fun _ =>
        tidy_alter_bind (fun _ ⟨h, hr⟩ => ⟨h.putGct _, hr⟩) fun _ => last _) (last _)

theorem tidy_gifHeader : Tidy b gifHeader := (tidy_gRead 6).bind fun _ => tidy_check fun _ => tidy_gifScreen

theorem tidy_graphicControl : Tidy b graphicControl :=
  (tidy_gRead 6).bind fun _ => tidy_check fun _ => tidy_check fun _ => tidy_alter fun _ h => h

theorem tidy_skipExtension : Tidy b skipExtension :=
  tidy_alter_bind (fun _ h => h) fun _ => tidy_skipToTerminator

theorem tidy_compositePixel (d : ImageDesc) (gc : GraphicControl) (r y x : Nat) :
    Tidy b (compositePixel d gc r y x) :=
  tidy_look_bind fun _ =>
    tidy_ite (tidy_pure ()) (tidy_check fun _ => tidy_alter fun _ ⟨h, hr⟩ => ⟨h.setCanvas _ _, hr⟩)

theorem tidy_composite (d : ImageDesc) (gc : GraphicControl) : Tidy b (composite d gc) :=
  tidy_forEach (fun _ => tidy_forUpTo (tidy_compositePixel d gc _ _) _) _

theorem tidy_imageTable (d : ImageDesc) : Tidy b (imageTable d) :=
  tidy_ite ((tidy_readColours _).bind fun _ => tidy_alter fun _ ⟨h, hr⟩ => ⟨h.putLct _, hr⟩)
    (tidy_look_bind fun _ => tidy_raiseIf _ _ _)

theorem tidy_imageSection : Tidy b imageSection :=
  (tidy_gRead 9).bind fun _ => (tidy_imageTable _).bind fun _ => tidy_look_bind fun _ => tidy_check fun _ =>
    (tidy_gRead 1).bind fun _ => (tidy_lzwDecode _ _).bind fun _ => tidy_alter_bind (fun _ h => h) fun _ =>
      tidy_look_bind fun _ => tidy_alter_bind (fun _ h => h.disposePrevious) fun _ =>
        tidy_optional_bind (tidy_alter fun _ ⟨h, hr⟩ => ⟨h.snapshot, hr⟩) fun _ => (tidy_composite _ _).bind fun _ =>
          tidy_alter fun _ h => h

theorem tidy_runSection (sec : Sect) : Tidy b (runSection sec) := by
  cases sec with
  | image => exact tidy_imageSection
  | graphicControl => exact tidy_graphicControl
  | trailer => exact tidy_alter fun _ h => h
  | comment => exact tidy_skipExtension
  | application => exact tidy_skipExtension
  | plainText => exact tidy_skipExtension
  | otherExt _ => exact tidy_skipExtension

theorem tidy_fetchSection : Tidy b fetchSection :=
  (tidy_gRead 1).bind fun _ => tidy_ite (tidy_pure _) (tidy_ite
    ((tidy_gRead 1).bind fun _ => tidy_pure _) (tidy_check fun _ => tidy_pure _))

theorem tidy_gifStep : Tidy b gifStep :=
  tidy_fetchSection.bind fun _ => (tidy_runSection _).bind fun _ => tidy_pure _

theorem tidy_failingGif {α : Type} {m : Exec α} (hm : Tidy b m) : Tidy b (failingGif m) := hm.onRaise fun _ h => h

theorem tidy_gifLoop (k : Nat) (f : Bool) : Tidy b (gifLoop k f) := by
  induction k generalizing f with
  | zero => exact tidy_pure f
  | succ k ih =>
    exact tidy_look_bind fun _ => tidy_ite ((tidy_failingGif tidy_gifStep).bind fun _ => ih _) (tidy_pure f)

theorem tidy_setFrame (f : Bool) : Tidy b (alter (·.setFrame f)) := tidy_alter fun _ h => h

/-- A command of the GIF decoder in state `st`. -/
theorem tidy_inGifState {α : Type} (st : GifState) {m : Exec α} (hm : Tidy b m) :
    Tidy b (do alter (·.setFrame false); requireGif st; failingGif m) :=
  (tidy_setFrame false).bind fun _ => (tidy_of_keeps (keeps_requireGif st)).bind fun _ => tidy_failingGif hm

/-! ## Output, bit writer, Huffman encode (40_bitcursor.md R170 to R172, 41_huffman.md R200, R201) -/

theorem tidy_out (x : Byte) : Tidy b (out x) := tidy_of_keeps (keeps_out (lzwEnc_tidy b).toOut x)

theorem tidy_outAll (bs : List Byte) : Tidy b (outAll bs) := tidy_forEach tidy_out bs

/-- `out` keeps the writer's bit count as well, whatever it is. -/
theorem keeps_out_pending (n : Nat) (x : Byte) :
    Keeps (fun s => s.Canonical ∧ s.inScan = b ∧ s.bwNbits = n) (out x) :=
  keeps_out ⟨fun _ _ _ h => ⟨{ h.1 with }, h.2⟩⟩ x

/-- The loop of R171 leaves fewer than eight bits: each turn takes eight. -/
theorem triple_emitLoop (k n : Nat) (hn : n / 8 = k) :
    Triple (fun s => s.Canonical ∧ s.inScan = b ∧ s.bwNbits = n) (emitLoop k) (fun _ => State.Tidy b)
      State.Canonical := by
  induction k generalizing n with
  | zero =>
    exact triple_pure fun s ⟨hs, hscan, hbw⟩ => ⟨hs, by omega, hscan⟩
  | succ k ih =>
    have hdrop : Triple (fun s => s.Canonical ∧ s.inScan = b ∧ s.bwNbits = n)
        (do alter (fun s => { s with bwNbits := s.bwNbits - 8 }); emitLoop k) (fun _ => State.Tidy b)
        State.Canonical :=
      triple_bind (triple_alter (Q := fun _ s => s.Canonical ∧ s.inScan = b ∧ s.bwNbits = n - 8)
        fun s ⟨hs, hscan, hbw⟩ => ⟨hs, hscan, congrArg (· - 8) hbw⟩) fun _ => ih (n - 8) (by omega)
    have hout (x : Byte) := triple_mono (keeps_out_pending (b := b) n x) (fun _ h => h) (fun _ _ h => h) fun _ h => h.1
    exact triple_bind (triple_look fun _ h => h) fun _ => triple_bind (hout _) fun _ =>
      triple_ite (fun _ => triple_bind (hout 0) fun _ => hdrop) fun _ => hdrop

theorem tidy_emitBits (len : Nat) (code : Word) : Tidy b (emitBits len code) := by
  refine ⟨fun s ⟨hs, _, hscan⟩ => ?_⟩
  exact triple_emitLoop _ (s.bwNbits + len) rfl (s.pushBits len code) ⟨hs, hscan, rfl⟩

theorem tidy_bwClear : Tidy b (alter State.bwClear) :=
  ⟨triple_alter fun _ ⟨hs, _, hscan⟩ => ⟨hs, Nat.zero_le 7, hscan⟩⟩

theorem tidy_flushBits : Tidy b flushBits :=
  tidy_look_bind fun _ => tidy_optional_bind (tidy_emitBits _ _) fun _ => tidy_bwClear

theorem tidy_huffEncode (t : HuffTable) (v : Byte) : Tidy b (huffEncode t v) :=
  tidy_check fun _ => tidy_emitBits _ _

theorem tidy_emitValue (t : HuffTable) (run : Nat) (v : Int) : Tidy b (emitValue t run v) :=
  tidy_check fun _ => (tidy_huffEncode _ _).bind fun _ => tidy_ite (tidy_emitBits _ _) (tidy_pure ())

/-! ## JPEG encode (45_jpeg_encode.md R340 to R350) -/

theorem tidy_scaleTables (q : Nat) : Tidy b (scaleTables q) :=
  tidy_check fun _ => tidy_alter fun _ h => ⟨(h.1.putQt _ _).putQt _ _, h.2⟩

theorem tidy_quant (q : Nat) : Tidy b (quant q) :=
  tidy_look_bind fun _ => tidy_check fun _ => tidy_alter fun _ ⟨h, hr⟩ => ⟨h.setZz _, hr⟩

theorem tidy_encodeAc (t : HuffTable) (zs : List Word) (run : Nat) : Tidy b (encodeAc t zs run) := by
  induction zs generalizing run with
  | nil => exact tidy_ite (tidy_huffEncode _ _) (tidy_pure ())
  | cons z zs ih =>
    exact tidy_ite (ih _) ((tidy_forUpTo (fun _ => tidy_huffEncode _ _) _).bind fun _ =>
      (tidy_emitValue _ _ _).bind fun _ => ih 0)

theorem tidy_encodeBlock (t : Nat) (pred : Word) : Tidy b (encodeBlock t pred) :=
  tidy_look_bind fun _ => (tidy_emitValue _ _ _).bind fun _ => (tidy_encodeAc _ _ _).bind fun _ => tidy_pure _

theorem tidy_encodeComponent (c t tx ty : Nat) (pred : Word) : Tidy b (encodeComponent c t tx ty pred) :=
  tidy_alter_bind (fun _ h => ⟨(h.1.setBlk _).fdct, h.2⟩) fun _ => (tidy_quant _).bind fun _ => tidy_encodeBlock _ _

theorem tidy_encodeTile (tx ty : Nat) (p : Preds) : Tidy b (encodeTile tx ty p) :=
  (tidy_encodeComponent _ _ _ _ _).bind fun _ => (tidy_encodeComponent _ _ _ _ _).bind fun _ =>
    (tidy_encodeComponent _ _ _ _ _).bind fun _ => tidy_pure _

theorem tidy_encodeTiles (ts : List (Nat × Nat)) (p : Preds) : Tidy b (encodeTiles ts p) := by
  induction ts generalizing p with
  | nil => exact tidy_pure ()
  | cons t ts ih => exact (tidy_encodeTile _ _ _).bind fun _ => ih _

/-! ## Colour quantiser, LZW encode, GIF encode (47_octree.md R401 to R408, 46_lzw.md R381, 48_gif.md R464) -/

theorem tidy_lzwEncode (bitDepth n : Nat) : Tidy b (lzwEncode bitDepth n) :=
  tidy_of_keeps (keeps_lzwEncode (lzwEnc_tidy b) bitDepth n)

theorem tidy_octAdd (p : Word) : Tidy b (octAdd p) :=
  tidy_alter_bind (fun _ h => h) fun _ => tidy_look_bind fun _ => tidy_ite (tidy_alter fun _ h => h)
    (tidy_look_bind fun _ => tidy_check fun _ => tidy_look_bind fun _ => tidy_alter_bind (fun _ h => h) fun _ =>
      tidy_raiseIf _ _ _)

theorem tidy_addPixels (n : Nat) : Tidy b (addPixels n) := tidy_look_bind fun _ => tidy_forEach tidy_octAdd _

theorem tidy_octPalette : Tidy b octPalette :=
  tidy_look_bind fun _ => tidy_check fun _ => tidy_alter fun _ ⟨h, hr⟩ => ⟨h.putPalette, hr⟩

theorem tidy_octIndex (p : Word) : Tidy b (octIndex p) := tidy_of_keeps (keeps_octIndex p)

theorem tidy_indexPixel (i : Nat) : Tidy b (indexPixel i) :=
  tidy_look_bind fun _ => (tidy_octIndex _).bind fun _ => tidy_alter fun _ ⟨h, hr⟩ => ⟨h.setIdx _ _, hr⟩

theorem tidy_octQuantize (req : Nat) : Tidy b (octQuantize req) :=
  tidy_check fun _ => tidy_look_bind fun _ => tidy_check fun _ => tidy_alter_bind (fun _ h => h) fun _ =>
    (tidy_addPixels _).bind fun _ => tidy_look_bind fun _ => tidy_check fun _ =>
      have last : Tidy b (do octPalette; forUpTo _ indexPixel) :=
        tidy_octPalette.bind fun _ => tidy_forUpTo tidy_indexPixel _
      tidy_ite last (tidy_alter_bind (fun _ h => h) fun _ => last)

theorem tidy_requireDims : Tidy b requireDims := tidy_of_keeps keeps_requireDims

theorem tidy_netscape : Tidy b netscape :=
  tidy_look_bind fun _ => (tidy_outAll _).bind fun _ => tidy_alter fun _ h => h

end

end Exec

/-! ## Whole instructions -/

/-- `i` is a command, or an element of a stream run as one, with tidy pseudocode. -/
def TidyCommand (i : Instr) : Prop :=
  ∃ (opc : Byte) (body : Exec Unit), (∀ s, exec i s = runCmd opc body s) ∧ Exec.Tidy false body

open Exec

section
variable {i : Instr}

theorem tidyCommand_alter (opc : Byte) (f : State → State) (hexec : ∀ s, exec i s = runCmd opc (alter f) s)
    (hf : ∀ s, s.Tidy false → (f s).Tidy false) : TidyCommand i :=
  ⟨opc, _, hexec, tidy_alter hf⟩

theorem tidyCommand_jpegElement (k : Marker) (h : ∀ s, exec i s = runJpegElement k s) : TidyCommand i :=
  ⟨_, _, h, tidy_requireDecoding.bind fun _ => tidy_failingJpeg (tidy_runElement k)⟩

theorem tidyCommand_gifElement (sec : Sect) (h : ∀ s, exec i s = runGifElement sec s) : TidyCommand i :=
  ⟨_, _, h, tidy_inGifState .sections (tidy_runSection sec)⟩

end

theorem tidy_checkSelector_bind {b : Bool} {α : Type} (tc th : BitVec 4) {k : Unit → Exec α}
    (hk : ∀ a, Tidy b (k a)) : Tidy b (checkSelector tc th >>= k) := tidy_check hk

theorem tidy_checkBuilt_bind {b : Bool} {α : Type} (tc th : BitVec 4) {k : Unit → Exec α} (hk : ∀ a, Tidy b (k a)) :
    Tidy b (checkBuilt tc th >>= k) := (tidy_of_keeps (keeps_checkBuilt tc th)).bind hk

theorem tidy_setRes0 {b : Bool} (v : Word) : Tidy b (alter (·.setRes0 v)) := tidy_alter fun _ h => h

theorem tidyCommand_jpgEncode : TidyCommand .jpgEncode :=
  ⟨0x58, _, fun _ => rfl, tidy_look_bind fun _ => tidy_check fun _ => tidy_check fun _ => tidy_check fun _ =>
    (tidy_scaleTables _).bind fun _ => (tidy_of_keeps (keeps_loadStd (tables_tidy false))).bind fun _ =>
      tidy_bwClear.bind fun _ => tidy_look_bind fun _ => (tidy_outAll _).bind fun _ =>
        (tidy_encodeTiles _ _).bind fun _ => tidy_flushBits.bind fun _ => (tidy_outAll _).bind fun _ =>
          tidy_alter fun _ h => h⟩

theorem tidyCommand_gifDecode : TidyCommand .gifDecode :=
  ⟨0x83, _, fun _ => rfl, (tidy_setFrame false).bind fun _ => tidy_look_bind fun _ => tidy_check fun _ =>
    tidy_optional_bind (tidy_failingGif tidy_gifHeader) fun _ => tidy_look_bind fun _ =>
      (tidy_gifLoop _ _).bind fun f => tidy_setFrame f⟩

theorem tidyCommand_gifEbegin : TidyCommand .gifEbegin :=
  ⟨0x88, _, fun _ => rfl, tidy_look_bind fun _ => tidy_check fun _ => tidy_check fun _ => tidy_check fun _ =>
    tidy_requireDims.bind fun _ => (tidy_outAll _).bind fun _ => (tidy_outAll _).bind fun _ =>
      (tidy_outAll _).bind fun _ => tidy_alter_bind (fun _ h => h) fun _ => tidy_ite tidy_netscape (tidy_pure ())⟩

theorem tidyCommand_gifEframe : TidyCommand .gifEframe :=
  ⟨0x89, _, fun _ => rfl, tidy_look_bind fun _ => tidy_check fun _ => tidy_check fun _ => tidy_check fun _ =>
    tidy_requireDims.bind fun _ => (tidy_octQuantize _).bind fun _ => tidy_look_bind fun _ =>
      (tidy_outAll _).bind fun _ => (tidy_outAll _).bind fun _ => (tidy_outAll _).bind fun _ =>
        (tidy_out _).bind fun _ => (tidy_lzwEncode _ _).bind fun _ => tidy_alter_bind (fun _ h => h) fun _ =>
          tidy_look_bind fun _ => tidy_ite tidy_netscape (tidy_pure ())⟩

/-- The reader commands. -/
theorem tidyCommand_of_reader {i : Instr} (hi : isReader i = true) : TidyCommand i := by
  obtain ⟨opc, body, -, hexec, hkeeps⟩ :=
    commandKeeps_reader (reader_tidy false) keeps_readFull_tidy (fun _ _ h => h) hi
  exact ⟨opc, body, hexec, tidy_of_keeps hkeeps⟩

/-- The writer commands. -/
theorem tidyCommand_of_writer {i : Instr} (hi : isWriter i = true) : TidyCommand i := by
  cases i with
  | bwEmit len => exact ⟨0x18, _, fun _ => rfl, tidy_look_bind fun _ => tidy_check fun _ => tidy_emitBits _ _⟩
  | bwFlush => exact ⟨0x19, _, fun _ => rfl, tidy_flushBits⟩
  | hufEnc tc th =>
    exact ⟨0x22, _, fun _ => rfl, tidy_look_bind fun _ => tidy_check fun _ => tidy_checkBuilt_bind tc th fun _ =>
      tidy_look_bind fun _ => tidy_huffEncode _ _⟩
  | hufEncval tc th =>
    exact ⟨0x23, _, fun _ => rfl, tidy_checkSelector_bind tc th fun _ => tidy_checkBuilt_bind tc th fun _ =>
      tidy_look_bind fun _ => tidy_look_bind fun _ => tidy_look_bind fun _ => tidy_emitValue _ _ _⟩
  | _ => cases hi

/-- The instructions of the GIF, LZW and octree units. -/
theorem tidyCommand_of_gifSide {i : Instr} (hi : isGifSide i = true) : TidyCommand i := by
  cases i with
  | lzwDec =>
    exact ⟨0x60, _, fun _ => rfl, tidy_look_bind fun _ => tidy_look_bind fun _ => tidy_look_bind fun _ =>
      tidy_check fun _ => (tidy_lzwDecode _ _).bind fun _ => tidy_alter fun _ h => h⟩
  | lzwEnc =>
    exact ⟨0x61, _, fun _ => rfl, tidy_look_bind fun _ => tidy_look_bind fun _ => tidy_look_bind fun _ =>
      tidy_check fun _ => (tidy_lzwEncode _ _).bind fun _ => tidy_alter fun _ h => h⟩
  | octReset => exact tidyCommand_alter 0x70 State.octReset (fun _ => rfl) fun _ h => h
  | octAdd => exact ⟨0x71, _, fun _ => rfl, tidy_look_bind fun _ => tidy_octAdd _⟩
  | octBuild => exact ⟨0x72, _, fun _ => rfl, tidy_look_bind fun _ => tidy_check fun _ => tidy_addPixels _⟩
  | octReduce =>
    exact ⟨0x73, _, fun _ => rfl, tidy_look_bind fun _ => tidy_check fun _ => tidy_alter fun _ h => h⟩
  | octPalette => exact ⟨0x74, _, fun _ => rfl, tidy_octPalette⟩
  | octIndex =>
    exact ⟨0x75, _, fun _ => rfl, tidy_look_bind fun _ => (tidy_octIndex _).bind fun _ => tidy_alter fun _ h => h⟩
  | octQuantize => exact ⟨0x76, _, fun _ => rfl, tidy_look_bind fun _ => tidy_octQuantize _⟩
  | gifInit =>
    exact tidyCommand_alter 0x80 (fun s => { s.setFrame false with gif := GifCtx.init }) (fun _ => rfl) fun _ h => h
  | gifHeader => exact ⟨0x81, _, fun _ => rfl, tidy_inGifState .awaitHeader tidy_gifHeader⟩
  | gifStep =>
    exact ⟨0x82, _, fun _ => rfl, (tidy_setFrame false).bind fun _ =>
      (tidy_of_keeps (keeps_requireGif _)).bind fun _ => (tidy_failingGif tidy_gifStep).bind fun _ => tidy_pure ()⟩
  | gifDecode => exact tidyCommand_gifDecode
  | gifEbegin => exact tidyCommand_gifEbegin
  | gifEframe => exact tidyCommand_gifEframe
  | gifEend =>
    exact ⟨0x8A, _, fun _ => rfl, tidy_look_bind fun _ => tidy_check fun _ => (tidy_out _).bind fun _ =>
      tidy_alter fun _ h => h⟩
  | gifSignature => exact ⟨0x81, _, fun _ => rfl, tidy_inGifState .awaitHeader tidy_gifScreen⟩
  | gifImage => exact tidyCommand_gifElement .image fun _ => rfl
  | gifExtGraphicControl => exact tidyCommand_gifElement .graphicControl fun _ => rfl
  | gifExtComment => exact tidyCommand_gifElement .comment fun _ => rfl
  | gifExtApplication => exact tidyCommand_gifElement .application fun _ => rfl
  | gifExtPlainText => exact tidyCommand_gifElement .plainText fun _ => rfl
  | gifExtOther label => exact tidyCommand_gifElement (.otherExt label) fun _ => rfl
  | gifTrailer => exact tidyCommand_gifElement .trailer fun _ => rfl
  | _ => cases hi

/-- The instructions of the other units but SYS.SRESET. -/
theorem tidyCommand_of_jpegSide {i : Instr} (hi : isGifSide i = false) (hreset : i ≠ .sysSreset) : TidyCommand i := by
  by_cases hr : isReader i = true
  · exact tidyCommand_of_reader hr
  by_cases hw : isWriter i = true
  · exact tidyCommand_of_writer hw
  cases i with
  | sysNop => exact ⟨0x00, _, fun _ => rfl, tidy_pure ()⟩
  | sysSreset => exact absurd rfl hreset
  | sysOutclr => exact tidyCommand_alter 0x02 (fun s => { s with outLen := 0 }) (fun _ => rfl) fun _ h => h
  | hufBuild tc th =>
    exact ⟨0x20, _, fun _ => rfl, tidy_checkSelector_bind tc th fun _ => tidy_look_bind fun _ =>
      tidy_buildTable _ _ _⟩
  | hufLoadstd => exact ⟨0x24, _, fun _ => rfl, tidy_of_keeps (keeps_loadStd (tables_tidy false))⟩
  | dctInv => exact tidyCommand_alter 0x30 State.idct (fun _ => rfl) fun _ ⟨h, hr⟩ => ⟨h.idct, hr⟩
  | dctFwd => exact tidyCommand_alter 0x31 State.fdct (fun _ => rfl) fun _ ⟨h, hr⟩ => ⟨h.fdct, hr⟩
  | blkLevel => exact tidyCommand_alter 0x32 State.level (fun _ => rfl) fun _ ⟨h, hr⟩ => ⟨h.level, hr⟩
  | blkClear mask =>
    exact tidyCommand_alter 0x33 (·.clearBlocks mask) (fun _ => rfl) fun _ ⟨h, hr⟩ => ⟨h.clearBlocks mask, hr⟩
  | qtScale => exact ⟨0x40, _, fun _ => rfl, tidy_look_bind fun _ => tidy_scaleTables _⟩
  | qtDeq slot => exact tidyCommand_alter 0x41 (·.dequant slot.toNat) (fun _ => rfl) fun _ ⟨h, hr⟩ => ⟨h.dequant _, hr⟩
  | qtQuant slot => exact ⟨0x42, _, fun _ => rfl, tidy_quant _⟩
  | jpgInit =>
    exact tidyCommand_alter 0x50 (fun s => { s.bcReset with jpg := JpegCtx.init, qtValid := 0, htValid := 0 })
      (fun _ => rfl) fun _ h => h
  | jpgStep =>
    exact ⟨0x51, _, fun _ => rfl, tidy_requireDecoding.bind fun _ => tidy_failingJpeg tidy_jpegStep⟩
  | jpgDecode =>
    exact ⟨0x52, _, fun _ => rfl, tidy_requireDecoding.bind fun _ => tidy_look_bind fun _ =>
      tidy_failingJpeg (tidy_jpegLoop _)⟩
  | jpgAssemble =>
    exact ⟨0x53, _, fun _ => rfl, tidy_look_bind fun _ => tidy_check fun _ => tidy_check fun _ => tidy_check fun _ =>
      tidy_alter fun _ h => ⟨{ h.1 with }, h.2⟩⟩
  | jpgEncode => exact tidyCommand_jpgEncode
  | jpegSoi => exact tidyCommand_jpegElement .soi fun _ => rfl
  | jpegEoi => exact tidyCommand_jpegElement .eoi fun _ => rfl
  | jpegRst n => exact tidyCommand_jpegElement (.rst n) fun _ => rfl
  | jpegSof0 => exact tidyCommand_jpegElement .sof0 fun _ => rfl
  | jpegSof1 => exact tidyCommand_jpegElement .sof1 fun _ => rfl
  | jpegSof2 => exact tidyCommand_jpegElement .sof2 fun _ => rfl
  | jpegDht => exact tidyCommand_jpegElement .dht fun _ => rfl
  | jpegDqt => exact tidyCommand_jpegElement .dqt fun _ => rfl
  | jpegDri => exact tidyCommand_jpegElement .dri fun _ => rfl
  | jpegSos => exact tidyCommand_jpegElement .sos fun _ => rfl
  | jpegApp0 => exact tidyCommand_jpegElement (.app 0) fun _ => rfl
  | jpegApp1 => exact tidyCommand_jpegElement (.app 1) fun _ => rfl
  | jpegApp2 => exact tidyCommand_jpegElement (.app 2) fun _ => rfl
  | jpegApp3 => exact tidyCommand_jpegElement (.app 3) fun _ => rfl
  | jpegApp4 => exact tidyCommand_jpegElement (.app 4) fun _ => rfl
  | jpegApp5 => exact tidyCommand_jpegElement (.app 5) fun _ => rfl
  | jpegApp6 => exact tidyCommand_jpegElement (.app 6) fun _ => rfl
  | jpegApp7 => exact tidyCommand_jpegElement (.app 7) fun _ => rfl
  | jpegApp8 => exact tidyCommand_jpegElement (.app 8) fun _ => rfl
  | jpegApp9 => exact tidyCommand_jpegElement (.app 9) fun _ => rfl
  | jpegApp10 => exact tidyCommand_jpegElement (.app 10) fun _ => rfl
  | jpegApp11 => exact tidyCommand_jpegElement (.app 11) fun _ => rfl
  | jpegApp12 => exact tidyCommand_jpegElement (.app 12) fun _ => rfl
  | jpegApp13 => exact tidyCommand_jpegElement (.app 13) fun _ => rfl
  | jpegApp14 => exact tidyCommand_jpegElement (.app 14) fun _ => rfl
  | jpegApp15 => exact tidyCommand_jpegElement (.app 15) fun _ => rfl
  | jpegCom => exact tidyCommand_jpegElement .com fun _ => rfl
  | _ => simp [isReader, isWriter, isGifSide] at hr hw hi

/-- What an instruction but SYS.SRESET leaves of a tidy state: a fault may come in the middle of the writer's loop, and
ends a scan. -/
theorem exec_tidy {i : Instr} {s t : State} (hreset : i ≠ .sysSreset) (hs : s.Tidy false) (ht : exec i s = .next t) :
    t.Canonical ∧ (t.status.fault = false → t.bwNbits ≤ 7) ∧ t.inScan = false := by
  obtain ⟨opc, body, hexec, hbody⟩ : TidyCommand i := by
    cases hi : isGifSide i with
    | true => exact tidyCommand_of_gifSide hi
    | false => exact tidyCommand_of_jpegSide hi hreset
  have hend := hbody.triple s hs
  rw [hexec] at ht
  rcases runCmd_next ht with ⟨u, hu, rfl⟩ | ⟨r, u, hu, rfl⟩
  · rw [hu] at hend
    obtain ⟨hcanon, hbw, hscan⟩ := hend
    exact ⟨hcanon, fun _ => hbw, hscan⟩
  · rw [hu] at hend
    exact ⟨hend, fun hf => (by cases hf), rfl⟩

end Sys2Proof.Machine
end

