-- ==== Sys2Proof/Proofs/StepKeepsSound.lean ====
section
/-! PROOFS. Every step keeps `State.Sound`. Its parts are the boundary, which `exec_keeps` follows through a command,
and what `exec_tidy` says of the rest; the host's accesses are cases of their own (10_state.md R33, 40_bitcursor.md
R173, log 4). -/

namespace Sys2Proof.Machine

open Sys2Proof

/-! ## The boundary of a sound state -/

/-- The bit buffer holds at most 23 bits, OUT_LEN counts bytes of OUT, and the spaces of the boundary are in canonical
form. -/
structure Boundary.Ok (b : Boundary) : Prop where
  bc : b.bcNbits ≤ 23
  fits : b.outLen.toNat ≤ b.caps.outCap
  cap : b.caps.outCap < 2 ^ 32
  inp : b.inp.wf
  out : b.out.wf
  hspec : b.hspec.wf
  pix : b.pix.wf

theorem boundaryOk_feed {s : State} (h : s.boundary.Ok) (hb : s.bcNbits < 16) (c : Byte) (k : Nat) :
    (s.feed c k).boundary.Ok :=
  { h with
    bc := by
      show s.bcNbits + 8 ≤ 23
      omega }

theorem triple_fetchByte_boundaryOk :
    Exec.Triple (fun s => s.boundary.Ok ∧ s.bcNbits < 16) fetchByte (fun _ s => s.boundary.Ok)
      (fun s => s.boundary.Ok) := by
  intro s ⟨hs, hb⟩
  rw [fetchByte_eq]
  dsimp only
  split_ifs
  · exact hs
  · exact hs
  · exact hs
  · exact boundaryOk_feed hs hb _ 2
  · exact boundaryOk_feed hs hb _ 1

theorem boundaryOk_appendOut {s : State} (h : s.boundary.Ok) (x : Byte) (hroom : s.outLen.toNat ≠ s.caps.outCap) :
    (s.appendOut x).boundary.Ok :=
  { h with
    fits := (Exec.grewTo_appendOut x (lt_of_le_of_ne h.fits hroom) h.cap).1.fits
    out := Cells.wf_set h.out _ x }

theorem command_boundaryOk : Frame.Command (fun s => s.boundary.Ok) where
  fetch := triple_fetchByte_boundaryOk
  drop _ n h := { h with bc := (Nat.sub_le _ n).trans h.bc }
  clear _ h := { h with bc := Nat.zero_le _ }
  realign _ h := { h with bc := Nat.zero_le _ }
  take _ _ h _ := { h with }
  out x s h := by
    rw [out_eq]
    split_ifs with hfull
    · exact h
    · exact boundaryOk_appendOut h x hfull
  inner _ _ hst h := by rw [hst]; exact h

/-! ## The parts of `State.Sound` -/

section
variable {s : State}

theorem State.Sound.boundaryOk (h : s.Sound) (hcap : s.caps.outCap < 2 ^ 32) : s.boundary.Ok := by
  obtain ⟨hinp, hout, -, -, -, hspec, hpix, -⟩ := h.mem
  exact ⟨h.bc, h.out, hcap, hinp, hout, hspec, hpix⟩

theorem State.Sound.canonical (h : s.Sound) : s.Canonical := by
  obtain ⟨-, -, hblk, hzz, hqt, -, -, hidx, hpal, hplane, hcoef, hcanvas, hsnap, hgct, hlct, htmp⟩ := h.mem
  exact ⟨hblk, hzz, hqt, hidx, hpal, hplane, hcoef, hcanvas, hsnap, hgct, hlct, htmp, h.lzw.1, h.lzw.2⟩

theorem sound_of_parts (hb : s.boundary.Ok) (hc : s.Canonical) (hbw : s.status.fault = false → s.bwNbits ≤ 7)
    (hscan : s.inScan = false) : s.Sound where
  mem := ⟨hb.inp, hb.out, hc.blk, hc.zz, hc.qt, hb.hspec, hb.pix, hc.idx, hc.pal, hc.plane, hc.coef, hc.canvas,
    hc.snap, hc.gct, hc.lct, hc.tmp⟩
  bc := hb.bc
  bw := hbw
  out := hb.fits
  scan := hscan
  lzw := ⟨hc.pfx, hc.sfx⟩

/-! ## The host's accesses -/

theorem sound_enterFault (opc : Byte) (r : Raise) (h : s.Sound) : (enterFault opc r s).Sound :=
  { h with bw := fun hf => absurd hf (by simp), scan := rfl }

theorem sound_resetCore (s : State) : s.resetCore.Sound := { resetSound with out := Nat.zero_le _ }

theorem sound_writeReg (h : s.Sound) (off : Nat) (w : Word) : (writeReg s off w).Sound := by
  unfold writeReg
  split <;> exact { h with }

theorem sound_writeElem (h : s.Sound) (hcap : s.caps.outCap < 2 ^ 32) (space a : Nat) (w : Word) :
    (writeElem s space a w).Sound := by
  have hb := h.boundaryOk hcap
  have hc := h.canonical
  unfold writeElem
  split
  · exact sound_of_parts { hb with inp := Cells.wf_set hb.inp a _ } { hc with } h.bw h.scan
  · exact sound_of_parts hb { hc with blk := Cells.wf_set hc.blk a w } h.bw h.scan
  · exact sound_of_parts hb { hc with zz := Cells.wf_set hc.zz a w } h.bw h.scan
  · exact sound_of_parts hb { hc with qt := Cells.wf_set hc.qt a _ } h.bw h.scan
  · exact sound_of_parts { hb with hspec := Cells.wf_set hb.hspec a _ } { hc with } h.bw h.scan
  · exact sound_of_parts { hb with pix := Cells.wf_set hb.pix a w } { hc with } h.bw h.scan
  · exact sound_of_parts hb { hc with idx := Cells.wf_set hc.idx a _ } h.bw h.scan
  · exact sound_of_parts hb { hc with pal := Cells.wf_set hc.pal a w } h.bw h.scan
  · exact h

theorem sound_windowRead (h : s.Sound) : (windowRead s).Sound := by
  unfold windowRead
  split_ifs
  · exact { h with }
  · exact { h with }
  · exact { sound_enterFault 0xFF ⟨.badMemAccess, s.windowInfo⟩ h with }

theorem sound_windowWrite (h : s.Sound) (hcap : s.caps.outCap < 2 ^ 32) (w : Word) : (windowWrite s w).Sound := by
  unfold windowWrite
  split_ifs
  · exact h
  · exact { sound_writeElem h hcap _ _ w with }
  · exact sound_enterFault _ _ h

theorem sound_hostRead (h : s.Sound) (off : Nat) : (hostRead off s).Sound := by
  unfold hostRead
  split_ifs
  · exact sound_windowRead h
  · exact { h with }

theorem sound_hostWrite (h : s.Sound) (hcap : s.caps.outCap < 2 ^ 32) (off : Nat) (w : Word) :
    (hostWrite off w s).Sound := by
  unfold hostWrite
  split_ifs
  · exact sound_windowWrite h hcap w
  · exact sound_writeReg h off w

/-! ## Commands -/

/-- Every instruction keeps a sound state without a pending fault sound; SYS.SRESET makes any state sound. -/
theorem sound_exec {i : Instr} {t : State} (h : s.Sound) (hcap : s.caps.outCap < 2 ^ 32)
    (hf : s.status.fault = false ∨ i = .sysSreset) (ht : exec i s = .next t) : t.Sound := by
  by_cases hreset : i = .sysSreset
  · subst hreset
    cases ht
    exact { sound_resetCore s with bw := fun _ => Nat.zero_le 7 }
  obtain ⟨hcanon, hbw, hscan⟩ :=
    exec_tidy hreset ⟨h.canonical, h.bw (hf.resolve_right hreset), h.scan⟩ ht
  refine sound_of_parts ?_ hcanon hbw hscan
  exact exec_keeps command_boundaryOk hreset (fun _ _ hs => { hs with fits := Nat.zero_le _ })
    (fun _ _ hs => { hs with pix := Cells.wf_setRange hs.pix 0 _ }) (h.boundaryOk hcap) ht

/-- The one word that runs while a fault is pending is SYS.SRESET (30_encoding.md R111). -/
theorem decodeCommand_sreset {w : Word} {i : Instr} (hw : opcOf w = 0x01) (hi : decodeCommand w = .ok i) :
    i = .sysSreset := by
  rw [decodeCommand, hw] at hi
  change formN (immOf w) .sysSreset = .ok i at hi
  unfold formN at hi
  split_ifs at hi
  cases hi
  rfl

theorem sound_hostWriteStep {off : Nat} {w : Word} {t : State} (h : s.Sound) (hcap : s.caps.outCap < 2 ^ 32)
    (ht : hostWriteStep off w s = .next t) : t.Sound := by
  unfold hostWriteStep at ht
  split_ifs at ht with hoff
  · by_cases hf : s.status.fault = true ∧ opcOf w ≠ 0x01
    · rw [issue_refused hf.1 hf.2] at ht
      cases ht
      exact { h with }
    have hacc : s.status.fault = false ∨ opcOf w = 0x01 := by
      cases hs : s.status.fault <;> simp_all
    have haccept : s.accept.Sound := { h with }
    cases hd : decodeCommand w with
    | ok i =>
      rw [issue_legal hacc hd] at ht
      exact sound_exec haccept hcap (hacc.imp id fun hw => decodeCommand_sreset hw hd) ht
    | error e =>
      rw [issue_illegal hacc fun i hi => by rw [hd] at hi; cases hi] at ht
      cases ht
      exact sound_enterFault _ _ haccept
  · cases ht
    exact sound_hostWrite h hcap off w

end

/-- Settles O12: each kind of access, and every instruction, keeps a sound state sound. -/
theorem stepKeepsSound : Obligations.StepKeepsSound := by
  unfold Obligations.StepKeepsSound
  intro s t hcap h ht
  cases hin : s.inputs with
  | nil =>
    rw [step_idle hin] at ht
    cases ht
    exact h
  | cons e rest =>
    have hrest : ({ s with inputs := rest } : State).Sound := { h with }
    cases e with
    | reset =>
      rw [step_reset hin] at ht
      cases ht
      exact sound_resetCore _
    | read off =>
      rw [step_read hin] at ht
      cases ht
      exact sound_hostRead hrest off
    | write off w =>
      rw [step_write hin] at ht
      exact sound_hostWriteStep hrest hcap ht

end Sys2Proof.Machine
end

