-- ==== Sys2Proof/Proofs/BulkReads.lean ====
section
/-! PROOFS. BC.IGNORE and BC.READFULL: the position after a realignment, the bytes stored to TMP, and the checks
(40_bitcursor.md R166 to R169). -/

namespace Sys2Proof.Machine

open Sys2Proof

section
variable (s : State)

/-- ARG0 read as a count is ARG0 again. -/
theorem wordN_arg0 : wordN s.arg0.toNat = s.arg0 := BitVec.ofNat_toNat 32 s.arg0

theorem exec_bcIgnore :
    exec .bcIgnore s =
      if s.realigned.inLen.toNat < s.realigned.inPos.toNat + s.arg0.toNat then
        .next (enterFault 0x15 ⟨.endOfStream, s.realigned.inPos⟩ s.realigned)
      else .next ({ s.realigned with inPos := s.realigned.inPos + s.arg0 } : State).complete := by
  rw [exec, execBcIgnore, runCmd_look, runCmd, ignore_eq, realign_eq_realigned, State.advance, wordN_arg0]
  change _ = if s.inLen.toNat < _ then _ else _
  split_ifs <;> rfl

theorem exec_bcReadfull :
    exec .bcReadfull s =
      if 65536 < s.arg0.toNat then .next (enterFault 0x16 ⟨.badArgument, s.arg0⟩ s)
      else if s.realigned.inLen.toNat < s.realigned.inPos.toNat + s.arg0.toNat then
        .next (enterFault 0x16 ⟨.endOfStream, s.realigned.inPos⟩ s.realigned)
      else .next (((s.realigned.storeTmp (s.inBytes s.realigned.inPos.toNat s.arg0.toNat)).advance
        s.arg0.toNat).setRes0 s.arg0).complete := by
  rw [exec, execBcReadfull, runCmd_look, runCmd_check]
  refine if_congr Iff.rfl rfl ?_
  rw [runCmd, exec_bind, readFull_eq, realign_eq_realigned]
  change _ = if s.inLen.toNat < _ then _ else _
  split_ifs <;> rfl

/-- TMP after `n` bytes at `a` of IN were stored there. -/
theorem get_storeTmp_inBytes (t : State) (a n i : Nat) :
    Cells.get (t.storeTmp (s.inBytes a n)).mem.tmp i =
      if i < n then Cells.get s.mem.inp (a + i) else Cells.get t.mem.tmp i := by
  have hlen : (s.inBytes a n).length = n := Cells.length_getRange ..
  refine (Cells.get_setRange ..).trans ?_
  rw [hlen, Nat.zero_add, Nat.sub_zero, State.inBytes, Cells.getD_getRange]
  simp only [Nat.zero_le, true_and]
  split_ifs <;> rfl

end

/-- Settles O20: each command is its pseudocode's realignment, checks and move. -/
theorem bulkReads : Obligations.BulkReads := by
  unfold Obligations.BulkReads
  refine ⟨fun s => rfl, fun s => ?_, fun s hlen => ?_, fun s hlen => ?_, fun s hcap hlen => ?_,
    fun s hcap hlen => ?_, fun s hcap => ?_⟩
  · rw [← realign_eq_realigned]
    rfl
  · rw [exec_bcIgnore, if_neg (Nat.not_lt.mpr hlen)]
  · rw [exec_bcIgnore, if_pos hlen]
  · rw [exec_bcReadfull, if_neg (Nat.not_lt.mpr hcap), if_neg (Nat.not_lt.mpr hlen)]
    refine ⟨_, rfl, ?_, fun i => ?_⟩
    · rw [State.advance, wordN_arg0]
      rfl
    · exact get_storeTmp_inBytes s s.realigned s.realigned.inPos.toNat s.arg0.toNat i
  · rw [exec_bcReadfull, if_neg (Nat.not_lt.mpr hcap), if_pos hlen]
  · rw [exec_bcReadfull, if_pos hcap]

end Sys2Proof.Machine
end

