-- ==== Sys2Proof/Proofs/BitStrings.lean ====
section
/-! SUPPORT. Bit strings: the parts of `bitsMsb`, the bits it depends on, and the number it spells. -/

namespace Sys2Proof.Machine

open Sys2Proof

/-- An operand field as a register word. -/
theorem wordN_toNat {w : Nat} (x : BitVec w) : wordN x.toNat = x.setWidth 32 := BitVec.ofNat_toNat 32 x

/-- A number of at most 16 bits fits a register word. -/
theorem toNat_wordN_of_lt {n v : Nat} (hn : n ≤ 16) (hv : v < 2 ^ n) : (wordN v).toNat = v :=
  Nat.mod_eq_of_lt (hv.trans_le (Nat.pow_le_pow_right Nat.two_pos (hn.trans (by decide))))

theorem toNat_wordN_ones {n : Nat} (hn : n ≤ 16) : (wordN (2 ^ n - 1)).toNat = 2 ^ n - 1 :=
  toNat_wordN_of_lt hn (Nat.sub_lt (Nat.two_pow_pos n) Nat.one_pos)

@[simp] theorem length_bitsMsb (n v : Nat) : (bitsMsb n v).length = n := by
  induction n with
  | zero => rfl
  | succ n ih => rw [bitsMsb, List.length_cons, ih]

/-- Only the low `n` bits count. -/
theorem bitsMsb_congr {n v w : Nat} (h : ∀ i < n, v.testBit i = w.testBit i) : bitsMsb n v = bitsMsb n w := by
  induction n with
  | zero => rfl
  | succ n ih => rw [bitsMsb, bitsMsb, h n n.lt_succ_self, ih fun i hi => h i (hi.trans n.lt_succ_self)]

/-- The first `n` of `n + m` bits are those above the last `m`. -/
theorem bitsMsb_add (n m v : Nat) : bitsMsb (n + m) v = bitsMsb n (v >>> m) ++ bitsMsb m v := by
  induction n with
  | zero => rw [Nat.zero_add, bitsMsb, List.nil_append]
  | succ n ih =>
    rw [Nat.add_right_comm, bitsMsb, ih, bitsMsb, Nat.testBit_shiftRight, Nat.add_comm m n, List.cons_append]

theorem bitsMsb_sub_append {n m : Nat} (h : m ≤ n) (v : Nat) :
    bitsMsb n v = bitsMsb (n - m) (v >>> m) ++ bitsMsb m v := by
  rw [← bitsMsb_add, Nat.sub_add_cancel h]

theorem take_bitsMsb {n m : Nat} (h : m ≤ n) (v : Nat) : (bitsMsb n v).take m = bitsMsb m (v >>> (n - m)) := by
  rw [bitsMsb_sub_append (Nat.sub_le n m) v, Nat.sub_sub_self h]
  exact List.take_left' (length_bitsMsb ..)

theorem drop_bitsMsb (n m v : Nat) : (bitsMsb n v).drop m = bitsMsb (n - m) v := by
  rcases Nat.le_total m n with h | h
  · rw [bitsMsb_sub_append (Nat.sub_le n m) v, Nat.sub_sub_self h]
    exact List.drop_left' (length_bitsMsb ..)
  · rw [Nat.sub_eq_zero_of_le h, bitsMsb, List.drop_of_length_le (by rwa [length_bitsMsb])]

theorem bitsMsb_ones (n : Nat) : bitsMsb n (2 ^ n - 1) = List.replicate n true := by
  have hall : ∀ m ≤ n, bitsMsb m (2 ^ n - 1) = List.replicate m true := by
    intro m
    induction m with
    | zero => exact fun _ => rfl
    | succ m ih =>
      intro h
      have hm : m < n := h
      rw [bitsMsb, ih hm.le, Nat.testBit_two_pow_sub_one, decide_eq_true hm, List.replicate_succ]
  exact hall n le_rfl

theorem foldl_eq_ofBits (bs : List Bool) (a : Nat) :
    bs.foldl (fun a b => 2 * a + b.toNat) a = 2 ^ bs.length * a + ofBits bs := by
  induction bs generalizing a with
  | nil => simp [ofBits]
  | cons b bs ih =>
    rw [ofBits, List.foldl_cons, ih, List.foldl_cons, ih, List.length_cons, pow_succ]
    ring

theorem ofBits_cons (b : Bool) (bs : List Bool) : ofBits (b :: bs) = 2 ^ bs.length * b.toNat + ofBits bs := by
  rw [ofBits, List.foldl_cons, foldl_eq_ofBits, Nat.mul_zero, Nat.zero_add]

theorem ofBits_lt (bs : List Bool) : ofBits bs < 2 ^ bs.length := by
  induction bs with
  | nil => exact Nat.one_pos
  | cons b bs ih =>
    have hbit : 2 ^ bs.length * b.toNat ≤ 2 ^ bs.length := (Nat.mul_le_mul_left _ b.toNat_le).trans_eq (Nat.mul_one _)
    rw [ofBits_cons, List.length_cons, pow_succ]
    omega

theorem ofBits_bitsMsb (n v : Nat) : ofBits (bitsMsb n v) = v % 2 ^ n := by
  induction n with
  | zero => exact (Nat.mod_one v).symm
  | succ n ih => rw [bitsMsb, ofBits_cons, ih, length_bitsMsb, Nat.mod_pow_succ, Nat.toNat_testBit, Nat.add_comm]

theorem ofBits_append (as bs : List Bool) : ofBits (as ++ bs) = 2 ^ bs.length * ofBits as + ofBits bs := by
  rw [ofBits, List.foldl_append, foldl_eq_ofBits]
  rfl

theorem ofBits_take_succ {bs : List Bool} {l : Nat} (h : l < bs.length) :
    ofBits (bs.take (l + 1)) = 2 * ofBits (bs.take l) + ofBits ((bs.drop l).take 1) := by
  rw [List.take_add, ofBits_append, List.length_take_of_le (by rw [List.length_drop]; omega), pow_one]

theorem toNat_wordN_take_one (bs : List Bool) : (wordN (ofBits (bs.take 1))).toNat = ofBits (bs.take 1) :=
  toNat_wordN_of_lt (n := 1) (by decide)
    ((ofBits_lt _).trans_le (Nat.pow_le_pow_right Nat.two_pos (List.length_take_le 1 bs)))

/-- A bit string is the digits of the number it spells. -/
theorem bitsMsb_ofBits (bs : List Bool) : bitsMsb bs.length (ofBits bs) = bs := by
  induction bs with
  | nil => rfl
  | cons b bs ih =>
    have hlow : bitsMsb bs.length (ofBits (b :: bs)) = bitsMsb bs.length (ofBits bs) :=
      bitsMsb_congr fun i hi => by rw [ofBits_cons, Nat.testBit_two_pow_mul_add _ (ofBits_lt bs), if_pos hi]
    rw [List.length_cons, bitsMsb, hlow, ih, ofBits_cons, Nat.testBit_two_pow_mul_add _ (ofBits_lt bs),
      if_neg (Nat.lt_irrefl _), Nat.sub_self]
    cases b <;> rfl

/-- A code of `m` bits, shifted in below `n` pending ones that stay within the word. -/
theorem bitsMsb_shiftIn {n m : Nat} (acc c : Word) (hc : c.toNat < 2 ^ m) (hn : n + m ≤ 32) :
    bitsMsb (n + m) ((acc <<< m) ||| c).toNat = bitsMsb n acc.toNat ++ bitsMsb m c.toNat := by
  rw [bitsMsb_add]
  congr 1
  · refine bitsMsb_congr fun i hi => ?_
    have hlow : c.getLsbD (m + i) = false :=
      Nat.testBit_lt_two_pow (hc.trans_le (Nat.pow_le_pow_right Nat.two_pos (Nat.le_add_right m i)))
    rw [Nat.testBit_shiftRight, BitVec.testBit_toNat, BitVec.testBit_toNat, BitVec.getLsbD_or, hlow,
      BitVec.getLsbD_shiftLeft]
    simp
    omega
  · refine bitsMsb_congr fun i hi => ?_
    rw [BitVec.testBit_toNat, BitVec.testBit_toNat, BitVec.getLsbD_or, BitVec.getLsbD_shiftLeft]
    simp [hi]

end Sys2Proof.Machine
end

