-- ==== Sys2Proof/Proofs/WriterPacksBits.lean ====
section
/-! PROOFS. The bit writer: one byte out is the first eight pending bits, stuffed; the loop of `emitBits` writes the
whole bytes among the bits pending and leaves the rest (40_bitcursor.md R170 to R172). -/

namespace Sys2Proof.Machine

open Sys2Proof
open Exec

/-! ## Whole bytes and stuffing -/

theorem stuffed_cons (b : Byte) (bs : List Byte) : stuffed (b :: bs) = stuffed [b] ++ stuffed bs :=
  List.flatMap_append (xs := [b])

theorem wholeBytes_short {bs : List Bool} (h : bs.length < 8) : wholeBytes bs = [] := by
  rw [wholeBytes, Nat.div_eq_of_lt h, List.range_zero, List.map_nil]

theorem wholeBytes_append {as : List Bool} (h : as.length = 8) (bs : List Bool) :
    wholeBytes (as ++ bs) = BitVec.ofNat 8 (ofBits as) :: wholeBytes bs := by
  have hlen : (as ++ bs).length / 8 = bs.length / 8 + 1 := by
    rw [List.length_append, h]
    omega
  rw [wholeBytes, hlen, List.range_succ_eq_map, List.map_cons, List.map_map]
  congr 1
  · rw [Nat.mul_zero, List.drop_zero, List.take_left' h]
  · refine List.map_congr_left fun i _ => ?_
    rw [Function.comp, show 8 * (i + 1) = as.length + 8 * i by rw [h]; ring, List.drop_length_add_append]

/-! ## Bytes out -/

/-- `s` after its oldest eight pending bits went to OUT. -/
def State.writtenByte (s : State) : State :=
  let t := s.appended (stuffed [s.pendingByte])
  { t with bwNbits := t.bwNbits - 8 }

/-- `s` after `len` bits of `code` went through the writer. -/
def State.withBits (s : State) (len : Nat) (code : Word) : State :=
  { s.appended (s.emitted (bitsMsb len code.toNat)) with
    bwAcc := (s.bwAcc <<< len) ||| code, bwNbits := (s.bwNbits + len) % 8 }

section
variable {s : State}

theorem appended_withBw (bs : List Byte) (a : Word) (n : Nat) :
    ({ s with bwAcc := a, bwNbits := n } : State).appended bs =
      { s.appended bs with bwAcc := a, bwNbits := n } := by
  induction bs generalizing s with
  | nil => rfl
  | cons b bs ih => exact ih (s := s.appendOut b)

theorem appended_bwAcc (bs : List Byte) : (s.appended bs).bwAcc = s.bwAcc := by rw [appended_frame]

theorem appended_bwNbits (bs : List Byte) : (s.appended bs).bwNbits = s.bwNbits := by rw [appended_frame]

/-- The oldest eight pending bits are the byte that goes out next. -/
theorem wholeBytes_writerBits (h : 8 ≤ s.bwNbits) :
    wholeBytes s.writerBits = s.pendingByte :: wholeBytes (bitsMsb (s.bwNbits - 8) s.bwAcc.toNat) := by
  have hfront : s.writerBits =
      bitsMsb 8 (s.bwAcc.toNat >>> (s.bwNbits - 8)) ++ bitsMsb (s.bwNbits - 8) s.bwAcc.toNat := by
    rw [← bitsMsb_add, Nat.add_sub_cancel' h, State.writerBits]
  rw [hfront, wholeBytes_append (length_bitsMsb ..), ofBits_bitsMsb]
  congr 1
  refine BitVec.eq_of_toNat_eq ?_
  simp [State.pendingByte]

/-- One turn of the loop: a byte, its stuffing, and the count. -/
theorem emitLoop_succ (k : Nat) (hroom : s.RoomFor (stuffed [s.pendingByte])) :
    emitLoop (k + 1) s = emitLoop k s.writtenByte := by
  rw [emitLoop, exec_look_bind, State.writtenByte]
  by_cases hff : s.pendingByte = 0xFF
  · rw [hff] at hroom ⊢
    obtain ⟨hbyte, hafter⟩ := roomFor_append (as := [0xFF]) (bs := [0]) hroom
    have hzero : (s.appendOut 0xFF).RoomFor [0] := hafter
    rw [exec_ok_bind (out_ok_of_room hbyte), if_pos rfl, exec_ok_bind (out_ok_of_room hzero)]
    rfl
  · have hone : stuffed [s.pendingByte] = [s.pendingByte] := (List.flatMap_singleton ..).trans (if_neg hff)
    rw [hone] at hroom ⊢
    rw [exec_ok_bind (out_ok_of_room hroom), if_neg hff]
    rfl

theorem writtenByte_eq :
    s.writtenByte = { s.appended (stuffed [s.pendingByte]) with bwAcc := s.bwAcc, bwNbits := s.bwNbits - 8 } := by
  rw [State.writtenByte, appended_bwNbits, ← appended_bwAcc (s := s) (stuffed [s.pendingByte])]

/-- The loop writes the whole bytes pending. -/
theorem emitLoop_ok (k : Nat) (hk : s.bwNbits / 8 = k) (hroom : s.RoomFor (stuffed (wholeBytes s.writerBits))) :
    emitLoop k s = .ok ()
      { s.appended (stuffed (wholeBytes s.writerBits)) with bwAcc := s.bwAcc, bwNbits := s.bwNbits % 8 } := by
  induction k generalizing s with
  | zero =>
    have hlt : s.bwNbits < 8 := by omega
    rw [State.writerBits, wholeBytes_short (by rwa [length_bitsMsb]), Nat.mod_eq_of_lt hlt]
    rfl
  | succ k ih =>
    have hle : 8 ≤ s.bwNbits := by omega
    rw [wholeBytes_writerBits hle, stuffed_cons] at hroom ⊢
    obtain ⟨hbyte, hrest⟩ := roomFor_append hroom
    rw [emitLoop_succ k hbyte, writtenByte_eq, appended_append]
    refine (ih (by show (s.bwNbits - 8) / 8 = k; omega) hrest).trans ?_
    rw [appended_withBw, ← Nat.mod_eq_sub_mod hle]
    rfl

theorem writerBits_pushBits {len : Nat} {code : Word} (hnb : s.bwNbits ≤ 7) (hlen : len ≤ 16)
    (hcode : code.toNat < 2 ^ len) : (s.pushBits len code).writerBits = s.writerBits ++ bitsMsb len code.toNat :=
  bitsMsb_shiftIn s.bwAcc code hcode (by omega)

/-- `emitBits` writes the whole bytes among the pending bits and the new ones. -/
theorem emitBits_ok {len : Nat} {code : Word} (hnb : s.bwNbits ≤ 7) (hlen : len ≤ 16) (hcode : code.toNat < 2 ^ len)
    (hroom : s.RoomFor (s.emitted (bitsMsb len code.toNat))) :
    emitBits len code s = .ok () (s.withBits len code) := by
  have hbits := writerBits_pushBits hnb hlen hcode
  rw [State.emitted, ← hbits] at hroom
  rw [State.withBits, State.emitted, ← hbits]
  refine (emitLoop_ok (s := s.pushBits len code) _ rfl hroom).trans ?_
  rw [State.pushBits, appended_withBw]

theorem emits_withBits {len : Nat} {code : Word} (hnb : s.bwNbits ≤ 7) (hlen : len ≤ 16)
    (hcode : code.toNat < 2 ^ len) : s.Emits (bitsMsb len code.toNat) (s.withBits len code) := by
  have hlength : (s.writerBits ++ bitsMsb len code.toNat).length = s.bwNbits + len := by
    rw [List.length_append, State.writerBits, length_bitsMsb, length_bitsMsb]
  refine ⟨by rw [hlength]; rfl, ?_, rfl⟩
  rw [hlength, ← writerBits_pushBits hnb hlen hcode]
  show bitsMsb ((s.bwNbits + len) % 8) _ = (bitsMsb (s.bwNbits + len) _).drop _
  rw [drop_bitsMsb, Nat.mod_def]
  rfl

/-- The flush fills the last byte with ones (R172). -/
theorem flushBits_ok (hnb : s.bwNbits ≤ 7) (hroom : s.RoomFor (s.emitted (List.replicate ((8 - s.bwNbits) % 8) true))) :
    flushBits s = .ok ()
      { s.appended (s.emitted (List.replicate ((8 - s.bwNbits) % 8) true)) with bwAcc := 0, bwNbits := 0 } := by
  rcases Nat.eq_zero_or_pos s.bwNbits with hzero | hpos
  · have hnone : s.emitted (List.replicate ((8 - s.bwNbits) % 8) true) = [] := by
      rw [State.emitted, State.writerBits, hzero, wholeBytes_short (by simp [bitsMsb])]
      rfl
    rw [flushBits_empty hzero, hnone]
    rfl
  · have hpad : (8 - s.bwNbits) % 8 = 8 - s.bwNbits := Nat.mod_eq_of_lt (by omega)
    have hones := toNat_wordN_ones (n := 8 - s.bwNbits) (by omega)
    have hcode : (wordN (2 ^ (8 - s.bwNbits) - 1)).toNat < 2 ^ (8 - s.bwNbits) := by
      rw [hones]
      exact Nat.sub_lt (Nat.two_pow_pos _) Nat.one_pos
    rw [hpad, ← bitsMsb_ones, ← hones] at hroom ⊢
    rw [flushBits, exec_look_bind, if_pos hpos, exec_ok_bind (emitBits_ok hnb (by omega) hcode hroom)]
    rfl

end

/-- Settles O23: BW.EMIT is `emitBits` after its check, BW.FLUSH is `flushBits`. -/
theorem writerPacksBits : Obligations.WriterPacksBits := by
  unfold Obligations.WriterPacksBits
  refine ⟨fun s len hnb hpos hlen hcode hroom => ?_, fun s len hbad => ?_, fun s hnb hroom => ?_⟩
  · refine ⟨_, ?_, emits_withBits hnb hlen hcode⟩
    rw [exec, execBwEmit, runCmd_look, runCmd_check, if_neg (by omega)]
    exact runCmd_ok (emitBits_ok hnb hlen hcode hroom)
  · rw [exec, execBwEmit, runCmd_look, runCmd_check, if_pos (hbad.imp_left (by omega)), wordN_toNat]
  · exact runCmd_ok (flushBits_ok hnb hroom)

end Sys2Proof.Machine
end

