-- ==== Sys2Proof/Proofs/BitReader.lean ====
section
/-! PROOFS. The bit reader against the unstuffed stream (40_bitcursor.md R160 to R165): a fetch moves the next data byte
into the bit buffer, or finds that none comes before the end or the next marker; so `ensureBits` buffers the bits that
there are, and `decodeBits` takes them from the front of `State.pendingBits`. -/

namespace Sys2Proof.Machine

open Sys2Proof
open Exec

/-! ## The unstuffed stream (R160) -/

theorem unstuffed_cons {b : Byte} (h : b ≠ 0xFF) (bs : List Byte) : unstuffed (b :: bs) = b :: unstuffed bs := by
  cases bs with
  | nil => exact if_neg h
  | cons c cs => exact if_neg h

theorem unstuffed_ff_zero (bs : List Byte) : unstuffed (0xFF :: 0 :: bs) = 0xFF :: unstuffed bs := rfl

theorem unstuffed_marker {c : Byte} (h : c ≠ 0) (bs : List Byte) : unstuffed (0xFF :: c :: bs) = [] := if_neg h

/-- The data bytes before the end or the next marker. -/
def State.dataBytes (s : State) : List Byte :=
  unstuffed (s.inBytes s.inPos.toNat (s.inLen.toNat - s.inPos.toNat))

theorem pendingBits_eq (s : State) :
    s.pendingBits = bitsMsb s.bcNbits s.bcAcc.toNat ++ s.dataBytes.flatMap fun b => bitsMsb 8 b.toNat := rfl

/-- What a fetch raises where no data byte is left (R162). -/
def State.starved (s : State) : Raise :=
  ⟨if s.inPos.toNat + 1 < s.inLen.toNat then .missingStuffingByte else .endOfStream, s.inPos⟩

section
variable {s : State}

theorem inBytes_succ (a n : Nat) : s.inBytes a (n + 1) = Cells.get s.mem.inp a :: s.inBytes (a + 1) n := by
  rw [State.inBytes, Cells.getRange, List.range_succ_eq_map, List.map_cons, List.map_map]
  congr 1
  exact List.map_congr_left fun i _ => congrArg (Cells.get s.mem.inp) (by show a + (i + 1) = _; omega)

theorem inBytes_of_lt {a l : Nat} (h : a < l) :
    s.inBytes a (l - a) = Cells.get s.mem.inp a :: s.inBytes (a + 1) (l - (a + 1)) := by
  rw [show l - a = l - (a + 1) + 1 by omega, inBytes_succ]

/-- The data bytes after one that took `k` stream bytes. -/
theorem dataBytes_feed (c : Byte) {k : Nat} (h : s.inPos.toNat + k ≤ s.inLen.toNat) :
    (s.feed c k).dataBytes = unstuffed (s.inBytes (s.inPos.toNat + k) (s.inLen.toNat - (s.inPos.toNat + k))) := by
  rw [← toNat_add_wordN h]
  rfl

end

/-- A fetch takes the next data byte, or finds none. -/
theorem fetchByte_data (s : State) :
    (∃ c k, fetchByte s = .ok () (s.feed c k) ∧ s.dataBytes = c :: (s.feed c k).dataBytes) ∨
    (fetchByte s = .error s.starved s ∧ s.dataBytes = []) := by
  rw [fetchByte_eq]
  dsimp only
  by_cases hend : s.inLen.toNat ≤ s.inPos.toNat
  · refine .inr ⟨?_, ?_⟩
    · rw [if_pos hend, State.starved, if_neg (by omega)]
    · rw [State.dataBytes, Nat.sub_eq_zero_of_le hend]
      rfl
  have hlt : s.inPos.toNat < s.inLen.toNat := Nat.lt_of_not_le hend
  rw [if_neg hend, State.dataBytes, inBytes_of_lt hlt]
  by_cases hff : Cells.get s.mem.inp s.inPos.toNat = 0xFF
  · rw [if_pos hff, hff]
    by_cases hlast : s.inLen.toNat ≤ s.inPos.toNat + 1
    · refine .inr ⟨?_, ?_⟩
      · rw [if_pos hlast, State.starved, if_neg (Nat.not_lt.mpr hlast)]
      · rw [Nat.sub_eq_zero_of_le hlast]
        rfl
    have hnext : s.inPos.toNat + 1 < s.inLen.toNat := Nat.lt_of_not_le hlast
    rw [if_neg hlast, inBytes_of_lt hnext]
    by_cases hmark : Cells.get s.mem.inp (s.inPos.toNat + 1) ≠ 0
    · exact .inr ⟨by rw [if_pos hmark, State.starved, if_pos hnext], unstuffed_marker hmark _⟩
    · refine .inl ⟨0xFF, 2, if_neg hmark, ?_⟩
      rw [not_ne_iff.mp hmark, unstuffed_ff_zero, dataBytes_feed 0xFF hnext]
  · refine .inl ⟨_, 1, if_neg hff, ?_⟩
    rw [unstuffed_cons hff, dataBytes_feed _ hlt]

/-- A data byte moved into the bit buffer leaves the bits pending as they were. -/
theorem pendingBits_feed {s : State} {c : Byte} {k : Nat} (hb : s.bcNbits + 8 ≤ 32)
    (h : s.dataBytes = c :: (s.feed c k).dataBytes) : (s.feed c k).pendingBits = s.pendingBits := by
  have hc : (c.setWidth 32).toNat = c.toNat := BitVec.toNat_setWidth_of_le (by decide)
  rw [pendingBits_eq s, h, List.flatMap_cons, ← List.append_assoc, ← hc, ← bitsMsb_shiftIn _ _ (by omega) hb]
  rfl

/-! ## Bits taken from the front -/

/-- `t` is `s` with the first `n` pending bits consumed; more may be buffered, and nothing else changed. -/
structure State.Consumed (s : State) (n : Nat) (t : State) : Prop where
  frame : t = { s with inPos := t.inPos, bcAcc := t.bcAcc, bcNbits := t.bcNbits }
  bits : t.pendingBits = s.pendingBits.drop n
  buffered : t.bcNbits ≤ 23

section
variable {s t u : State} {n m : Nat}

theorem consumed_zero (h : s.bcNbits ≤ 23) : s.Consumed 0 s := ⟨rfl, rfl, h⟩

theorem State.Consumed.trans (h : s.Consumed n t) (h' : t.Consumed m u) : s.Consumed (n + m) u where
  frame := h'.frame.trans (by rw [h.frame])
  bits := by rw [h'.bits, h.bits, List.drop_drop]
  buffered := h'.buffered

/-- A fetch below 16 buffered bits. -/
theorem consumed_feed {c : Byte} {k : Nat} (hb : s.bcNbits < 16) (h : s.dataBytes = c :: (s.feed c k).dataBytes) :
    s.Consumed 0 (s.feed c k) :=
  ⟨rfl, pendingBits_feed (by omega) h, by show s.bcNbits + 8 ≤ 23; omega⟩

theorem bcNbits_le_length_pendingBits (s : State) : s.bcNbits ≤ s.pendingBits.length := by
  rw [pendingBits_eq, List.length_append, length_bitsMsb]
  exact Nat.le_add_right ..

/-- What the loop of `ensureBits` comes to. -/
theorem ensureLoop_cases (k : Nat) (hn : n ≤ 16) (hk : n ≤ s.bcNbits + 8 * k) (hb : s.bcNbits ≤ 23) :
    (∃ t, ensureLoop k n s = .ok () t ∧ s.Consumed 0 t ∧ n ≤ t.bcNbits) ∨
    (∃ t, ensureLoop k n s = .error t.starved t ∧ s.Consumed 0 t ∧ t.bcNbits < n ∧ t.dataBytes = []) := by
  induction k generalizing s with
  | zero => exact .inl ⟨s, rfl, consumed_zero hb, hk⟩
  | succ k ih =>
    rw [ensureLoop, exec_look_bind]
    by_cases hlt : s.bcNbits < n
    · rw [if_pos hlt]
      rcases fetchByte_data s with ⟨c, j, hfetch, hdata⟩ | ⟨hfetch, hdata⟩
      · rw [exec_ok_bind hfetch]
        have hfeed : s.Consumed 0 (s.feed c j) := consumed_feed (by omega) hdata
        have hbits : (s.feed c j).bcNbits = s.bcNbits + 8 := rfl
        exact (ih (by omega) hfeed.buffered).imp
          (fun ⟨t, ht, hcons, hrest⟩ => ⟨t, ht, hfeed.trans hcons, hrest⟩)
          (fun ⟨t, ht, hcons, hrest⟩ => ⟨t, ht, hfeed.trans hcons, hrest⟩)
      · exact .inr ⟨s, by rw [exec_bind, hfetch], consumed_zero hb, hlt, hdata⟩
    · rw [if_neg hlt]
      exact .inl ⟨s, rfl, consumed_zero hb, Nat.le_of_not_lt hlt⟩

/-- `ensureBits` buffers bits that come before the end and the next marker (R161). -/
theorem ensureBits_ok (hn : n ≤ 16) (hb : s.bcNbits ≤ 23) (hlen : n ≤ s.pendingBits.length) :
    ∃ t, ensureBits n s = .ok () t ∧ s.Consumed 0 t ∧ n ≤ t.bcNbits := by
  refine (ensureLoop_cases 2 hn (by omega) hb).resolve_right ?_
  rintro ⟨t, -, hcons, hlt, hdata⟩
  have hbits := congrArg List.length hcons.bits
  rw [pendingBits_eq t, hdata, List.flatMap_nil, List.append_nil, length_bitsMsb, List.drop_zero] at hbits
  omega

/-- Short of bits, `ensureBits` buffers those there are and raises (R161, R162). -/
theorem ensureBits_short (hn : n ≤ 16) (hb : s.bcNbits ≤ 23) (hlen : s.pendingBits.length < n) :
    ∃ t, ensureBits n s = .error t.starved t ∧ s.Consumed 0 t ∧ t.bcNbits = s.pendingBits.length := by
  rcases ensureLoop_cases 2 hn (by omega) hb with ⟨t, -, hcons, hle⟩ | ⟨t, ht, hcons, -, hdata⟩
  · have hbuf := bcNbits_le_length_pendingBits t
    rw [hcons.bits, List.drop_zero] at hbuf
    omega
  · have hbits := congrArg List.length hcons.bits
    rw [pendingBits_eq t, hdata, List.flatMap_nil, List.append_nil, length_bitsMsb, List.drop_zero] at hbits
    exact ⟨t, ht, hcons, hbits⟩

/-! ## `decodeBits` (R163, R164) -/

theorem ofBits_take_pendingBits (hn : n ≤ s.bcNbits) :
    ofBits (s.pendingBits.take n) = s.bcAcc.toNat >>> (s.bcNbits - n) % 2 ^ n := by
  rw [pendingBits_eq, List.take_append_of_le_length (by rwa [length_bitsMsb]), take_bitsMsb hn, ofBits_bitsMsb]

theorem peekBits_eq (hn : n ≤ s.bcNbits) (hw : n ≤ 16) :
    s.peekBits n = wordN (ofBits (s.pendingBits.take n)) := by
  have hlt : s.bcAcc.toNat >>> (s.bcNbits - n) % 2 ^ n < 2 ^ n := Nat.mod_lt _ (Nat.two_pow_pos n)
  refine BitVec.eq_of_toNat_eq ?_
  rw [ofBits_take_pendingBits hn, toNat_wordN_of_lt hw hlt, State.peekBits, BitVec.toNat_and, toNat_wordN_ones hw,
    BitVec.toNat_ushiftRight, Nat.and_two_pow_sub_one_eq_mod]

theorem consumed_dropBits (hn : n ≤ s.bcNbits) (hb : s.bcNbits ≤ 23) : s.Consumed n (s.dropBits n) where
  frame := rfl
  bits := by
    rw [pendingBits_eq s, List.drop_append_of_le_length (by rwa [length_bitsMsb]), drop_bitsMsb]
    rfl
  buffered := (Nat.sub_le ..).trans hb

theorem decodeBits_ok (hn : n ≤ 16) (hb : s.bcNbits ≤ 23) (hlen : n ≤ s.pendingBits.length) :
    ∃ t, decodeBits n s = .ok (wordN (ofBits (s.pendingBits.take n))) t ∧ s.Consumed n t := by
  rw [decodeBits]
  by_cases hzero : n = 0
  · rw [if_pos hzero, hzero]
    exact ⟨s, rfl, consumed_zero hb⟩
  obtain ⟨t, ht, hcons, hbuf⟩ := ensureBits_ok hn hb hlen
  rw [if_neg hzero, exec_ok_bind ht, takeBits_eq, peekBits_eq hbuf hn, hcons.bits, List.drop_zero]
  have htake := hcons.trans (consumed_dropBits hbuf hcons.buffered)
  exact ⟨_, rfl, by rwa [Nat.zero_add] at htake⟩

theorem decodeBits_short (hn : n ≤ 16) (hb : s.bcNbits ≤ 23) (hlen : s.pendingBits.length < n) :
    ∃ t, decodeBits n s = .error t.starved t ∧ s.Consumed 0 t ∧ t.bcNbits = s.pendingBits.length := by
  obtain ⟨t, ht, hrest⟩ := ensureBits_short hn hb hlen
  exact ⟨t, by rw [decodeBits, if_neg (by omega), exec_bind, ht], hrest⟩

theorem decodeBit_eq : decodeBit = decodeBits 1 := rfl

end

end Sys2Proof.Machine
end

