-- ==== Sys2Proof/Proofs/ReaderDeliversStream.lean ====
section
/-! PROOFS. The reader commands on a stream with enough bits: the bits taken as a number, the sign extension of
BC.RECVEXT, and the state at the end of the command (40_bitcursor.md R161, R163 to R165). -/

namespace Sys2Proof.Machine

open Sys2Proof
open Exec

/-! ## The sign extension (R165) -/

/-- The first bit tells which half of the range a number is in. -/
theorem take_one_eq_true_iff {bs : List Bool} (h : 1 ≤ bs.length) :
    bs.take 1 = [true] ↔ ¬ ofBits bs < 2 ^ (bs.length - 1) := by
  cases bs with
  | nil => cases h
  | cons b bs =>
    have hlt := ofBits_lt bs
    rw [ofBits_cons, List.length_cons, Nat.add_sub_cancel]
    cases b with
    | false => simp [hlt]
    | true => simp

/-- The value of BC.RECVEXT on `bs`, the bits of its category. -/
def magnitudeOf (bs : List Bool) : Int :=
  if bs.take 1 = [true] then ofBits bs else ofBits bs - 2 ^ bs.length + 1

theorem word_natCast_sub_add_one (a b : Nat) : word ((a : Int) - b + 1) = wordN a - wordN b + 1 := by
  rw [word, sub_eq_add_neg, BitVec.ofInt_add, BitVec.ofInt_add, BitVec.ofInt_neg, BitVec.ofInt_natCast,
    BitVec.ofInt_natCast, ← BitVec.sub_eq_add_neg]
  rfl

theorem extend_ofBits {bs : List Bool} (h1 : 1 ≤ bs.length) (h16 : bs.length ≤ 16) :
    extend bs.length (wordN (ofBits bs)) = word (magnitudeOf bs) := by
  rw [extend, toNat_wordN_of_lt h16 (ofBits_lt bs), magnitudeOf]
  by_cases hlow : ofBits bs < 2 ^ (bs.length - 1)
  · rw [if_pos hlow, if_neg (mt (take_one_eq_true_iff h1).mp (not_not.mpr hlow)), ← word_natCast_sub_add_one,
      Nat.cast_pow, Nat.cast_ofNat]
  · rw [if_neg hlow, if_pos ((take_one_eq_true_iff h1).mpr hlow), word, BitVec.ofInt_natCast]
    rfl

/-- `receiveExtend` on the bits of its category. -/
theorem receiveExtend_ok {s : State} {k : Nat} (hk : k ≤ 16) (hb : s.bcNbits ≤ 23)
    (hlen : k ≤ s.pendingBits.length) :
    ∃ t, receiveExtend k s =
      .ok (if k = 0 then 0 else word (magnitudeOf (s.pendingBits.take k))) t ∧ s.Consumed k t := by
  rw [receiveExtend, exec_check, if_neg (Nat.not_lt.mpr hk)]
  by_cases hzero : k = 0
  · rw [if_pos hzero, if_pos hzero, hzero]
    exact ⟨s, rfl, consumed_zero hb⟩
  · obtain ⟨t, ht, hcons⟩ := decodeBits_ok hk hb hlen
    have htake : (s.pendingBits.take k).length = k := List.length_take_of_le hlen
    have hext := extend_ofBits (bs := s.pendingBits.take k) (by omega) (by omega)
    rw [htake] at hext
    rw [if_neg hzero, if_neg hzero, exec_ok_bind ht, hext]
    exact ⟨t, rfl, hcons⟩

/-- The same value in the words of R165. -/
theorem recvextValue_eq {k : Byte} {bs : List Bool} (hlen : k.toNat ≤ bs.length) :
    (if k.toNat = 0 then 0 else word (magnitudeOf (bs.take k.toNat))) =
      word (if k = 0 then 0
        else if bs.take 1 = [true] then (ofBits (bs.take k.toNat) : Int)
        else (ofBits (bs.take k.toNat) : Int) - 2 ^ k.toNat + 1) := by
  by_cases hzero : k = 0
  · rw [hzero]
    rfl
  · have hpos : k.toNat ≠ 0 := fun h => hzero (BitVec.eq_of_toNat_eq h)
    rw [if_neg hpos, if_neg hzero, magnitudeOf, List.take_take, Nat.min_eq_left (Nat.one_le_iff_ne_zero.mpr hpos),
      List.length_take_of_le hlen]

/-! ## The end of a reader command -/

/-- A command that takes `n` bits and answers `v`. -/
theorem runCmd_setRes0 {s t : State} {opc : Byte} {m : Exec Word} {n : Nat} {v : Word} (h : m s = .ok v t)
    (hcons : s.Consumed n t) :
    ∃ u, runCmd opc (m >>= fun v => alter (·.setRes0 v)) s = .next u ∧
      u = { s with
        res0 := v, inPos := u.inPos, bcAcc := u.bcAcc
        bcNbits := u.bcNbits, status := { s.status with done := true } } ∧
      u.pendingBits = s.pendingBits.drop n ∧ u.bcNbits ≤ 23 := by
  refine ⟨_, runCmd_ok (t := t.setRes0 v) (by rw [exec_ok_bind h]; rfl), ?_, hcons.bits, hcons.buffered⟩
  exact (congrArg (fun t : State => (t.setRes0 v).complete) hcons.frame :)

/-- Settles O21: each command is its check, then `decodeBits`, `receiveExtend` or `ensureBits`. -/
theorem readerDeliversStream : Obligations.ReaderDeliversStream := by
  unfold Obligations.ReaderDeliversStream
  intro s hb
  refine ⟨fun n hn hlen => ?_, fun hlen => ?_, fun k hk hlen => ?_, fun n h1 hn hlen => ?_⟩
  · obtain ⟨t, ht, hcons⟩ := decodeBits_ok hn hb hlen
    rw [exec, execBcBits, runCmd_check, if_neg (Nat.not_lt.mpr hn)]
    exact runCmd_setRes0 ht hcons
  · obtain ⟨t, ht, hcons⟩ := decodeBits_ok (by decide) hb hlen
    exact runCmd_setRes0 (m := decodeBit) ht hcons
  · obtain ⟨t, ht, hcons⟩ := receiveExtend_ok hk hb hlen
    rw [recvextValue_eq hlen] at ht
    exact runCmd_setRes0 ht hcons
  · obtain ⟨t, ht, hcons, hbuf⟩ := ensureBits_ok hn hb hlen
    rw [exec, execBcEnsure, runCmd_check, if_neg (by omega)]
    exact ⟨_, runCmd_ok ht, (congrArg State.complete hcons.frame :), hcons.bits, hbuf, hcons.buffered⟩

end Sys2Proof.Machine
end

