-- ==== Sys2Proof/Proofs/HuffmanNoCode.lean ====
section
/-! PROOFS. Huffman decode of a stream that ends inside a code (41_huffman.md R193, R197, R198): where no code begins
the bits that are left, neither the look-up nor the walk finds one, so the walk takes the bits to the last. -/

namespace Sys2Proof.Machine

open Sys2Proof
open Exec

/-! ## Codes (41_huffman.md R191, R193) -/

/-- No code of `sp` begins the bit string `bs`. -/
def HuffSpec.NoCode (sp : HuffSpec) (bs : List Bool) : Prop :=
  ∀ (l j : Nat) (v : Byte), sp.HasCode l j v → ¬ bitsMsb l (sp.firstCode l + j) <+: bs

section
variable {sp : HuffSpec} {bs : List Bool} {l : Nat}

/-- The first `l` bits, read as a number, lie past the codes of length `l`. -/
theorem HuffSpec.NoCode.le_ofBits_take (hno : sp.NoCode bs) (hl : l ≤ 16) (hlen : l ≤ bs.length) :
    sp.firstCode l + sp.count l ≤ ofBits (bs.take l) := by
  induction l with
  | zero => exact Nat.zero_le _
  | succ l ih =>
    have hlt : ¬ ofBits (bs.take (l + 1)) < sp.firstCode (l + 1) + sp.count (l + 1) := by
      intro hlt
      have hfirst : sp.firstCode (l + 1) ≤ ofBits (bs.take (l + 1)) := by
        rw [ofBits_take_succ hlen, HuffSpec.firstCode]
        have := ih (by omega) (by omega)
        omega
      refine hno (l + 1) (ofBits (bs.take (l + 1)) - sp.firstCode (l + 1)) _ ⟨by omega, hl, by omega, rfl⟩ ?_
      have htake := bitsMsb_ofBits (bs.take (l + 1))
      rw [List.length_take_of_le hlen] at htake
      rw [Nat.add_sub_cancel' hfirst, htake]
      exact List.take_prefix ..
    omega

/-- Every entry of the list of codes is a code of R191. -/
theorem exists_of_mem_codes (hcounts : sp.counts.length = 16) {c : HuffCode} (hc : c ∈ sp.codes) :
    ∃ j, 1 ≤ c.len ∧ c.len ≤ 16 ∧ j < sp.count c.len ∧ c.code = sp.firstCode c.len + j := by
  rw [HuffSpec.codes, rows_eq, hcounts, ← List.map_uncurry_zip_eq_zipWith, List.mem_map] at hc
  obtain ⟨⟨⟨l, k⟩, v⟩, hmem, rfl⟩ := hc
  have hrow := (List.of_mem_zip hmem).1
  simp only [List.mem_flatMap, List.mem_map, List.mem_range] at hrow
  obtain ⟨r, ⟨l', hl', rfl⟩, j, hj, heq⟩ := hrow
  obtain ⟨hlow, hhigh⟩ := List.mem_range'_1.mp hl'
  cases heq
  exact ⟨j, hlow, Nat.le_of_lt_succ hhigh, hj, rfl⟩

/-! ## Decode tables without a match (R191, R193) -/

theorem lutAt_build (i : Nat) (hi : i < 256) :
    sp.build.lutAt i = lutEntry (sp.codes.filter fun c => decide (c.len ≤ 8)) i := by
  rw [HuffTable.lutAt, HuffSpec.build, Vector.getElem?_ofFn, dif_pos hi]
  rfl

/-- The look-up finds nothing where no code begins the eight bits. -/
theorem HuffSpec.NoCode.lutAt_eq_zero (hno : sp.NoCode bs) (hcounts : sp.counts.length = 16) (h8 : 8 ≤ bs.length) :
    sp.build.lutAt (ofBits (bs.take 8)) = 0 := by
  have htake : (bs.take 8).length = 8 := List.length_take_of_le h8
  have hbits := bitsMsb_ofBits (bs.take 8)
  rw [htake] at hbits
  rw [lutAt_build _ (by simpa [htake] using ofBits_lt (bs.take 8)), lutEntry]
  cases hfind : (sp.codes.filter fun c => decide (c.len ≤ 8)).find?
      (fun c => ofBits (bs.take 8) / 2 ^ (8 - c.len) == c.code) with
  | none => rfl
  | some c =>
    have hmem := List.mem_filter.mp (List.mem_of_find?_eq_some hfind)
    have hcode := List.find?_some hfind
    have hle : c.len ≤ 8 := by simpa using hmem.2
    obtain ⟨j, h1, h16, hj, hc⟩ := exists_of_mem_codes hcounts hmem.1
    refine absurd ?_ (hno c.len j _ ⟨h1, h16, hj, rfl⟩)
    rw [← hc, ← beq_iff_eq.mp hcode, ← Nat.shiftRight_eq_div_pow, ← take_bitsMsb hle, hbits]
    exact (List.take_prefix ..).trans (List.take_prefix ..)

theorem row_eq (hcounts : sp.counts.length = 16) (h1 : 1 ≤ l) (h16 : l ≤ 16) : sp.row (l - 1) = sp.rowOf l := by
  have hlen : l - 1 < ((List.range' 1 16).map sp.rowOf).length := by
    rw [List.length_map, List.length_range']
    omega
  rw [HuffSpec.row, rows_eq, hcounts, List.getD_eq_getElem _ _ hlen, List.getElem_map, List.getElem_range']
  exact congrArg sp.rowOf (by omega)

theorem maxAt_build (hcounts : sp.counts.length = 16) (h1 : 1 ≤ l) (h16 : l ≤ 16) :
    sp.build.maxAt l =
      if sp.count l > 0 then some (BitVec.ofNat 16 (sp.firstCode l + sp.count l - 1)) else none := by
  rw [HuffTable.maxAt, HuffSpec.build, Vector.getElem?_ofFn, dif_pos (by omega)]
  show (if (sp.row (l - 1)).count > 0 then _ else _) = _
  rw [row_eq hcounts h1 h16]
  rfl

/-- The walk matches no length whose codes all lie below. -/
theorem matchesAt_build_of_le (hv : sp.Valid) (h1 : 1 ≤ l) (h16 : l ≤ 16) {code : Nat}
    (hcode : sp.firstCode l + sp.count l ≤ code) : sp.build.matchesAt l code = false := by
  have hfits := hv.fits l h1 h16
  have hpow : 2 ^ l ≤ 2 ^ 16 := Nat.pow_le_pow_right Nat.two_pos h16
  rw [HuffTable.matchesAt, maxAt_build hv.lengths h1 h16]
  by_cases hpos : sp.count l > 0
  · rw [if_pos hpos]
    refine decide_eq_false ?_
    rw [BitVec.toNat_ofNat, Nat.mod_eq_of_lt (by omega)]
    omega
  · rw [if_neg hpos]

end

/-! ## The decode (R197, R198) -/

section
variable {sp : HuffSpec} {s : State}

/-- A look-up that finds nothing only buffers a byte before the walk. -/
theorem huffDecode_slow {t : HuffTable} (hb : s.bcNbits ≤ 23)
    (hlut : ∀ u, s.Consumed 0 u → 8 ≤ u.bcNbits → t.lutAt (u.peekBits 8).toNat = 0) :
    ∃ u, s.Consumed 0 u ∧ huffDecode t s = slowWalk t u := by
  have hstay := consumed_zero hb
  rw [huffDecode, exec_look_bind]
  by_cases hlt : s.bcNbits < 8
  · rw [if_pos hlt]
    rcases fetchByte_data s with ⟨c, j, hfetch, hdata⟩ | ⟨hfetch, -⟩
    · have hfeed := consumed_feed (by omega) hdata
      have hfast : tryFetch s = .ok true (s.feed c j) := by rw [tryFetch, hfetch]
      refine ⟨_, hfeed, ?_⟩
      rw [exec_ok_bind hfast]
      beta_reduce
      rw [if_pos rfl, exec_look_bind, hlut _ hfeed (Nat.le_add_left ..)]
      rfl
    · have hnone : tryFetch s = .ok false s := by rw [tryFetch, hfetch]
      exact ⟨s, hstay, by rw [exec_ok_bind hnone]; rfl⟩
  · refine ⟨s, hstay, ?_⟩
    rw [if_neg hlt, pure_bind]
    beta_reduce
    rw [if_pos rfl, exec_look_bind, hlut s hstay (Nat.le_of_not_lt hlt)]
    rfl

/-- The walk from length `m + 1` on, over a stream of fewer than 16 bits that no code begins. -/
theorem slowFrom_short (hv : sp.Valid) (hno : sp.NoCode s.pendingBits) (hlen : s.pendingBits.length < 16) {m : Nat}
    (hm : m ≤ s.pendingBits.length) {t : State} (ht : s.Consumed m t) :
    ∃ u, slowFrom sp.build (16 - m) (m + 1) (ofBits (s.pendingBits.take m)) t = .error u.starved u ∧
      s.Consumed s.pendingBits.length u ∧ u.bcNbits = 0 := by
  obtain ⟨d, hd⟩ := Nat.exists_eq_add_of_le hm
  induction d generalizing m t with
  | zero =>
    rw [show 16 - m = 15 - m + 1 by omega, slowFrom]
    have hnone : t.pendingBits.length = 0 := by rw [ht.bits, List.length_drop]; omega
    obtain ⟨u, hu, hcons, hnb⟩ := decodeBits_short (n := 1) (by decide) ht.buffered (by omega)
    refine ⟨u, by rw [decodeBit_eq, exec_bind, hu], ?_, hnb.trans hnone⟩
    rw [hd]
    exact ht.trans hcons
  | succ d ih =>
    have hsome : 1 ≤ t.pendingBits.length := by rw [ht.bits, List.length_drop]; omega
    obtain ⟨u, hu, hcons⟩ := decodeBits_ok (n := 1) (by decide) ht.buffered hsome
    have hcode : 2 * ofBits (s.pendingBits.take m) + (wordN (ofBits (t.pendingBits.take 1))).toNat =
        ofBits (s.pendingBits.take (m + 1)) := by
      rw [toNat_wordN_take_one, ht.bits]
      exact (ofBits_take_succ (by omega)).symm
    have hpast := hno.le_ofBits_take (l := m + 1) (by omega) (by omega)
    have hmatch := matchesAt_build_of_le hv (by omega) (by omega) hpast
    rw [show 16 - m = 16 - (m + 1) + 1 by omega, slowFrom, decodeBit_eq, exec_ok_bind hu, hcode, hmatch]
    exact ih (by omega) (ht.trans hcons) (by omega)

end

/-- HUF.DEC on a stream that ends inside a code. -/
theorem huffDecode_short {sp : HuffSpec} {s : State} (hv : sp.Valid) (hb : s.bcNbits ≤ 23)
    (hno : sp.NoCode s.pendingBits) (hlen : s.pendingBits.length < 16) :
    ∃ u, huffDecode sp.build s = .error u.starved u ∧ s.Consumed s.pendingBits.length u ∧ u.bcNbits = 0 := by
  have hlut : ∀ u, s.Consumed 0 u → 8 ≤ u.bcNbits → sp.build.lutAt (u.peekBits 8).toNat = 0 := by
    intro u hu h8
    have h8' : 8 ≤ u.pendingBits.length := h8.trans (bcNbits_le_length_pendingBits u)
    have hbits : u.pendingBits = s.pendingBits := hu.bits
    have hbyte := ofBits_lt (u.pendingBits.take 8)
    rw [List.length_take_of_le h8'] at hbyte
    rw [peekBits_eq h8 (by decide), toNat_wordN_of_lt (n := 8) (by decide) hbyte, hbits]
    exact hno.lutAt_eq_zero hv.lengths (hbits ▸ h8')
  obtain ⟨t, ht, hdec⟩ := huffDecode_slow hb hlut
  obtain ⟨u, hu, hcons, hnb⟩ := slowFrom_short hv (m := 0) hno hlen (Nat.zero_le _) ht
  exact ⟨u, hdec.trans hu, hcons, hnb⟩

end Sys2Proof.Machine
end

