-- ==== Sys2Proof/Proofs/ReaderStopsAtMarker.lean ====
section
/-! PROOFS. Reader commands and HUF.DEC on a stream that is short of bits: what is raised and which bits are left
(40_bitcursor.md R161 to R165, 41_huffman.md R198). -/

namespace Sys2Proof.Machine

open Sys2Proof
open Exec

/-! ## The fault of a short stream (R162, R501) -/

theorem errWord_missingStuffingByte (opc : Byte) : errWord opc .missingStuffingByte = 0#8 ++ opc ++ 0x0210#16 := by
  show 0#8 ++ opc ++ 0#4 ++ 2#4 ++ 0x10#8 = _
  rw [BitVec.append_assoc, BitVec.append_assoc]
  rfl

theorem errWord_endOfStream (opc : Byte) : errWord opc .endOfStream = 0#8 ++ opc ++ 0x0101#16 := by
  show 0#8 ++ opc ++ 0#4 ++ 1#4 ++ 0x01#8 = _
  rw [BitVec.append_assoc, BitVec.append_assoc]
  rfl

theorem errWord_starved (opc : Byte) (t : State) :
    errWord opc t.starved.fault =
      if t.inPos.toNat + 1 < t.inLen.toNat then 0#8 ++ opc ++ 0x0210#16 else 0#8 ++ opc ++ 0x0101#16 := by
  rw [State.starved, ← errWord_missingStuffingByte, ← errWord_endOfStream]
  exact apply_ite (errWord opc) ..

theorem errWord_starved_low (opc : Byte) (t : State) :
    (errWord opc t.starved.fault).extractLsb' 0 12 = if t.inPos.toNat + 1 < t.inLen.toNat then 0x210 else 0x101 := by
  rw [errWord_starved, apply_ite (BitVec.extractLsb' 0 12), BitVec.extractLsb'_append_eq_of_add_le (by decide),
    BitVec.extractLsb'_append_eq_of_add_le (by decide)]
  rfl

/-! ## Reader commands -/

/-- A reader command short of bits: `t` is where it stops. -/
theorem enterFault_starved_fields {s t : State} (opc : Byte) (hf : s.status.fault = false) (hcons : s.Consumed 0 t)
    (hnb : t.bcNbits = s.pendingBits.length) :
    let u := enterFault opc t.starved t
    u.status.fault = true ∧ u.status.done = false ∧ u.res0 = s.res0 ∧ u.errInfo = u.inPos ∧
      u.pendingBits = s.pendingBits ∧ u.bcNbits = s.pendingBits.length ∧
      u.err.extractLsb' 0 12 = if u.inPos.toNat + 1 < u.inLen.toNat then 0x210 else 0x101 := by
  have htf : t.status.fault = false := by rw [hcons.frame, hf]
  have hres : t.res0 = s.res0 := by rw [hcons.frame]
  refine ⟨rfl, rfl, hres, ?_, hcons.bits, hnb, ?_⟩
  · show (if t.status.fault then t.errInfo else t.starved.info) = t.inPos
    rw [htf]
    rfl
  · rw [enterFault_err, htf]
    exact errWord_starved_low opc t

theorem receiveExtend_short {s : State} {k : Nat} (hk : k ≤ 16) (hb : s.bcNbits ≤ 23)
    (hlen : s.pendingBits.length < k) :
    ∃ t, receiveExtend k s = .error t.starved t ∧ s.Consumed 0 t ∧ t.bcNbits = s.pendingBits.length := by
  obtain ⟨t, ht, hrest⟩ := decodeBits_short hk hb hlen
  exact ⟨t, by rw [receiveExtend, exec_check, if_neg (by omega), if_neg (by omega), exec_bind, ht], hrest⟩

/-- Every reader command that asks for `n` bits stops where `ensureBits` does. -/
theorem exec_reader_short {s : State} {n : BitVec 5} {i : Instr} (hn : n.toNat ≤ 16) (hb : s.bcNbits ≤ 23)
    (hlen : s.pendingBits.length < n.toNat)
    (hi : i = .bcBits n ∨ i = .bcEnsure n ∨ (i = .bcBit ∧ n = 1) ∨ i = .bcRecvext (n.setWidth 8)) :
    ∃ opc t, exec i s = .next (enterFault opc t.starved t) ∧ s.Consumed 0 t ∧ t.bcNbits = s.pendingBits.length := by
  rcases hi with rfl | rfl | ⟨rfl, rfl⟩ | rfl
  · obtain ⟨t, ht, hrest⟩ := decodeBits_short hn hb hlen
    refine ⟨0x13, t, ?_, hrest⟩
    rw [exec, execBcBits, runCmd_check, if_neg (by omega)]
    exact runCmd_error (by rw [exec_bind, ht])
  · obtain ⟨t, ht, hrest⟩ := ensureBits_short hn hb hlen
    refine ⟨0x11, t, ?_, hrest⟩
    rw [exec, execBcEnsure, runCmd_check, if_neg (by omega)]
    exact runCmd_error ht
  · obtain ⟨t, ht, hrest⟩ := decodeBits_short (n := 1) (by decide) hb hlen
    exact ⟨0x12, t, runCmd_error (by rw [decodeBit_eq, exec_bind, ht]), hrest⟩
  · have hwidth : (n.setWidth 8).toNat = n.toNat := BitVec.toNat_setWidth_of_le (by decide)
    obtain ⟨t, ht, hrest⟩ := receiveExtend_short hn hb hlen
    rw [← hwidth] at ht
    exact ⟨0x14, t, runCmd_error (by rw [exec_bind, ht]), hrest⟩

/-! ## HUF.DEC -/

/-- HUF.DEC with a table that was built enters the fault of its decode. -/
theorem exec_hufDec_error {s u : State} {r : Raise} {tc th : BitVec 4} (htc : tc.toNat ≤ 1) (hth : th.toNat ≤ 3)
    (hbuilt : s.htBuilt tc.toNat th.toNat = true) (h : huffDecode (s.table tc.toNat th.toNat) s = .error r u) :
    exec (.hufDec tc th) s = .next (enterFault 0x21 r u) := by
  have hsel : checkSelector tc th s = .ok () s := by rw [checkSelector, exec_raiseIf, if_neg (by omega)]
  have hht : checkBuilt tc th s = .ok () s := by
    rw [checkBuilt, exec_look_bind, exec_raiseIf, if_neg (by simp [hbuilt])]
  refine runCmd_error ?_
  rw [exec_ok_bind hsel, exec_ok_bind hht, exec_look_bind, exec_bind, h]

/-- Settles O22: each command stops where `ensureBits` or the walk does, or at the check of its operand. -/
theorem readerStopsAtMarker : Obligations.ReaderStopsAtMarker := by
  unfold Obligations.ReaderStopsAtMarker
  refine ⟨fun s n i hf hb _ hn hlen hi => ?_, fun s tc th sp hf hb _ htc hth hbuilt htable hv hlen hno => ?_,
    fun s n hn => ?_, fun s n hn => ?_, fun s k hk => ?_⟩
  · obtain ⟨opc, t, ht, hcons, hnb⟩ := exec_reader_short hn hb hlen hi
    exact ⟨_, ht, enterFault_starved_fields opc hf hcons hnb⟩
  · obtain ⟨u, hu, hcons, hnb⟩ := huffDecode_short hv hb hno hlen
    rw [← htable] at hu
    refine ⟨_, exec_hufDec_error htc hth hbuilt hu, ?_, ?_⟩
    · refine (congrArg (enterFault 0x21 u.starved) hcons.frame).trans ?_
      simp only [enterFault, hf, hnb, errWord_starved]
      rfl
    · exact hcons.bits.trans (List.drop_length ..)
  · rw [exec, execBcBits, runCmd_check, if_pos hn, wordN_toNat]
  · rw [exec, execBcEnsure, runCmd_check, if_pos (by omega), wordN_toNat]
  · rw [exec, execBcRecvext, receiveExtend]
    exact runCmd_error (by rw [exec_bind, exec_check, if_pos hk])

end Sys2Proof.Machine
end

