-- ==== Sys2Proof/Proofs/HuffmanCodes.lean ====
section
/-! PROOFS. The codes of a valid specification (41_huffman.md R190, R191): each has its place in the list of codes, and
no code begins another. -/

namespace Sys2Proof.Machine

open Sys2Proof

/-! ## The place of a code in the list of codes (R191) -/

section
variable {sp : HuffSpec} {l j k n : Nat} {v : Byte}

/-- The codes of length `l` with their lengths. -/
def HuffSpec.lengthCodes (sp : HuffSpec) (l : Nat) : List (Nat × Nat) :=
  (List.range (sp.count l)).map fun j => (l, sp.firstCode l + j)

theorem length_lengthCodes (l : Nat) : (sp.lengthCodes l).length = sp.count l := by
  rw [HuffSpec.lengthCodes, List.length_map, List.length_range]

theorem codes_eq (hcounts : sp.counts.length = 16) :
    sp.codes = List.zipWith (fun lc v => ⟨lc.1, lc.2, v⟩) ((List.range' 1 16).flatMap sp.lengthCodes) sp.values := by
  rw [HuffSpec.codes, rows_eq, hcounts, List.flatMap_map]
  rfl

theorem length_shorterCodes (n : Nat) : ((List.range' 1 n).flatMap sp.lengthCodes).length = sp.firstIndex (n + 1) := by
  induction n with
  | zero => rfl
  | succ n ih =>
    rw [List.range'_concat, List.flatMap_append, List.length_append, ih, List.flatMap_singleton, length_lengthCodes,
      Nat.one_mul, Nat.add_comm 1 n]
    rfl

theorem total_eq_firstIndex (hcounts : sp.counts.length = 16) : sp.total = sp.firstIndex 17 := by
  have hlen := length_codes_huffRows sp.counts 1 0 0
  rw [← HuffSpec.rows, rows_eq, hcounts, List.flatMap_map] at hlen
  exact hlen.symm.trans (length_shorterCodes 16)

theorem firstIndex_mono : Monotone sp.firstIndex :=
  monotone_nat_of_le_succ fun _ => Nat.le_add_right ..

theorem HuffSpec.HasCode.len_le (h : sp.HasCode l j v) : l ≤ 16 := by
  obtain ⟨-, h16, -, -⟩ := h
  exact h16

theorem HuffSpec.HasCode.len_ne_zero (h : sp.HasCode l j v) : l ≠ 0 := by
  obtain ⟨h1, -, -, -⟩ := h
  omega

theorem HuffSpec.HasCode.index_lt_total (h : sp.HasCode l j v) (hcounts : sp.counts.length = 16) :
    sp.firstIndex l + j < sp.total := by
  obtain ⟨-, h16, hj, -⟩ := h
  have hmono : sp.firstIndex (l + 1) ≤ sp.firstIndex 17 := firstIndex_mono (by omega)
  rw [total_eq_firstIndex hcounts]
  exact (Nat.add_lt_add_left hj _).trans_le hmono

/-- Every place below `firstIndex n` is that of a code shorter than `n`. -/
theorem exists_code_at (h : k < sp.firstIndex n) : ∃ l j, 1 ≤ l ∧ l < n ∧ j < sp.count l ∧ k = sp.firstIndex l + j := by
  induction n with
  | zero => cases h
  | succ n ih =>
    by_cases hk : k < sp.firstIndex n
    · obtain ⟨l, j, h1, hl, hrest⟩ := ih hk
      exact ⟨l, j, h1, hl.trans n.lt_succ_self, hrest⟩
    · rw [HuffSpec.firstIndex] at h
      have hpos : 1 ≤ n := Nat.one_le_iff_ne_zero.mpr fun h0 => by subst h0; exact hk h
      exact ⟨n, k - sp.firstIndex n, hpos, n.lt_succ_self, by omega, by omega⟩

/-- The `j`-th code of length `l` stands at place `firstIndex l + j`. -/
theorem HuffSpec.HasCode.codes_getElem? (h : sp.HasCode l j v) (hv : sp.Valid) :
    sp.codes[sp.firstIndex l + j]? = some ⟨l, sp.firstCode l + j, v⟩ := by
  have hplace := (h.index_lt_total hv.lengths).trans_le hv.values
  obtain ⟨h1, h16, hj, hval⟩ := h
  have hsplit : List.range' 1 16 = List.range' 1 (l - 1) ++ l :: List.range' (l + 1) (16 - l) := by
    rw [show 16 = l - 1 + (16 - l + 1) by omega, ← List.range'_append_1, List.range'_succ,
      show 1 + (l - 1) = l by omega, show l - 1 + (16 - l + 1) - l = 16 - l by omega]
  have hcode : ((List.range' 1 16).flatMap sp.lengthCodes)[sp.firstIndex l + j]? = some (l, sp.firstCode l + j) := by
    have hshort := length_shorterCodes (sp := sp) (l - 1)
    rw [Nat.sub_add_cancel h1] at hshort
    rw [hsplit, List.flatMap_append, List.flatMap_cons, List.getElem?_append_right (by omega), hshort,
      Nat.add_sub_cancel_left, List.getElem?_append_left (by rwa [length_lengthCodes]), HuffSpec.lengthCodes,
      List.getElem?_map, List.getElem?_range hj]
    rfl
  have hsym : sp.values[sp.firstIndex l + j]? = some v := by
    rw [List.getElem?_eq_getElem hplace, ← hval, byteAt, List.getD_eq_getElem _ _ hplace]
  rw [codes_eq hv.lengths, List.getElem?_zipWith, hcode, hsym]

/-- Every entry of the list of codes is a code of its symbol. -/
theorem exists_hasCode_of_getElem?_codes (hv : sp.Valid) {c : HuffCode} (h : sp.codes[k]? = some c) :
    ∃ j, sp.HasCode c.len j c.sym ∧ c.code = sp.firstCode c.len + j ∧ k = sp.firstIndex c.len + j := by
  have hlen : sp.codes.length ≤ sp.firstIndex 17 := by
    rw [codes_eq hv.lengths, List.length_zipWith, length_shorterCodes]
    exact Nat.min_le_left ..
  obtain ⟨l, j, h1, hl, hj, rfl⟩ := exists_code_at ((List.getElem?_eq_some_iff.mp h).1.trans_le hlen)
  have hcode : sp.HasCode l j _ := ⟨h1, Nat.le_of_lt_succ hl, hj, rfl⟩
  cases Option.some.inj (h.symm.trans (hcode.codes_getElem? hv))
  exact ⟨j, hcode, rfl, rfl⟩

/-! ## No code begins another -/

theorem HuffSpec.HasCode.code_lt (h : sp.HasCode l j v) (hv : sp.Valid) : sp.firstCode l + j < 2 ^ l := by
  obtain ⟨h1, h16, hj, -⟩ := h
  exact (Nat.add_lt_add_left hj _).trans_le (hv.fits l h1 h16)

/-- The codes of length `m` and all that they begin lie below the first code `d + 1` bits longer. -/
theorem firstCode_past (sp : HuffSpec) (m d : Nat) :
    2 ^ (d + 1) * (sp.firstCode m + sp.count m) ≤ sp.firstCode (m + d + 1) := by
  induction d with
  | zero => exact le_rfl
  | succ d ih =>
    have hstep : 2 * sp.firstCode (m + d + 1) ≤ sp.firstCode (m + d + 1 + 1) :=
      Nat.mul_le_mul_left 2 (Nat.le_add_right ..)
    rw [pow_succ, Nat.mul_comm _ 2, Nat.mul_assoc]
    exact (Nat.mul_le_mul_left 2 ih).trans hstep

/-- A code that comes next, as a number. -/
theorem HuffSpec.HasCode.ofBits_take (h : sp.HasCode l j v) (hv : sp.Valid) {bs : List Bool}
    (hp : bitsMsb l (sp.firstCode l + j) <+: bs) : ofBits (bs.take l) = sp.firstCode l + j := by
  obtain ⟨rest, rfl⟩ := hp
  rw [List.take_left' (length_bitsMsb ..), ofBits_bitsMsb, Nat.mod_eq_of_lt (h.code_lt hv)]

/-- Where a code comes next, no shorter one does. -/
theorem HuffSpec.HasCode.noCode_take (h : sp.HasCode l j v) (hv : sp.Valid) {bs : List Bool}
    (hp : bitsMsb l (sp.firstCode l + j) <+: bs) {m : Nat} (hm : m < l) : sp.NoCode (bs.take m) := by
  intro l' j' v' h' hp'
  have hlen' : l' ≤ m := by simpa using hp'.length_le.trans (List.length_take_le m bs)
  obtain ⟨d, rfl⟩ : ∃ d, l = l' + (d + 1) := ⟨l - l' - 1, by omega⟩
  have hcode' := h'.ofBits_take hv (hp'.trans (List.take_prefix m bs))
  obtain ⟨-, -, hj', -⟩ := h'
  have hlen : l' + (d + 1) ≤ bs.length := by simpa using hp.length_le
  have htail : ((bs.drop l').take (d + 1)).length = d + 1 := List.length_take_of_le (by rw [List.length_drop]; omega)
  have hlow := ofBits_lt ((bs.drop l').take (d + 1))
  rw [htail] at hlow
  refine absurd (h.ofBits_take hv hp) (Nat.ne_of_lt ?_)
  calc ofBits (bs.take (l' + (d + 1)))
      = 2 ^ (d + 1) * (sp.firstCode l' + j') + ofBits ((bs.drop l').take (d + 1)) := by
        rw [List.take_add, ofBits_append, hcode', htail]
    _ < 2 ^ (d + 1) * (sp.firstCode l' + j' + 1) := by rw [Nat.mul_succ]; exact Nat.add_lt_add_left hlow _
    _ ≤ 2 ^ (d + 1) * (sp.firstCode l' + sp.count l') := Nat.mul_le_mul_left _ (Nat.add_lt_add_left hj' _)
    _ ≤ sp.firstCode (l' + (d + 1)) := firstCode_past sp l' d
    _ ≤ sp.firstCode (l' + (d + 1)) + j := Nat.le_add_right ..

end

end Sys2Proof.Machine
end

