-- ==== Sys2Proof/Proofs/HuffmanTableFields.lean ====
section
/-! PROOFS. The fields of a built table in terms of the running counter: the counts and values, the decoder arrays, the
look-up table and the encoder arrays (41_huffman.md R190 to R194). -/

namespace Sys2Proof.Machine

open Sys2Proof

section
variable {sp : HuffSpec} {l j k i : Nat} {v : Byte}

/-! ## The decoder arrays (R192) -/

theorem minAt_build (hv : sp.Valid) (h1 : 1 ≤ l) (h16 : l ≤ 16) : sp.build.minAt l = sp.firstCode l := by
  have hfits := hv.fits l h1 h16
  have hpow : 2 ^ l ≤ 2 ^ 16 := Nat.pow_le_pow_right Nat.two_pos h16
  rw [HuffTable.minAt, HuffSpec.build, Vector.getElem?_ofFn, dif_pos (by omega)]
  show (BitVec.ofNat 17 (sp.row (l - 1)).first).toNat = _
  rw [row_eq hv.lengths h1 h16, BitVec.toNat_ofNat]
  exact Nat.mod_eq_of_lt (show sp.firstCode l < 2 ^ 17 by omega)

theorem firstIndex_le_total (hcounts : sp.counts.length = 16) (h16 : l ≤ 16) : sp.firstIndex l ≤ sp.total := by
  rw [total_eq_firstIndex hcounts]
  exact firstIndex_mono (by omega)

theorem indexAt_build (hv : sp.Valid) (h1 : 1 ≤ l) (h16 : l ≤ 16) : sp.build.indexAt l = sp.firstIndex l := by
  have hle := (firstIndex_le_total hv.lengths h16).trans hv.total
  rw [HuffTable.indexAt, HuffSpec.build, Vector.getElem?_ofFn, dif_pos (by omega)]
  show (sp.row (l - 1)).idx % 257 = _
  rw [row_eq hv.lengths h1 h16]
  exact Nat.mod_eq_of_lt (show sp.firstIndex l < 257 by omega)

theorem toNat_maxAt_build (hv : sp.Valid) (h1 : 1 ≤ l) (h16 : l ≤ 16) :
    (sp.build.maxAt l).map BitVec.toNat =
      if sp.count l = 0 then none else some (sp.firstCode l + sp.count l - 1) := by
  have hfits := hv.fits l h1 h16
  have hpow : 2 ^ l ≤ 2 ^ 16 := Nat.pow_le_pow_right Nat.two_pos h16
  rw [maxAt_build hv.lengths h1 h16]
  by_cases hzero : sp.count l = 0
  · rw [if_neg (by omega), if_pos hzero]
    rfl
  · rw [if_pos (by omega), if_neg hzero, Option.map_some, BitVec.toNat_ofNat, Nat.mod_eq_of_lt (by omega)]

theorem valueAt_build (hi : i < 256) : sp.build.valueAt i = if i < sp.total then byteAt sp.values i else 0 := by
  rw [HuffTable.valueAt, HuffSpec.build, Vector.getElem?_ofFn, dif_pos hi]
  rfl

/-! ## The look-up table (R193) -/

theorem mem_shortCodes {c : HuffCode} :
    c ∈ sp.codes.filter (fun c => decide (c.len ≤ 8)) ↔ c ∈ sp.codes ∧ c.len ≤ 8 := by
  rw [List.mem_filter, decide_eq_true_iff]

/-- A byte whose first `l` bits, as a number, are `k` begins with the bits of `k`. -/
theorem bitsMsb_begins_byte (hl : l ≤ 8) (hcode : i / 2 ^ (8 - l) = k) : bitsMsb l k <+: bitsMsb 8 i := by
  rw [← hcode, ← Nat.shiftRight_eq_div_pow, ← take_bitsMsb hl]
  exact List.take_prefix ..

/-- The first `l` bits of a byte, as a number. -/
theorem ofBits_take_bitsMsb_byte (hl : l ≤ 8) (hi : i < 256) : ofBits ((bitsMsb 8 i).take l) = i / 2 ^ (8 - l) := by
  rw [take_bitsMsb hl, ofBits_bitsMsb, Nat.shiftRight_eq_div_pow]
  refine Nat.mod_eq_of_lt (Nat.div_lt_of_lt_mul ?_)
  rwa [← pow_add, Nat.sub_add_cancel hl]

section
variable {l' j' : Nat} {v' : Byte} {bs : List Bool}

theorem HuffSpec.HasCode.len_le_of_next (hv : sp.Valid) (h : sp.HasCode l j v) (h' : sp.HasCode l' j' v')
    (hp : bitsMsb l (sp.firstCode l + j) <+: bs) (hp' : bitsMsb l' (sp.firstCode l' + j') <+: bs) : l' ≤ l := by
  by_contra hlt
  refine h'.noCode_take hv hp' (Nat.lt_of_not_le hlt) l j v h ?_
  exact List.prefix_take_iff.mpr ⟨hp, (length_bitsMsb ..).le⟩

/-- No two codes come next at once. -/
theorem HuffSpec.HasCode.eq_of_next (hv : sp.Valid) (h : sp.HasCode l j v) (h' : sp.HasCode l' j' v')
    (hp : bitsMsb l (sp.firstCode l + j) <+: bs) (hp' : bitsMsb l' (sp.firstCode l' + j') <+: bs) :
    l = l' ∧ j = j' := by
  obtain rfl := Nat.le_antisymm (h'.len_le_of_next hv h hp' hp) (h.len_le_of_next hv h' hp hp')
  have hcode := (h.ofBits_take hv hp).symm.trans (h'.ofBits_take hv hp')
  exact ⟨rfl, Nat.add_left_cancel hcode⟩

end

theorem lutAt_build_of_code (hv : sp.Valid) (h : sp.HasCode l j v) (hl : l ≤ 8) (hi : i < 256)
    (hcode : i / 2 ^ (8 - l) = sp.firstCode l + j) : sp.build.lutAt i = v ++ BitVec.ofNat 8 l := by
  have hmem : ⟨l, sp.firstCode l + j, v⟩ ∈ sp.codes := List.mem_of_getElem? (h.codes_getElem? hv)
  rw [lutAt_build i hi, lutEntry]
  cases hfind : (sp.codes.filter fun c => decide (c.len ≤ 8)).find? (fun c => i / 2 ^ (8 - c.len) == c.code) with
  | none =>
    have hnone := List.find?_eq_none.mp hfind _ (mem_shortCodes.mpr ⟨hmem, hl⟩)
    exact absurd (beq_iff_eq.mpr hcode) hnone
  | some c =>
    obtain ⟨hc, hc8⟩ := mem_shortCodes.mp (List.mem_of_find?_eq_some hfind)
    obtain ⟨k, hk⟩ := List.mem_iff_getElem?.mp hc
    obtain ⟨j', h', hc', rfl⟩ := exists_hasCode_of_getElem?_codes hv hk
    have hsome := List.find?_some hfind
    have hcode' : i / 2 ^ (8 - c.len) = sp.firstCode c.len + j' := (beq_iff_eq.mp hsome).trans hc'
    obtain ⟨rfl, rfl⟩ := h.eq_of_next hv h' (bitsMsb_begins_byte hl hcode) (bitsMsb_begins_byte hc8 hcode')
    rw [h.codes_getElem? hv] at hk
    rw [← Option.some.inj hk]

theorem lutAt_build_of_no_code (hv : sp.Valid) (hi : i < 256)
    (hno : ∀ (l j : Nat) (v : Byte), sp.HasCode l j v → l ≤ 8 → i / 2 ^ (8 - l) ≠ sp.firstCode l + j) :
    sp.build.lutAt i = 0 := by
  have hbyte : ofBits ((bitsMsb 8 i).take 8) = i := by
    rw [List.take_of_length_le (length_bitsMsb ..).le, ofBits_bitsMsb]
    exact Nat.mod_eq_of_lt hi
  have hnone : sp.NoCode (bitsMsb 8 i) := by
    intro l j v h hp
    have hl : l ≤ 8 := by simpa using hp.length_le
    have hcode := h.ofBits_take hv hp
    rw [ofBits_take_bitsMsb_byte hl hi] at hcode
    exact hno l j v h hl hcode
  have hlut := hnone.lutAt_eq_zero hv.lengths (length_bitsMsb ..).ge
  rwa [hbyte] at hlut

/-! ## The encoder arrays (R194) -/

theorem sizeAt_build (v : Byte) :
    sp.build.sizeAt v = (((codeOfSym sp.codes v.toNat).map HuffCode.len).getD 0) % 17 := by
  rw [HuffTable.sizeAt, HuffSpec.build, Vector.getElem?_ofFn, dif_pos v.isLt]
  rfl

theorem codeAt_build (v : Byte) :
    sp.build.codeAt v = BitVec.ofNat 16 (((codeOfSym sp.codes v.toNat).map HuffCode.code).getD 0) := by
  rw [HuffTable.codeAt, HuffSpec.build, Vector.getElem?_ofFn, dif_pos v.isLt]
  rfl

theorem sym_beq_iff {c : HuffCode} : (c.sym.toNat == v.toNat) = true ↔ c.sym = v := by
  rw [beq_iff_eq, BitVec.toNat_inj]

theorem codeOfSym_of_no_code (hv : sp.Valid) (hno : ∀ l j : Nat, ¬ sp.HasCode l j v) :
    codeOfSym sp.codes v.toNat = none := by
  refine List.find?_eq_none.mpr fun c hc hsym => ?_
  obtain ⟨k, hk⟩ := List.mem_iff_getElem?.mp hc
  obtain ⟨j, h, -, -⟩ := exists_hasCode_of_getElem?_codes hv hk
  rw [sym_beq_iff.mp hsym] at h
  exact hno _ _ h

/-- The first code of a symbol is the one that is found. -/
theorem codeOfSym_of_first (hv : sp.Valid) (h : sp.HasCode l j v)
    (hfirst : ∀ l' j' : Nat, sp.HasCode l' j' v → sp.firstIndex l + j ≤ sp.firstIndex l' + j') :
    codeOfSym sp.codes v.toNat = some ⟨l, sp.firstCode l + j, v⟩ := by
  obtain ⟨hplace, heq⟩ := List.getElem?_eq_some_iff.mp (h.codes_getElem? hv)
  refine List.find?_eq_some_iff_getElem.mpr ⟨sym_beq_iff.mpr rfl, _, hplace, heq, fun k hk => ?_⟩
  have hget := List.getElem?_eq_getElem (hk.trans hplace)
  obtain ⟨j', h', -, hk'⟩ := exists_hasCode_of_getElem?_codes hv hget
  rw [Bool.not_eq_true', Bool.eq_false_iff]
  intro hsym
  rw [sym_beq_iff.mp hsym] at h'
  have := hfirst _ _ h'
  omega

/-- The encoder arrays hold the `j`-th code of length `l` for symbol `v`. -/
structure HuffSpec.Encodes (sp : HuffSpec) (l j : Nat) (v : Byte) : Prop where
  hasCode : sp.HasCode l j v
  size : sp.build.sizeAt v = l
  code : (sp.build.codeAt v).toNat = sp.firstCode l + j

theorem encodes_of_first (hv : sp.Valid) (h : sp.HasCode l j v)
    (hfirst : ∀ l' j' : Nat, sp.HasCode l' j' v → sp.firstIndex l + j ≤ sp.firstIndex l' + j') : sp.Encodes l j v := by
  have hpow : 2 ^ l ≤ 2 ^ 16 := Nat.pow_le_pow_right Nat.two_pos h.len_le
  refine ⟨h, ?_, ?_⟩
  · rw [sizeAt_build, codeOfSym_of_first hv h hfirst]
    exact Nat.mod_eq_of_lt (Nat.lt_succ_of_le h.len_le)
  · rw [codeAt_build, codeOfSym_of_first hv h hfirst]
    exact Nat.mod_eq_of_lt ((h.code_lt hv).trans_le hpow)

theorem encoder_of_no_code (hv : sp.Valid) (hno : ∀ l j : Nat, ¬ sp.HasCode l j v) :
    sp.build.sizeAt v = 0 ∧ sp.build.codeAt v = 0 := by
  rw [sizeAt_build, codeAt_build, codeOfSym_of_no_code hv hno]
  exact ⟨rfl, rfl⟩

/-- The encoder arrays hold a code for every symbol that has one. -/
theorem exists_encodes (hv : sp.Valid) (h : sp.HasCode l j v) : ∃ l j, sp.Encodes l j v := by
  classical
  have hex : ∃ k l j, sp.HasCode l j v ∧ k = sp.firstIndex l + j := ⟨_, l, j, h, rfl⟩
  obtain ⟨l, j, hcode, hk⟩ := Nat.find_spec hex
  exact ⟨l, j, encodes_of_first hv hcode fun l' j' h' => hk ▸ Nat.find_min' hex ⟨l', j', h', rfl⟩⟩

theorem exists_encodes_of_sizeAt (hv : sp.Valid) (h : sp.build.sizeAt v ≠ 0) : ∃ l j, sp.Encodes l j v := by
  by_contra hno
  refine h (encoder_of_no_code hv fun l j hcode => ?_).1
  exact hno (exists_encodes hv hcode)

end

/-- Settles O25: each field read out of `HuffSpec.build`, the arrays through the list of codes. -/
theorem huffTableFields : Obligations.HuffTableFields := by
  unfold Obligations.HuffTableFields
  intro sp hv
  refine ⟨Nat.mod_eq_of_lt (Nat.lt_succ_of_le hv.total), fun i => ?_, fun l h1 h16 => ?_, fun i hi => valueAt_build hi,
    fun l j v i h hl hi hcode => lutAt_build_of_code hv h hl hi hcode,
    fun i hi hno => lutAt_build_of_no_code hv hi hno, fun l j v h hfirst => ?_, fun v hno => encoder_of_no_code hv hno⟩
  · exact Vector.getElem_ofFn i.isLt
  · exact ⟨minAt_build hv h1 h16, indexAt_build hv h1 h16, toNat_maxAt_build hv h1 h16⟩
  · obtain ⟨-, hsize, hcode⟩ := encodes_of_first hv h hfirst
    exact ⟨hsize, hcode⟩

end Sys2Proof.Machine
end

