-- ==== Sys2Proof/Proofs/HuffmanDecode.lean ====
section
/-! PROOFS. HUF.DEC on a stream with enough bits: the look-up or the walk finds the code that comes next, and where none
does the walk takes 16 bits (41_huffman.md R197, R198). -/

namespace Sys2Proof.Machine

open Sys2Proof

/-! ## The walk (R198) -/

section
variable {sp : HuffSpec} {s t : State} {m n l j : Nat} {v : Byte}

theorem matchesAt_build_of_code (hv : sp.Valid) (h : sp.HasCode l j v) :
    sp.build.matchesAt l (sp.firstCode l + j) = true := by
  obtain ⟨h1, h16, hj, -⟩ := h
  have hfits := hv.fits l h1 h16
  have hpow : 2 ^ l ≤ 2 ^ 16 := Nat.pow_le_pow_right Nat.two_pos h16
  rw [HuffTable.matchesAt, maxAt_build hv.lengths h1 h16, if_pos (by omega)]
  refine decide_eq_true ?_
  rw [BitVec.toNat_ofNat, Nat.mod_eq_of_lt (by omega)]
  omega

/-- The value the walk answers with where it matches a code. -/
theorem valueAt_build_of_code (hv : sp.Valid) (h : sp.HasCode l j v) :
    sp.build.valueAt (sp.build.indexAt l + (sp.firstCode l + j) - sp.build.minAt l) = v := by
  have hplace := h.index_lt_total hv.lengths
  obtain ⟨h1, h16, -, hval⟩ := h
  rw [indexAt_build hv h1 h16, minAt_build hv h1 h16,
    show sp.firstIndex l + (sp.firstCode l + j) - sp.firstCode l = sp.firstIndex l + j by omega,
    valueAt_build (hplace.trans_le hv.total), if_pos hplace, hval]

/-- One turn of the walk, at length `m + 1`. -/
theorem slowFrom_turn {T : HuffTable} (ht : s.Consumed m t) (hm : m < s.pendingBits.length) (k : Nat) :
    ∃ u, s.Consumed (m + 1) u ∧ slowFrom T (k + 1) (m + 1) (ofBits (s.pendingBits.take m)) t =
      let code := ofBits (s.pendingBits.take (m + 1))
      if T.matchesAt (m + 1) code then .ok (T.valueAt (T.indexAt (m + 1) + code - T.minAt (m + 1))) u
      else slowFrom T k (m + 1 + 1) code u := by
  have hsome : 1 ≤ t.pendingBits.length := by rw [ht.bits, List.length_drop]; omega
  obtain ⟨u, hu, hcons⟩ := decodeBits_ok (n := 1) (by decide) ht.buffered hsome
  have hcode : 2 * ofBits (s.pendingBits.take m) + (wordN (ofBits (t.pendingBits.take 1))).toNat =
      ofBits (s.pendingBits.take (m + 1)) := by
    rw [toNat_wordN_take_one, ht.bits]
    exact (ofBits_take_succ hm).symm
  refine ⟨u, ht.trans hcons, ?_⟩
  rw [slowFrom, decodeBit_eq, exec_ok_bind hu, hcode, exec_ite]
  rfl

/-- The walk goes past the lengths up to `n` where no code of them comes next. -/
theorem slowWalk_past (hv : sp.Valid) (hno : sp.NoCode (s.pendingBits.take n)) (hn : n ≤ 16)
    (hlen : n ≤ s.pendingBits.length) (ht : s.Consumed 0 t) :
    ∃ u, s.Consumed n u ∧
      slowWalk sp.build t = slowFrom sp.build (16 - n) (n + 1) (ofBits (s.pendingBits.take n)) u := by
  have hall : ∀ m ≤ n, ∃ u, s.Consumed m u ∧
      slowWalk sp.build t = slowFrom sp.build (16 - m) (m + 1) (ofBits (s.pendingBits.take m)) u := by
    intro m
    induction m with
    | zero => exact fun _ => ⟨t, ht, rfl⟩
    | succ m ih =>
      intro hm
      obtain ⟨u, hu, hwalk⟩ := ih (by omega)
      obtain ⟨u', hu', hturn⟩ := slowFrom_turn (T := sp.build) hu (by omega) (16 - (m + 1))
      have hpast := hno.le_ofBits_take (l := m + 1) (by omega) (by rw [List.length_take_of_le hlen]; exact hm)
      rw [List.take_take, Nat.min_eq_left hm] at hpast
      refine ⟨u', hu', ?_⟩
      rw [hwalk, show 16 - m = 16 - (m + 1) + 1 by omega, hturn]
      simp only [matchesAt_build_of_le hv (Nat.le_add_left ..) (hm.trans hn) hpast]
      rfl
  exact hall n le_rfl

theorem slowWalk_ok (hv : sp.Valid) (h : sp.HasCode l j v)
    (hp : bitsMsb l (sp.firstCode l + j) <+: s.pendingBits) (ht : s.Consumed 0 t) :
    ∃ u, slowWalk sp.build t = .ok v u ∧ s.Consumed l u := by
  have hlen : l ≤ s.pendingBits.length := by simpa using hp.length_le
  have hcode := h.ofBits_take hv hp
  obtain ⟨m, rfl⟩ : ∃ m, l = m + 1 := Nat.exists_eq_succ_of_ne_zero h.len_ne_zero
  have h16 : m + 1 ≤ 16 := h.len_le
  obtain ⟨u, hu, hwalk⟩ := slowWalk_past hv (h.noCode_take hv hp m.lt_succ_self) (by omega) (by omega) ht
  obtain ⟨u', hu', hturn⟩ := slowFrom_turn (T := sp.build) hu hlen (16 - (m + 1))
  refine ⟨u', ?_, hu'⟩
  rw [hwalk, show 16 - m = 16 - (m + 1) + 1 by omega, hturn, hcode]
  dsimp only
  rw [matchesAt_build_of_code hv h, valueAt_build_of_code hv h]
  rfl

theorem slowWalk_noCode (hv : sp.Valid) (hno : sp.NoCode s.pendingBits) (hlen : 16 ≤ s.pendingBits.length)
    (ht : s.Consumed 0 t) : ∃ u, slowWalk sp.build t = .error ⟨.badHuffmanCode, u.inPos⟩ u ∧ s.Consumed 16 u := by
  have hno16 : sp.NoCode (s.pendingBits.take 16) := fun l j v h hp => hno l j v h (hp.trans (List.take_prefix ..))
  obtain ⟨u, hu, hwalk⟩ := slowWalk_past hv hno16 le_rfl hlen ht
  exact ⟨u, hwalk, hu⟩

/-! ## The look-up (R197) -/

/-- The entry of the look-up table for the next eight bits. -/
def HuffTable.nextEntry (T : HuffTable) (s : State) : BitVec 16 := T.lutAt (s.peekBits 8).toNat

/-- What a decode from `s` comes to at `t`: it walks, after a look-up that found nothing or after none, or it takes what
the look-up found. -/
def HuffTable.DecodesAt (T : HuffTable) (s t : State) : Prop :=
  (8 ≤ t.bcNbits → T.nextEntry t = 0) ∧ huffDecode T s = slowWalk T t ∨
  8 ≤ t.bcNbits ∧ T.nextEntry t ≠ 0 ∧
    huffDecode T s =
      .ok ((T.nextEntry t).extractLsb' 8 8) (t.dropBits ((T.nextEntry t).extractLsb' 0 8).toNat)

theorem decodesAt_of_lookup {T : HuffTable} (h8 : 8 ≤ t.bcNbits)
    (hdec : huffDecode T s = (if T.nextEntry t ≠ 0 then (do
        alter (·.dropBits ((T.nextEntry t).extractLsb' 0 8).toNat)
        pure ((T.nextEntry t).extractLsb' 8 8))
      else slowWalk T : Exec Byte) t) : T.DecodesAt s t := by
  by_cases he : T.nextEntry t = 0
  · exact .inl ⟨fun _ => he, hdec.trans (by rw [if_neg (not_not.mpr he)])⟩
  · exact .inr ⟨h8, he, hdec.trans (by rw [if_pos he]; rfl)⟩

theorem huffDecode_cases (T : HuffTable) (hb : s.bcNbits ≤ 23) : ∃ t, s.Consumed 0 t ∧ T.DecodesAt s t := by
  by_cases hlt : s.bcNbits < 8
  · rcases fetchByte_data s with ⟨c, k, hfetch, hdata⟩ | ⟨hfetch, -⟩
    · have hfast : tryFetch s = .ok true (s.feed c k) := by rw [tryFetch, hfetch]
      refine ⟨_, consumed_feed (by omega) hdata, decodesAt_of_lookup (Nat.le_add_left ..) ?_⟩
      rw [huffDecode, exec_look_bind, if_pos hlt, exec_ok_bind hfast]
      rfl
    · have hnone : tryFetch s = .ok false s := by rw [tryFetch, hfetch]
      refine ⟨s, consumed_zero hb, .inl ⟨fun h8 => absurd hlt (Nat.not_lt.mpr h8), ?_⟩⟩
      rw [huffDecode, exec_look_bind, if_pos hlt, exec_ok_bind hnone]
      rfl
  · refine ⟨s, consumed_zero hb, decodesAt_of_lookup (Nat.le_of_not_lt hlt) ?_⟩
    rw [huffDecode, exec_look_bind, if_neg hlt]
    rfl

/-- The look-up reads the next eight bits. -/
theorem nextEntry_eq (T : HuffTable) (ht : s.Consumed 0 t) (h8 : 8 ≤ t.bcNbits) :
    8 ≤ s.pendingBits.length ∧ T.nextEntry t = T.lutAt (ofBits (s.pendingBits.take 8)) := by
  have hlen := h8.trans (bcNbits_le_length_pendingBits t)
  have hbits : t.pendingBits = s.pendingBits := ht.bits
  rw [hbits] at hlen
  have hbyte := ofBits_lt (s.pendingBits.take 8)
  rw [List.length_take_of_le hlen] at hbyte
  rw [HuffTable.nextEntry, peekBits_eq h8 (by decide), hbits, toNat_wordN_of_lt (n := 8) (by decide) hbyte]
  exact ⟨hlen, rfl⟩

end

/-! ## The decode -/

section
variable {sp : HuffSpec} {s : State} {l j : Nat} {v : Byte}

/-- A code of at most eight bits that comes next is in the look-up table. -/
theorem lutAt_of_next (hv : sp.Valid) (h : sp.HasCode l j v) {bs : List Bool}
    (hp : bitsMsb l (sp.firstCode l + j) <+: bs) (hl : l ≤ 8) (h8 : 8 ≤ bs.length) :
    sp.build.lutAt (ofBits (bs.take 8)) = v ++ BitVec.ofNat 8 l := by
  have hlen : (bs.take 8).length = 8 := List.length_take_of_le h8
  have hbyte := ofBits_lt (bs.take 8)
  rw [hlen] at hbyte
  refine lutAt_build_of_code hv h hl hbyte ?_
  have hbits := bitsMsb_ofBits (bs.take 8)
  have hcode := h.ofBits_take hv (List.prefix_take_iff.mpr ⟨hp, (length_bitsMsb ..).trans_le hl⟩)
  rw [hlen] at hbits
  rwa [← hbits, ofBits_take_bitsMsb_byte hl hbyte] at hcode

/-- A decode answers the symbol whose code comes next, and takes that code. -/
theorem huffDecode_ok (hv : sp.Valid) (h : sp.HasCode l j v) (hb : s.bcNbits ≤ 23)
    (hp : bitsMsb l (sp.firstCode l + j) <+: s.pendingBits) :
    ∃ u, huffDecode sp.build s = .ok v u ∧ s.Consumed l u := by
  obtain ⟨t, ht, ⟨-, hslow⟩ | ⟨h8, hne, hfast⟩⟩ := huffDecode_cases sp.build hb
  · rw [hslow]
    exact slowWalk_ok hv h hp ht
  · obtain ⟨hlen, hentry⟩ := nextEntry_eq sp.build ht h8
    rw [hentry] at hne hfast
    by_cases hl : l ≤ 8
    · have h256 : l < 2 ^ 8 := by omega
      rw [lutAt_of_next hv h hp hl hlen, BitVec.extractLsb'_append_eq_left,
        BitVec.extractLsb'_append_eq_right, BitVec.toNat_ofNat, Nat.mod_eq_of_lt h256] at hfast
      have htake := ht.trans (consumed_dropBits (hl.trans h8) ht.buffered)
      rw [Nat.zero_add] at htake
      exact ⟨_, hfast, htake⟩
    · have hno := (h.noCode_take hv hp (Nat.lt_of_not_le hl)).lutAt_eq_zero hv.lengths (List.length_take_of_le hlen).ge
      rw [List.take_take, Nat.min_self] at hno
      exact absurd hno hne

/-- Where no code comes next, a decode takes 16 bits and raises. -/
theorem huffDecode_noCode (hv : sp.Valid) (hno : sp.NoCode s.pendingBits) (hb : s.bcNbits ≤ 23)
    (hlen : 16 ≤ s.pendingBits.length) :
    ∃ u, huffDecode sp.build s = .error ⟨.badHuffmanCode, u.inPos⟩ u ∧ s.Consumed 16 u := by
  obtain ⟨t, ht, ⟨-, hslow⟩ | ⟨h8, hne, -⟩⟩ := huffDecode_cases sp.build hb
  · rw [hslow]
    exact slowWalk_noCode hv hno hlen ht
  · obtain ⟨hlen8, hentry⟩ := nextEntry_eq sp.build ht h8
    rw [hentry] at hne
    exact absurd (hno.lutAt_eq_zero hv.lengths hlen8) hne

end

/-! ## HUF.DEC -/

section
variable {s : State} {tc th : BitVec 4} (opc : Byte)

theorem runCmd_checkSelector (k : Unit → Exec Unit) :
    runCmd opc (checkSelector tc th >>= k) s =
      if tc.toNat > 1 ∨ th.toNat > 3 then .next (enterFault opc ⟨.badArgument, selectorImm tc th⟩ s)
      else runCmd opc (k ()) s := runCmd_check ..

theorem runCmd_checkBuilt (k : Unit → Exec Unit) :
    runCmd opc (checkBuilt tc th >>= k) s =
      if s.htBuilt tc.toNat th.toNat = false then .next (enterFault opc ⟨.tableNotDefined, selectorImm tc th⟩ s)
      else runCmd opc (k ()) s := runCmd_check ..

/-- HUF.DEC past its checks. -/
theorem exec_hufDec (htc : tc.toNat ≤ 1) (hth : th.toNat ≤ 3) (hbuilt : s.htBuilt tc.toNat th.toNat = true) :
    exec (.hufDec tc th) s = runCmd 0x21 (do
      let v ← huffDecode (s.table tc.toNat th.toNat)
      alter (·.setRes0 (v.setWidth 32))) s := by
  rw [exec, execHufDec, runCmd_checkSelector, if_neg (by omega), runCmd_checkBuilt, if_neg (by simp [hbuilt]),
    runCmd_look]

/-- HUF.DEC where a code comes next. -/
theorem exec_hufDec_ok {sp : HuffSpec} {l j : Nat} {v : Byte} (htc : tc.toNat ≤ 1) (hth : th.toNat ≤ 3)
    (hbuilt : s.htBuilt tc.toNat th.toNat = true) (htable : s.table tc.toNat th.toNat = sp.build) (hv : sp.Valid)
    (h : sp.HasCode l j v) (hb : s.bcNbits ≤ 23) (hp : bitsMsb l (sp.firstCode l + j) <+: s.pendingBits) :
    ∃ u, exec (.hufDec tc th) s = .next (u.setRes0 (v.setWidth 32)).complete ∧ s.Consumed l u := by
  obtain ⟨u, hu, hcons⟩ := huffDecode_ok hv h hb hp
  rw [exec_hufDec htc hth hbuilt, htable]
  exact ⟨u, runCmd_ok (by rw [exec_ok_bind hu]; rfl), hcons⟩

end

/-- Settles O26: the decode, and the command around it. (`huffDecode` itself is the model's pseudocode.) -/
theorem Proofs.huffDecode : Obligations.HuffDecode := by
  unfold Obligations.HuffDecode
  refine ⟨fun s tc th sp l j v htc hth hbuilt htable hv h hb hp => ?_,
    fun s tc th sp htc hth hbuilt htable hv hf hb hlen hno => ?_⟩
  · obtain ⟨u, hu, hcons⟩ := exec_hufDec_ok htc hth hbuilt htable hv h hb hp
    refine ⟨_, hu, ?_, hcons.bits, hcons.buffered⟩
    exact (congrArg (fun t : State => (t.setRes0 (v.setWidth 32)).complete) hcons.frame :)
  · obtain ⟨u, hu, hcons⟩ := huffDecode_noCode hv hno hb hlen
    rw [← htable] at hu
    refine ⟨_, exec_hufDec_error htc hth hbuilt hu, ?_, hcons.bits, hcons.buffered⟩
    refine (congrArg (enterFault 0x21 ⟨.badHuffmanCode, u.inPos⟩) hcons.frame).trans ?_
    simp only [enterFault, hf]
    rfl

end Sys2Proof.Machine
end

