-- ==== Sys2Proof/Proofs/HuffmanEncode.lean ====
section
/-! PROOFS. HUF.ENC and HUF.ENCVAL: bits written one after the other are written as one string, a code is the entry of
the encoder arrays, and the magnitude bits follow it (41_huffman.md R200, R201). -/

namespace Sys2Proof.Machine

open Sys2Proof

/-! ## Bits after bits (40_bitcursor.md R170, R171) -/

theorem stuffed_append (as bs : List Byte) : stuffed (as ++ bs) = stuffed as ++ stuffed bs := List.flatMap_append

/-- The bits that do not fill a byte stay in front of those that come next. -/
theorem wholeBytes_append_rest (as bs : List Bool) :
    wholeBytes (as ++ bs) = wholeBytes as ++ wholeBytes (as.drop (8 * (as.length / 8)) ++ bs) := by
  obtain ⟨n, hn⟩ : ∃ n, as.length / 8 = n := ⟨_, rfl⟩
  induction n generalizing as with
  | zero => rw [hn, wholeBytes_short (bs := as) (by omega)]; rfl
  | succ n ih =>
    have hbyte : (as.take 8).length = 8 := List.length_take_of_le (by omega)
    have hrest : (as.drop 8).length / 8 = n := by rw [List.length_drop]; omega
    have hsplit := ih (as.drop 8) hrest
    rw [hrest, List.drop_drop] at hsplit
    rw [hn, show 8 * (n + 1) = 8 + 8 * n by ring, ← List.take_append_drop 8 as, List.append_assoc,
      wholeBytes_append hbyte, wholeBytes_append hbyte, List.take_append_drop, hsplit, List.cons_append]

section
variable {s t u : State} {as bs : List Bool}

theorem State.Emits.emitted_append (h : s.Emits as t) (bs : List Bool) :
    s.emitted (as ++ bs) = s.emitted as ++ t.emitted bs := by
  obtain ⟨-, hbits, -⟩ := h
  rw [State.emitted, State.emitted, State.emitted, hbits, ← stuffed_append, ← wholeBytes_append_rest,
    List.append_assoc]

theorem State.Emits.bwNbits_le (h : s.Emits as t) : t.bwNbits ≤ 7 := by
  obtain ⟨hnb, -, -⟩ := h
  omega

theorem roomFor_emitted_left (h : s.RoomFor (s.emitted (as ++ bs))) : s.RoomFor (s.emitted as) := by
  rw [State.emitted, ← List.append_assoc, wholeBytes_append_rest, stuffed_append] at h
  exact (roomFor_append h).1

theorem State.Emits.roomFor (h : s.Emits as t) (hroom : s.RoomFor (s.emitted (as ++ bs))) :
    t.RoomFor (t.emitted bs) := by
  rw [h.emitted_append] at hroom
  obtain ⟨-, -, hframe⟩ := h
  have hlen : t.outLen = (s.appended (s.emitted as)).outLen := (congrArg State.outLen hframe :)
  have hcaps : t.caps = (s.appended (s.emitted as)).caps := (congrArg State.caps hframe :)
  rw [State.RoomFor, hlen, hcaps]
  exact (roomFor_append hroom).2

/-- The bytes of two parts of a bit string, and the pending bits between them. -/
theorem State.Emits.appended_emitted (h : s.Emits as t) (bs : List Bool) :
    t.appended (t.emitted bs) =
      { s.appended (s.emitted (as ++ bs)) with bwAcc := t.bwAcc, bwNbits := t.bwNbits } := by
  rw [h.emitted_append, appended_append, ← appended_withBw]
  obtain ⟨-, -, hframe⟩ := h
  exact congrArg (fun w : State => w.appended (t.emitted bs)) hframe

/-- Bits written in two parts are written as one string. -/
theorem State.Emits.trans (h : s.Emits as t) (h' : t.Emits bs u) : s.Emits (as ++ bs) u := by
  have hout := h.appended_emitted bs
  obtain ⟨-, hbits, -⟩ := h
  obtain ⟨hnb', hbits', hframe'⟩ := h'
  have hrest := Nat.div_mul_le_self (s.writerBits ++ as).length 8
  have hlen : t.writerBits.length = (s.writerBits ++ as).length - 8 * ((s.writerBits ++ as).length / 8) := by
    rw [hbits, List.length_drop]
  have hlen' : (t.writerBits ++ bs).length = t.writerBits.length + bs.length := List.length_append
  have htotal : (s.writerBits ++ as ++ bs).length = (s.writerBits ++ as).length + bs.length := List.length_append
  have hfront : (s.writerBits ++ as ++ bs).drop (8 * ((s.writerBits ++ as).length / 8)) = t.writerBits ++ bs := by
    rw [List.drop_append_of_le_length (by omega), hbits]
  refine ⟨by rw [← List.append_assoc]; omega, ?_, ?_⟩
  · have hwhole : 8 * ((s.writerBits ++ as ++ bs).length / 8) =
        8 * ((s.writerBits ++ as).length / 8) + 8 * ((t.writerBits ++ bs).length / 8) := by omega
    rw [hbits', ← List.append_assoc, hwhole, ← List.drop_drop, hfront]
  · exact hframe'.trans (by rw [hout])

end

/-! ## The code of a symbol (R200) -/

section
variable {sp : HuffSpec} {s : State} {l j : Nat} {v : Byte}

theorem huffEncode_ok (hv : sp.Valid) (h : sp.Encodes l j v) (hnb : s.bwNbits ≤ 7)
    (hroom : s.RoomFor (s.emitted (bitsMsb l (sp.firstCode l + j)))) :
    ∃ t, huffEncode sp.build v s = .ok () t ∧ s.Emits (bitsMsb l (sp.firstCode l + j)) t := by
  have hword : ((sp.build.codeAt v).setWidth 32).toNat = sp.firstCode l + j := by
    rw [BitVec.toNat_setWidth_of_le (by decide), h.code]
  have hlt := h.hasCode.code_lt hv
  have h16 := h.hasCode.len_le
  rw [← hword] at hlt hroom ⊢
  refine ⟨_, ?_, emits_withBits hnb h16 hlt⟩
  rw [huffEncode, exec_check, h.size, if_neg h.hasCode.len_ne_zero]
  exact emitBits_ok hnb h16 hlt hroom

theorem huffEncode_no_code {T : HuffTable} (h : T.sizeAt v = 0) :
    huffEncode T v s = .error ⟨.noHuffmanCode, v.setWidth 32⟩ s := by
  rw [huffEncode, exec_check, if_pos h]

end

/-! ## A value after a run (R201) -/

theorem bitlenFuel_eq {k c a : Nat} (hk : c ≤ k) (hlt : a < 2 ^ c) (hge : c = 0 ∨ 2 ^ (c - 1) ≤ a) :
    bitlenFuel k a = c := by
  induction c generalizing k a with
  | zero =>
    obtain rfl : a = 0 := by simpa using hlt
    cases k <;> rfl
  | succ c ih =>
    obtain ⟨k, rfl⟩ := Nat.exists_eq_add_of_le' hk
    have hlow : 2 ^ c ≤ a := by simpa using hge
    have hpos : a ≠ 0 := (Nat.two_pow_pos c).trans_le hlow |>.ne'
    have hhalf : c = 0 ∨ 2 ^ (c - 1) ≤ a / 2 := by
      cases c with
      | zero => exact .inl rfl
      | succ c => exact .inr ((Nat.le_div_iff_mul_le Nat.two_pos).mpr hlow)
    rw [← Nat.add_assoc, bitlenFuel, if_neg hpos,
      ih (Nat.le_add_left c k) (Nat.div_lt_of_lt_mul (by rwa [← Nat.pow_succ'])) hhalf, Nat.add_comm]

theorem category_eq {c : Nat} {x : Word} (hlt : x.toInt.natAbs < 2 ^ c)
    (hge : c = 0 ∨ 2 ^ (c - 1) ≤ x.toInt.natAbs) : category x.toInt = c := by
  refine bitlenFuel_eq ?_ hlt hge
  by_contra hbig
  have hpow : 2 ^ 32 ≤ 2 ^ (c - 1) := Nat.pow_le_pow_right Nat.two_pos (by omega)
  have hlow := BitVec.le_toInt x
  have hhigh := BitVec.toInt_lt (x := x)
  omega

/-- The magnitude bits of a value of category `c`, as a number. -/
theorem toNat_magnitude {c : Nat} {x : Int} (hc : c ≤ 15) (hlt : x.natAbs < 2 ^ c) :
    (magnitude x c).toNat = (if 0 ≤ x then x else x + 2 ^ c - 1).toNat ∧ (magnitude x c).toNat < 2 ^ c := by
  have hcast : ((2 ^ c : Nat) : Int) = 2 ^ c := by push_cast; rfl
  have hpow : 2 ^ c ≤ 2 ^ 15 := Nat.pow_le_pow_right Nat.two_pos hc
  have hword : magnitude x c = word (if 0 ≤ x then x else x + 2 ^ c - 1) := (apply_ite word ..).symm
  have hrange : 0 ≤ (if 0 ≤ x then x else x + 2 ^ c - 1) ∧ (if 0 ≤ x then x else x + 2 ^ c - 1) < (2 ^ c : Nat) := by
    split <;> omega
  rw [hword, word, BitVec.toNat_ofInt, Int.emod_eq_of_lt hrange.1 (by omega)]
  omega

section
variable {sp : HuffSpec} {s : State} {l j run c : Nat} {x : Int}

theorem emitValue_eq (T : HuffTable) (hcat : category x = c) :
    emitValue T run x s =
      if run > 15 ∨ c > 15 then .error ⟨.badArgument, wordN c⟩ s
      else (do
        huffEncode T (BitVec.ofNat 8 (16 * run + c))
        if c > 0 then emitBits c (magnitude x c) else pure () : Exec Unit) s := by
  rw [emitValue, exec_check, hcat, Nat.mul_comm run 16]

theorem emitValue_ok (hv : sp.Valid) (h : sp.Encodes l j (BitVec.ofNat 8 (16 * run + c))) (hnb : s.bwNbits ≤ 7)
    (hrun : run ≤ 15) (hc : c ≤ 15) (hcat : category x = c) (hlt : x.natAbs < 2 ^ c)
    (hroom : s.RoomFor (s.emitted (bitsMsb l (sp.firstCode l + j) ++ magnitudeBits c x))) :
    ∃ t, emitValue sp.build run x s = .ok () t ∧
      s.Emits (bitsMsb l (sp.firstCode l + j) ++ magnitudeBits c x) t := by
  obtain ⟨t, ht, hemits⟩ := huffEncode_ok hv h hnb (roomFor_emitted_left hroom)
  rw [emitValue_eq _ hcat, if_neg (by omega), exec_ok_bind ht]
  by_cases hpos : c > 0
  · obtain ⟨hmag, hmaglt⟩ := toNat_magnitude hc hlt
    have hbits : magnitudeBits c x = bitsMsb c (magnitude x c).toNat := by rw [magnitudeBits, hmag]
    rw [hbits] at hroom ⊢
    have hc16 : c ≤ 16 := hc.trans (Nat.le_succ 15)
    rw [if_pos hpos]
    exact ⟨_, emitBits_ok hemits.bwNbits_le hc16 hmaglt (hemits.roomFor hroom),
      hemits.trans (emits_withBits hemits.bwNbits_le hc16 hmaglt)⟩
  · have hnone : magnitudeBits c x = [] := by rw [Nat.eq_zero_of_not_pos hpos]; rfl
    rw [if_neg hpos, hnone, List.append_nil]
    exact ⟨t, rfl, hemits⟩

end

/-! ## HUF.ENC and HUF.ENCVAL -/

section
variable {s : State} {tc th : BitVec 4}

/-- HUF.ENC past its checks. -/
theorem exec_hufEnc (htc : tc.toNat ≤ 1) (hth : th.toNat ≤ 3) (hbuilt : s.htBuilt tc.toNat th.toNat = true) {v : Byte}
    (harg : s.arg0 = v.setWidth 32) :
    exec (.hufEnc tc th) s = runCmd 0x22 (huffEncode (s.table tc.toNat th.toNat) v) s := by
  have hnat : s.arg0.toNat = v.toNat := by rw [harg, BitVec.toNat_setWidth_of_le (by decide)]
  have hbyte : s.arg0.setWidth 8 = v := by rw [harg, BitVec.setWidth_setWidth_of_le _ (by decide), BitVec.setWidth_eq]
  rw [exec, execHufEnc, runCmd_look, runCmd_check, if_neg (by omega), runCmd_checkBuilt, if_neg (by simp [hbuilt]),
    runCmd_look, hbyte]

/-- HUF.ENCVAL past the checks of its table. -/
theorem exec_hufEncval (htc : tc.toNat ≤ 1) (hth : th.toNat ≤ 3) (hbuilt : s.htBuilt tc.toNat th.toNat = true) :
    exec (.hufEncval tc th) s =
      runCmd 0x23 (emitValue (s.table tc.toNat th.toNat) s.arg0.toNat s.arg1.toInt) s := by
  rw [exec, execHufEncval, runCmd_checkSelector, if_neg (by omega), runCmd_checkBuilt, if_neg (by simp [hbuilt]),
    runCmd_look, runCmd_look, runCmd_look, sext32]

end

/-- Settles O27: each command is its checks, then `huffEncode` or `emitValue`. (`huffEncode` itself is the model's
pseudocode.) -/
theorem Proofs.huffEncode : Obligations.HuffEncode := by
  unfold Obligations.HuffEncode
  refine ⟨fun s tc th sp l j v htc hth hbuilt htable hv h hfirst hnb => ?_,
    fun s tc th sp v htc hth hbuilt htable hv hno harg => ?_, fun s tc th c htc hth hbuilt hlt hge => ?_⟩
  · have hencodes := encodes_of_first hv h hfirst
    refine ⟨fun harg hroom => ?_, fun run c hrun hc harg hsym hlt hge hroom => ?_⟩
    · obtain ⟨t, ht, hemits⟩ := huffEncode_ok hv hencodes hnb hroom
      rw [exec_hufEnc htc hth hbuilt harg, htable]
      exact ⟨t, runCmd_ok ht, hemits⟩
    · subst hsym
      obtain ⟨t, ht, hemits⟩ := emitValue_ok hv hencodes hnb hrun hc (category_eq hlt hge) hlt hroom
      have hrun' : s.arg0.toNat = run := by
        rw [harg]
        exact toNat_wordN_of_lt (n := 4) (by decide) (Nat.lt_succ_of_le hrun)
      rw [exec_hufEncval htc hth hbuilt, htable, hrun']
      exact ⟨t, runCmd_ok ht, hemits⟩
  · obtain ⟨hsize, -⟩ := encoder_of_no_code hv hno
    rw [exec_hufEnc htc hth hbuilt harg, htable]
    exact runCmd_error (huffEncode_no_code hsize)
  · rw [exec_hufEncval htc hth hbuilt]
    have hcat := category_eq hlt hge
    refine ⟨fun hbad => ?_, fun sp htable hv hrun hc hno => ?_⟩
    · exact runCmd_error (by rw [emitValue_eq _ hcat, if_pos hbad])
    · obtain ⟨hsize, -⟩ := encoder_of_no_code hv hno
      have hsym : (BitVec.ofNat 8 (16 * s.arg0.toNat + c)).setWidth 32 = wordN (16 * s.arg0.toNat + c) :=
        BitVec.setWidth_ofNat_of_le_of_lt (by decide) (by omega)
      rw [htable]
      refine runCmd_error ?_
      rw [emitValue_eq _ hcat, if_neg (by omega), exec_bind, huffEncode_no_code hsize, hsym]

end Sys2Proof.Machine
end

