-- ==== Sys2Proof/Proofs/HuffmanBuild.lean ====
section
/-! PROOFS. HUF.BUILD and HUF.LOADSTD, and where the Huffman commands stop at their checks (41_huffman.md R195 to R197,
R200 to R203). -/

namespace Sys2Proof.Machine

open Sys2Proof

/-! ## A table from its specification (R195, R196) -/

section
variable {sp : HuffSpec} {s : State} {c t l : Nat}

/-- The first length whose codes do not fit. -/
theorem oversubscribed_of_first (hcounts : sp.counts.length = 16) (h1 : 1 ≤ l) (h16 : l ≤ 16)
    (hover : 2 ^ l < sp.firstCode l + sp.count l)
    (hfits : ∀ k : Nat, 1 ≤ k → k < l → sp.firstCode k + sp.count k ≤ 2 ^ k) : sp.oversubscribed = some l := by
  have hlt : l < (List.range 17).length := by rw [List.length_range]; omega
  rw [oversubscribed_eq sp hcounts, List.find?_eq_some_iff_getElem]
  refine ⟨decide_eq_true hover, l, hlt, List.getElem_range hlt, fun k hk => ?_⟩
  rw [List.getElem_range, Bool.not_eq_true']
  rcases Nat.eq_zero_or_pos k with rfl | hpos
  · exact firstCode_zero_fits sp
  · exact decide_eq_false (Nat.not_lt.mpr (hfits k hpos hk))

theorem buildTable_ok (hv : sp.Valid) : buildTable c t sp s = .ok () (s.putTable c t sp.build) := by
  rw [buildTable_eq, if_neg (Nat.not_lt.mpr hv.total), oversubscribed_of_valid sp hv, if_neg (not_not.mpr rfl)]

theorem buildTable_oversubscribed (htotal : sp.total ≤ 256) (hover : sp.oversubscribed = some l) :
    buildTable c t sp s = .error ⟨.huffOversubscribed, wordN l⟩ s := by
  rw [buildTable_eq, if_neg (Nat.not_lt.mpr htotal), hover, if_pos (Option.some_ne_none l)]
  rfl

end

/-! ## The builtin tables (R202, R203) -/

theorem stdDcLum_valid : stdDcLum.Valid :=
  ⟨rfl, by decide, by decide, fun l h1 h16 => by interval_cases l <;> decide⟩

theorem stdAcLum_valid : stdAcLum.Valid :=
  ⟨rfl, by decide, by decide +kernel, fun l h1 h16 => by interval_cases l <;> decide⟩

theorem stdDcChr_valid : stdDcChr.Valid :=
  ⟨rfl, by decide, by decide, fun l h1 h16 => by interval_cases l <;> decide⟩

theorem stdAcChr_valid : stdAcChr.Valid :=
  ⟨rfl, by decide, by decide +kernel, fun l h1 h16 => by interval_cases l <;> decide⟩

theorem loadStd_ok (s : State) :
    loadStd s = .ok () { s with
      ht := (((s.ht.set 0 stdDcLum.build).set 4 stdAcLum.build).set 1 stdDcChr.build).set 5 stdAcChr.build
      htValid := s.htValid ||| 0x33 } := by
  have hvalid : s.htValid ||| 1#8 <<< 0 ||| 1#8 <<< 4 ||| 1#8 <<< 1 ||| 1#8 <<< 5 = s.htValid ||| 0x33 := by
    rw [BitVec.or_assoc, BitVec.or_assoc, BitVec.or_assoc]
    rfl
  rw [loadStd, exec_ok_bind (buildTable_ok stdDcLum_valid), exec_ok_bind (buildTable_ok stdAcLum_valid),
    exec_ok_bind (buildTable_ok stdDcChr_valid), buildTable_ok stdAcChr_valid, ← hvalid]
  rfl

/-! ## The commands and their checks -/

section
variable {s : State} {tc th : BitVec 4}

theorem exec_hufBuild (htc : tc.toNat ≤ 1) (hth : th.toNat ≤ 3) :
    exec (.hufBuild tc th) s = runCmd 0x20 (buildTable tc.toNat th.toNat s.hspecSpec) s := by
  rw [exec, execHufBuild, runCmd_checkSelector, if_neg (by omega), runCmd_look]

theorem hspecSpec_counts (s : State) : s.hspecSpec.counts.length = 16 := Cells.length_getRange ..

/-- HUF.DEC, HUF.ENC and HUF.ENCVAL with a selector out of range. -/
theorem exec_huff_badSelector (h : 1 < tc.toNat ∨ 3 < th.toNat) :
    exec (.hufDec tc th) s = .next (enterFault 0x21 ⟨.badArgument, selectorImm tc th⟩ s) ∧
    exec (.hufEnc tc th) s = .next (enterFault 0x22 ⟨.badArgument, selectorImm tc th⟩ s) ∧
    exec (.hufEncval tc th) s = .next (enterFault 0x23 ⟨.badArgument, selectorImm tc th⟩ s) := by
  refine ⟨?_, ?_, ?_⟩
  · rw [exec, execHufDec, runCmd_checkSelector, if_pos h]
  · rw [exec, execHufEnc, runCmd_look, runCmd_check, if_pos (by omega)]
  · rw [exec, execHufEncval, runCmd_checkSelector, if_pos h]

theorem exec_hufEnc_badSymbol (h : 255 < s.arg0.toNat) :
    exec (.hufEnc tc th) s = .next (enterFault 0x22 ⟨.badArgument, selectorImm tc th⟩ s) := by
  rw [exec, execHufEnc, runCmd_look, runCmd_check, if_pos (.inr (.inr h))]

/-- HUF.DEC, HUF.ENC and HUF.ENCVAL with a table that was not built. -/
theorem exec_huff_unbuilt (htc : tc.toNat ≤ 1) (hth : th.toNat ≤ 3) (h : s.htBuilt tc.toNat th.toNat = false) :
    exec (.hufDec tc th) s = .next (enterFault 0x21 ⟨.tableNotDefined, selectorImm tc th⟩ s) ∧
    (s.arg0.toNat ≤ 255 →
      exec (.hufEnc tc th) s = .next (enterFault 0x22 ⟨.tableNotDefined, selectorImm tc th⟩ s)) ∧
    exec (.hufEncval tc th) s = .next (enterFault 0x23 ⟨.tableNotDefined, selectorImm tc th⟩ s) := by
  refine ⟨?_, fun harg => ?_, ?_⟩
  · rw [exec, execHufDec, runCmd_checkSelector, if_neg (by omega), runCmd_checkBuilt, if_pos h]
  · rw [exec, execHufEnc, runCmd_look, runCmd_check, if_neg (by omega), runCmd_checkBuilt, if_pos h]
  · rw [exec, execHufEncval, runCmd_checkSelector, if_neg (by omega), runCmd_checkBuilt, if_pos h]

end

/-- Settles O24: HUF.BUILD by the checks of `buildTable` in their order, HUF.LOADSTD by its four tables. -/
theorem huffBuildAndLoadstd : Obligations.HuffBuildAndLoadstd := by
  unfold Obligations.HuffBuildAndLoadstd
  refine ⟨fun tc th s => ⟨fun hsel => ?_, fun htc hth hbig => ?_, fun l htc hth htotal h1 h16 hover hfits => ?_,
      fun htc hth hv => ?_⟩, fun s tc th => ⟨exec_huff_badSelector, exec_hufEnc_badSymbol, exec_huff_unbuilt⟩,
    ⟨stdDcLum_valid, stdAcLum_valid, stdDcChr_valid, stdAcChr_valid⟩, fun s => runCmd_ok (opc := 0x24) (loadStd_ok s)⟩
  · rw [exec, execHufBuild, runCmd_checkSelector, if_pos hsel, selectorImm]
  · rw [exec_hufBuild htc hth]
    exact runCmd_error (by rw [buildTable_eq, if_pos hbig])
  · rw [exec_hufBuild htc hth]
    exact runCmd_error
      (buildTable_oversubscribed htotal (oversubscribed_of_first (hspecSpec_counts s) h1 h16 hover hfits))
  · rw [exec_hufBuild htc hth]
    exact runCmd_ok (buildTable_ok hv)

end Sys2Proof.Machine
end

