-- ==== Sys2Proof/Proofs/HuffmanRoundTrip.lean ====
section
/-! PROOFS. The round trip of a symbol: a code that was written and flushed stands in OUT as whole stuffed bytes, and a
reader over those bytes has its bits next (41_huffman.md R199). -/

namespace Sys2Proof.Machine

open Sys2Proof

/-! ## Whole bytes there and back (40_bitcursor.md R160, R170) -/

theorem stuffed_singleton (b : Byte) : stuffed [b] = if b = 0xFF then [0xFF, 0x00] else [b] :=
  List.flatMap_singleton ..

theorem unstuffed_stuffed (bs : List Byte) : unstuffed (stuffed bs) = bs := by
  induction bs with
  | nil => rfl
  | cons b bs ih =>
    rw [stuffed_cons]
    by_cases hff : b = 0xFF
    · subst hff
      exact (unstuffed_ff_zero (stuffed bs)).trans (congrArg _ ih)
    · rw [stuffed_singleton, if_neg hff, List.singleton_append, unstuffed_cons hff, ih]

theorem length_stuffed_le (bs : List Byte) : (stuffed bs).length ≤ 2 * bs.length := by
  induction bs with
  | nil => exact le_rfl
  | cons b bs ih =>
    have hone : (stuffed [b]).length ≤ 2 := by
      rw [stuffed_singleton]
      split
      · exact le_rfl
      · exact Nat.le_succ 1
    rw [stuffed_cons, List.length_append, List.length_cons]
    omega

theorem length_wholeBytes (bits : List Bool) : (wholeBytes bits).length = bits.length / 8 := by
  rw [wholeBytes, List.length_map, List.length_range]

/-- The bits of the whole bytes are the bits they were made of. -/
theorem bits_wholeBytes {n : Nat} {bits : List Bool} (h : bits.length = 8 * n) :
    (wholeBytes bits).flatMap (fun b => bitsMsb 8 b.toNat) = bits := by
  induction n generalizing bits with
  | zero =>
    obtain rfl := List.eq_nil_of_length_eq_zero h
    rfl
  | succ n ih =>
    have hbyte : (bits.take 8).length = 8 := List.length_take_of_le (by omega)
    have hlt := ofBits_lt (bits.take 8)
    have hback := bitsMsb_ofBits (bits.take 8)
    rw [hbyte] at hlt hback
    rw [← List.take_append_drop 8 bits, wholeBytes_append hbyte, List.flatMap_cons, BitVec.toNat_ofNat,
      Nat.mod_eq_of_lt hlt, hback, ih (by rw [List.length_drop]; omega)]

/-! ## Bytes in OUT -/

section
variable {s t : State} {as bs : List Byte}

theorem appended_complete (bs : List Byte) : s.complete.appended bs = (s.appended bs).complete := by
  induction bs generalizing s with
  | nil => rfl
  | cons b bs ih => exact ih (s := s.appendOut b)

theorem get_appended (hwf : s.mem.out.wf) (hlen : s.outLen.toNat + bs.length < 2 ^ 32) (a : Nat) :
    Cells.get (s.appended bs).mem.out a =
      if s.outLen.toNat ≤ a ∧ a < s.outLen.toNat + bs.length then byteAt bs (a - s.outLen.toNat)
      else Cells.get s.mem.out a := by
  induction bs generalizing s with
  | nil => rw [if_neg (by rw [List.length_nil]; omega)]; rfl
  | cons b bs ih =>
    rw [List.length_cons] at hlen ⊢
    have hnext : (s.appendOut b).outLen.toNat = s.outLen.toNat + 1 := by
      rw [appendOut_outLen, BitVec.toNat_add]
      exact Nat.mod_eq_of_lt (show s.outLen.toNat + 1 < 2 ^ 32 by omega)
    have hout : (s.appendOut b).mem.out = Cells.set s.mem.out s.outLen.toNat b := rfl
    rw [appended_cons, ih (hout ▸ Cells.wf_set hwf _ _) (by omega), hnext, hout, Cells.get_set _ _ _ _ hwf]
    rcases Nat.lt_trichotomy a s.outLen.toNat with hlt | rfl | hgt
    · rw [if_neg (by omega), if_neg hlt.ne, if_neg (by omega)]
    · rw [if_neg (by omega), if_pos rfl, if_pos (by omega), Nat.sub_self]
      rfl
    · by_cases hin : a < s.outLen.toNat + (bs.length + 1)
      · rw [if_pos (by omega), if_pos (by omega),
          show a - s.outLen.toNat = a - (s.outLen.toNat + 1) + 1 by omega]
        rfl
      · rw [if_neg (by omega), if_neg hgt.ne', if_neg (by omega)]

theorem toNat_appended_outLen (hlen : s.outLen.toNat + bs.length < 2 ^ 32) :
    (s.appended bs).outLen.toNat = s.outLen.toNat + bs.length := by
  rw [appended_outLen, BitVec.toNat_add, wordN, BitVec.toNat_ofNat, Nat.add_mod_mod, Nat.mod_eq_of_lt hlen]

end

/-- The ones that fill the last byte of `n` bits (R172). -/
def flushPad (n : Nat) : List Bool := List.replicate ((8 - n % 8) % 8) true

theorem length_append_flushPad (bits : List Bool) :
    (bits ++ flushPad bits.length).length = 8 * ((bits ++ flushPad bits.length).length / 8) ∧
    (bits ++ flushPad bits.length).length < bits.length + 8 := by
  rw [flushPad, List.length_append, List.length_replicate]
  omega

section
variable {s t r : State} {bits : List Bool} {bs : List Byte}

theorem emitted_of_empty (h : s.bwNbits = 0) (bits : List Bool) : s.emitted bits = stuffed (wholeBytes bits) := by
  rw [State.emitted, State.writerBits, h]
  rfl

/-- BW.FLUSH after bits that went into an empty writer: all of them are in OUT, the last byte filled with ones. -/
theorem exec_bwFlush_of_emits (hempty : s.bwNbits = 0) (h : s.Emits bits t)
    (hroom : s.RoomFor (s.emitted (bits ++ flushPad bits.length))) :
    ∃ u, exec .bwFlush t.complete = .next u ∧
      u.outLen = (s.appended (s.emitted (bits ++ flushPad bits.length))).outLen ∧
      u.mem.out = (s.appended (s.emitted (bits ++ flushPad bits.length))).mem.out := by
  have hpad : flushPad bits.length = List.replicate ((8 - t.complete.bwNbits) % 8) true := by
    obtain ⟨hnb, -, -⟩ := h
    replace hnb : t.complete.bwNbits = (s.writerBits ++ bits).length % 8 := hnb
    rw [flushPad, hnb, State.writerBits, hempty]
    rfl
  have hflush : t.complete.RoomFor (t.complete.emitted (flushPad bits.length)) := h.roomFor hroom
  have happ : t.complete.appended (t.complete.emitted (flushPad bits.length)) = _ :=
    (appended_complete _).trans (congrArg State.complete (h.appended_emitted (flushPad bits.length)))
  rw [hpad] at hflush
  refine ⟨_, runCmd_ok (flushBits_ok h.bwNbits_le hflush), ?_⟩
  rw [← hpad, happ]
  exact ⟨rfl, rfl⟩

/-- A reader with nothing buffered, over exactly the stuffed bytes `bs`. -/
theorem pendingBits_of_reads_stuffed (hnb : r.bcNbits = 0) (hreads : r.Reads (stuffed bs))
    (hend : r.inPos.toNat + (stuffed bs).length = r.inLen.toNat) :
    r.pendingBits = bs.flatMap fun b => bitsMsb 8 b.toNat := by
  have hdata : r.dataBytes = bs := by
    rw [State.dataBytes, ← hend, Nat.add_sub_cancel_left, inBytes_of_reads hreads, unstuffed_stuffed]
  rw [pendingBits_eq, hnb, hdata]
  rfl

/-- At most 16 bits take at most 4 bytes of OUT. -/
theorem length_emitted_flushed (hempty : s.bwNbits = 0) (h16 : bits.length ≤ 16) :
    (s.emitted (bits ++ flushPad bits.length)).length ≤ 4 := by
  obtain ⟨-, hshort⟩ := length_append_flushPad bits
  rw [emitted_of_empty hempty]
  refine (length_stuffed_le _).trans ?_
  rw [length_wholeBytes]
  omega

/-- After bits that went into an empty writer and BW.FLUSH, a reader over exactly the bytes written has them next. -/
theorem exec_bwFlush_bits_next (hempty : s.bwNbits = 0) (h : s.Emits bits t) (h16 : bits.length ≤ 16)
    (hwf : s.mem.out.wf) (hcap : s.outLen.toNat + 8 ≤ s.caps.outCap) (hlen : s.outLen.toNat + 8 < 2 ^ 32) :
    ∃ u, exec .bwFlush t.complete = .next u ∧
      ∀ r : State, r.bcNbits = 0 → r.inPos.toNat + (u.outLen.toNat - s.outLen.toNat) = r.inLen.toNat →
        (∀ i : Nat, i < u.outLen.toNat - s.outLen.toNat →
          r.byteIn i = Cells.get u.mem.out (s.outLen.toNat + i)) →
        bits <+: r.pendingBits := by
  have hfour := length_emitted_flushed hempty h16
  have hroom : s.RoomFor (s.emitted (bits ++ flushPad bits.length)) := by
    rw [State.RoomFor]
    omega
  obtain ⟨u, hu, hulen, huout⟩ := exec_bwFlush_of_emits hempty h hroom
  have hout := toNat_appended_outLen (s := s) (bs := s.emitted (bits ++ flushPad bits.length)) (by omega)
  rw [← hulen] at hout
  refine ⟨u, hu, fun r hnb hend hbytes => ?_⟩
  rw [hout, Nat.add_sub_cancel_left] at hend hbytes
  have hreads : r.Reads (s.emitted (bits ++ flushPad bits.length)) := by
    refine ⟨hend.le, fun i hi => ?_⟩
    rw [hbytes i hi, huout, get_appended hwf (by omega), if_pos (by omega), Nat.add_sub_cancel_left]
  rw [emitted_of_empty hempty] at hreads hend
  rw [pendingBits_of_reads_stuffed hnb hreads hend, bits_wholeBytes (length_append_flushPad bits).1]
  exact List.prefix_append ..

end

/-! ## The symbol -/

/-- Settles O28: the bits that HUF.DEC finds are the code that HUF.ENC wrote, then the ones of BW.FLUSH. -/
theorem huffRoundTrip : Obligations.HuffRoundTrip := by
  unfold Obligations.HuffRoundTrip
  intro s tc th sp v htc hth hbuilt htable hv hsize harg hempty hwf hcap hlen32
  obtain ⟨l, j, hencodes⟩ := exists_encodes_of_sizeAt hv hsize
  have h16 : (bitsMsb l (sp.firstCode l + j)).length ≤ 16 := (length_bitsMsb ..).trans_le hencodes.hasCode.len_le
  have hfour := length_emitted_flushed hempty h16
  have hroom : s.RoomFor (s.emitted (bitsMsb l (sp.firstCode l + j))) := by
    refine roomFor_emitted_left (bs := flushPad (bitsMsb l (sp.firstCode l + j)).length) ?_
    rw [State.RoomFor]
    omega
  obtain ⟨t, ht, hemits⟩ := huffEncode_ok hv hencodes (by omega) hroom
  obtain ⟨u, hu, hnext⟩ := exec_bwFlush_bits_next hempty hemits h16 hwf hcap hlen32
  refine ⟨t.complete, u, ?_, hu, fun r hht hhtv hnb hend hbytes => ?_⟩
  · rw [exec_hufEnc htc hth hbuilt harg, htable]
    exact runCmd_ok ht
  have hrbuilt : r.htBuilt tc.toNat th.toNat = true := by rwa [State.htBuilt, hhtv]
  have hrtable : r.table tc.toNat th.toNat = sp.build := by rw [← htable, State.table, State.table, hht]
  obtain ⟨q, hq, hcons⟩ :=
    exec_hufDec_ok htc hth hrbuilt hrtable hv hencodes.hasCode (by omega) (hnext r hnb hend hbytes)
  exact ⟨_, hq, rfl, rfl, (congrArg (fun w : State => w.status.fault) hcons.frame :)⟩

end Sys2Proof.Machine
end

