-- ==== Sys2Proof/Proofs/BlockBuffer.lean ====
section
/-! PROOFS. The commands on the whole block buffer: what BLK and ZZ read after a block is stored or cleared, and BLK.LEVEL
(42_dct.md R220, R227, R232). -/

namespace Sys2Proof.Machine

open Sys2Proof

/-! ## A block read and stored (R220) -/

section
variable (s : State) {b : List Word} {i : Nat}

@[simp] theorem length_blkList : s.blkList.length = 64 := Cells.length_getRange ..

theorem entry_blkList (hi : i < 64) : entry s.blkList i = Cells.get s.mem.blk i := by
  rw [entry, State.blkList, Cells.getD_getRange, if_pos hi, Nat.zero_add]

theorem get_setBlk (hb : b.length = 64) :
    Cells.get (s.setBlk b).mem.blk i = if i < 64 then entry b i else Cells.get s.mem.blk i := by
  rw [State.setBlk_mem, Cells.get_setRange, hb]
  simp [entry]

/-- A command that stores a block completes, and changes BLK alone. -/
theorem runCmd_setBlk (opc : Byte) (f : State → List Word) :
    ∃ t, runCmd opc (alter fun s => s.setBlk (f s)) s = .next t ∧
      t = { s with mem := { s.mem with blk := t.mem.blk }, status := { s.status with done := true } } ∧
      t.mem.blk = (s.setBlk (f s)).mem.blk :=
  ⟨_, rfl, rfl, rfl⟩

end

/-- A space of which one half of BLK.CLEAR's mask clears the first 64 elements (R232). -/
theorem get_ite_clearRange (c : Bool) (m : Cells 32) (i : Nat) :
    Cells.get (if c then Cells.clearRange m 0 64 else m) i = if c = true ∧ i < 64 then 0 else Cells.get m i := by
  cases c with
  | false => simp
  | true => simp [Cells.get_clearRange]

/-! ## BLK.LEVEL (R227) -/

theorem entry_map_levelEntry {b : List Word} {i : Nat} (hi : i < b.length) :
    entry (b.map levelEntry) i = levelEntry (entry b i) := by
  simp [entry, hi]

/-- Settles O30: the command stores `levelEntry` of every entry of BLK. -/
theorem blockLevel : Obligations.BlockLevel := by
  unfold Obligations.BlockLevel
  refine ⟨by decide, fun s => ?_⟩
  obtain ⟨t, ht, hframe, hblk⟩ := runCmd_setBlk s 0x32 fun s => s.blkList.map levelEntry
  refine ⟨t, ht, hframe, fun i => ?_⟩
  rw [hblk, get_setBlk s (by simp)]
  by_cases hi : i < 64
  · rw [if_pos hi, if_neg (Nat.not_le.mpr hi), entry_map_levelEntry (by simpa using hi), entry_blkList s hi]
    rfl
  · rw [if_neg hi, if_pos (Nat.not_lt.mp hi)]

end Sys2Proof.Machine
end

