-- ==== Sys2Proof/Proofs/BlockTransform.lean ====
section
/-! PROOFS. DCT.INV and DCT.FWD: each pass as a function of a line's entries, both passes entry by entry, and the blocks
whose transform has few different entries (42_dct.md R220 to R233). -/

namespace Sys2Proof.Machine

open Sys2Proof

/-! ## Two passes over a block (R220, R221, R228) -/

/-- The line with entries `x 0` to `x 7`. -/
def lineOf (x : Nat → Word) : Line := ⟨x 0, x 1, x 2, x 3, x 4, x 5, x 6, x 7⟩

/-- Entry `k` of the pass `f` over the line with entries `x` is `F x k`. -/
def Computes (f : Line → Line) (F : (Nat → Word) → Nat → Word) : Prop :=
  ∀ (x : Nat → Word) (k : Nat), k < 8 → entry (f (lineOf x)).toList k = F x k

theorem lineOf_congr {x x' : Nat → Word} (h : ∀ i : Nat, i < 8 → x i = x' i) : lineOf x = lineOf x' := by
  simp [lineOf, h]

theorem rowAt_eq_lineOf (b : List Word) (y : Nat) : rowAt b y = lineOf fun c => entry b (8 * y + c) := rfl

theorem colAt_eq_lineOf (b : List Word) (x : Nat) : colAt b x = lineOf fun r => entry b (8 * r + x) := by
  simp [colAt, lineOf]

section
variable {f g : Line → Line} {F G : (Nat → Word) → Nat → Word} {b : List Word} {m : Nat → Word} {y x : Nat}

theorem entry_flatMap_range {n : Nat} {rows : Nat → List Word} (hrows : ∀ y, (rows y).length = 8) (hy : y < n)
    (hx : x < 8) : entry ((List.range n).flatMap rows) (8 * y + x) = entry (rows y) x := by
  induction n with
  | zero => omega
  | succ n ih =>
    have hlen : ((List.range n).flatMap rows).length = 8 * n := by simp [hrows, Nat.mul_comm]
    rw [List.range_succ, List.flatMap_append, List.flatMap_singleton, entry]
    rcases Nat.lt_succ_iff_lt_or_eq.mp hy with hlt | rfl
    · rw [List.getD_append _ _ _ _ (by omega)]
      exact ih hlt
    · rw [List.getD_append_right _ _ _ _ (by omega), hlen, Nat.add_sub_cancel_left, entry]

theorem entry_mapRows (hy : y < 8) (hx : x < 8) :
    entry (mapRows f b) (8 * y + x) = entry (f (rowAt b y)).toList x :=
  entry_flatMap_range (fun _ => rfl) hy hx

theorem entry_mapCols (hy : y < 8) (hx : x < 8) :
    entry (mapCols f b) (8 * y + x) = entry (f (colAt b x)).toList y := by
  rw [mapCols, entry_flatMap_range (fun _ => by simp) hy hx]
  simp [entry, hx]

@[simp] theorem length_mapCols : (mapCols f b).length = 64 := by simp [mapCols]

/-- A row pass and then a column pass, entry by entry, over the block with entries `m`. -/
theorem entry_mapCols_mapRows (hf : Computes f F) (hg : Computes g G) (hm : ∀ i : Nat, i < 64 → entry b i = m i)
    (hy : y < 8) (hx : x < 8) :
    entry (mapCols g (mapRows f b)) (8 * y + x) = G (fun r => F (fun c => m (8 * r + c)) x) y := by
  have hrow (r : Nat) (hr : r < 8) : rowAt b r = lineOf fun c => m (8 * r + c) :=
    lineOf_congr fun c _ => hm (8 * r + c) (by omega)
  have hcol : colAt (mapRows f b) x = lineOf fun r => F (fun c => m (8 * r + c)) x := by
    refine (colAt_eq_lineOf ..).trans (lineOf_congr fun r hr => ?_)
    rw [entry_mapRows hr hx, hrow r hr, hf _ x hx]
  rw [entry_mapCols hy hx, hcol, hg _ y hy]

/-- A command that makes both passes over BLK. -/
theorem runCmd_passes (hf : Computes f F) (hg : Computes g G) (opc : Byte) (s : State) :
    ∃ t, runCmd opc (alter fun s => s.setBlk (mapCols g (mapRows f s.blkList))) s = .next t ∧
      t = { s with mem := { s.mem with blk := t.mem.blk }, status := { s.status with done := true } } ∧
      (∀ i : Nat, 64 ≤ i → Cells.get t.mem.blk i = Cells.get s.mem.blk i) ∧
      ∀ y x : Nat, y < 8 → x < 8 →
        Cells.get t.mem.blk (8 * y + x) = G (fun r => F (fun c => Cells.get s.mem.blk (8 * r + c)) x) y := by
  obtain ⟨t, ht, hframe, hblk⟩ := runCmd_setBlk s opc fun s => mapCols g (mapRows f s.blkList)
  refine ⟨t, ht, hframe, fun i hi => ?_, fun y x hy hx => ?_⟩
  · rw [hblk, get_setBlk s length_mapCols, if_neg (Nat.not_lt.mpr hi)]
  · rw [hblk, get_setBlk s length_mapCols, if_pos (by omega)]
    exact entry_mapCols_mapRows hf hg (fun i hi => entry_blkList s hi) hy hx

end

/-! ## The inverse passes (R223 to R225) -/

/-! A rotation takes three products; multiplied out it takes four, as the statement has it. -/

section
variable (a b c d : Word)

theorem rotation_add : c * (a + b) + (d - c) * a = d * a + c * b := by ring

theorem rotation_add_comm : c * (a + b) - (c - d) * a = c * b + d * a := by ring

theorem rotation_sub : c * (a + b) - (d + c) * b = c * a - d * b := by ring

theorem rotation_sub_comm : c * (a + b) - (c + d) * b = c * a - d * b := by ring

end

theorem forall_pos_lt_eight {p : Nat → Prop} :
    (∀ i : Nat, i < 8 → 1 ≤ i → p i) ↔ p 1 ∧ p 2 ∧ p 3 ∧ p 4 ∧ p 5 ∧ p 6 ∧ p 7 := by
  refine ⟨fun h => by simp [h], fun ⟨h1, h2, h3, h4, h5, h6, h7⟩ i hlt hpos => ?_⟩
  interval_cases i <;> assumption

section
variable {b x x' : Nat → Word} {y k : Nat}

/-- The short-circuit of R223. -/
theorem inverseRow_of_zeros (h : ∀ i : Nat, i < 8 → 1 ≤ i → x i = 0) : inverseRow x k = x 0 <<< (3 : Nat) := if_pos h

theorem computes_idctRow : Computes idctRow inverseRow := by
  intro x k hk
  by_cases hzeros : ∀ i : Nat, i < 8 → 1 ≤ i → x i = 0
  · have hshort : idctRow (lineOf x) = lineOf fun _ => x 0 <<< (3 : Nat) := if_pos (forall_pos_lt_eight.mp hzeros)
    rw [hshort, inverseRow_of_zeros hzeros]
    interval_cases k <;> rfl
  · have hfull : idctRow (lineOf x) = idctRowButterfly (lineOf x) := if_neg (mt forall_pos_lt_eight.mpr hzeros)
    rw [hfull, inverseRow, if_neg hzeros]
    simp only [idctRowButterfly, lineOf, rotation_add, rotation_add_comm, rotation_sub, rotation_sub_comm]
    interval_cases k <;> rfl

/-- The column pass rounds inside its rotations, by a 4 that goes last here. -/
theorem computes_idctCol : Computes idctCol inverseCol := by
  intro x k hk
  simp only [idctCol, lineOf, add_right_comm _ (4 : Word), add_sub_right_comm _ (4 : Word), rotation_add,
    rotation_add_comm, rotation_sub, rotation_sub_comm]
  interval_cases k <;> rfl

theorem inverseCol_congr (h : ∀ i : Nat, i < 8 → x i = x' i) : inverseCol x k = inverseCol x' k := by
  simp [inverseCol, h]

/-! ## Blocks with one entry, one row or one column (R226) -/

theorem inverseCol_of_zeros (h : ∀ i : Nat, i < 8 → 1 ≤ i → x i = 0) :
    inverseCol x k = ((x 0 <<< (8 : Nat)) + 8192).sshiftRight 14 := by
  obtain ⟨h1, h2, h3, h4, h5, h6, h7⟩ := forall_pos_lt_eight.mp h
  simp [inverseCol, inverseOut, inverseEven, inverseOdd, h1, h2, h3, h4, h5, h6, h7]

theorem inverseAt_of_first_row (h : ∀ i : Nat, 8 ≤ i → i < 64 → b i = 0) :
    inverseAt b y k = ((inverseRow b k <<< (8 : Nat)) + 8192).sshiftRight 14 := by
  have hzero (r : Nat) (hr : r < 8) (hpos : 1 ≤ r) : inverseRow (fun c => b (8 * r + c)) k = 0 := by
    have hentry (c : Nat) (hc : c < 8) : b (8 * r + c) = 0 := h _ (by omega) (by omega)
    rw [inverseRow_of_zeros fun c hc _ => hentry c hc, hentry 0 (by decide)]
    rfl
  rw [inverseAt, inverseCol_of_zeros hzero]
  simp only [Nat.mul_zero, Nat.zero_add]

theorem inverseAt_of_first_column (h : ∀ r c : Nat, r < 8 → 1 ≤ c → c < 8 → b (8 * r + c) = 0) :
    inverseAt b y k = inverseCol (fun r => b (8 * r) <<< (3 : Nat)) y :=
  inverseCol_congr fun r hr => inverseRow_of_zeros fun c hc hpos => h r c hr hpos hc

end

theorem toInt_word_sshiftRight {z : Int} (hlo : -2 ^ 31 ≤ z) (hhi : z < 2 ^ 31) (n : Nat) :
    ((word z).sshiftRight n).toInt = z / 2 ^ n := by
  rw [BitVec.toInt_sshiftRight, word, BitVec.toInt_ofInt_eq_self (by decide) hlo hhi, Int.shiftRight_eq_div_pow]
  norm_cast

theorem toInt_flat_sample {d : Word} (h : d.toInt.natAbs < 2 ^ 19) :
    ((((d <<< (3 : Nat)) <<< (8 : Nat)) + 8192).sshiftRight 14).toInt = (d.toInt + 4) / 8 := by
  have hshift : (d <<< (3 : Nat)) <<< (8 : Nat) = 2048 * d := by
    rw [← BitVec.shiftLeft_add, BitVec.shiftLeft_eq_mul_twoPow]
    exact mul_comm ..
  have hword : 2048 * d + 8192 = word (2048 * d.toInt + 8192) := by
    rw [word, BitVec.ofInt_add, BitVec.ofInt_mul, BitVec.ofInt_toInt]
    rfl
  rw [hshift, hword, toInt_word_sshiftRight (by omega) (by omega)]
  omega

/-! ## The forward passes (R230, R231) -/

section
variable (a b c d e f g h i j n : Word)

theorem sum_mirrored_add : a + h + (d + e) + (b + g + (c + f)) = a + b + c + d + e + f + g + h := by ring

theorem sum_mirrored_sub : a + h + (d + e) - (b + g + (c + f)) = a + d + e + h - (b + c + f + g) := by ring

theorem even_rotation_add : (a + b) * c + n + a * d = (c + d) * a + c * b + n := by ring

theorem even_rotation_sub : (a + b) * c + n - b * d = c * a - (d - c) * b + n := by ring

theorem odd_rotation : a * d + b * -e + (c * -f + ((g + i + (h + j)) * n + k)) =
    d * a - e * b - f * c + (n * (g + h + i + j) + k) := by ring

end

theorem computes_fdctRow : Computes fdctRow forwardRow := by
  intro x k hk
  simp only [fdctRow, lineOf, sum_mirrored_add, sum_mirrored_sub, even_rotation_add, even_rotation_sub, odd_rotation]
  interval_cases k <;> rfl

/-- The column pass rounds its even outputs by a 2 that goes last here. -/
theorem computes_fdctCol : Computes fdctCol forwardCol := by
  intro x k hk
  simp only [fdctCol, lineOf, add_right_comm _ (2 : Word), add_sub_right_comm _ (2 : Word), sum_mirrored_add,
    sum_mirrored_sub, even_rotation_add, even_rotation_sub, odd_rotation]
  interval_cases k <;> rfl

/-! ## Flat blocks (R233) -/

section
variable {b x x' : Nat → Word} {c n : Word} {v u k sh : Nat}

theorem forwardRow_congr (h : ∀ i : Nat, i < 8 → x i = x' i) : forwardRow x k = forwardRow x' k := by
  simp [forwardRow, forwardEven, forwardAc, h]

theorem forwardCol_congr (h : ∀ i : Nat, i < 8 → x i = x' i) : forwardCol x k = forwardCol x' k := by
  simp [forwardCol, forwardEven, forwardAc, h]

theorem forwardAc_const (h : n.sshiftRight sh = 0) : forwardAc n sh (fun _ => c) k = 0 := by
  simp [forwardAc, h]

theorem forwardEven_const : forwardEven (fun _ => c) k = if k = 0 then 8 * c else 0 := by
  rw [forwardEven]
  split_ifs <;> ring

theorem forwardRow_const : forwardRow (fun _ => c) k = if k = 0 then (8 * c - 1024) <<< (2 : Nat) else 0 := by
  rw [forwardRow, forwardAc_const (by decide), forwardEven_const, forwardEven_const]
  by_cases hk : k = 0 <;> simp [hk]

theorem forwardCol_const : forwardCol (fun _ => c) k = if k = 0 then (8 * c + 2).sshiftRight 2 else 0 := by
  rw [forwardCol, forwardAc_const (by decide), forwardEven_const]
  by_cases hk : k = 0 <;> simp [hk]

theorem forwardAt_of_flat (h : ∀ i : Nat, i < 64 → b i = c) :
    forwardAt b v u = if v = 0 ∧ u = 0 then (8 * ((8 * c - 1024) <<< (2 : Nat)) + 2).sshiftRight 2 else 0 := by
  have hrow (r : Nat) (hr : r < 8) :
      forwardRow (fun i => b (8 * r + i)) u = if u = 0 then (8 * c - 1024) <<< (2 : Nat) else 0 :=
    (forwardRow_congr fun i hi => h _ (by omega)).trans forwardRow_const
  rw [forwardAt, forwardCol_congr hrow, forwardCol_const]
  by_cases hv : v = 0 <;> by_cases hu : u = 0 <;> simp [hv, hu]

end

theorem toInt_flat_coefficient {v : Nat} (hv : v < 256) :
    ((8 * ((8 * wordN v - 1024) <<< (2 : Nat)) + 2).sshiftRight 2).toInt = 64 * ((v : Int) - 128) := by
  have hshift : (8 * wordN v - 1024) <<< (2 : Nat) = (8 * wordN v - 1024) * 4 := BitVec.shiftLeft_eq_mul_twoPow ..
  have hminus : BitVec.ofInt 32 (-128) = -(128 : Word) := by decide
  have hword : word (256 * ((v : Int) - 128) + 2) = 256 * (wordN v + -128) + 2 := by
    rw [word, Int.sub_eq_add_neg, BitVec.ofInt_add, BitVec.ofInt_mul, BitVec.ofInt_add, BitVec.ofInt_natCast, hminus]
    rfl
  have hsum : 8 * ((8 * wordN v - 1024) * 4) + 2 = 256 * (wordN v + -128) + 2 := by ring
  rw [hshift, hsum, ← hword, toInt_word_sshiftRight (by omega) (by omega)]
  omega

/-! ## The commands -/

/-- Settles O29: each transform is its two passes; in R226 and R233 the passes see lines that are zero beyond their first
entry, or constant. -/
theorem transformAndClear : Obligations.TransformAndClear := by
  unfold Obligations.TransformAndClear
  refine ⟨fun s => ⟨?_, ?_⟩, fun m s => ⟨_, rfl, rfl, get_ite_clearRange _ _, get_ite_clearRange _ _⟩⟩
  · obtain ⟨t, ht, hframe, hkeep, hpasses⟩ := runCmd_passes computes_idctRow computes_idctCol 0x30 s
    have hval : ∀ y x : Nat, y < 8 → x < 8 →
        Cells.get t.mem.blk (8 * y + x) = inverseAt (Cells.get s.mem.blk) y x := hpasses
    refine ⟨t, ht, hframe, hkeep, hval, fun hdc hsmall i hi => ?_, fun hrow y x hy hx => ?_, fun hcol y x hy hx => ?_⟩
    · have hi' := hval (i / 8) (i % 8) (by omega) (by omega)
      rw [Nat.div_add_mod, inverseAt_of_first_row fun j hj => hdc j (by omega),
        inverseRow_of_zeros fun j hj hpos => hdc j hpos (by omega)] at hi'
      rw [hi', toInt_flat_sample hsmall]
    · have htop := hval 0 x (by decide) hx
      rw [Nat.mul_zero, Nat.zero_add, inverseAt_of_first_row hrow] at htop
      rw [hval y x hy hx, htop, inverseAt_of_first_row hrow]
    · have hleft := hval y 0 hy (by decide)
      rw [Nat.add_zero, inverseAt_of_first_column hcol] at hleft
      rw [hval y x hy hx, hleft, inverseAt_of_first_column hcol]
  · obtain ⟨t, ht, hframe, hkeep, hpasses⟩ := runCmd_passes computes_fdctRow computes_fdctCol 0x31 s
    have hval : ∀ v u : Nat, v < 8 → u < 8 →
        Cells.get t.mem.blk (8 * v + u) = forwardAt (Cells.get s.mem.blk) v u := hpasses
    refine ⟨t, ht, hframe, hkeep, hval, fun v hv hflat i hi => ?_⟩
    have hi' := hval (i / 8) (i % 8) (by omega) (by omega)
    rw [Nat.div_add_mod, forwardAt_of_flat hflat] at hi'
    rw [hi']
    by_cases hzero : i = 0
    · rw [if_pos (by omega), if_pos hzero, toInt_flat_coefficient hv]
    · rw [if_neg (by omega), if_neg hzero]
      rfl

end Sys2Proof.Machine
end

