-- ==== Sys2Proof/Proofs/Quantisation.lean ====
section
/-! PROOFS. QT.SCALE, QT.DEQ and QT.QUANT: the numbers of an entry, what a slot of QT, BLK and ZZ read after a
table or a block is stored, and the checks before any write (43_quant.md R250 to R256). -/

namespace Sys2Proof.Machine

open Sys2Proof

/-! ## The numbers of an entry (R252, R255) -/

theorem scaleEntry_eq_qualityEntry (base q : Nat) : scaleEntry base (scaleFactor q) = qualityEntry base q := by
  simp only [scaleEntry, scaleFactor, qualityEntry]
  generalize (base * _ + 50) / 100 = v
  split_ifs <;> omega

theorem qualityEntry_le (base q : Nat) : qualityEntry base q ≤ 255 := by
  rw [← scaleEntry_eq_qualityEntry, scaleEntry]
  omega

theorem divRound_eq_roundedQuotient (a : Int) (d : Nat) : divRound a d = roundedQuotient a d := by
  by_cases ha : 0 ≤ a
  · rw [divRound, roundedQuotient, if_pos ha, if_pos ha, Int.natCast_ediv, Nat.cast_add, Int.toNat_of_nonneg ha]
  · rw [divRound, roundedQuotient, if_neg ha, if_neg ha, Int.natCast_ediv, Nat.cast_add,
      Int.toNat_of_nonneg (by omega)]

theorem rounded_ediv_le {n : Int} {d : Nat} (hn : 0 ≤ n) (hd : 0 < d) : (n + (d / 2 : Nat)) / d ≤ n := by
  have hmul : n * 1 ≤ n * d := Int.mul_le_mul_of_nonneg_left (by omega) hn
  refine Int.lt_add_one_iff.mp (Int.ediv_lt_of_lt_mul (by omega) ?_)
  rw [Int.add_mul]
  omega

/-- The quotient lies between 0 and the dividend, so that ZZ holds it whole (R255). -/
theorem toInt_word_divRound (a : Word) {d : Nat} (hd : 0 < d) :
    (word (divRound a.toInt d)).toInt = roundedQuotient a.toInt d := by
  have hlo := BitVec.le_toInt a
  have hhi := BitVec.toInt_lt (x := a)
  have hbetween : min 0 a.toInt ≤ roundedQuotient a.toInt d ∧ roundedQuotient a.toInt d ≤ max 0 a.toInt := by
    rw [roundedQuotient]
    split_ifs with ha
    · have hnonneg : 0 ≤ (a.toInt + (d / 2 : Nat)) / d := Int.ediv_nonneg (by omega) (by omega)
      have hle := rounded_ediv_le ha hd
      omega
    · have hnonneg : 0 ≤ (-a.toInt + (d / 2 : Nat)) / d := Int.ediv_nonneg (by omega) (by omega)
      have hle := rounded_ediv_le (n := -a.toInt) (by omega) hd
      omega
  rw [divRound_eq_roundedQuotient]
  exact BitVec.toInt_ofInt_eq_self (by decide) (by omega) (by omega)

/-! ## Tables and blocks stored (R252, R254, R256) -/

section
variable (s : State) {b : List Word} {i k q : Nat}

theorem getD_map_range {α : Type} (f : Nat → α) {n k : Nat} (v : α) (hk : k < n) :
    ((List.range n).map f).getD k v = f k := by
  simp [hk]

theorem get_setZz (hb : b.length = 64) :
    Cells.get (s.setZz b).mem.zz i = if i < 64 then entry b i else Cells.get s.mem.zz i := by
  rw [State.setZz_mem, Cells.get_setRange, hb]
  simp [entry]

theorem get_putQt {vs : List (BitVec 16)} (hvs : vs.length = 64) :
    Cells.get (s.putQt q vs).mem.qt i =
      if 64 * q ≤ i ∧ i < 64 * q + 64 then vs.getD (i - 64 * q) 0 else Cells.get s.mem.qt i := by
  rw [State.putQt_mem, Cells.get_setRange, hvs]

/-- Slots 0 and 1 written. -/
theorem get_putQt_zero_one {us vs : List (BitVec 16)} (hus : us.length = 64) (hvs : vs.length = 64) :
    Cells.get ((s.putQt 0 us).putQt 1 vs).mem.qt i =
      if i < 64 then us.getD i 0 else if i < 128 then vs.getD (i - 64) 0 else Cells.get s.mem.qt i := by
  rw [get_putQt _ hvs, get_putQt _ hus]
  by_cases hfirst : i < 64
  · rw [if_neg (by omega), if_pos (by omega), if_pos hfirst, Nat.mul_zero, Nat.sub_zero]
  · rw [if_neg hfirst]
    by_cases hsecond : i < 128
    · rw [if_pos (by omega), if_pos hsecond, Nat.mul_one]
    · rw [if_neg (by omega), if_neg (by omega), if_neg hsecond]

@[simp] theorem length_scaledTable (base : List Nat) (q : Nat) : (scaledTable base q).length = 64 := by
  simp [scaledTable]

theorem toNat_scaledTable (base : List Nat) (q : Nat) (hk : k < 64) :
    ((scaledTable base q).getD k 0).toNat = qualityEntry (base.getD (unzig k) 0) q := by
  rw [scaledTable, getD_map_range _ _ hk, scaleEntry_eq_qualityEntry, BitVec.toNat_ofNat]
  exact Nat.mod_eq_of_lt ((qualityEntry_le ..).trans_lt (by decide))

@[simp] theorem length_dequantList : (s.dequantList q).length = 64 := by simp [State.dequantList]

@[simp] theorem length_quantList : (s.quantList q).length = 64 := by simp [State.quantList]

theorem unzig_lt : ∀ k : Nat, k < 64 → unzig k < 64 := by decide

/-- UNZIG is a permutation (30_encoding.md R150). -/
theorem zigOf_unzig : ∀ k : Nat, k < 64 → zigOf (unzig k) = k := by decide

theorem entry_dequantList_unzig (hk : k < 64) :
    entry (s.dequantList q) (unzig k) =
      Cells.get s.mem.zz k * (Cells.get s.mem.qt (64 * q + k)).setWidth 32 := by
  rw [entry, State.dequantList, getD_map_range _ _ (unzig_lt k hk), zigOf_unzig k hk, State.zzAt, State.qtEntry]

theorem toInt_entry_quantList (hk : k < 64) (hne : Cells.get s.mem.qt (64 * q + k) ≠ 0) :
    (entry (s.quantList q) k).toInt =
      roundedQuotient (Cells.get s.mem.blk (unzig k)).toInt (8 * (Cells.get s.mem.qt (64 * q + k)).toNat) := by
  have hpos : 0 < (Cells.get s.mem.qt (64 * q + k)).toNat :=
    Nat.pos_of_ne_zero fun h => hne (BitVec.eq_of_toNat_eq h)
  rw [entry, State.quantList, getD_map_range _ _ hk, State.qtEntry,
    toInt_word_divRound _ (Nat.mul_pos (by decide) hpos)]

/-! ## The check of QT.QUANT (R256) -/

theorem zeroEntry_eq_none (h : ∀ k : Nat, k < 64 → Cells.get s.mem.qt (64 * q + k) ≠ 0) : s.zeroEntry q = none := by
  simpa [State.zeroEntry, State.qtEntry] using h

theorem zeroEntry_eq_some (hk : k < 64) (hzero : Cells.get s.mem.qt (64 * q + k) = 0)
    (hlow : ∀ j : Nat, j < k → Cells.get s.mem.qt (64 * q + j) ≠ 0) : s.zeroEntry q = some k := by
  rw [State.zeroEntry, List.find?_range_eq_some]
  exact ⟨beq_iff_eq.mpr hzero, List.mem_range.mpr hk, fun j hj => by simpa [State.qtEntry] using hlow j hj⟩

end

/-! ## The commands -/

section
variable (s : State)

theorem exec_qtScale :
    exec .qtScale s =
      if s.arg0.toNat < 1 ∨ s.arg0.toNat > 100 then .next (enterFault 0x40 ⟨.badArgument, s.arg0⟩ s)
      else .next ((s.putQt 0 (scaledTable baseLum s.arg0.toNat)).putQt 1
        (scaledTable baseChr s.arg0.toNat)).complete := by
  rw [exec, execQtScale, runCmd_look, scaleTables, runCmd_check, wordN_arg0]
  rfl

theorem exec_qtQuant (q : BitVec 2) :
    exec (.qtQuant q) s =
      if s.zeroEntry q.toNat ≠ none then
        .next (enterFault 0x42 ⟨.badArgument, wordN ((s.zeroEntry q.toNat).getD 0)⟩ s)
      else .next (s.setZz (s.quantList q.toNat)).complete := by
  rw [exec, execQtQuant, quant, runCmd_look, runCmd_check]
  rfl

/-- Both slots written: everything but QT as R252 leaves it. -/
theorem putQt_zero_one_complete (us vs : List (BitVec 16)) :
    ((s.putQt 0 us).putQt 1 vs).complete =
      { s with
        qtValid := s.qtValid ||| 3, mem := { s.mem with qt := ((s.putQt 0 us).putQt 1 vs).mem.qt }
        status := { s.status with done := true } } := by
  have hvalid : s.qtValid ||| 1#4 <<< 0 ||| 1#4 <<< 1 = s.qtValid ||| 3 := BitVec.or_assoc ..
  rw [← hvalid]
  rfl

end

/-- Settles O31: each command is its check, then the store of a list of 64 entries to each table or block. -/
theorem scaleAndQuantise : Obligations.ScaleAndQuantise := by
  unfold Obligations.ScaleAndQuantise
  refine ⟨fun s => ⟨fun hbad => ?_, fun hlo hhi => ?_⟩, fun q s => ⟨fun hne => ?_, fun k hk hzero hlow => ?_⟩⟩
  · rw [exec_qtScale, if_pos hbad]
  · rw [exec_qtScale, if_neg (by omega)]
    have hread (i : Nat) := get_putQt_zero_one s (i := i) (length_scaledTable baseLum s.arg0.toNat)
      (length_scaledTable baseChr s.arg0.toNat)
    refine ⟨_, rfl, putQt_zero_one_complete .., fun k hk => ⟨?_, ?_⟩, fun i hi => ?_⟩
    · rw [State.complete_mem, hread, if_pos hk, toNat_scaledTable _ _ hk]
    · rw [State.complete_mem, hread, if_neg (by omega), if_pos (by omega), Nat.add_sub_cancel_left,
        toNat_scaledTable _ _ hk]
    · rw [State.complete_mem, hread, if_neg (by omega), if_neg (by omega)]
  · rw [exec_qtQuant, if_neg (not_not.mpr (zeroEntry_eq_none s hne))]
    have hread (i : Nat) := get_setZz s (i := i) (length_quantList s (q := q.toNat))
    refine ⟨_, rfl, rfl, fun k hk => ?_, fun i hi => ?_⟩
    · rw [State.complete_mem, hread, if_pos hk, toInt_entry_quantList s hk (hne k hk)]
    · rw [State.complete_mem, hread, if_neg (by omega)]
  · have hfirst := zeroEntry_eq_some s hk hzero hlow
    rw [exec_qtQuant, if_pos (by rw [hfirst]; exact Option.some_ne_none k), hfirst, Option.getD_some]

/-- Settles O32: the command stores `dequantList`, entry `UNZIG[k]` of which is the `k`-th product. -/
theorem dequantise : Obligations.Dequantise := by
  unfold Obligations.Dequantise
  refine ⟨by decide, fun q s => ?_⟩
  obtain ⟨t, ht, hframe, hblk⟩ := runCmd_setBlk s 0x41 (·.dequantList q.toNat)
  refine ⟨t, ht, hframe, fun k hk => ?_, fun i hi => ?_⟩
  · rw [hblk, get_setBlk s (length_dequantList s), if_pos (unzig_lt k hk), entry_dequantList_unzig s hk]
  · rw [hblk, get_setBlk s (length_dequantList s), if_neg (by omega)]

end Sys2Proof.Machine
end
